-- ==== Sys2Proof/Word.lean ====
section
/-! DEFINITION. Word.lean: the words of the part (00_scope.md 0-7), the names of its channels, ports and
inputs, and the three fixed-size tables (one value per channel, per port, per input) the state is made of. -/

namespace Sys2Proof

/-- One byte of a frame. -/
abbrev Byte := BitVec 8

/-- A raw count, origin count, anchor or nominal: 48 bits, two's complement (0-7-2). -/
abbrev Count := BitVec 48

/-- A value of the time base: 48 bits, unsigned, wrapping (0-7-2, R98). -/
abbrev Time := BitVec 48

/-- A statistics total: 32 bits, wrapping (R25, R100, R149). -/
abbrev Total := BitVec 32

/-- A channel mask: bit n is CHn (R189). -/
abbrev ChanMask := BitVec 6

/-- The six channels and channel links (0-7-3). -/
inductive Chan where
  | ch0 | ch1 | ch2 | ch3 | ch4 | ch5
  deriving DecidableEq, Repr

/-- The three client ports (0-7-3). -/
inductive Port where
  | p0 | p1 | p2
  deriving DecidableEq, Repr

/-- The three trigger inputs, numbered 0, 1, 2 in this order (5-1). -/
inductive Input where
  | det | aux0 | aux1
  deriving DecidableEq, Repr

/-- The number of a channel, 0 to 5. -/
def Chan.num : Chan → Nat
  | .ch0 => 0 | .ch1 => 1 | .ch2 => 2 | .ch3 => 3 | .ch4 => 4 | .ch5 => 5

/-- The channels in channel order. -/
def Chan.all : List Chan := [.ch0, .ch1, .ch2, .ch3, .ch4, .ch5]

/-- The channel of a number; none above 5. -/
def Chan.ofNum (n : Nat) : Option Chan := Chan.all[n]?

/-- CH0 and CH1 feed the line axis L and the yaw difference D (0-7-4). -/
def Chan.feedsLine : Chan → Bool
  | .ch0 => true | .ch1 => true | _ => false

/-- The number of a port, 0 to 2. -/
def Port.num : Port → Nat
  | .p0 => 0 | .p1 => 1 | .p2 => 2

/-- The ports in the order P0, P1, P2. -/
def Port.all : List Port := [.p0, .p1, .p2]

/-- The number of a trigger input: 0 for DET, 1 for AUX0, 2 for AUX1 (5-1). -/
def Input.num : Input → Nat
  | .det => 0 | .aux0 => 1 | .aux1 => 2

/-- The inputs in the order DET, AUX0, AUX1. -/
def Input.all : List Input := [.det, .aux0, .aux1]

/-- The input of a number; none above 2. -/
def Input.ofNum (n : Nat) : Option Input := Input.all[n]?

/-- Is CHn in the mask? -/
def maskHas (m : ChanMask) (c : Chan) : Bool := m.getLsbD c.num

/-- The channels of a mask, in channel order. -/
def maskChans (m : ChanMask) : List Chan := Chan.all.filter (maskHas m)

/-- The mask of a list of channels. -/
def maskOf (cs : List Chan) : ChanMask := cs.foldl (fun m c => m ||| BitVec.twoPow 6 c.num) 0

/-- One value for each channel. -/
structure PerChan (α : Type) where
  ch0 : α
  ch1 : α
  ch2 : α
  ch3 : α
  ch4 : α
  ch5 : α
  deriving DecidableEq, Repr

/-- One value for each port. -/
structure PerPort (α : Type) where
  p0 : α
  p1 : α
  p2 : α
  deriving DecidableEq, Repr

/-- One value for each trigger input. -/
structure PerInput (α : Type) where
  det : α
  aux0 : α
  aux1 : α
  deriving DecidableEq, Repr

namespace PerChan
variable {α β : Type}

/-- The value of one channel. -/
def get (v : PerChan α) : Chan → α
  | .ch0 => v.ch0 | .ch1 => v.ch1 | .ch2 => v.ch2 | .ch3 => v.ch3 | .ch4 => v.ch4 | .ch5 => v.ch5

/-- The table with one channel's value replaced. -/
def set (v : PerChan α) (c : Chan) (a : α) : PerChan α :=
  match c with
  | .ch0 => { v with ch0 := a }
  | .ch1 => { v with ch1 := a }
  | .ch2 => { v with ch2 := a }
  | .ch3 => { v with ch3 := a }
  | .ch4 => { v with ch4 := a }
  | .ch5 => { v with ch5 := a }

/-- The table whose value at each channel is f of that channel. -/
def ofFn (f : Chan → α) : PerChan α := ⟨f .ch0, f .ch1, f .ch2, f .ch3, f .ch4, f .ch5⟩

/-- The same value at every channel. -/
def const (a : α) : PerChan α := ⟨a, a, a, a, a, a⟩

/-- One channel's value changed by f. -/
def modify (v : PerChan α) (c : Chan) (f : α → α) : PerChan α := v.set c (f (v.get c))

end PerChan

namespace PerPort
variable {α β : Type}

/-- The value of one port. -/
def get (v : PerPort α) : Port → α
  | .p0 => v.p0 | .p1 => v.p1 | .p2 => v.p2

/-- The table with one port's value replaced. -/
def set (v : PerPort α) (p : Port) (a : α) : PerPort α :=
  match p with
  | .p0 => { v with p0 := a }
  | .p1 => { v with p1 := a }
  | .p2 => { v with p2 := a }

/-- The table whose value at each port is f of that port. -/
def ofFn (f : Port → α) : PerPort α := ⟨f .p0, f .p1, f .p2⟩

/-- The same value at every port. -/
def const (a : α) : PerPort α := ⟨a, a, a⟩

/-- One port's value changed by f. -/
def modify (v : PerPort α) (p : Port) (f : α → α) : PerPort α := v.set p (f (v.get p))

end PerPort

namespace PerInput
variable {α β : Type}

/-- The value of one input. -/
def get (v : PerInput α) : Input → α
  | .det => v.det | .aux0 => v.aux0 | .aux1 => v.aux1

/-- The table with one input's value replaced. -/
def set (v : PerInput α) (i : Input) (a : α) : PerInput α :=
  match i with
  | .det => { v with det := a }
  | .aux0 => { v with aux0 := a }
  | .aux1 => { v with aux1 := a }

/-- The table whose value at each input is f of that input. -/
def ofFn (f : Input → α) : PerInput α := ⟨f .det, f .aux0, f .aux1⟩

/-- The same value at every input. -/
def const (a : α) : PerInput α := ⟨a, a, a⟩

/-- One input's value changed by f. -/
def modify (v : PerInput α) (i : Input) (f : α → α) : PerInput α := v.set i (f (v.get i))

end PerInput

end Sys2Proof
end

