-- ==== Sys2Proof/Syntax.lean ====
section
/-! DEFINITION. Syntax.lean: the commands of the part, one constructor for each row of spec/opcode_table.json. -/

namespace Sys2Proof

/-- The polarity of a transition of an input pin, and of the edge an input selects (R79). -/
inductive Edge where
  | rising | falling
  deriving DecidableEq, Repr

/-- Which part of a request's life one command carries (assumption 4). R180 makes a good frame at an IDLE port
the request in progress, R181 takes it, and other events may come between the two.
`whole`: arrival, taking and answer in one step. `arrival`: the frame arrives and waits as the request in
progress, its port PERFORMING. `taking`: the waiting request is taken and answered. -/
inductive Stage where
  | whole | arrival | taking
  deriving DecidableEq, Repr

/-- A good request frame at a port: the port, the tag and the payload bytes (10-1); the request code is the
constructor's. -/
structure Req where
  port : Port
  tag : Byte
  payload : List Byte
  stage : Stage
  deriving DecidableEq, Repr

/-- The commands. The rows up to `responseReadOut` are the events of the channel links, pins, timers and ports;
the rows that carry a `Req` are the requests of 10-7; the rows after `portReset` are the later steps of a port
reset (R185) and the two immediate answers (R180). -/
inductive Instr where
  | sampleFrame (c : Chan) (bytes : List Byte)
  | edge (i : Input) (e : Edge)
  | holdOffExpiry (i : Input)
  | stillnessExpiry (c : Chan)
  | pinHoldExpiry (c : Chan) (p : Port)
  | completionEnd
  | syncPulseEnd
  | deviceReset
  | endOfStartUp
  | badFrame (p : Port) (bytes : List Byte)
  | badRequest (code : Byte) (r : Req)
  | responseReadOut (p : Port)
  | readChannel (r : Req)
  | configureChannel (r : Req)
  | enableChannel (r : Req)
  | disableChannel (r : Req)
  | recoverChannel (r : Req)
  | readStillness (r : Req)
  | setCompensation (r : Req)
  | pinCompensation (r : Req)
  | unpinCompensation (r : Req)
  | readCompensation (r : Req)
  | setOrigin (r : Req)
  | clearOrigin (r : Req)
  | readPosition (r : Req)
  | readCounters (r : Req)
  | configureInput (r : Req)
  | captureNow (r : Req)
  | armSettle (r : Req)
  | cancelSettle (r : Req)
  | readCaptureStatus (r : Req)
  | startRing (r : Req)
  | stopRing (r : Req)
  | clearRing (r : Req)
  | setRingPolicy (r : Req)
  | setSubscription (r : Req)
  | takeRecords (r : Req)
  | peekRecords (r : Req)
  | readRingStatus (r : Req)
  | claimSequencer (r : Req)
  | releaseSequencer (r : Req)
  | forceRelease (r : Req)
  | loadLines (r : Req)
  | clearLines (r : Req)
  | startScan (r : Req)
  | stopScan (r : Req)
  | readSequencer (r : Req)
  | addPoint (r : Req)
  | removePoint (r : Req)
  | clearPoints (r : Req)
  | readPoints (r : Req)
  | readNotices (r : Req)
  | ackNotices (r : Req)
  | setNoticeEnable (r : Req)
  | readFaultDetail (r : Req)
  | identify (r : Req)
  | portReset (r : Req)
  | portResetSequencerStep (p : Port)
  | portResetCompensationStep (p : Port)
  | portResetCompareStep (p : Port)
  | portResetContextStep (p : Port)
  | peerReset (p : Port)
  | busyAnswer (p : Port) (tag code : Byte) (payload : List Byte)
  | startingAnswer (p : Port) (tag code : Byte) (payload : List Byte)
  deriving DecidableEq, Repr

end Sys2Proof
end

