-- ==== Sys2Proof/Machine/Frame.lean ====
section
/-! DEFINITION. Machine/Frame.lean: bytes and frames (Chapter 11, R2, R179, R189, R190): byte order, the two CRCs,
the sample frame, the request and response frames, the status codes and the request codes. -/

namespace Sys2Proof.Machine

/-! ## Byte order (R189) -/

/-- The number that bytes spell, least significant byte first. -/
def leNat : List Byte → Nat
  | [] => 0
  | b :: bs => b.toNat + 256 * leNat bs

/-- The w bytes of a number modulo 2^(8w), least significant byte first. -/
def leBytes : Nat → Nat → List Byte
  | 0, _ => []
  | w + 1, n => BitVec.ofNat 8 n :: leBytes w (n / 256)

/-- The w bytes of an integer in two's complement, least significant byte first. -/
def leInt (w : Nat) (v : Int) : List Byte := leBytes w (v % (2 ^ (8 * w) : Nat)).toNat

/-! ## CRC-8 of a sample frame (R2) -/

/-- One bit of the CRC-8 with the polynomial x^8+x^2+x+1, most significant bit first. -/
def crc8Bit (c : BitVec 8) : BitVec 8 := if c.msb then (c <<< 1) ^^^ 0x07#8 else c <<< 1

/-- One byte of the CRC-8. -/
def crc8Byte (c : BitVec 8) (b : Byte) : BitVec 8 :=
  crc8Bit (crc8Bit (crc8Bit (crc8Bit (crc8Bit (crc8Bit (crc8Bit (crc8Bit (c ^^^ b))))))))

/-- The CRC-8 with initial value 00h and no final inversion. -/
def crc8 (bs : List Byte) : BitVec 8 := bs.foldl crc8Byte 0

/-- The fields of a good sample frame (11-2). -/
structure Sample where
  seq : Byte
  phase : BitVec 10
  sat : Bool
  nrdy : Bool
  level : Byte
  deriving DecidableEq, Repr

/-- The sample frame that bytes carry; none for a bad frame, one of another length than 5 bytes or with a wrong
CRC-8 (R2, R189). Bits 3 to 0 of byte 2 are covered by the CRC and otherwise ignored. -/
def sampleOf (bytes : List Byte) : Option Sample :=
  match bytes with
  | [b0, b1, b2, b3, b4] =>
    if crc8 [b0, b1, b2, b3] = b4 then
      some { seq := b0, phase := b1 ++ b2.extractLsb' 6 2, sat := b2.getLsbD 5, nrdy := b2.getLsbD 4, level := b3 }
    else none
  | _ => none

/-! ## CRC-16 of a port's frame (R179) -/

/-- One bit of the CRC-16 with the polynomial x^16+x^12+x^5+1, most significant bit first. -/
def crc16Bit (c : BitVec 16) : BitVec 16 := if c.msb then (c <<< 1) ^^^ 0x1021#16 else c <<< 1

/-- One byte of the CRC-16. -/
def crc16Byte (c : BitVec 16) (b : Byte) : BitVec 16 :=
  crc16Bit (crc16Bit (crc16Bit (crc16Bit (crc16Bit (crc16Bit (crc16Bit (crc16Bit
    (c ^^^ (b ++ (0 : BitVec 8))))))))))

/-- The CRC-16 with initial value FFFFh and no final inversion. -/
def crc16 (bs : List Byte) : BitVec 16 := bs.foldl crc16Byte 0xFFFF#16

/-- The CRC-16 of the bytes as a frame carries it, high byte first (R189, R190). -/
def crc16Bytes (bs : List Byte) : List Byte :=
  [(crc16 bs).extractLsb' 8 8, (crc16 bs).extractLsb' 0 8]

/-! ## Request and response frames (R179, R190) -/

/-- What a good request frame holds: the request in progress of a port (10-1). -/
structure Request where
  tag : Byte
  code : Byte
  payload : List Byte
  deriving DecidableEq, Repr

/-- The longest payload of a frame (R190). -/
def payloadRoom : Nat := 4095

/-- The frame check of R179: the request of a good frame; none for a bad one. Bad are: fewer bytes than the header
holds, a payload length above 4095, another number of payload bytes than the length says, a wrong CRC-16. -/
def requestOf (bytes : List Byte) : Option Request :=
  match bytes with
  | tag :: code :: l0 :: l1 :: rest =>
    if leNat [l0, l1] ≤ payloadRoom ∧ rest.length = leNat [l0, l1] + 2 ∧
        rest.drop (leNat [l0, l1]) = crc16Bytes (tag :: code :: l0 :: l1 :: rest.take (leNat [l0, l1])) then
      some ⟨tag, code, rest.take (leNat [l0, l1])⟩
    else none
  | _ => none

/-- The bytes of a frame before its CRC: tag, request code or status, payload length, payload (R190). -/
def frameBody (tag second : Byte) (payload : List Byte) : List Byte :=
  tag :: second :: (leBytes 2 payload.length ++ payload)

/-- The bytes of a request or response frame (R190). -/
def frameBytes (tag second : Byte) (payload : List Byte) : List Byte :=
  frameBody tag second payload ++ crc16Bytes (frameBody tag second payload)

/-- The tag of the answer to a bad frame: the first byte received, or 0 if none was (R179). -/
def badFrameTag (bytes : List Byte) : Byte := bytes.headD 0

/-- The status values of 10-3. -/
inductive Status where
  | done | badFrame | starting | busy | badRequest | badValue | state | notOwner | notClaimant | claimed | full
  | portLimit | notTracking | staleOrigin | scanActive | uncompensated | listOrder | position
  deriving DecidableEq, Repr

/-- The code of a status in a response frame (R190, second table). -/
def Status.code : Status → Byte
  | .done => 0x00 | .badFrame => 0x01 | .starting => 0x02 | .busy => 0x03 | .badRequest => 0x04 | .badValue => 0x05
  | .state => 0x06 | .notOwner => 0x07 | .notClaimant => 0x08 | .claimed => 0x09 | .full => 0x0A
  | .portLimit => 0x0B | .notTracking => 0x0C | .staleOrigin => 0x0D | .scanActive => 0x0E
  | .uncompensated => 0x0F | .listOrder => 0x10 | .position => 0x11

/-- A response frame: the tag of the request it answers, a status and a payload (10-1). -/
structure Response where
  tag : Byte
  status : Status
  payload : List Byte
  deriving DecidableEq, Repr

/-- The bytes of a response frame as the link sends them (R190). -/
def Response.bytes (r : Response) : List Byte := frameBytes r.tag r.status.code r.payload

/-- The requests of 10-7. -/
inductive RequestKind where
  | readChannel | configureChannel | enableChannel | disableChannel | recoverChannel
  | readStillness
  | setCompensation | pinCompensation | unpinCompensation | readCompensation
  | setOrigin | clearOrigin | readPosition | readCounters
  | configureInput | captureNow | armSettle | cancelSettle | readCaptureStatus
  | startRing | stopRing | clearRing | setRingPolicy | setSubscription | takeRecords | peekRecords | readRingStatus
  | claimSequencer | releaseSequencer | forceRelease | loadLines | clearLines | startScan | stopScan | readSequencer
  | addPoint | removePoint | clearPoints | readPoints
  | readNotices | ackNotices | setNoticeEnable | readFaultDetail
  | identify | portReset
  deriving DecidableEq, Repr

/-- The request code of each request (R190, third table). -/
def RequestKind.code : RequestKind → Byte
  | .readChannel => 0x10 | .configureChannel => 0x11 | .enableChannel => 0x12 | .disableChannel => 0x13
  | .recoverChannel => 0x14
  | .readStillness => 0x18
  | .setCompensation => 0x20 | .pinCompensation => 0x21 | .unpinCompensation => 0x22 | .readCompensation => 0x23
  | .setOrigin => 0x28 | .clearOrigin => 0x29 | .readPosition => 0x2A | .readCounters => 0x2B
  | .configureInput => 0x30 | .captureNow => 0x31 | .armSettle => 0x32 | .cancelSettle => 0x33
  | .readCaptureStatus => 0x34
  | .startRing => 0x38 | .stopRing => 0x39 | .clearRing => 0x3A | .setRingPolicy => 0x3B | .setSubscription => 0x3C
  | .takeRecords => 0x3D | .peekRecords => 0x3E | .readRingStatus => 0x3F
  | .claimSequencer => 0x40 | .releaseSequencer => 0x41 | .forceRelease => 0x42 | .loadLines => 0x43
  | .clearLines => 0x44 | .startScan => 0x45 | .stopScan => 0x46 | .readSequencer => 0x47
  | .addPoint => 0x50 | .removePoint => 0x51 | .clearPoints => 0x52 | .readPoints => 0x53
  | .readNotices => 0x58 | .ackNotices => 0x59 | .setNoticeEnable => 0x5A | .readFaultDetail => 0x5B
  | .identify => 0x60 | .portReset => 0x61

/-- Every request, in the order of the request codes. -/
def RequestKind.all : List RequestKind :=
  [.readChannel, .configureChannel, .enableChannel, .disableChannel, .recoverChannel, .readStillness,
   .setCompensation, .pinCompensation, .unpinCompensation, .readCompensation,
   .setOrigin, .clearOrigin, .readPosition, .readCounters,
   .configureInput, .captureNow, .armSettle, .cancelSettle, .readCaptureStatus] ++
  [.startRing, .stopRing, .clearRing, .setRingPolicy, .setSubscription, .takeRecords, .peekRecords, .readRingStatus,
   .claimSequencer, .releaseSequencer, .forceRelease, .loadLines, .clearLines, .startScan, .stopScan, .readSequencer,
   .addPoint, .removePoint, .clearPoints, .readPoints,
   .readNotices, .ackNotices, .setNoticeEnable, .readFaultDetail, .identify, .portReset]

/-- The request a code names; none where the code names no request (R181, R190). -/
def RequestKind.ofCode (b : Byte) : Option RequestKind := RequestKind.all.find? (fun k => k.code == b)

/-- The command that carries a request. -/
def RequestKind.command (k : RequestKind) (r : Req) : Instr :=
  match k with
  | .readChannel => .readChannel r | .configureChannel => .configureChannel r | .enableChannel => .enableChannel r
  | .disableChannel => .disableChannel r | .recoverChannel => .recoverChannel r
  | .readStillness => .readStillness r
  | .setCompensation => .setCompensation r | .pinCompensation => .pinCompensation r
  | .unpinCompensation => .unpinCompensation r | .readCompensation => .readCompensation r
  | .setOrigin => .setOrigin r | .clearOrigin => .clearOrigin r | .readPosition => .readPosition r
  | .readCounters => .readCounters r
  | .configureInput => .configureInput r | .captureNow => .captureNow r | .armSettle => .armSettle r
  | .cancelSettle => .cancelSettle r | .readCaptureStatus => .readCaptureStatus r
  | .startRing => .startRing r | .stopRing => .stopRing r | .clearRing => .clearRing r
  | .setRingPolicy => .setRingPolicy r | .setSubscription => .setSubscription r | .takeRecords => .takeRecords r
  | .peekRecords => .peekRecords r | .readRingStatus => .readRingStatus r
  | .claimSequencer => .claimSequencer r | .releaseSequencer => .releaseSequencer r
  | .forceRelease => .forceRelease r | .loadLines => .loadLines r | .clearLines => .clearLines r
  | .startScan => .startScan r | .stopScan => .stopScan r | .readSequencer => .readSequencer r
  | .addPoint => .addPoint r | .removePoint => .removePoint r | .clearPoints => .clearPoints r
  | .readPoints => .readPoints r
  | .readNotices => .readNotices r | .ackNotices => .ackNotices r | .setNoticeEnable => .setNoticeEnable r
  | .readFaultDetail => .readFaultDetail r
  | .identify => .identify r | .portReset => .portReset r

end Sys2Proof.Machine
end

