-- ==== Sys2Proof/Decode.lean ====
section
/-! DEFINITION. Decode.lean: no row of spec/opcode_table.json gives bits, so no word spells a command. What the
part does decode is the request frame: its bytes spell the command that its arrival is. -/

namespace Sys2Proof

open Sys2Proof.Machine

/-- The command that a word spells by the table's bits: the table gives no row bits (95_what_each_step_holds.md
and opcode_table.json), so none. -/
def decodeTableWord (_nbits _w : Nat) : Option Instr := none

/-- The command that the arrival of these bytes on a port's link is: a bad frame (R179), a request of 10-7 by its
code, or a code that names no request (R181, R190). -/
def decodeFrame (p : Port) (bytes : List Byte) : Instr :=
  match requestOf bytes with
  | none => .badFrame p bytes
  | some q =>
    match RequestKind.ofCode q.code with
    | some k => k.command ⟨p, q.tag, q.payload, .whole⟩
    | none => .badRequest q.code ⟨p, q.tag, q.payload, .whole⟩

/-- The frame a controller sends for a request (R190). -/
def encodeRequest (k : RequestKind) (r : Req) : List Byte := frameBytes r.tag k.code r.payload

end Sys2Proof
end

