-- ==== Sys2Proof/Config.lean ====
section
/-! DEFINITION. Config.lean: the constants of the silicon and the one value the manual leaves open. -/

namespace Sys2Proof

/-- The part code that IDENTIFY returns (R188). -/
def Config.partCode : Nat := 0x0FC6

/-- The silicon revision that IDENTIFY returns (R188). -/
def Config.siliconRevision : Nat := 1

/-- REFCLK periods of one unit of a settle interval: 10 µs (R30). -/
def Config.settleUnit : Nat := 1000

/-- REFCLK periods of one unit of a pin's hold time: 10 ms (R56). -/
def Config.holdUnit : Nat := 1000000

/-- REFCLK periods of a SYNC pulse after its last firing: 1 µs (R97). -/
def Config.syncPeriods : Nat := 100

/-- The longest completion in REFCLK periods: 2 µs (R90). -/
def Config.completionPeriods : Nat := 200

/-- The longest start-up in REFCLK periods: 100 µs (R184). -/
def Config.startUpPeriods : Nat := 10000

/-- The most entries of the trigger queue (R89). -/
def Config.queueRoom : Nat := 4

/-- The most records of a capture ring (R103). -/
def Config.ringRoom : Nat := 64

/-- The most entries of the line list (R129). -/
def Config.lineRoom : Nat := 512

/-- The most points of the compare table (R152). -/
def Config.pointRoom : Nat := 32

/-- The most points one port may own (R152). -/
def Config.portPointRoom : Nat := 16

/-- The list length at which a port's link stops accepting the start of a new frame (R178). -/
def Config.linkRoom : Nat := 8

/-- FREE VALUE (assumption 2). The manual leaves open in which order the compare table and the line sequencer
act on one update (R83, R156: either order). The n-th such meeting has the sequencer act before the points of
the slots from this value on, and after those below it: 0 is the sequencer first, 32 or more the table first. -/
opaque Config.sequencerTurn : Nat → Nat

end Sys2Proof
end

