-- ==== Sys2Proof/Machine/State.lean ====
section
/-! DEFINITION. Machine/State.lean: everything the manual gives the part to hold, as plain data, and the part
right after device reset. Each type names the section that lists its items. -/

namespace Sys2Proof.Machine

/-! ## Channel units (1-1) and stillness timers (2-1) -/

/-- The channel states of 1-4 to 1-6. -/
inductive ChanState where
  | disabled | acquiring | tracking | lost
  deriving DecidableEq, Repr

/-- The form of the next acquisition: RESTART, or CONTINUE (`resume`). -/
inductive RecoveryMode where
  | restart | resume
  deriving DecidableEq, Repr

/-- The last loss cause: NONE, LEVEL, SKIP, GAP. -/
inductive LossCause where
  | none | level | skip | gap
  deriving DecidableEq, Repr

/-- The acquisition outcome (R17). -/
inductive AcqOutcome where
  | none | restarted | continued | continuityRefused
  deriving DecidableEq, Repr

/-- The count sense (R20). -/
inductive CountSense where
  | normal | inverted
  deriving DecidableEq, Repr

/-- The seven configuration fields of a channel (R20). -/
structure ChanConfig where
  acquire : BitVec 8
  loss : BitVec 8
  qualify : BitVec 16
  stepLimit : BitVec 16
  stillBand : BitVec 16
  settle : BitVec 16
  sense : CountSense
  deriving DecidableEq, Repr

/-- One channel unit (1-1). The raw count is valid exactly in TRACKING (R1). -/
structure ChannelUnit where
  state : ChanState
  raw : Count
  epoch : BitVec 16
  lastPhase : BitVec 10
  lastLevel : Byte
  lastTime : Time
  expected : Option Byte
  run : Nat
  recovery : RecoveryMode
  frozenCount : Count
  frozenPhase : BitVec 10
  mark : Bool
  lastCause : LossCause
  outcome : AcqOutcome
  config : ChanConfig
  deriving DecidableEq, Repr

/-- The stillness states (2-1). -/
inductive StillState where
  | none | moving | settled
  deriving DecidableEq, Repr

/-- One stillness timer (2-1). `timer` is none while it is stopped and the settle interval it was loaded with
while it runs (R30). -/
structure StillTimer where
  state : StillState
  anchor : Count
  timer : Option (BitVec 16)
  loadTime : Time
  settledTime : Option Time
  deriving DecidableEq, Repr

/-! ## Compensation store (3-1) -/

/-- One port's pin on a channel (R51); a TIMED pin with the time it was added or last renewed and its hold time. -/
inductive Pin where
  | none
  | timed (start : Time) (hold : BitVec 16)
  | run
  deriving DecidableEq, Repr

/-- The value waiting in a pending slot (R49). -/
structure PendingComp where
  weight : BitVec 32
  offset : BitVec 32
  writer : Port
  deriving DecidableEq, Repr

/-- One compensation entry (3-1): weight in fm per count (unsigned), offset in pm (two's complement). -/
structure CompEntry where
  weight : BitVec 32
  offset : BitVec 32
  version : BitVec 16
  pins : PerPort Pin
  slot : Option PendingComp
  deriving DecidableEq, Repr

/-! ## Port contexts (4-1) -/

/-- The origin status (4-2). -/
inductive OriginStatus where
  | free | bound | stale
  deriving DecidableEq, Repr

/-- One port's origin on one channel (R63). -/
structure Origin where
  count : Count
  epoch : BitVec 16
  status : OriginStatus
  deriving DecidableEq, Repr

/-- The FREE origin: count and epoch 0 (R64). -/
def Origin.free : Origin := ⟨0, 0, .free⟩

/-! ## Statistics totals (R25, R100, R149) -/

/-- The six totals of a channel unit, in the order of R25. -/
structure ChanTotals where
  accepted : Total
  crc : Total
  sat : Total
  skip : Total
  level : Total
  gap : Total
  deriving DecidableEq, Repr

/-- The two totals of a trigger input (R100). -/
structure InputTotals where
  accepted : Total
  heldOff : Total
  deriving DecidableEq, Repr

/-- The totals of the capture engine (R100). -/
structure CaptureTotals where
  admitted : Total
  discarded : Total
  overrun : Total
  completed : Total
  deriving DecidableEq, Repr

/-- The totals of the line sequencer (R149). -/
structure SeqTotals where
  started : Total
  line : Total
  missed : Total
  stray : Total
  lost : Total
  fault : Total
  deriving DecidableEq, Repr

/-- All statistics totals; a port's baselines have the same shape (R74). -/
structure Totals where
  chans : PerChan ChanTotals
  inputs : PerInput InputTotals
  capture : CaptureTotals
  seq : SeqTotals
  deriving DecidableEq, Repr

/-! ## Trigger inputs (5-1) -/

/-- One trigger input. It is HOLDOFF exactly while `holdOffUntil` holds an expiry time (5-1). `edgeSeen` is the
model's own: an edge was seen on the pin in the present REFCLK period (R79; assumption 8). -/
structure TrigInput where
  enabled : Bool
  edge : Edge
  holdOff : BitVec 16
  holdOffUntil : Option Time
  edgeSeen : Bool
  deriving DecidableEq, Repr

/-! ## Triggers, snapshots, the queue (5-2, 5-3) -/

/-- Why the last scan ended (7-1). -/
inductive HaltCause where
  | none | ended | stopped | fault | forced | claimLost
  deriving DecidableEq, Repr

/-- The entry a sequencer record names: index, tag, nominal (R122). -/
structure EntryRef where
  index : Nat
  tag : BitVec 16
  nominal : Count
  deriving DecidableEq, Repr

/-- The sequencer fields handed with a SEQUENCE trigger, by its kind (R142). -/
inductive SeqFields where
  | line (entry : EntryRef) (ordinal : Nat)
  | missed (entry : EntryRef)
  | stray (entry : EntryRef)
  | halt (cause : HaltCause) (entry : Option EntryRef) (found missed stray lost : Nat)
  deriving DecidableEq, Repr

/-- A trigger's source with its source detail (R83). `sequence` names the frame port and the claimant the record
goes to, if any. -/
inductive Source where
  | input (i : Input)
  | compare (slot : Fin 32) (owner : Port) (shared : Bool)
  | request (p : Port)
  | settle (p : Port) (mask : ChanMask)
  | sequence (frame : Port) (named : Option Port) (fields : SeqFields)
  deriving DecidableEq, Repr

/-- What a snapshot holds of one channel and its compensation entry (R87); the raw count is valid exactly in
TRACKING, and the sample age is present exactly then. -/
structure ChanSnap where
  state : ChanState
  epoch : BitVec 16
  raw : Count
  age : Option Nat
  weight : BitVec 32
  offset : BitVec 32
  version : BitVec 16
  deriving DecidableEq, Repr

/-- A snapshot (R87): the arrival time, the channels, the origins of each routed port, and for a SEQUENCE trigger
the frame port's origins on CH0 and CH1. -/
structure Snapshot where
  time : Time
  chans : PerChan ChanSnap
  origins : PerPort (Option (PerChan Origin))
  frame : Option (Origin × Origin)
  deriving DecidableEq, Repr

/-- An entry of the trigger queue (5-3). -/
structure QueueEntry where
  number : BitVec 32
  source : Source
  route : PerPort Bool
  snap : Snapshot
  deriving DecidableEq, Repr

/-- The engine state (5-3), in COMPLETING with the time the completion began (R90). -/
inductive EngineState where
  | idle
  | completing (since : Time)
  deriving DecidableEq, Repr

/-! ## Capture rings and records (6-1, 6-7) -/

/-- The channel block of a record (R120). -/
structure RecordChan where
  state : ChanState
  epoch : BitVec 16
  status : OriginStatus
  version : BitVec 16
  age : Option Nat
  view : Option Int
  comp : Option Int
  deriving DecidableEq, Repr

/-- A capture record: header (R119), channel blocks (R120), L and D (R121), and for a LINE record the deviation
(R122); the other sequencer fields stand in the source. -/
structure Record where
  number : BitVec 32
  source : Source
  time : Time
  chans : PerChan RecordChan
  lineYaw : Option (Int × Int)
  deviation : Option Int
  deriving DecidableEq, Repr

/-- The ring states (6-2). -/
inductive RingState where
  | stopped | active | draining
  deriving DecidableEq, Repr

/-- The ring policies (6-1). -/
inductive RingPolicy where
  | keepOld | keepNew
  deriving DecidableEq, Repr

/-- One capture ring (6-1), oldest record first. -/
structure Ring where
  records : List Record
  state : RingState
  policy : RingPolicy
  threshold : Nat
  drops : Nat
  overwrites : Nat
  deriving DecidableEq, Repr

/-- A ring after device reset and after its port's reset (R123). -/
def Ring.reset : Ring := ⟨[], .stopped, .keepOld, 1, 0, 0⟩

/-! ## Line sequencer (7-1) -/

/-- The sequencer states (7-1). -/
inductive SeqState where
  | unclaimed | loading | tracking | halted
  deriving DecidableEq, Repr

/-- The direction of a scan (R132). -/
inductive ScanDir where
  | forward | reverse
  deriving DecidableEq, Repr

/-- Where the scan coordinate stands against the current window (7-1). -/
inductive WindowStatus where
  | before | opened
  deriving DecidableEq, Repr

/-- An entry of the line list (7-1). -/
structure LineEntry where
  tag : BitVec 16
  nominal : Count
  halfWidth : BitVec 24
  deriving DecidableEq, Repr

/-- The line sequencer (7-1). -/
structure Sequencer where
  state : SeqState
  claimant : Option Port
  lines : List LineEntry
  dir : ScanDir
  first : Nat
  reportStrays : Bool
  current : Nat
  window : WindowStatus
  pulses : Nat
  found : Nat
  missed : Nat
  stray : Nat
  lost : Nat
  cause : HaltCause
  deriving DecidableEq, Repr

/-- The sequencer after device reset (R150). -/
def Sequencer.reset : Sequencer :=
  ⟨.unclaimed, none, [], .forward, 0, false, 0, .before, 0, 0, 0, 0, 0, .none⟩

/-! ## Compare table (8-1) -/

/-- What a point watches (8-2). -/
inductive Subject where
  | chan (c : Chan)
  | line
  deriving DecidableEq, Repr

/-- A direction of a crossing (R156) and of a rearm (R158). -/
inductive UpDown where
  | up | down
  deriving DecidableEq, Repr

/-- The crossings that fire a point (8-1). -/
inductive PointDir where
  | up | down | either
  deriving DecidableEq, Repr

/-- The mode of a point; REPEAT with its hysteresis (8-1). -/
inductive PointMode where
  | once
  | repeating (hysteresis : BitVec 16)
  deriving DecidableEq, Repr

/-- What a firing does (R157). -/
structure Actions where
  notice : Bool
  capture : Bool
  sync : Bool
  deriving DecidableEq, Repr

/-- The point states (8-1). -/
inductive PointState where
  | armed | fired | rearming | suspended | inactive
  deriving DecidableEq, Repr

/-- Where a subject stands against the threshold (R155). -/
inductive Side where
  | below | at | above
  deriving DecidableEq, Repr

/-- One compare point (8-1); `threshold` is two's complement. -/
structure Point where
  slot : Fin 32
  owner : Port
  kept : Bool
  shared : Bool
  subject : Subject
  threshold : BitVec 64
  dir : PointDir
  mode : PointMode
  actions : Actions
  state : PointState
  lastSide : Option Side
  rearmDir : Option UpDown
  firings : Nat
  deriving DecidableEq, Repr

/-! ## Notices and fault detail (9-1, 9-5) -/

/-- A port's pending set and enable mask, bit n for the kind numbered n (9-1, R189). -/
structure Notices where
  pending : BitVec 16
  enable : BitVec 16
  deriving DecidableEq, Repr

/-- What a loss report holds by its cause (R11). -/
inductive LossDetail where
  | level
  | skip (step : Int)
  | gap (received expected : Byte)
  deriving DecidableEq, Repr

/-- A loss report (R11). -/
structure LossReport where
  chan : Chan
  detail : LossDetail
  time : Time
  count : Count
  lastPhase : BitVec 10
  lastLevel : Byte
  deriving DecidableEq, Repr

/-- A HELD fault-detail latch (9-5). -/
structure HeldLoss where
  report : LossReport
  more : Nat
  deriving DecidableEq, Repr

/-! ## Client ports (10-1) -/

/-- The port states (10-1). -/
inductive PortState where
  | starting | idle | performing | resetting
  deriving DecidableEq, Repr

/-- The step of a port reset that is next to be taken (R185); step 1 is the taking of PORT RESET itself. -/
inductive ResetStep where
  | sequencer | compensation | compare | context | peers
  deriving DecidableEq, Repr

/-- What a port reset did with the claim (R186). -/
inductive ClaimOutcome where
  | none | released | halted
  deriving DecidableEq, Repr

/-- The progress of a port reset: the next step, and what the steps taken gave up, for the response (R186). -/
structure ResetProgress where
  next : ResetStep
  routed : Nat
  discarded : Nat
  arm : Option ChanMask
  claim : ClaimOutcome
  pins : Nat
  applied : ChanMask
  unkept : Nat
  kept : Nat
  latch : Option Nat
  deriving DecidableEq, Repr

/-- One client port (10-1). `mayReceive` is the model's own: the receipt of a next frame can have begun (R178;
assumption 6). `reset` is present exactly in RESETTING. -/
structure Link where
  state : PortState
  inProgress : Option Request
  outgoing : List Response
  mayReceive : Bool
  reset : Option ResetProgress
  deriving DecidableEq, Repr

/-- A client port after device reset (R183). -/
def Link.afterReset : Link := ⟨.starting, none, [], true, none⟩

/-! ## The state of the part -/

/-- The part. `pending` is the queue of commands waiting, first in first out; `turn` counts the meetings of the
compare table and the sequencer, for the free value (assumption 2). Both are the model's own. -/
structure State where
  time : Time
  chans : PerChan ChannelUnit
  still : PerChan StillTimer
  comp : PerChan CompEntry
  origins : PerPort (PerChan Origin)
  totals : Totals
  baselines : PerPort Totals
  inputs : PerInput TrigInput
  queue : List QueueEntry
  nextNumber : BitVec 32
  engine : EngineState
  arms : PerPort (Option ChanMask)
  sync : Option Time
  rings : PerPort Ring
  subs : PerPort (BitVec 5)
  seq : Sequencer
  points : List Point
  notices : PerPort Notices
  latches : PerPort (Option HeldLoss)
  links : PerPort Link
  turn : Nat
  pending : List Instr
  deriving DecidableEq, Repr

/-- No rule of the manual makes the part stop, so no step of the model ends in a fault (assumption 25). -/
inductive Fault where
  deriving DecidableEq, Repr

/-- Why a command has no meaning. -/
inductive Refusal where
  /-- Raised by exec's arm of a command whose meaning is not written yet; safe: the step stops. No arm raises it. -/
  | notModelled (mnemonic : String)
  deriving DecidableEq, Repr

/-! ## Values after device reset -/

/-- The device-reset configuration (R20). -/
def ChanConfig.reset : ChanConfig := ⟨64, 32, 1024, 384, 64, 1000, .normal⟩

/-- A channel unit after device reset (R26). -/
def ChannelUnit.reset : ChannelUnit :=
  ⟨.disabled, 0, 0, 0, 0, 0, none, 0, .restart, 0, 0, false, .none, .none, ChanConfig.reset⟩

/-- A stillness timer after device reset (R40). -/
def StillTimer.reset : StillTimer := ⟨.none, 0, none, 0, none⟩

/-- A compensation entry after device reset (R62). -/
def CompEntry.reset : CompEntry := ⟨0, 0, 0, PerPort.const .none, none⟩

/-- A trigger input after device reset (R101). -/
def TrigInput.reset : TrigInput := ⟨false, .rising, 100, none, false⟩

/-- All totals and baselines at 0 (R25, R77, R101, R150). -/
def Totals.zero : Totals :=
  ⟨PerChan.const ⟨0, 0, 0, 0, 0, 0⟩, PerInput.const ⟨0, 0⟩, ⟨0, 0, 0, 0⟩, ⟨0, 0, 0, 0, 0, 0⟩⟩

/-- Empty pending set and enable mask (R173). -/
def Notices.reset : Notices := ⟨0, 0⟩

/-- The part right after device reset (R26, R40, R62, R77, R101, R123, R150, R165, R173, R177, R183). -/
def State.reset : State where
  time := 0
  chans := PerChan.const ChannelUnit.reset
  still := PerChan.const StillTimer.reset
  comp := PerChan.const CompEntry.reset
  origins := PerPort.const (PerChan.const Origin.free)
  totals := Totals.zero
  baselines := PerPort.const Totals.zero
  inputs := PerInput.const TrigInput.reset
  queue := []
  nextNumber := 0
  engine := .idle
  arms := PerPort.const none
  sync := none
  rings := PerPort.const Ring.reset
  subs := PerPort.const 0
  seq := Sequencer.reset
  points := []
  notices := PerPort.const Notices.reset
  latches := PerPort.const none
  links := PerPort.const Link.afterReset
  turn := 0
  pending := []

end Sys2Proof.Machine
end

