-- ==== Sys2Proof/Machine/Flags.lean ====
section
/-! DEFINITION. Machine/Flags.lean: the notice kinds, posting, the NOTE line, and the saturating counts. -/

namespace Sys2Proof.Machine

/-- The sixteen notice kinds (9-1). -/
inductive Notice where
  | ringData | ringOverflow | triggerOverrun | channelLost | channelTracking | epochChanged | compApplied
  | compSuperseded | pinExpired | pointFired | scanHalted | claimLost | peerReset | configChanged | settleFired
  | settleCancelled
  deriving DecidableEq, Repr

/-- The number of a notice kind (9-1, table). -/
def Notice.num : Notice → Nat
  | .ringData => 0 | .ringOverflow => 1 | .triggerOverrun => 2 | .channelLost => 3 | .channelTracking => 4
  | .epochChanged => 5 | .compApplied => 6 | .compSuperseded => 7 | .pinExpired => 8 | .pointFired => 9
  | .scanHalted => 10 | .claimLost => 11 | .peerReset => 12 | .configChanged => 13 | .settleFired => 14
  | .settleCancelled => 15

/-- The mask that holds one kind alone (R189). -/
def Notice.mask (k : Notice) : BitVec 16 := BitVec.twoPow 16 k.num

/-- Is a kind pending at a port? -/
def Notices.has (n : Notices) (k : Notice) : Bool := n.pending.getLsbD k.num

/-- A port's NOTE line: asserted exactly when its pending set and its enable mask have a kind in common (R168). -/
def Notices.note (n : Notices) : Bool := n.pending &&& n.enable != 0

/-- Add a kind to a pending set; a kind already pending stays (R167). -/
def Notices.add (k : Notice) (n : Notices) : Notices := { n with pending := n.pending ||| k.mask }

/-- Post a kind to the ports that a test picks, in one taking (R167). -/
def postWhere (k : Notice) (which : Port → Bool) (s : State) : State :=
  { s with notices := PerPort.ofFn (fun p => if which p then (s.notices.get p).add k else s.notices.get p) }

/-- Post a kind to one port. -/
def post (k : Notice) (p : Port) (s : State) : State := postWhere k (fun q => q == p) s

/-- Post a kind to every port. -/
def postAll (k : Notice) (s : State) : State := postWhere k (fun _ => true) s

/-- Post a kind to each port other than one. -/
def postOthers (k : Notice) (p : Port) (s : State) : State := postWhere k (fun q => q != p) s

/-- Increase a count by one, saturating at a limit. -/
def satInc (limit n : Nat) : Nat := if n < limit then n + 1 else n

/-- The periods from one time-base value to a later one, modulo 2^48 (R98). -/
def elapsed (now since : Time) : Nat := (now - since).toNat

/-- The age of a sample in units of 10 ns, saturating at 65535 (R38, R87). -/
def ageAt (now last : Time) : Nat := min 65535 (elapsed now last)

end Sys2Proof.Machine
end

