-- ==== Sys2Proof/Machine/Operands.lean ====
section
/-! DEFINITION. Machine/Operands.lean: the fields of request and response payloads and their codes (R189). -/

namespace Sys2Proof.Machine

/-! ## Fields of a request payload -/

/-- The unsigned number in the w bytes of a payload from an offset on. -/
def numAt (payload : List Byte) (off w : Nat) : Nat := leNat ((payload.drop off).take w)

/-- The signed number in the w bytes of a payload from an offset on. -/
def intAt (payload : List Byte) (off w : Nat) : Int := (BitVec.ofNat (8 * w) (numAt payload off w)).toInt

/-- A flag of a request: bit 0 of its byte; the other bits are not used and ignored (R189; assumption 12). -/
def flagAt (payload : List Byte) (off : Nat) : Bool := numAt payload off 1 % 2 == 1

/-- The channel that a payload byte names; none above 5. -/
def chanAt (payload : List Byte) (off : Nat) : Option Chan := Chan.ofNum (numAt payload off 1)

/-- A channel mask that a request may carry: none for 0 and for a bit set above the bit of CH5. -/
def chanMaskAt (payload : List Byte) (off : Nat) : Option ChanMask :=
  let m := numAt payload off 1
  if m = 0 ∨ 64 ≤ m then none else some (BitVec.ofNat 6 m)

/-- The recovery mode of a code; none outside the enumeration. -/
def recoveryModeOf : Nat → Option RecoveryMode
  | 0 => some .restart | 1 => some .resume | _ => none

/-- The count sense of a code. -/
def countSenseOf : Nat → Option CountSense
  | 0 => some .normal | 1 => some .inverted | _ => none

/-- The edge of a code. -/
def edgeOf : Nat → Option Edge
  | 0 => some .rising | 1 => some .falling | _ => none

/-- The ring policy of a code. -/
def ringPolicyOf : Nat → Option RingPolicy
  | 0 => some .keepOld | 1 => some .keepNew | _ => none

/-- The scan direction of a code. -/
def scanDirOf : Nat → Option ScanDir
  | 0 => some .forward | 1 => some .reverse | _ => none

/-- The subject of a code: channels 0 to 5, and 6 for L. -/
def subjectOf (n : Nat) : Option Subject :=
  if n = 6 then some .line else (Chan.ofNum n).map .chan

/-- The point direction of a code. -/
def pointDirOf : Nat → Option PointDir
  | 0 => some .up | 1 => some .down | 2 => some .either | _ => none

/-- The point mode of a code, with the hysteresis field: for REPEAT 1 to 65535, for ONCE ignored (R159). -/
def pointModeOf (code hysteresis : Nat) : Option PointMode :=
  match code with
  | 0 => some .once
  | 1 => if hysteresis = 0 then none else some (.repeating (BitVec.ofNat 16 hysteresis))
  | _ => none

/-- The action set of a code: at least one of NOTICE, CAPTURE, SYNC and no other (R159). -/
def actionsOf (m : Nat) : Option Actions :=
  if m = 0 ∨ 8 ≤ m then none else some ⟨m.testBit 0, m.testBit 1, m.testBit 2⟩

/-- The line entry in 11 bytes (R191). -/
def lineEntryAt (payload : List Byte) (off : Nat) : LineEntry :=
  ⟨BitVec.ofNat 16 (numAt payload off 2), BitVec.ofNat 48 (numAt payload (off + 2) 6),
   BitVec.ofNat 24 (numAt payload (off + 8) 3)⟩

/-! ## Codes of the enumerations (R189, table) -/

def ChanState.code : ChanState → Nat
  | .disabled => 0 | .acquiring => 1 | .tracking => 2 | .lost => 3

def OriginStatus.code : OriginStatus → Nat
  | .free => 0 | .bound => 1 | .stale => 2

def StillState.code : StillState → Nat
  | .none => 0 | .moving => 1 | .settled => 2

def HaltCause.code : HaltCause → Nat
  | .none => 0 | .ended => 1 | .stopped => 2 | .fault => 3 | .forced => 4 | .claimLost => 5

def SeqState.code : SeqState → Nat
  | .unclaimed => 0 | .loading => 1 | .tracking => 2 | .halted => 3

def RingState.code : RingState → Nat
  | .stopped => 0 | .active => 1 | .draining => 2

def PointState.code : PointState → Nat
  | .armed => 0 | .fired => 1 | .rearming => 2 | .suspended => 3 | .inactive => 4

def LossCause.code : LossCause → Nat
  | .none => 0 | .level => 1 | .skip => 2 | .gap => 3

def AcqOutcome.code : AcqOutcome → Nat
  | .none => 0 | .restarted => 1 | .continued => 2 | .continuityRefused => 3

def RecoveryMode.code : RecoveryMode → Nat
  | .restart => 0 | .resume => 1

def ScanDir.code : ScanDir → Nat
  | .forward => 0 | .reverse => 1

def PointDir.code : PointDir → Nat
  | .up => 0 | .down => 1 | .either => 2

/-- A rearm direction takes the codes UP and DOWN of a point's direction. -/
def UpDown.code : UpDown → Nat
  | .up => 0 | .down => 1

def RingPolicy.code : RingPolicy → Nat
  | .keepOld => 0 | .keepNew => 1

def edgeCode : Edge → Nat
  | .rising => 0 | .falling => 1

def CountSense.code : CountSense → Nat
  | .normal => 0 | .inverted => 1

def PointMode.code : PointMode → Nat
  | .once => 0 | .repeating _ => 1

def WindowStatus.code : WindowStatus → Nat
  | .before => 0 | .opened => 1

def Side.code : Side → Nat
  | .below => 0 | .at => 1 | .above => 2

def Pin.code : Pin → Nat
  | .none => 0 | .timed _ _ => 1 | .run => 2

def ClaimOutcome.code : ClaimOutcome → Nat
  | .none => 0 | .released => 1 | .halted => 2

def EngineState.code : EngineState → Nat
  | .idle => 0 | .completing _ => 1

def Subject.code : Subject → Nat
  | .chan c => c.num | .line => 6

def Actions.code (a : Actions) : Nat := a.notice.toNat + 2 * a.capture.toNat + 4 * a.sync.toNat

/-! ## Fields of a response payload -/

/-- A field of one byte. -/
def u8 (n : Nat) : List Byte := leBytes 1 n
/-- A field of two bytes. -/
def u16 (n : Nat) : List Byte := leBytes 2 n
/-- A field of four bytes. -/
def u32 (n : Nat) : List Byte := leBytes 4 n
/-- An unsigned 48-bit quantity, or a 64-bit one, in eight bytes. -/
def u64 (n : Nat) : List Byte := leBytes 8 n
/-- A signed field of two bytes. -/
def i16 (v : Int) : List Byte := leInt 2 v
/-- A signed 48-bit quantity, sign-extended, or a signed 64-bit one, in eight bytes. -/
def i64 (v : Int) : List Byte := leInt 8 v
/-- A flag: 1 when the condition holds, else 0. -/
def flag (b : Bool) : List Byte := u8 b.toNat

/-- A field present only under a condition: one byte 1 and the field, or one byte 0 and as many bytes 0 (R189). What
counts as one field where a rule names several things at once is assumption 13. -/
def optional {α : Type} (width : Nat) (enc : α → List Byte) : Option α → List Byte
  | some a => u8 1 ++ enc a
  | none => u8 0 ++ List.replicate width 0

/-- The 11 bytes of a line entry (R191). -/
def LineEntry.bytes (e : LineEntry) : List Byte :=
  u16 e.tag.toNat ++ leBytes 6 e.nominal.toNat ++ leBytes 3 e.halfWidth.toNat

end Sys2Proof.Machine
end

