-- ==== Sys2Proof/Machine/Ops.lean ====
section
/-! DEFINITION. Machine/Ops.lean: the operations every block shares: views and compensated values, the statistics
totals, the lifting of a total function to an outcome, and the request exchange of a client port. -/

namespace Sys2Proof.Machine

/-! ## Views and compensated values (4-3, 3-2, 3-3) -/

/-- A view of a channel through an origin (R67): absent outside TRACKING, withheld through a STALE origin. -/
def viewOf (state : ChanState) (raw : Count) (o : Origin) : Option Int :=
  match state, o.status with
  | .tracking, .free => some raw.toInt
  | .tracking, .bound => some (raw - o.count).toInt
  | _, _ => none

/-- Femtometres to the nearest whole picometre, halves away from zero (R42). -/
def roundPm (fm : Int) : Int := if 0 ≤ fm then (fm + 500) / 1000 else -((500 - fm) / 1000)

/-- A signed 64-bit value, saturating (R42, R44). -/
def sat64 (x : Int) : Int := max (-(2 ^ 63)) (min (2 ^ 63 - 1) x)

/-- The compensated value of a view with a weight and an offset (R42). -/
def compensate (view : Int) (weight offset : BitVec 32) : Int :=
  sat64 (roundPm (view * weight.toNat) + offset.toInt)

/-- The compensated value where it exists: the view exists and the weight is not 0 (R43, R67). -/
def compOf (view : Option Int) (weight offset : BitVec 32) : Option Int :=
  if weight = 0 then none else view.map (fun v => compensate v weight offset)

/-- L of two compensated values: their mean, rounded towards minus infinity (R44). -/
def lineOf (c0 c1 : Int) : Int := sat64 ((c0 + c1) / 2)

/-- D of two compensated values: CH1 minus CH0 (R44). -/
def yawOf (c0 c1 : Int) : Int := sat64 (c1 - c0)

/-- A port's view of a channel as the state stands (R67). -/
def State.view (s : State) (p : Port) (c : Chan) : Option Int :=
  viewOf (s.chans.get c).state (s.chans.get c).raw ((s.origins.get p).get c)

/-- A port's compensated value of a channel as the state stands (R42, R43). -/
def State.compValue (s : State) (p : Port) (c : Chan) : Option Int :=
  compOf (s.view p c) (s.comp.get c).weight (s.comp.get c).offset

/-- A pair of compensated values where both exist. -/
def bothOf : Option Int → Option Int → Option (Int × Int)
  | some a, some b => some (a, b)
  | _, _ => none

/-- A port's L, where both compensated values exist (R44, R68). -/
def State.line (s : State) (p : Port) : Option Int :=
  (bothOf (s.compValue p .ch0) (s.compValue p .ch1)).map (fun v => lineOf v.1 v.2)

/-- A port's D, where both compensated values exist (R44, R68). -/
def State.yaw (s : State) (p : Port) : Option Int :=
  (bothOf (s.compValue p .ch0) (s.compValue p .ch1)).map (fun v => yawOf v.1 v.2)

/-! ## Updates of one block -/

/-- One channel unit changed. -/
def State.onChan (s : State) (c : Chan) (f : ChannelUnit → ChannelUnit) : State :=
  { s with chans := s.chans.modify c f }

/-- One stillness timer changed. -/
def State.onStill (s : State) (c : Chan) (f : StillTimer → StillTimer) : State :=
  { s with still := s.still.modify c f }

/-- One compensation entry changed. -/
def State.onComp (s : State) (c : Chan) (f : CompEntry → CompEntry) : State :=
  { s with comp := s.comp.modify c f }

/-- One ring changed. -/
def State.onRing (s : State) (p : Port) (f : Ring → Ring) : State := { s with rings := s.rings.modify p f }

/-- One trigger input changed. -/
def State.onInput (s : State) (i : Input) (f : TrigInput → TrigInput) : State :=
  { s with inputs := s.inputs.modify i f }

/-- One client port changed. -/
def State.onLink (s : State) (p : Port) (f : Link → Link) : State := { s with links := s.links.modify p f }

/-- The line sequencer changed. -/
def State.onSeq (s : State) (f : Sequencer → Sequencer) : State := { s with seq := f s.seq }

/-- A channel unit's totals changed (R25). -/
def State.onChanTotals (s : State) (c : Chan) (f : ChanTotals → ChanTotals) : State :=
  { s with totals := { s.totals with chans := s.totals.chans.modify c f } }

/-- An input's totals changed (R100). -/
def State.onInputTotals (s : State) (i : Input) (f : InputTotals → InputTotals) : State :=
  { s with totals := { s.totals with inputs := s.totals.inputs.modify i f } }

/-- The capture engine's totals changed (R100). -/
def State.onCaptureTotals (s : State) (f : CaptureTotals → CaptureTotals) : State :=
  { s with totals := { s.totals with capture := f s.totals.capture } }

/-- The sequencer's totals changed (R149). -/
def State.onSeqTotals (s : State) (f : SeqTotals → SeqTotals) : State :=
  { s with totals := { s.totals with seq := f s.totals.seq } }

/-! ## The request exchange (R178 to R182) -/

/-- What a request is answered with. -/
structure Reply where
  status : Status
  payload : List Byte
  deriving DecidableEq, Repr

/-- The end of a request's taking: the reply and the state it leaves, or, for PORT RESET, a taking that leaves the
request in progress (R181). -/
inductive Taken where
  | answered (reply : Reply) (s : State)
  | goesOn (s : State)

/-- A request performed: status DONE (R182). -/
def done (payload : List Byte) (s : State) : Taken := .answered ⟨.done, payload⟩ s

/-- A request refused, with the detail its rule names: nothing has changed (R182). -/
def refuse (status : Status) (detail : List Byte) (s : State) : Taken := .answered ⟨status, detail⟩ s

/-- A request refused with BAD_VALUE and no detail. -/
def badValue (s : State) : Taken := refuse .badValue [] s

/-- A response joins the end of a port's outgoing list at the moment it becomes ready (R178). -/
def Link.push (l : Link) (r : Response) : Link := { l with outgoing := l.outgoing ++ [r] }

/-- The receipt of a next frame can have begun if the list holds fewer than 8 (R178; assumption 6). -/
def Link.openReceipt (l : Link) : Link := { l with mayReceive := decide (l.outgoing.length < Config.linkRoom) }

/-- An immediate answer: ready at the arrival, empty payload, the request in progress left as it was (R180). -/
def Link.immediate (tag : Byte) (status : Status) (l : Link) : Link := (l.push ⟨tag, status, []⟩).openReceipt

/-- A good frame becomes the request in progress and the port PERFORMING (R180). -/
def Link.accept (q : Request) (l : Link) : Link :=
  { l with state := .performing, inProgress := some q }.openReceipt

/-- The response becomes ready, the request in progress becomes none and the port IDLE (R181, R186). -/
def Link.finish (tag : Byte) (reply : Reply) (l : Link) : Link :=
  { l.push ⟨tag, reply.status, reply.payload⟩ with state := .idle, inProgress := none, reset := none }

/-- The end of a request: its response is ready at its port. -/
def finishRequest (p : Port) (tag : Byte) (reply : Reply) (s : State) : State :=
  s.onLink p (Link.finish tag reply)

/-- The state after a request's taking. -/
def finishTaken (p : Port) (tag : Byte) : Taken → State
  | .answered reply s => finishRequest p tag reply s
  | .goesOn s => s

/-- A good request frame at its port, or the taking of one that waits (R180, R181; assumption 4). A frame whose
receipt the link has not accepted does not arrive (R178; assumption 6); a taking needs the very request in
progress. -/
def requestStep (code : Byte) (take : Port → List Byte → State → Taken) (r : Req) (s : State) : State :=
  let q : Request := ⟨r.tag, code, r.payload⟩
  let link := s.links.get r.port
  match r.stage with
  | .taking =>
    if link.state = .performing ∧ link.inProgress = some q then
      finishTaken r.port r.tag (take r.port r.payload s)
    else s
  | _ =>
    if link.mayReceive then
      match link.state with
      | .starting => s.onLink r.port (Link.immediate r.tag .starting)
      | .idle =>
        let s1 := s.onLink r.port (Link.accept q)
        if r.stage = .whole then finishTaken r.port r.tag (take r.port r.payload s1) else s1
      | _ => s.onLink r.port (Link.immediate r.tag .busy)
    else s

/-- The outcome of a command that the part performs. -/
def performed (s : State) : Host.Outcome State Fault Refusal := .next s

end Sys2Proof.Machine
end

