-- ==== Sys2Proof/Machine/PointTable.lean ====
section
/-! DEFINITION. Machine/PointTable.lean: what the compare table does at the events of other blocks that do not fire
a point: availability (R154), and the last side becoming absent (R155). -/

namespace Sys2Proof.Machine

/-- Does a subject depend on a channel (8-2)? L depends on CH0 and CH1. -/
def Subject.uses (sub : Subject) (c : Chan) : Bool :=
  match sub with
  | .chan d => d == c
  | .line => c.feedsLine

/-- The availability of a subject (R154). -/
inductive Availability where
  | inactive | suspended | available
  deriving DecidableEq, Repr

/-- A subject's availability in its owner's view, judged in the order of R154's table. -/
def availability (s : State) (owner : Port) (sub : Subject) : Availability :=
  match sub with
  | .chan c =>
    if (s.chans.get c).state ≠ .tracking then .inactive
    else if ((s.origins.get owner).get c).status = .stale then .suspended
    else .available
  | .line =>
    if s.chans.ch0.state ≠ .tracking ∨ s.chans.ch1.state ≠ .tracking ∨
        s.comp.ch0.weight = 0 ∨ s.comp.ch1.weight = 0 then .inactive
    else if (s.origins.get owner).ch0.status = .stale ∨ (s.origins.get owner).ch1.status = .stale then .suspended
    else .available

/-- The state in which a point leaves INACTIVE or SUSPENDED: FIRED for a ONCE point that has fired, else ARMED
(R154). -/
def Point.returnState (pt : Point) : PointState :=
  match pt.mode with
  | .once => if pt.firings = 0 then .armed else .fired
  | .repeating _ => .armed

/-- Is the point INACTIVE or SUSPENDED? -/
def Point.away (pt : Point) : Bool := pt.state == .inactive || pt.state == .suspended

/-- A point's availability judged anew (R154). Its last side is absent while it is INACTIVE or SUSPENDED
(assumption 9) and at its return. -/
def judge (s : State) (pt : Point) : Point :=
  match availability s pt.owner pt.subject with
  | .inactive => { pt with state := .inactive, lastSide := none, rearmDir := none }
  | .suspended => { pt with state := .suspended, lastSide := none, rearmDir := none }
  | .available => if pt.away then { pt with state := pt.returnState, lastSide := none } else pt

/-- The points that a test picks judged anew (R154). -/
def rejudge (which : Point → Bool) (s : State) : State :=
  { s with points := s.points.map (fun pt => if which pt then judge s pt else pt) }

/-- The points that a test picks: last side absent (R155), then judged anew (R154). -/
def breakView (which : Point → Bool) (s : State) : State :=
  { s with points := s.points.map (fun pt => if which pt then judge s { pt with lastSide := none } else pt) }

/-- A departure from TRACKING or an acquisition of a channel reaches the table (R154). -/
def pointsOnChannel (c : Chan) (s : State) : State := rejudge (fun pt => pt.subject.uses c) s

/-- An application on CH0 or CH1 reaches the table: every point on L of every owner (R45, R154, R155). -/
def pointsOnApplication (s : State) : State := breakView (fun pt => pt.subject == .line) s

/-- A change of a port's origins on some channels reaches the table (R70, R71, R78, R155; assumption 10). -/
def pointsOnOrigins (p : Port) (cs : List Chan) (s : State) : State :=
  breakView (fun pt => pt.owner == p && cs.any pt.subject.uses) s

/-- The number of points a port owns. -/
def State.owned (s : State) (p : Port) : Nat := (s.points.filter (fun pt => pt.owner == p)).length

/-- The point in a slot, if the slot is occupied. -/
def State.pointAt (s : State) (k : Nat) : Option Point := s.points.find? (fun pt => pt.slot.val == k)

/-- The creation order of a slot's point: its place in the creation list, 0 for the oldest (8-1). -/
def State.creationOrder (s : State) (k : Nat) : Nat := s.points.findIdx (fun pt => pt.slot.val == k)

end Sys2Proof.Machine
end

