-- ==== Sys2Proof/Machine/Store.lean ====
section
/-! DEFINITION. Machine/Store.lean: the acts of the compensation store that requests, expiries and the line sequencer
share: application (R45), the emptying of a pin set (R57), pins (R51 to R56). -/

namespace Sys2Proof.Machine

/-- No port holds a pin on the entry (R51). -/
def CompEntry.unpinned (e : CompEntry) : Bool := Port.all.all (fun p => e.pins.get p == .none)

/-- An application to one entry: weight, offset and version change together (R45). -/
def CompEntry.apply (weight offset : BitVec 32) (e : CompEntry) : CompEntry :=
  { e with weight := weight, offset := offset, version := e.version + 1 }

/-- The value in the slot applied and the slot emptied, where there is one (R57). -/
def CompEntry.applySlot (e : CompEntry) : CompEntry :=
  match e.slot with
  | some v => { e.apply v.weight v.offset with slot := none }
  | none => e

/-- An application on these channels, already made in the entries, reaches the ports and the table: COMP_APPLIED to
every port, and the points on L if it touched CH0 or CH1 (R45). An empty list is no application. -/
def announceApplied (cs : List Chan) (s : State) : State :=
  if cs.isEmpty then s
  else
    let s1 := postAll .compApplied s
    if cs.any Chan.feedsLine then pointsOnApplication s1 else s1

/-- Pin sets that an event has emptied: is the pending value of a channel due to be applied (R57)? -/
def State.slotDue (s : State) (c : Chan) : Bool := (s.comp.get c).unpinned && (s.comp.get c).slot.isSome

/-- R57 for the channels whose pins one event removed: the pending values of the emptied pin sets are applied as
one change. -/
def applyDueSlots (cs : List Chan) (s : State) : State :=
  let due := cs.filter s.slotDue
  announceApplied due (due.foldl (fun t c => t.onComp c CompEntry.applySlot) s)

/-- A port's pin on an entry replaced. -/
def CompEntry.setPin (p : Port) (pin : Pin) (e : CompEntry) : CompEntry := { e with pins := e.pins.set p pin }

/-- Does a port hold a TIMED pin on the entry? -/
def CompEntry.timedBy (e : CompEntry) (p : Port) : Bool :=
  match e.pins.get p with
  | .timed _ _ => true
  | _ => false

/-- The channels of a list on which a port holds a TIMED pin. -/
def State.timedPins (s : State) (p : Port) (cs : List Chan) : List Chan :=
  cs.filter (fun c => (s.comp.get c).timedBy p)

/-- A port's pins on some channels removed, each emptied pin set handled by R57, as one change. -/
def removePins (p : Port) (cs : List Chan) (s : State) : State :=
  applyDueSlots cs (cs.foldl (fun t c => t.onComp c (CompEntry.setPin p .none)) s)

/-- The RUN pins of a scan that starts, on CH0 and CH1, replacing any TIMED pin of the claimant (R53). -/
def placeRunPins (p : Port) (s : State) : State :=
  (s.onComp .ch0 (CompEntry.setPin p .run)).onComp .ch1 (CompEntry.setPin p .run)

/-- The remaining hold time of a pin in units of 10 ms, rounded up, at least 1 (R56). -/
def holdLeft (now start : Time) (hold : BitVec 16) : Nat :=
  max 1 ((hold.toNat * Config.holdUnit - elapsed now start + (Config.holdUnit - 1)) / Config.holdUnit)

/-- Has a TIMED pin's hold time run out (R56)? -/
def State.pinDue (s : State) (c : Chan) (p : Port) : Bool :=
  match (s.comp.get c).pins.get p with
  | .timed start hold => decide (hold.toNat * Config.holdUnit ≤ elapsed s.time start)
  | _ => false

end Sys2Proof.Machine
end

