-- ==== Sys2Proof/Machine/Engine.lean ====
section
/-! DEFINITION. Machine/Engine.lean: the capture engine's taking of a trigger: routing (R84), discard (R85), admission
(R86), snapshot (R87) and loss (R89); and settle arms (R95). -/

namespace Sys2Proof.Machine

/-- The bit of COMPARE in a subscription mask (R189). -/
def subCompare : Nat := 3

/-- The bit of SEQUENCE in a subscription mask (R189). -/
def subSequence : Nat := 4

/-- Does a port subscribe to the source with this bit? -/
def State.subscribes (s : State) (p : Port) (bit : Nat) : Bool := (s.subs.get p).getLsbD bit

/-- Is a port routed for a trigger (R84)? Only while its ring is ACTIVE. -/
def routed (s : State) (src : Source) (p : Port) : Bool :=
  (s.rings.get p).state == .active &&
  match src with
  | .input i => s.subscribes p i.num
  | .compare _ owner shared => owner == p || (shared && s.subscribes p subCompare)
  | .request q => q == p
  | .settle q _ => q == p
  | .sequence _ named _ => named == some p || s.subscribes p subSequence

/-- The routing set of a trigger, fixed when it arrives (R84). -/
def routing (s : State) (src : Source) : PerPort Bool := PerPort.ofFn (routed s src)

/-- Is a routing set empty? -/
def routeEmpty (r : PerPort Bool) : Bool := !(r.p0 || r.p1 || r.p2)

/-- What a snapshot takes of one channel and its entry (R87). -/
def snapChan (s : State) (c : Chan) : ChanSnap :=
  let u := s.chans.get c
  let e := s.comp.get c
  { state := u.state, epoch := u.epoch, raw := u.raw,
    age := if u.state = .tracking then some (ageAt s.time u.lastTime) else none,
    weight := e.weight, offset := e.offset, version := e.version }

/-- The frame port's origins on CH0 and CH1, for a SEQUENCE trigger (R87). -/
def snapFrame (s : State) : Source → Option (Origin × Origin)
  | .sequence frame _ _ => some ((s.origins.get frame).ch0, (s.origins.get frame).ch1)
  | _ => none

/-- The snapshot of a trigger with its routing set (R87). The arrival time is the present time: every command is
taken at the time-base value at which its event happens. -/
def snapshot (s : State) (src : Source) (route : PerPort Bool) : Snapshot :=
  { time := s.time
    chans := PerChan.ofFn (snapChan s)
    origins := PerPort.ofFn (fun p => if route.get p then some (s.origins.get p) else none)
    frame := snapFrame s src }

/-- What became of a trigger (R93). -/
inductive CaptureOutcome where
  | admitted (number : BitVec 32)
  | discarded
  | overrun
  deriving DecidableEq, Repr

/-- The queue entry of a trigger that is admitted as the state stands (R86, R87). -/
def newEntry (src : Source) (route : PerPort Bool) (s : State) : QueueEntry :=
  { number := s.nextNumber, source := src, route := route, snap := snapshot s src route }

/-- The engine state once an entry is admitted: in IDLE its completion begins at once (R90). -/
def EngineState.begin (now : Time) : EngineState → EngineState
  | .idle => .completing now
  | .completing t => .completing t

/-- The admission of a trigger (R86, R90): it takes the next capture number and joins the queue; in IDLE its
completion begins at once. -/
def admitTrigger (src : Source) (route : PerPort Bool) (s : State) : State :=
  State.onCaptureTotals
    { s with
      queue := s.queue ++ [newEntry src route s]
      nextNumber := s.nextNumber + 1
      engine := s.engine.begin s.time }
    (fun t => { t with admitted := t.admitted + 1 })

/-- Is the trigger the sequencer's? -/
def Source.isSequence : Source → Bool
  | .sequence _ _ _ => true
  | _ => false

/-- A trigger lost to a full queue (R89); a SEQUENCE trigger is also counted by the sequencer (R143). -/
def loseTrigger (src : Source) (route : PerPort Bool) (s : State) : State :=
  let s1 := postWhere .triggerOverrun route.get (s.onCaptureTotals (fun t => { t with overrun := t.overrun + 1 }))
  if src.isSequence then
    (s1.onSeq (fun q => { q with lost := satInc 65535 q.lost })).onSeqTotals (fun t => { t with lost := t.lost + 1 })
  else s1

/-- What becomes of a trigger that arrives (R85, R86, R89). -/
def outcomeOf (src : Source) (s : State) : CaptureOutcome :=
  if routeEmpty (routing s src) then .discarded
  else if s.queue.length < Config.queueRoom then .admitted s.nextNumber
  else .overrun

/-- A trigger handed to the capture engine: discarded, admitted or lost (R85, R86, R89). -/
def hand (src : Source) (s : State) : State :=
  match outcomeOf src s with
  | .discarded => s.onCaptureTotals (fun t => { t with discarded := t.discarded + 1 })
  | .admitted _ => admitTrigger src (routing s src) s
  | .overrun => loseTrigger src (routing s src) s

/-- The number of queued entries that route to a port (R110, R118). -/
def State.routedEntries (s : State) (p : Port) : Nat := (s.queue.filter (fun e => e.route.get p)).length

/-- The engine's report to every DRAINING ring: one that no queued entry routes to becomes STOPPED (R92, R111). -/
def reportRouting (s : State) : State :=
  { s with rings := PerPort.ofFn (fun p =>
      let r := s.rings.get p
      if r.state = .draining ∧ s.routedEntries p = 0 then { r with state := .stopped } else r) }

/-! ## Settle arms (5-6) -/

/-- Is every channel of a mask SETTLED? -/
def State.allSettled (s : State) (m : ChanMask) : Bool :=
  (maskChans m).all (fun c => (s.still.get c).state == .settled)

/-- An arm fires: its SETTLE trigger, SETTLE_FIRED to the arming port, and the arm is consumed (R95). -/
def fireArm (p : Port) (m : ChanMask) (s : State) : State :=
  { post .settleFired p (hand (.settle p m) s) with arms := s.arms.set p none }

/-- A port's waiting arm evaluated at an entry of a channel into SETTLED (R95). -/
def evalArm (c : Chan) (s : State) (p : Port) : State :=
  match s.arms.get p with
  | some m => if maskHas m c && s.allSettled m then fireArm p m s else s
  | none => s

/-- An entry into SETTLED reported to the capture engine: the arms in the order P0, P1, P2 (R95). -/
def settleEntered (c : Chan) (s : State) : State := Port.all.foldl (evalArm c) s

/-- Does a port's waiting arm name the channel? -/
def State.armNames (s : State) (c : Chan) (p : Port) : Bool :=
  match s.arms.get p with
  | some m => maskHas m c
  | none => false

/-- A departure from TRACKING cancels every waiting arm that names the channel, with SETTLE_CANCELLED (R95). -/
def cancelArms (c : Chan) (s : State) : State :=
  { postWhere .settleCancelled (s.armNames c) s with
    arms := PerPort.ofFn (fun p => if s.armNames c p then none else s.arms.get p) }

end Sys2Proof.Machine
end

