-- ==== Sys2Proof/Machine/Scan.lean ====
section
/-! DEFINITION. Machine/Scan.lean: the line sequencer while it is TRACKING: windows (R135), evaluation (R136), DET
pulses (R139, R140) and the halt (R144). -/

namespace Sys2Proof.Machine

/-- Where a line entry's window lies in L: nominal minus and plus half-width (R135). -/
def LineEntry.low (e : LineEntry) : Int := e.nominal.toInt - e.halfWidth.toNat

/-- The upper end of a line entry's window in L (R135). -/
def LineEntry.high (e : LineEntry) : Int := e.nominal.toInt + e.halfWidth.toNat

/-- The scan coordinate of L; minus −2^63 is given as 2^63 − 1 (R135). -/
def scanCoord (dir : ScanDir) (l : Int) : Int :=
  match dir with
  | .forward => l
  | .reverse => sat64 (-l)

/-- The near edge of a window in the scan coordinate (R135). -/
def LineEntry.near (e : LineEntry) : ScanDir → Int
  | .forward => e.low
  | .reverse => -e.high

/-- The far edge of a window in the scan coordinate (R135). -/
def LineEntry.far (e : LineEntry) : ScanDir → Int
  | .forward => e.high
  | .reverse => -e.low

/-- The scan's next entry; none when the list is exhausted (R135). -/
def Sequencer.nextIndex (q : Sequencer) : Option Nat :=
  match q.dir with
  | .forward => if q.current + 1 < q.lines.length then some (q.current + 1) else none
  | .reverse => if q.current = 0 then none else some (q.current - 1)

/-- The current entry as a record names it (R122). -/
def Sequencer.currentRef (q : Sequencer) : Option EntryRef :=
  (q.lines[q.current]?).map (fun e => ⟨q.current, e.tag, e.nominal⟩)

/-- The claimant named for routing: none for FORCED and CLAIM_LOST (R142). -/
def haltNamed (cause : HaltCause) (p : Port) : Option Port :=
  match cause with
  | .forced => none
  | .claimLost => none
  | _ => some p

/-- The entry a HALT names: none for END (R142). -/
def haltEntry (cause : HaltCause) (q : Sequencer) : Option EntryRef :=
  match cause with
  | .ended => none
  | _ => q.currentRef

/-- The HALT trigger of a scan with the counts standing when the halt is taken (R142). -/
def haltSource (cause : HaltCause) (p : Port) (q : Sequencer) : Source :=
  .sequence p (haltNamed cause p) (.halt cause (haltEntry cause q) q.found q.missed q.stray q.lost)

/-- A halt of a TRACKING scan, in the order of R144: the RUN pins go and what they held back is applied, the HALT
trigger is handed, SCAN_HALTED is posted, the cause is stored. -/
def halt (cause : HaltCause) (s : State) : State :=
  match s.seq.claimant with
  | none => s
  | some p =>
    let s1 := removePins p [.ch0, .ch1] s
    let s2 := hand (haltSource cause p s1.seq) s1
    let s3 := postWhere .scanHalted (fun q => haltNamed cause p == some q || s2.subscribes q subSequence) s2
    let s4 := s3.onSeq (fun q => { q with state := .halted, cause := cause })
    if cause = .fault then s4.onSeqTotals (fun t => { t with fault := t.fault + 1 }) else s4

/-- A MISSED decision for the current entry (R136). -/
def missedDecision (p : Port) (e : EntryRef) (s : State) : State :=
  hand (.sequence p (some p) (.missed e))
    ((s.onSeq (fun q => { q with missed := q.missed + 1 })).onSeqTotals (fun t => { t with missed := t.missed + 1 }))

/-- The current entry is passed: a MISSED decision unless it has taken a pulse (R136). -/
def passEntry (p : Port) (e : EntryRef) (s : State) : State :=
  if s.seq.pulses = 0 then missedDecision p e s else s

/-- The evaluation of the current window against a scan coordinate, repeated until the outcome is stable (R136).
The first argument bounds the repetitions; the list has fewer entries. -/
def evalWindow (p : Port) : Nat → Int → State → State
  | 0, _, s => s
  | n + 1, x, s =>
    match s.seq.lines[s.seq.current]? with
    | none => s
    | some e =>
      if e.far s.seq.dir < x then
        let s1 := passEntry p ⟨s.seq.current, e.tag, e.nominal⟩ s
        match s.seq.nextIndex with
        | none => halt .ended s1
        | some j => evalWindow p n x (s1.onSeq (fun q => { q with current := j, pulses := 0 }))
      else if e.near s.seq.dir ≤ x then s.onSeq (fun q => { q with window := .opened })
      else s.onSeq (fun q => { q with window := .before })

/-- An update of L at the sequencer (R136): nothing outside TRACKING, and nothing while the claimant's L does not
exist. -/
def sequencerUpdate (s : State) : State :=
  if s.seq.state = .tracking then
    match s.seq.claimant with
    | none => s
    | some p =>
      match s.line p with
      | none => s
      | some l => evalWindow p (s.seq.lines.length + 1) (scanCoord s.seq.dir l) s
  else s

/-- A DET pulse in the OPEN window: a LINE decision (R139). -/
def linePulse (p : Port) (e : EntryRef) (s : State) : State :=
  let n := satInc 65535 s.seq.pulses
  hand (.sequence p (some p) (.line e n))
    ((s.onSeq (fun q => { q with
        pulses := n, found := if q.pulses = 0 then q.found + 1 else q.found })).onSeqTotals
      (fun t => { t with line := t.line + 1 }))

/-- A DET pulse with the window BEFORE: a stray (R140). -/
def strayPulse (p : Port) (e : EntryRef) (s : State) : State :=
  let s1 := (s.onSeq (fun q => { q with stray := satInc 65535 q.stray })).onSeqTotals
    (fun t => { t with stray := t.stray + 1 })
  if s.seq.reportStrays then hand (.sequence p (some p) (.stray e)) s1 else s1

/-- An accepted DET edge at the TRACKING sequencer (R139, R140). -/
def sequencerEdge (s : State) : State :=
  match s.seq.claimant, s.seq.currentRef with
  | some p, some e =>
    match s.seq.window with
    | .opened => linePulse p e s
    | .before => strayPulse p e s
  | _, _ => s

/-- A departure of a channel from TRACKING at the sequencer (R146). -/
def sequencerDeparture (c : Chan) (s : State) : State :=
  if c.feedsLine && s.seq.state == .tracking then halt .fault s else s

/-- The end of a claim: the list is emptied, no claimant, UNCLAIMED (R126, R127, R151). -/
def endClaim (s : State) : State :=
  s.onSeq (fun q => { q with state := .unclaimed, claimant := none, lines := [] })

end Sys2Proof.Machine
end

