-- ==== Sys2Proof/Machine/Firing.lean ====
section
/-! DEFINITION. Machine/Firing.lean: the compare table at an update: sides (R155), crossings and evaluation (R156),
firing (R157), rearming (R158); and the update itself, at the table and the sequencer (R7, R83). -/

namespace Sys2Proof.Machine

/-- The side of a subject value against a threshold (R155). -/
def sideOf (v t : Int) : Side := if v < t then .below else if v = t then .at else .above

/-- The crossing that a last side and a new side make (R156). -/
def crossing : Option Side → Side → Option UpDown
  | some .below, .at => some .up
  | some .below, .above => some .up
  | some .above, .at => some .down
  | some .above, .below => some .down
  | _, _ => none

/-- Does a direction enable a crossing (R156)? -/
def PointDir.enables : PointDir → UpDown → Bool
  | .up, .up => true
  | .down, .down => true
  | .either, _ => true
  | _, _ => false

/-- The subject value of a point: the owner's view of the channel in counts, or the owner's L in pm (R153). -/
def State.subjectValue (s : State) (pt : Point) : Option Int :=
  match pt.subject with
  | .chan c => s.view pt.owner c
  | .line => s.line pt.owner

/-- The threshold of a point as a number. -/
def Point.level (pt : Point) : Int := pt.threshold.toInt

/-- The crossing in an enabled direction that a new value makes at an ARMED point (R156). -/
def Point.fires (pt : Point) (v : Int) : Option UpDown :=
  match crossing pt.lastSide (sideOf v pt.level) with
  | some d => if pt.dir.enables d then some d else none
  | none => none

/-- Has the subject moved back by the hysteresis (R158)? -/
def Point.rearms (pt : Point) (v : Int) : Bool :=
  match pt.mode, pt.rearmDir with
  | .repeating h, some .up => decide (v ≤ pt.level - h.toNat)
  | .repeating h, some .down => decide (pt.level + h.toNat ≤ v)
  | _, _ => false

/-- A point after a firing: counted; a ONCE point FIRED, a REPEAT point REARMING with the direction that fired it
(R157). -/
def Point.afterFiring (d : UpDown) (pt : Point) : Point :=
  { pt with
    firings := satInc 65535 pt.firings
    state := match pt.mode with
      | .once => .fired
      | .repeating _ => .rearming
    rearmDir := match pt.mode with
      | .once => none
      | .repeating _ => some d }

/-- A point after an evaluation with a subject value (R156, R158). -/
def Point.evaluated (v : Int) (pt : Point) : Point :=
  let recorded := { pt with lastSide := some (sideOf v pt.level) }
  match pt.state with
  | .armed =>
    match pt.fires v with
    | some d => recorded.afterFiring d
    | none => recorded
  | .rearming => if pt.rearms v then { recorded with state := .armed, rearmDir := none } else recorded
  | .fired => recorded
  | .suspended => pt
  | .inactive => pt

/-- The actions of a firing (R157): POINT_FIRED, a COMPARE trigger, a SYNC pulse. -/
def fireActions (pt : Point) (s : State) : State :=
  let s1 := if pt.actions.notice then postWhere .pointFired (fun q => pt.shared || q == pt.owner) s else s
  let s2 := if pt.actions.sync then { s1 with sync := some s1.time } else s1
  if pt.actions.capture then hand (.compare pt.slot pt.owner pt.shared) s2 else s2

/-- A point of the table replaced by its new contents. -/
def State.putPoint (s : State) (pt : Point) : State :=
  { s with points := s.points.map (fun x => if x.slot == pt.slot then pt else x) }

/-- Does an evaluation with a value fire the point? -/
def Point.firesAt (pt : Point) (v : Int) : Bool := pt.state == .armed && (pt.fires v).isSome

/-- The evaluation of one slot at an update of a channel (R156): only a point whose subject depends on the channel
and is available. -/
def evalSlot (c : Chan) (s : State) (k : Nat) : State :=
  match s.pointAt k with
  | none => s
  | some pt =>
    if pt.subject.uses c && !pt.away then
      match s.subjectValue pt with
      | none => s
      | some v =>
        let s1 := s.putPoint (pt.evaluated v)
        if pt.firesAt v then fireActions pt s1 else s1
    else s

/-- The slots of the table in ascending order. -/
def allSlots : List Nat := List.range 32

/-- The evaluations of some slots at an update of a channel, in the order given. -/
def evalSlots (c : Chan) (slots : List Nat) (s : State) : State := slots.foldl (evalSlot c) s

/-- The compare table and the TRACKING sequencer at one update, in the order the manual leaves open (R83, R156):
the sequencer acts where the free value puts it among the slots (assumption 2). -/
def meetAtUpdate (c : Chan) (s : State) : State :=
  let k := Config.sequencerTurn s.turn
  let s1 := evalSlots c (allSlots.take k) s
  let s2 := evalSlots c (allSlots.drop k) (sequencerUpdate s1)
  { s2 with turn := s.turn + 1 }

/-- An update of a channel at the compare table and, for CH0 and CH1, at the line sequencer (R7, R136, R156). The
free value is consulted only where both blocks have something to do. -/
def updateBlocks (c : Chan) (s : State) : State :=
  if c.feedsLine && s.seq.state == .tracking then
    if s.points.isEmpty then sequencerUpdate s else meetAtUpdate c s
  else evalSlots c allSlots s

end Sys2Proof.Machine
end

