-- ==== Sys2Proof/Machine/Channels.lean ====
section
/-! DEFINITION. Machine/Channels.lean: the channel units and their stillness timers (Chapters 1 and 2): SAMPLE_FRAME,
STILLNESS_EXPIRY and the channel requests. -/

namespace Sys2Proof.Machine

/-! ## Stillness timer (Chapter 2) -/

/-- The timer loaded at a time with a settle interval, anchored at a count (R30, R31, R32). -/
def StillTimer.load (anchor : Count) (settle : BitVec 16) (now : Time) (_t : StillTimer) : StillTimer :=
  ⟨.moving, anchor, some settle, now, none⟩

/-- The timer of a channel that leaves TRACKING: NONE, stopped; anchor and load time keep their values (R34). -/
def StillTimer.leave (t : StillTimer) : StillTimer := { t with state := .none, timer := none, settledTime := none }

/-- The expiry: SETTLED, the timer stops (R33). -/
def StillTimer.expire (now : Time) (t : StillTimer) : StillTimer :=
  { t with state := .settled, timer := none, settledTime := some now }

/-- The excursion of a count from the anchor (R29). -/
def StillTimer.excursion (t : StillTimer) (raw : Count) : Int := (raw - t.anchor).toInt

/-- Is a count within the still band of the anchor (R29)? -/
def StillTimer.within (t : StillTimer) (band : BitVec 16) (raw : Count) : Bool :=
  decide ((t.excursion raw).natAbs ≤ band.toNat)

/-- An accepted sample reaches the timer with the new raw count (R32). -/
def StillTimer.accepted (cfg : ChanConfig) (raw : Count) (now : Time) (t : StillTimer) : StillTimer :=
  if t.state = .none then t
  else if t.within cfg.stillBand raw then t
  else t.load raw cfg.settle now

/-- Has a running timer run its interval (R30)? -/
def StillTimer.due (now : Time) (t : StillTimer) : Bool :=
  t.state == .moving &&
  match t.timer with
  | some n => decide (n.toNat * Config.settleUnit ≤ elapsed now t.loadTime)
  | none => false

/-- The remaining interval in units of 10 µs, rounded up, at least 1 in MOVING, 0 otherwise (R38). -/
def StillTimer.remaining (now : Time) (t : StillTimer) : Nat :=
  match t.state, t.timer with
  | .moving, some n =>
    max 1 ((n.toNat * Config.settleUnit - elapsed now t.loadTime + (Config.settleUnit - 1)) / Config.settleUnit)
  | _, _ => 0

/-! ## Steps and judgements of a frame (Chapter 1) -/

/-- A phase difference wrapped into −512 to +511 and put in the count sense (R7, R15). -/
def phaseStep (cfg : ChanConfig) (phase last : BitVec 10) : Int :=
  match cfg.sense with
  | .normal => (phase - last).toInt
  | .inverted => -(phase - last).toInt

/-- The level of a frame as handled: 0 with NRDY (R3). -/
def Sample.handled (f : Sample) : Byte := if f.nrdy then 0 else f.level

/-- Does a frame show a gap against the expected sequence number (R4)? -/
def ChannelUnit.gap (u : ChannelUnit) (f : Sample) : Bool :=
  match u.expected with
  | some e => e != f.seq
  | none => false

/-- The last loss cause that a loss records (R10). -/
def LossDetail.cause : LossDetail → LossCause
  | .level => .level
  | .skip _ => .skip
  | .gap _ _ => .gap

/-- The fault total that a loss counts (R25). -/
def countLoss (d : LossDetail) (t : ChanTotals) : ChanTotals :=
  match d with
  | .level => { t with level := t.level + 1 }
  | .skip _ => { t with skip := t.skip + 1 }
  | .gap _ _ => { t with gap := t.gap + 1 }

/-- A loss at the channel unit (R10): LOST, the count and phase frozen, the mark from the stillness state before. -/
def ChannelUnit.lose (d : LossDetail) (settled : Bool) (u : ChannelUnit) : ChannelUnit :=
  { u with state := .lost, frozenCount := u.raw, frozenPhase := u.lastPhase, mark := settled,
           lastCause := d.cause, run := 0 }

/-- A latch that takes a loss report (R174). -/
def takeReport (r : LossReport) : Option HeldLoss → Option HeldLoss
  | none => some ⟨r, 0⟩
  | some h => some { h with more := satInc 255 h.more }

/-- The loss report handed to every latch (R174). -/
def handReport (r : LossReport) (s : State) : State :=
  { s with latches := PerPort.ofFn (fun p => takeReport r (s.latches.get p)) }

/-- A departure of a channel from TRACKING at the blocks that read it (R12): compare table, settle arms, sequencer. -/
def departure (c : Chan) (s : State) : State :=
  sequencerDeparture c (cancelArms c (pointsOnChannel c s))

/-- A loss of a TRACKING channel (R10, R11, R12); `level` is the level of the frame as handled. -/
def lossOf (c : Chan) (d : LossDetail) (level : Byte) (s : State) : State :=
  let u := s.chans.get c
  let settled := (s.still.get c).state == .settled
  let s1 := (s.onChan c (ChannelUnit.lose d settled)).onChanTotals c (countLoss d)
  let s2 := s1.onStill c StillTimer.leave
  let s3 := handReport ⟨c, d, s.time, u.raw, u.lastPhase, level⟩ (postAll .channelLost s2)
  departure c s3

/-- A sample accepted at the channel unit (R7). -/
def ChannelUnit.accept (f : Sample) (now : Time) (u : ChannelUnit) : ChannelUnit :=
  { u with raw := u.raw + BitVec.ofInt 48 (phaseStep u.config f.phase u.lastPhase),
           lastPhase := f.phase, lastLevel := f.level, lastTime := now }

/-- A sample accepted in TRACKING: an update of the channel (R7, R32). -/
def acceptSample (c : Chan) (f : Sample) (s : State) : State :=
  let s1 := (s.onChan c (ChannelUnit.accept f s.time)).onChanTotals c (fun t => { t with accepted := t.accepted + 1 })
  let u := s1.chans.get c
  updateBlocks c (s1.onStill c (StillTimer.accepted u.config u.raw s.time))

/-- A good frame in TRACKING that passed the sequence check (R7). -/
def judgeTracking (c : Chan) (f : Sample) (s : State) : State :=
  let u := s.chans.get c
  if f.handled.toNat < u.config.loss.toNat then lossOf c .level f.handled s
  else if u.config.stepLimit.toNat < (phaseStep u.config f.phase u.lastPhase).natAbs then
    lossOf c (.skip (phaseStep u.config f.phase u.lastPhase)) f.handled s
  else acceptSample c f s

/-! ## Acquisition (1-6) -/

/-- Is a CONTINUE acquisition taken as a continuation at this phase (R15)? -/
def ChannelUnit.continues (u : ChannelUnit) (phase : BitVec 10) : Bool :=
  u.recovery == .resume && u.mark &&
  decide ((phaseStep u.config phase u.frozenPhase).natAbs ≤ min u.config.stillBand.toNat 511)

/-- What every acquisition does at the channel unit (R13). -/
def ChannelUnit.acquireCommon (f : Sample) (now : Time) (u : ChannelUnit) : ChannelUnit :=
  { u with state := .tracking, lastPhase := f.phase, lastLevel := f.level, lastTime := now, run := 0,
           mark := false, recovery := .restart }

/-- A continued acquisition at the channel unit (R15). -/
def ChannelUnit.acquireContinue (f : Sample) (now : Time) (u : ChannelUnit) : ChannelUnit :=
  { u.acquireCommon f now with
    raw := u.frozenCount + BitVec.ofInt 48 (phaseStep u.config f.phase u.frozenPhase), outcome := .continued }

/-- A RESTART acquisition at the channel unit (R14), with the outcome of a refused continuation where CONTINUE was
pending (R15). -/
def ChannelUnit.acquireRestart (f : Sample) (now : Time) (u : ChannelUnit) : ChannelUnit :=
  { u.acquireCommon f now with
    raw := 0, epoch := u.epoch + 1,
    outcome := match u.recovery with
      | .restart => .restarted
      | .resume => .continuityRefused }

/-- A port's origin on a channel at a RESTART acquisition (R65). -/
def Origin.examine (epoch : BitVec 16) (o : Origin) : Origin :=
  if o.status = .bound ∧ o.epoch ≠ epoch then { o with status := .stale } else o

/-- Every port context examines its origin on the channel (R65). -/
def examineOrigins (c : Chan) (epoch : BitVec 16) (s : State) : State :=
  { s with origins := PerPort.ofFn (fun p => (s.origins.get p).modify c (Origin.examine epoch)) }

/-- The stillness timer of a channel that enters TRACKING (R31). -/
def enterTracking (c : Chan) (s : State) : State :=
  let u := s.chans.get c
  s.onStill c (StillTimer.load u.raw u.config.settle s.time)

/-- A continued acquisition (R13, R15). -/
def continueAcquisition (c : Chan) (f : Sample) (s : State) : State :=
  let s1 := enterTracking c (s.onChan c (ChannelUnit.acquireContinue f s.time))
  pointsOnChannel c (postAll .channelTracking s1)

/-- A RESTART acquisition (R13, R14, R65). -/
def restartAcquisition (c : Chan) (f : Sample) (s : State) : State :=
  let s1 := enterTracking c (s.onChan c (ChannelUnit.acquireRestart f s.time))
  let s2 := examineOrigins c (s1.chans.get c).epoch s1
  pointsOnChannel c (postAll .channelTracking (postAll .epochChanged s2))

/-- The acquisition at the qualifying sample (R13 to R15). -/
def acquisition (c : Chan) (f : Sample) (s : State) : State :=
  if (s.chans.get c).continues f.phase then continueAcquisition c f s else restartAcquisition c f s

/-- A good frame in ACQUIRING (R4, R6): a gap restarts the run, and the frame is judged as the first of a new one. -/
def judgeAcquiring (c : Chan) (f : Sample) (gap : Bool) (s : State) : State :=
  let u := s.chans.get c
  let run := if gap then 0 else u.run
  if f.handled.toNat < u.config.acquire.toNat then s.onChan c (fun u => { u with run := 0 })
  else if u.config.qualify.toNat ≤ run + 1 then acquisition c f s
  else s.onChan c (fun u => { u with run := run + 1 })

/-- What every good frame does: the SAT total and the expected sequence number (R3, R4). -/
def noteFrame (c : Chan) (f : Sample) (s : State) : State :=
  (s.onChan c (fun u => { u with expected := some (f.seq + 1) })).onChanTotals c
    (fun t => if f.sat then { t with sat := t.sat + 1 } else t)

/-- A good frame (R3 to R7). -/
def goodFrame (c : Chan) (f : Sample) (s : State) : State :=
  let u := s.chans.get c
  let s1 := noteFrame c f s
  match u.state with
  | .tracking =>
    if u.gap f then lossOf c (.gap f.seq (u.expected.getD 0)) f.handled s1 else judgeTracking c f s1
  | .acquiring => judgeAcquiring c f (u.gap f) s1
  | .disabled => s1
  | .lost => s1

/-- SAMPLE_FRAME (R2): the bytes that a channel link delivers. -/
def execSampleFrame (c : Chan) (bytes : List Byte) (s : State) : Host.Outcome State Fault Refusal :=
  performed <|
    match sampleOf bytes with
    | none => s.onChanTotals c (fun t => { t with crc := t.crc + 1 })
    | some f => goodFrame c f s

/-- STILLNESS_EXPIRY (R33): taken where the timer has run its interval; elsewhere the expiry does not take place
(R35; assumption 3). -/
def execStillnessExpiry (c : Chan) (s : State) : Host.Outcome State Fault Refusal :=
  performed <|
    if (s.still.get c).due s.time then settleEntered c (s.onStill c (StillTimer.expire s.time)) else s

/-! ## Channel requests (1-7, 1-8) -/

/-- The seven configuration fields in a response (R18, R20). -/
def ChanConfig.bytes (g : ChanConfig) : List Byte :=
  u8 g.acquire.toNat ++ u8 g.loss.toNat ++ u16 g.qualify.toNat ++ u16 g.stepLimit.toNat ++ u16 g.stillBand.toNat ++
  u16 g.settle.toNat ++ u8 g.sense.code

/-- The present contents of a channel unit (R18). -/
def ChannelUnit.bytes (u : ChannelUnit) : List Byte :=
  u8 u.state.code ++ i64 u.raw.toInt ++ flag (u.state == .tracking) ++ u16 u.epoch.toNat ++ u16 u.lastPhase.toNat ++
  u8 u.lastLevel.toNat ++ u16 u.run ++ u16 u.config.qualify.toNat ++ u8 u.recovery.code ++ u8 u.lastCause.code ++
  u8 u.outcome.code ++ flag u.mark ++ i64 u.frozenCount.toInt ++ u16 u.frozenPhase.toNat ++ u.config.bytes

/-- The payload check and the channel number check that every channel request makes first (R19, R181). -/
def withChannel (len : Nat) (payload : List Byte) (s : State) (k : Chan → Taken) : Taken :=
  if payload.length = len then
    match chanAt payload 0 with
    | some c => k c
    | none => badValue s
  else badValue s

/-- READ CHANNEL (R18). -/
def takeReadChannel (_p : Port) (payload : List Byte) (s : State) : Taken :=
  withChannel 1 payload s fun c => done (s.chans.get c).bytes s

/-- The configuration that a CONFIGURE CHANNEL payload carries, where every field is in range (R20). -/
def configAt (payload : List Byte) : Option ChanConfig :=
  let acquire := numAt payload 1 1
  let loss := numAt payload 2 1
  let qualify := numAt payload 3 2
  let stepLimit := numAt payload 5 2
  let settle := numAt payload 9 2
  match countSenseOf (numAt payload 11 1) with
  | some sense =>
    if 1 ≤ loss ∧ loss ≤ acquire ∧ 1 ≤ qualify ∧ 1 ≤ stepLimit ∧ stepLimit ≤ 511 ∧ 1 ≤ settle then
      some ⟨BitVec.ofNat 8 acquire, BitVec.ofNat 8 loss, BitVec.ofNat 16 qualify, BitVec.ofNat 16 stepLimit,
        BitVec.ofNat 16 (numAt payload 7 2), BitVec.ofNat 16 settle, sense⟩
    else none
  | none => none

/-- CONFIG_CHANGED to the other ports where a request has changed what it names (R19, R81; assumption 19). -/
def announceChange (changed : Bool) (p : Port) (s : State) : State :=
  if changed then postOthers .configChanged p s else s

/-- CONFIGURE CHANNEL (R20): the state is checked after the channel number and before the fields. -/
def takeConfigureChannel (p : Port) (payload : List Byte) (s : State) : Taken :=
  withChannel 12 payload s fun c =>
    if (s.chans.get c).state = .disabled then
      match configAt payload with
      | some g =>
        done [] (announceChange ((s.chans.get c).config != g) p (s.onChan c (fun u => { u with config := g })))
      | none => badValue s
    else refuse .state [] s

/-- ENABLE CHANNEL at the unit (R21). -/
def ChannelUnit.enable (u : ChannelUnit) : ChannelUnit :=
  { u with state := .acquiring, recovery := .restart, run := 0 }

/-- ENABLE CHANNEL (R21). -/
def takeEnableChannel (p : Port) (payload : List Byte) (s : State) : Taken :=
  withChannel 1 payload s fun c =>
    if (s.chans.get c).state = .disabled then
      done [] (announceChange true p (s.onChan c ChannelUnit.enable))
    else refuse .state [] s

/-- DISABLE CHANNEL at the unit (R22). -/
def ChannelUnit.disable (u : ChannelUnit) : ChannelUnit :=
  { u with state := .disabled, run := 0, recovery := .restart, mark := false, outcome := .none }

/-- DISABLE CHANNEL of a channel that is not DISABLED (R22, R12, R34). -/
def disableChannel (c : Chan) (s : State) : State :=
  let s1 := s.onChan c ChannelUnit.disable
  if (s.chans.get c).state = .tracking then departure c (s1.onStill c StillTimer.leave) else s1

/-- DISABLE CHANNEL (R22): in DISABLED it changes nothing. -/
def takeDisableChannel (p : Port) (payload : List Byte) (s : State) : Taken :=
  withChannel 1 payload s fun c =>
    if (s.chans.get c).state = .disabled then done [] s
    else done [] (announceChange true p (disableChannel c s))

/-- RECOVER CHANNEL at the unit (R23). -/
def ChannelUnit.recover (m : RecoveryMode) (u : ChannelUnit) : ChannelUnit :=
  { u with state := .acquiring, recovery := m, run := 0 }

/-- RECOVER CHANNEL (R23): the state is checked before the mode. -/
def takeRecoverChannel (p : Port) (payload : List Byte) (s : State) : Taken :=
  withChannel 2 payload s fun c =>
    if (s.chans.get c).state = .lost then
      match recoveryModeOf (numAt payload 1 1) with
      | some m => done [] (announceChange true p (s.onChan c (ChannelUnit.recover m)))
      | none => badValue s
    else refuse .state [] s

/-- The stillness block of a channel (R38). -/
def stillBlock (s : State) (c : Chan) : List Byte :=
  let u := s.chans.get c
  let t := s.still.get c
  u8 u.state.code ++ u8 t.state.code ++ i64 t.anchor.toInt ++
  optional 8 i64 (if t.state = .none then none else some (t.excursion u.raw)) ++
  u16 (t.remaining s.time) ++ u64 t.loadTime.toNat ++ optional 8 (fun n : Time => u64 n.toNat) t.settledTime ++
  u16 (ageAt s.time u.lastTime)

/-- The payload check and the mask check of a request that carries a channel mask (R38, R47, R189). -/
def withMask (len : Nat) (payload : List Byte) (s : State) (k : ChanMask → Taken) : Taken :=
  if payload.length = len then
    match chanMaskAt payload 0 with
    | some m => k m
    | none => badValue s
  else badValue s

/-- READ STILLNESS (R38). -/
def takeReadStillness (_p : Port) (payload : List Byte) (s : State) : Taken :=
  withMask 1 payload s fun m => done ((maskChans m).flatMap (stillBlock s)) s

/-- READ_CHANNEL: the request at its port. -/
def execReadChannel (r : Req) (s : State) : Host.Outcome State Fault Refusal :=
  performed (requestStep RequestKind.readChannel.code takeReadChannel r s)

/-- CONFIGURE_CHANNEL: the request at its port. -/
def execConfigureChannel (r : Req) (s : State) : Host.Outcome State Fault Refusal :=
  performed (requestStep RequestKind.configureChannel.code takeConfigureChannel r s)

/-- ENABLE_CHANNEL: the request at its port. -/
def execEnableChannel (r : Req) (s : State) : Host.Outcome State Fault Refusal :=
  performed (requestStep RequestKind.enableChannel.code takeEnableChannel r s)

/-- DISABLE_CHANNEL: the request at its port. -/
def execDisableChannel (r : Req) (s : State) : Host.Outcome State Fault Refusal :=
  performed (requestStep RequestKind.disableChannel.code takeDisableChannel r s)

/-- RECOVER_CHANNEL: the request at its port. -/
def execRecoverChannel (r : Req) (s : State) : Host.Outcome State Fault Refusal :=
  performed (requestStep RequestKind.recoverChannel.code takeRecoverChannel r s)

/-- READ_STILLNESS: the request at its port. -/
def execReadStillness (r : Req) (s : State) : Host.Outcome State Fault Refusal :=
  performed (requestStep RequestKind.readStillness.code takeReadStillness r s)

end Sys2Proof.Machine
end

