-- ==== Sys2Proof/Machine/Compensation.lean ====
section
/-! DEFINITION. Machine/Compensation.lean: the requests of the compensation store and the hold-time expiry (Chapter 3). -/

namespace Sys2Proof.Machine

/-- SET COMPENSATION at one entry (R48, R49): applied where no pin is held, else put into the pending slot. -/
def CompEntry.write (p : Port) (weight offset : BitVec 32) (e : CompEntry) : CompEntry :=
  if e.unpinned then e.apply weight offset else { e with slot := some ⟨weight, offset, p⟩ }

/-- The writer of the value that a SET COMPENSATION replaces on an entry (R49). -/
def CompEntry.superseded (e : CompEntry) : Option Port :=
  if e.unpinned then none else e.slot.map PendingComp.writer

/-- Is the writer of a value that a SET COMPENSATION replaces on some channel of the mask this port (R49)? -/
def State.supersededAt (s : State) (cs : List Chan) (q : Port) : Bool :=
  cs.any (fun c => (s.comp.get c).superseded == some q)

/-- SET COMPENSATION on the channels of its mask, all in one taking (R45, R47 to R49). -/
def writeComp (p : Port) (cs : List Chan) (weight offset : BitVec 32) (s : State) : State :=
  let s1 := cs.foldl (fun t c => t.onComp c (CompEntry.write p weight offset)) s
  let s2 := postWhere .compSuperseded (s.supersededAt cs) s1
  announceApplied (cs.filter (fun c => (s.comp.get c).unpinned)) s2

/-- The outcome block of one channel (R50): from the entry before and the entry after. -/
def outcomeBlock (before after : State) (c : Chan) : List Byte :=
  let e := before.comp.get c
  u8 c.num ++ u8 (if e.unpinned then 0 else 1) ++ u16 (after.comp.get c).version.toNat ++
  flag e.superseded.isSome ++ optional 1 (fun q : Port => u8 q.num) e.superseded

/-- SET COMPENSATION (R47). -/
def takeSetCompensation (p : Port) (payload : List Byte) (s : State) : Taken :=
  withMask 9 payload s fun m =>
    let s1 := writeComp p (maskChans m) (BitVec.ofNat 32 (numAt payload 1 4)) (BitVec.ofNat 32 (numAt payload 5 4)) s
    done ((maskChans m).flatMap (outcomeBlock s s1)) s1

/-- PIN COMPENSATION at one entry (R52). -/
def CompEntry.pin (p : Port) (now : Time) (hold : BitVec 16) (e : CompEntry) : CompEntry :=
  match e.pins.get p with
  | .none => e.setPin p (.timed now hold)
  | .timed _ _ => e.setPin p (.timed now hold)
  | .run => e

/-- The outcome of PIN COMPENSATION on a channel: PINNED, RENEWED, RUN_HELD (R52). -/
def pinOutcome (s : State) (p : Port) (c : Chan) : List Byte :=
  match (s.comp.get c).pins.get p with
  | .none => u8 0
  | .timed _ _ => u8 1
  | .run => u8 2

/-- PIN COMPENSATION (R52). -/
def takePinCompensation (p : Port) (payload : List Byte) (s : State) : Taken :=
  withMask 3 payload s fun m =>
    if numAt payload 1 2 = 0 then badValue s
    else
      done ((maskChans m).flatMap (pinOutcome s p))
        ((maskChans m).foldl (fun t c => t.onComp c (CompEntry.pin p s.time (BitVec.ofNat 16 (numAt payload 1 2)))) s)

/-- The outcome of UNPIN COMPENSATION on a channel: NONE, REMOVED, RUN_HELD (R55). -/
def unpinOutcome (s : State) (p : Port) (c : Chan) : List Byte :=
  match (s.comp.get c).pins.get p with
  | .none => u8 0
  | .timed _ _ => u8 1
  | .run => u8 2

/-- UNPIN COMPENSATION (R55): the port's TIMED pins go; emptied pin sets are handled by R57 as one change. -/
def takeUnpinCompensation (p : Port) (payload : List Byte) (s : State) : Taken :=
  withMask 1 payload s fun m =>
    done ((maskChans m).flatMap (unpinOutcome s p)) (removePins p (s.timedPins p (maskChans m)) s)

/-- The pin of a port in READ COMPENSATION: its code and, for a TIMED pin, its remaining hold time (R60). -/
def pinBytes (now : Time) (pin : Pin) : List Byte :=
  u8 pin.code ++
  optional 2 u16 (match pin with
    | .timed start hold => some (holdLeft now start hold)
    | _ => none)

/-- The block of one channel in READ COMPENSATION (R60). The pending value has one presence byte for its three parts
(assumption 13: the model's choice). -/
def compBlock (s : State) (c : Chan) : List Byte :=
  let e := s.comp.get c
  u8 c.num ++ u32 e.weight.toNat ++ u32 e.offset.toNat ++ u16 e.version.toNat ++
  pinBytes s.time e.pins.p0 ++ pinBytes s.time e.pins.p1 ++ pinBytes s.time e.pins.p2 ++
  optional 9 (fun v : PendingComp => u32 v.weight.toNat ++ u32 v.offset.toNat ++ u8 v.writer.num) e.slot

/-- READ COMPENSATION (R60). -/
def takeReadCompensation (_p : Port) (payload : List Byte) (s : State) : Taken :=
  withMask 1 payload s fun m => done ((maskChans m).flatMap (compBlock s)) s

/-- The expiry of a TIMED pin (R56): the pin is removed, PIN_EXPIRED to its holder, and R57 if the set is empty. -/
def expirePin (c : Chan) (p : Port) (s : State) : State :=
  applyDueSlots [c] (post .pinExpired p (s.onComp c (CompEntry.setPin p .none)))

/-- PIN_HOLD_EXPIRY (R56): taken where the hold time has run out; elsewhere the expiry does not take place (R58;
assumption 3). -/
def execPinHoldExpiry (c : Chan) (p : Port) (s : State) : Host.Outcome State Fault Refusal :=
  performed <| if s.pinDue c p then expirePin c p s else s

/-- SET_COMPENSATION: the request at its port. -/
def execSetCompensation (r : Req) (s : State) : Host.Outcome State Fault Refusal :=
  performed (requestStep RequestKind.setCompensation.code takeSetCompensation r s)

/-- PIN_COMPENSATION: the request at its port. -/
def execPinCompensation (r : Req) (s : State) : Host.Outcome State Fault Refusal :=
  performed (requestStep RequestKind.pinCompensation.code takePinCompensation r s)

/-- UNPIN_COMPENSATION: the request at its port. -/
def execUnpinCompensation (r : Req) (s : State) : Host.Outcome State Fault Refusal :=
  performed (requestStep RequestKind.unpinCompensation.code takeUnpinCompensation r s)

/-- READ_COMPENSATION: the request at its port. -/
def execReadCompensation (r : Req) (s : State) : Host.Outcome State Fault Refusal :=
  performed (requestStep RequestKind.readCompensation.code takeReadCompensation r s)

end Sys2Proof.Machine
end

