-- ==== Sys2Proof/Machine/Origins.lean ====
section
/-! DEFINITION. Machine/Origins.lean: the requests of a port context: origins, position reads, counters (Chapter 4). -/

namespace Sys2Proof.Machine

/-- Does a request of this port on these channels move the frame of its running scan (R69, R71)? -/
def State.movesFrame (s : State) (p : Port) (cs : List Chan) : Bool :=
  s.seq.claimant == some p && s.seq.state == .tracking && cs.any Chan.feedsLine

/-- The lowest channel of a list that is not TRACKING (R69). -/
def State.firstNotTracking (s : State) (cs : List Chan) : Option Chan :=
  cs.find? (fun c => (s.chans.get c).state != .tracking)

/-- The value a SET ORIGIN gives the view: 0 in mode HERE, the value field in mode VALUE where it is in range; none
for a request the field checks refuse (R69). -/
def originValue (payload : List Byte) : Option Int :=
  match numAt payload 1 1 with
  | 0 => some 0
  | 1 =>
    let v := intAt payload 2 8
    if -(2 ^ 47) ≤ v ∧ v ≤ 2 ^ 47 - 1 then some v else none
  | _ => none

/-- The origin that makes a channel's present place read a value (R70). -/
def boundOrigin (u : ChannelUnit) (value : Int) : Origin := ⟨u.raw - BitVec.ofInt 48 value, u.epoch, .bound⟩

/-- SET ORIGIN on the channels of its mask, in one taking, handed to the compare table (R70). -/
def bindOrigins (p : Port) (cs : List Chan) (value : Int) (s : State) : State :=
  pointsOnOrigins p cs
    { s with origins := s.origins.modify p (fun os =>
        cs.foldl (fun os c => os.set c (boundOrigin (s.chans.get c) value)) os) }

/-- The block of one channel in the SET ORIGIN response (R70). -/
def originBlock (after : State) (p : Port) (c : Chan) : List Byte :=
  let o := (after.origins.get p).get c
  u8 c.num ++ i64 o.count.toInt ++ u16 o.epoch.toNat ++ i64 ((after.chans.get c).raw - o.count).toInt

/-- SET ORIGIN (R69, R70). -/
def takeSetOrigin (p : Port) (payload : List Byte) (s : State) : Taken :=
  withMask 10 payload s fun m =>
    let cs := maskChans m
    match originValue payload with
    | none => badValue s
    | some v =>
      if s.movesFrame p cs then refuse .scanActive [] s
      else
        match s.firstNotTracking cs with
        | some c => refuse .notTracking (u8 c.num) s
        | none => done (cs.flatMap (originBlock (bindOrigins p cs v s) p)) (bindOrigins p cs v s)

/-- CLEAR ORIGIN on the channels of its mask, handed to the compare table (R71; assumption 10). -/
def freeOrigins (p : Port) (cs : List Chan) (s : State) : State :=
  pointsOnOrigins p cs
    { s with origins := s.origins.modify p (fun os => cs.foldl (fun os c => os.set c Origin.free) os) }

/-- CLEAR ORIGIN (R71). -/
def takeClearOrigin (p : Port) (payload : List Byte) (s : State) : Taken :=
  withMask 1 payload s fun m =>
    let cs := maskChans m
    if s.movesFrame p cs then refuse .scanActive [] s
    else done (cs.flatMap (fun c => u8 ((s.origins.get p).get c).status.code)) (freeOrigins p cs s)

/-- The block of one channel in READ POSITION (R73). Origin count and origin epoch, one row of its table, have a presence
byte each (assumption 13: the model's choice). -/
def positionBlock (s : State) (p : Port) (c : Chan) : List Byte :=
  let u := s.chans.get c
  let o := (s.origins.get p).get c
  let held := o.status != .free
  u8 c.num ++ u8 u.state.code ++ u16 u.epoch.toNat ++ u8 o.status.code ++
  optional 8 i64 (if held then some o.count.toInt else none) ++
  optional 2 u16 (if held then some o.epoch.toNat else none) ++
  optional 8 i64 (s.view p c) ++
  optional 2 u16 (if u.state = .tracking then some (ageAt s.time u.lastTime) else none) ++
  optional 8 i64 (s.compValue p c) ++ u16 (s.comp.get c).version.toNat

/-- READ POSITION (R73). L and D have a presence byte each (assumption 13: the model's choice). -/
def takeReadPosition (p : Port) (payload : List Byte) (s : State) : Taken :=
  withMask 1 payload s fun m =>
    done (u64 s.time.toNat ++ (maskChans m).flatMap (positionBlock s p) ++
      optional 8 i64 (s.line p) ++ optional 8 i64 (s.yaw p)) s

/-! ## Counter groups (R74, R75) -/

/-- The nine counter groups (R74). -/
inductive Group where
  | chan (c : Chan)
  | inputs
  | capture
  | sequencer
  deriving DecidableEq, Repr

/-- The group of a number, 0 to 8; none above (R74, R75). -/
def Group.ofNum (n : Nat) : Option Group :=
  match n with
  | 6 => some .inputs
  | 7 => some .capture
  | 8 => some .sequencer
  | _ => (Chan.ofNum n).map .chan

/-- The six totals of a channel unit in the order of R25. -/
def ChanTotals.toList (t : ChanTotals) : List Total := [t.accepted, t.crc, t.sat, t.skip, t.level, t.gap]

/-- The totals of a group in the group's order (R25, R100, R149). -/
def Totals.group (t : Totals) : Group → List Total
  | .chan c => (t.chans.get c).toList
  | .inputs =>
    [t.inputs.det.accepted, t.inputs.det.heldOff, t.inputs.aux0.accepted, t.inputs.aux0.heldOff,
     t.inputs.aux1.accepted, t.inputs.aux1.heldOff]
  | .capture => [t.capture.admitted, t.capture.discarded, t.capture.overrun, t.capture.completed]
  | .sequencer => [t.seq.started, t.seq.line, t.seq.missed, t.seq.stray, t.seq.lost, t.seq.fault]

/-- Baselines with one group moved up to the totals (R75). -/
def Totals.moveGroup (b t : Totals) : Group → Totals
  | .chan c => { b with chans := b.chans.set c (t.chans.get c) }
  | .inputs => { b with inputs := t.inputs }
  | .capture => { b with capture := t.capture }
  | .sequencer => { b with seq := t.seq }

/-- The deltas of a group against a port's baselines, modulo 2^32 (R75). -/
def State.deltas (s : State) (p : Port) (g : Group) : List Total :=
  List.zipWith (fun t b => t - b) (s.totals.group g) ((s.baselines.get p).group g)

/-- READ COUNTERS (R75). -/
def takeReadCounters (p : Port) (payload : List Byte) (s : State) : Taken :=
  if payload.length = 1 then
    match Group.ofNum (numAt payload 0 1) with
    | none => badValue s
    | some g =>
      done ((s.deltas p g).flatMap (fun d => u32 d.toNat) ++ u64 s.time.toNat)
        { s with baselines := s.baselines.modify p (fun b => b.moveGroup s.totals g) }
  else badValue s

/-- SET_ORIGIN: the request at its port. -/
def execSetOrigin (r : Req) (s : State) : Host.Outcome State Fault Refusal :=
  performed (requestStep RequestKind.setOrigin.code takeSetOrigin r s)

/-- CLEAR_ORIGIN: the request at its port. -/
def execClearOrigin (r : Req) (s : State) : Host.Outcome State Fault Refusal :=
  performed (requestStep RequestKind.clearOrigin.code takeClearOrigin r s)

/-- READ_POSITION: the request at its port. -/
def execReadPosition (r : Req) (s : State) : Host.Outcome State Fault Refusal :=
  performed (requestStep RequestKind.readPosition.code takeReadPosition r s)

/-- READ_COUNTERS: the request at its port. -/
def execReadCounters (r : Req) (s : State) : Host.Outcome State Fault Refusal :=
  performed (requestStep RequestKind.readCounters.code takeReadCounters r s)

end Sys2Proof.Machine
end

