-- ==== Sys2Proof/Machine/Captures.lean ====
section
/-! DEFINITION. Machine/Captures.lean: the trigger inputs, the capture engine's requests and SYNC (Chapter 5). -/

namespace Sys2Proof.Machine

/-! ## Edges (R79 to R82) -/

/-- The input after an accepted edge (R80): HOLDOFF until the edge's time plus the hold-off, unless that is 0. -/
def TrigInput.acceptEdge (now : Time) (t : TrigInput) : TrigInput :=
  { t with edgeSeen := true,
           holdOffUntil := if t.holdOff = 0 then none else some (now + t.holdOff.setWidth 48) }

/-- An accepted edge handed on (R82): a DET edge to the sequencer while it is TRACKING, else a trigger. -/
def handEdge (i : Input) (s : State) : State :=
  if i = .det ∧ s.seq.state = .tracking then sequencerEdge s else hand (.input i) s

/-- An edge that finds its input READY is accepted, one that finds it HOLDOFF is held off (R80). -/
def takeEdge (i : Input) (s : State) : State :=
  match (s.inputs.get i).holdOffUntil with
  | none =>
    handEdge i ((s.onInput i (TrigInput.acceptEdge s.time)).onInputTotals i
      (fun t => { t with accepted := t.accepted + 1 }))
  | some _ =>
    (s.onInput i (fun t => { t with edgeSeen := true })).onInputTotals i
      (fun t => { t with heldOff := t.heldOff + 1 })

/-- Is a transition an edge that the part sees (R79)? The input is enabled and selects it, and no edge was seen on
the pin in this REFCLK period (assumption 8). -/
def TrigInput.sees (t : TrigInput) (e : Edge) : Bool := t.enabled && t.edge == e && !t.edgeSeen

/-- EDGE (R79, R80): a transition of a polarity on a pin. -/
def execEdge (i : Input) (e : Edge) (s : State) : Host.Outcome State Fault Refusal :=
  performed <| if (s.inputs.get i).sees e then takeEdge i s else s

/-- Has an input's hold-off run out (R80)? The expiry time is at or before the present time. -/
def TrigInput.holdOffDue (now : Time) (t : TrigInput) : Bool :=
  match t.holdOffUntil with
  | some u => decide (elapsed now u < 2 ^ 47)
  | none => false

/-- HOLD_OFF_EXPIRY (R80): taken where the expiry time has come; elsewhere it does not take place (assumption 3). -/
def execHoldOffExpiry (i : Input) (s : State) : Host.Outcome State Fault Refusal :=
  performed <|
    if (s.inputs.get i).holdOffDue s.time then s.onInput i (fun t => { t with holdOffUntil := none }) else s

/-- The input after CONFIGURE INPUT (R81): a disabled input returns to READY, a running hold-off is completed. -/
def TrigInput.configure (enabled : Bool) (edge : Edge) (holdOff : BitVec 16) (t : TrigInput) : TrigInput :=
  { t with enabled := enabled, edge := edge, holdOff := holdOff,
           holdOffUntil := if enabled then t.holdOffUntil else none }

/-- Does a CONFIGURE INPUT change any of the three fields (R81)? -/
def TrigInput.changed (enabled : Bool) (edge : Edge) (holdOff : BitVec 16) (t : TrigInput) : Bool :=
  t.enabled != enabled || t.edge != edge || t.holdOff != holdOff

/-- CONFIGURE INPUT (R81). -/
def takeConfigureInput (p : Port) (payload : List Byte) (s : State) : Taken :=
  if payload.length = 5 then
    match Input.ofNum (numAt payload 0 1), edgeOf (numAt payload 2 1) with
    | some i, some e =>
      let en := flagAt payload 1
      let h := BitVec.ofNat 16 (numAt payload 3 2)
      done [] (announceChange ((s.inputs.get i).changed en e h) p (s.onInput i (TrigInput.configure en e h)))
    | _, _ => badValue s
  else badValue s

/-! ## CAPTURE NOW and settle arms (5-5, 5-6) -/

/-- The capture outcome in the form R93 gives: its code and, for ADMITTED, the capture number. -/
def CaptureOutcome.code : CaptureOutcome → Nat
  | .admitted _ => 0 | .discarded => 1 | .overrun => 2

/-- The capture number of an ADMITTED outcome. -/
def CaptureOutcome.number : CaptureOutcome → Option Nat
  | .admitted n => some n.toNat
  | _ => none

/-- CAPTURE NOW (R93). -/
def takeCaptureNow (p : Port) (payload : List Byte) (s : State) : Taken :=
  if payload.length = 0 then
    done (u8 (outcomeOf (.request p) s).code ++ optional 4 u32 (outcomeOf (.request p) s).number)
      (hand (.request p) s)
  else badValue s

/-- The ARM SETTLE response (R94): ARMED or FIRED, whether an arm was replaced and its mask, and for FIRED the
capture outcome. The mask has a presence byte after the indication, and the outcome and its capture number have one
each (assumption 13: the model's choice). -/
def armBytes (fired : Option CaptureOutcome) (old : Option ChanMask) : List Byte :=
  u8 fired.isSome.toNat ++ flag old.isSome ++ optional 1 (fun m : ChanMask => u8 m.toNat) old ++
  optional 1 u8 (fired.map CaptureOutcome.code) ++ optional 4 u32 (fired.bind CaptureOutcome.number)

/-- ARM SETTLE (R94): the new arm replaces the old one and fires at once if every channel of it is SETTLED. -/
def takeArmSettle (p : Port) (payload : List Byte) (s : State) : Taken :=
  withMask 1 payload s fun m =>
    match s.firstNotTracking (maskChans m) with
    | some c => refuse .notTracking (u8 c.num) s
    | none =>
      let s1 := { s with arms := s.arms.set p (some m) }
      if s1.allSettled m then
        done (armBytes (some (outcomeOf (.settle p m) s1)) (s.arms.get p)) (fireArm p m s1)
      else done (armBytes none (s.arms.get p)) s1

/-- CANCEL SETTLE (R96). The mask has a presence byte after the indication (assumption 13: the model's choice). -/
def takeCancelSettle (p : Port) (payload : List Byte) (s : State) : Taken :=
  if payload.length = 0 then
    done (flag (s.arms.get p).isSome ++ optional 1 (fun m : ChanMask => u8 m.toNat) (s.arms.get p))
      { s with arms := s.arms.set p none }
  else badValue s

/-- The fields of one input in READ CAPTURE STATUS (R99). -/
def inputBytes (t : TrigInput) : List Byte :=
  flag t.enabled ++ u8 (edgeCode t.edge) ++ u16 t.holdOff.toNat ++ u8 t.holdOffUntil.isSome.toNat

/-- READ CAPTURE STATUS (R99). -/
def takeReadCaptureStatus (p : Port) (payload : List Byte) (s : State) : Taken :=
  if payload.length = 0 then
    done (u64 s.time.toNat ++ inputBytes s.inputs.det ++ inputBytes s.inputs.aux0 ++ inputBytes s.inputs.aux1 ++
      u8 s.queue.length ++ u8 s.engine.code ++ optional 4 u32 (s.queue.head?.map (fun e => e.number.toNat)) ++
      u32 s.nextNumber.toNat ++ optional 1 (fun m : ChanMask => u8 m.toNat) (s.arms.get p) ++ flag s.sync.isSome) s
  else badValue s

/-! ## SYNC (R97) -/

/-- Has the SYNC pulse run 1 µs since the last firing (R97)? -/
def State.syncDue (s : State) : Bool :=
  match s.sync with
  | some t => decide (Config.syncPeriods ≤ elapsed s.time t)
  | none => false

/-- SYNC_PULSE_END (R97): taken where the pulse has run; elsewhere it does not take place (assumption 3). -/
def execSyncPulseEnd (s : State) : Host.Outcome State Fault Refusal :=
  performed <| if s.syncDue then { s with sync := none } else s

/-- CONFIGURE_INPUT: the request at its port. -/
def execConfigureInput (r : Req) (s : State) : Host.Outcome State Fault Refusal :=
  performed (requestStep RequestKind.configureInput.code takeConfigureInput r s)

/-- CAPTURE_NOW: the request at its port. -/
def execCaptureNow (r : Req) (s : State) : Host.Outcome State Fault Refusal :=
  performed (requestStep RequestKind.captureNow.code takeCaptureNow r s)

/-- ARM_SETTLE: the request at its port. -/
def execArmSettle (r : Req) (s : State) : Host.Outcome State Fault Refusal :=
  performed (requestStep RequestKind.armSettle.code takeArmSettle r s)

/-- CANCEL_SETTLE: the request at its port. -/
def execCancelSettle (r : Req) (s : State) : Host.Outcome State Fault Refusal :=
  performed (requestStep RequestKind.cancelSettle.code takeCancelSettle r s)

/-- READ_CAPTURE_STATUS: the request at its port. -/
def execReadCaptureStatus (r : Req) (s : State) : Host.Outcome State Fault Refusal :=
  performed (requestStep RequestKind.readCaptureStatus.code takeReadCaptureStatus r s)

end Sys2Proof.Machine
end

