-- ==== Sys2Proof/Machine/Records.lean ====
section
/-! DEFINITION. Machine/Records.lean: building a capture record from a queue entry (R91, R119 to R122) and its layout as
words (R192). -/

namespace Sys2Proof.Machine

/-- The view of a snapshot's channel through an origin (R67, R120). -/
def ChanSnap.view (c : ChanSnap) (o : Origin) : Option Int := viewOf c.state c.raw o

/-- The compensated value of a snapshot's channel through an origin (R42, R120). -/
def ChanSnap.compValue (c : ChanSnap) (o : Origin) : Option Int := compOf (c.view o) c.weight c.offset

/-- The channel block of a record (R120). -/
def buildChan (c : ChanSnap) (o : Origin) : RecordChan :=
  { state := c.state, epoch := c.epoch, status := o.status, version := c.version, age := c.age,
    view := c.view o, comp := c.compValue o }

/-- L formed from a snapshot's CH0 and CH1 through a pair of origins (R91, R121). -/
def Snapshot.lineThrough (n : Snapshot) (o0 o1 : Origin) : Option Int :=
  (bothOf (n.chans.ch0.compValue o0) (n.chans.ch1.compValue o1)).map (fun v => lineOf v.1 v.2)

/-- The deviation of a LINE record: L in the frame minus the nominal (R122). The window is OPEN at a LINE decision, so
the difference is no more than a half-width and fits its field (R139, R136). -/
def deviationOf (src : Source) (n : Snapshot) : Option Int :=
  match src, n.frame with
  | .sequence _ _ (.line e _), some f => (n.lineThrough f.1 f.2).map (fun l => l - e.nominal.toInt)
  | _, _ => none

/-- The record of one routed port, built from the snapshot alone (R91). -/
def buildRecord (e : QueueEntry) (p : Port) : Record :=
  let os := (e.snap.origins.get p).getD (PerChan.const Origin.free)
  { number := e.number, source := e.source, time := e.snap.time
    chans := PerChan.ofFn (fun c => buildChan (e.snap.chans.get c) (os.get c))
    lineYaw := (bothOf (e.snap.chans.ch0.compValue os.ch0) (e.snap.chans.ch1.compValue os.ch1)).map
      (fun v => (lineOf v.1 v.2, yawOf v.1 v.2))
    deviation := deviationOf e.source e.snap }

/-! ## Layout (R192) -/

/-- The code of a record kind (R119, R189): TRIGGER but for the sequencer's decisions. -/
def Source.kindCode : Source → Nat
  | .sequence _ _ (.line _ _) => 1
  | .sequence _ _ (.missed _) => 2
  | .sequence _ _ (.stray _) => 3
  | .sequence _ _ (.halt _ _ _ _ _ _) => 4
  | _ => 0

/-- The code of a source (R189). -/
def Source.code : Source → Nat
  | .input i => i.num
  | .compare _ _ _ => 3
  | .request _ => 4
  | .settle _ _ => 5
  | .sequence _ _ _ => 6

/-- The source detail, as bits of word 1 counted from bit 16 (R192). -/
def Source.detail : Source → Nat
  | .input i => i.num
  | .compare slot owner shared => slot.val + 32 * owner.num + 128 * shared.toNat
  | .request p => p.num
  | .settle p m => p.num + 256 * m.toNat
  | .sequence f _ _ => f.num

/-- The entry that a source's record names (R122). -/
def Source.entry : Source → Option EntryRef
  | .sequence _ _ (.line e _) => some e
  | .sequence _ _ (.missed e) => some e
  | .sequence _ _ (.stray e) => some e
  | .sequence _ _ (.halt _ e _ _ _ _) => e
  | _ => none

/-- The pulse ordinal of a LINE record (R122). -/
def Source.ordinal : Source → Option Nat
  | .sequence _ _ (.line _ n) => some n
  | _ => none

/-- One word of a record. -/
abbrev Word32 := BitVec 32

/-- A word of a number. -/
def word (n : Nat) : Word32 := BitVec.ofNat 32 n

/-- A 64-bit two's-complement value in two words, low word first (R192; assumption 17). -/
def twoWords (v : Int) : List Word32 :=
  [(BitVec.ofInt 64 v).extractLsb' 0 32, (BitVec.ofInt 64 v).extractLsb' 32 32]

/-- The words of the halt block of a HALT record (R192). -/
def Source.haltWords : Source → List Word32
  | .sequence _ _ (.halt cause _ found missed stray lost) =>
    [word cause.code, word (found + 65536 * missed), word (stray + 65536 * lost)]
  | _ => []

/-- The words of an entry: index and tag, then the nominal (R192). -/
def EntryRef.words (e : EntryRef) : List Word32 := word (e.index + 65536 * e.tag.toNat) :: twoWords e.nominal.toInt

/-- The channel blocks in channel order. -/
def Record.blocks (r : Record) : List RecordChan := Chan.all.map r.chans.get

/-- Bits from a position on, one for each element of a list, set where it is present. -/
def presentBits (at_ : Nat) : List Bool → Nat
  | [] => 0
  | b :: bs => b.toNat * 2 ^ at_ + presentBits (at_ + 1) bs

/-- The presence mask, word 2 (R192). -/
def Record.mask (r : Record) : Nat :=
  presentBits 0 (r.blocks.map (fun b => b.age.isSome)) +
  presentBits 6 (r.blocks.map (fun b => b.view.isSome)) +
  presentBits 12 (r.blocks.map (fun b => b.comp.isSome)) +
  presentBits 18 [r.lineYaw.isSome, r.source.entry.isSome, r.source.ordinal.isSome, r.deviation.isSome,
    !r.source.haltWords.isEmpty]

/-- The pair of words of one channel in the fixed part (R192). -/
def RecordChan.words (b : RecordChan) : List Word32 :=
  [word (b.epoch.toNat + 65536 * b.state.code + 262144 * b.status.code),
   word (b.version.toNat + 65536 * b.age.getD 0)]

/-- The optional part (R192): views, compensated values, L and D, entry, ordinal, deviation, halt block. -/
def Record.optionalWords (r : Record) : List Word32 :=
  (r.blocks.filterMap RecordChan.view).flatMap twoWords ++
  (r.blocks.filterMap RecordChan.comp).flatMap twoWords ++
  (r.lineYaw.toList.flatMap (fun v => twoWords v.1 ++ twoWords v.2)) ++
  (r.source.entry.toList.flatMap EntryRef.words) ++
  (r.source.ordinal.toList.map word) ++
  (r.deviation.toList.flatMap twoWords) ++
  r.source.haltWords

/-- The words of a record (R192). -/
def Record.words (r : Record) : List Word32 :=
  let opt := r.optionalWords
  [word r.number.toNat,
   word (17 + opt.length + 256 * r.source.kindCode + 4096 * r.source.code + 65536 * r.source.detail),
   word r.mask, word r.time.toNat, word (r.time.toNat / 2 ^ 32)] ++
  r.blocks.flatMap RecordChan.words ++ opt

/-- The bytes of a record, each word little-endian (R192). -/
def Record.bytes (r : Record) : List Byte := r.words.flatMap (fun w => leBytes 4 w.toNat)

end Sys2Proof.Machine
end

