-- ==== Sys2Proof/Machine/Rings.lean ====
section
/-! DEFINITION. Machine/Rings.lean: completion and delivery (R90, R91), and the ring requests (Chapter 6). -/

namespace Sys2Proof.Machine

/-! ## Delivery (6-3) -/

/-- A ring that takes a delivered record (R106, R107). -/
def Ring.deliver (rec : Record) (r : Ring) : Ring :=
  if r.records.length < Config.ringRoom then { r with records := r.records ++ [rec] }
  else
    match r.policy with
    | .keepOld => { r with drops := satInc 65535 r.drops }
    | .keepNew => { r with records := r.records.tail ++ [rec], overwrites := satInc 65535 r.overwrites }

/-- Does a delivery bring the level to the threshold from below (R106)? -/
def Ring.reaches (r : Ring) : Bool :=
  decide (r.records.length < Config.ringRoom) && r.records.length + 1 == r.threshold

/-- Does a delivery meet a full ring (R107)? -/
def Ring.full (r : Ring) : Bool := decide (Config.ringRoom ≤ r.records.length)

/-- The records of an entry delivered to every routed ring, with RING_DATA and RING_OVERFLOW (R91, R106, R107). -/
def deliver (e : QueueEntry) (s : State) : State :=
  let s1 := { s with rings := PerPort.ofFn (fun p =>
    if e.route.get p then (s.rings.get p).deliver (buildRecord e p) else s.rings.get p) }
  let s2 := postWhere .ringData (fun p => e.route.get p && (s.rings.get p).reaches) s1
  postWhere .ringOverflow (fun p => e.route.get p && (s.rings.get p).full) s2

/-- The end of the completion of the oldest entry (R90, R91, R92, R111): its records are delivered, it leaves the
queue, the next completion begins at once or the engine becomes IDLE, and the DRAINING rings hear the report. -/
def endCompletion (e : QueueEntry) (rest : List QueueEntry) (s : State) : State :=
  let s1 := deliver e s
  let s2 := { s1 with queue := rest, engine := if rest.isEmpty then .idle else .completing s.time }
  reportRouting (s2.onCaptureTotals (fun t => { t with completed := t.completed + 1 }))

/-- COMPLETION_END (R90): taken while an entry is under completion; otherwise it does not take place (assumption 3). -/
def execCompletionEnd (s : State) : Host.Outcome State Fault Refusal :=
  performed <|
    match s.engine, s.queue with
    | .completing _, e :: rest => endCompletion e rest s
    | .completing _, [] => { s with engine := .idle }
    | .idle, _ => s

/-! ## Ring requests (6-4 to 6-6) -/

/-- START RING (R109). -/
def takeStartRing (p : Port) (payload : List Byte) (s : State) : Taken :=
  if payload.length = 0 then
    done (u8 (s.rings.get p).state.code) (s.onRing p (fun r => { r with state := .active }))
  else badValue s

/-- The state of a ring after STOP RING with so many entries routed to it (R110). -/
def stoppedState (routedNow : Nat) : RingState → RingState
  | .active => if routedNow = 0 then .stopped else .draining
  | .stopped => .stopped
  | .draining => .draining

/-- STOP RING (R110). -/
def takeStopRing (p : Port) (payload : List Byte) (s : State) : Taken :=
  if payload.length = 0 then
    let st := stoppedState (s.routedEntries p) (s.rings.get p).state
    done (u8 st.code ++ u8 (s.routedEntries p)) (s.onRing p (fun r => { r with state := st }))
  else badValue s

/-- CLEAR RING (R113). -/
def takeClearRing (p : Port) (payload : List Byte) (s : State) : Taken :=
  if payload.length = 0 then
    done (u8 (s.rings.get p).records.length)
      (s.onRing p (fun r => { r with records := [], drops := 0, overwrites := 0 }))
  else badValue s

/-- SET RING POLICY (R114). -/
def takeSetRingPolicy (p : Port) (payload : List Byte) (s : State) : Taken :=
  if payload.length = 2 then
    match ringPolicyOf (numAt payload 0 1) with
    | some pol =>
      let n := numAt payload 1 1
      if 1 ≤ n ∧ n ≤ 64 then
        done (u8 (s.rings.get p).policy.code ++ u8 (s.rings.get p).threshold)
          (s.onRing p (fun r => { r with policy := pol, threshold := n }))
      else badValue s
    | none => badValue s
  else badValue s

/-- SET SUBSCRIPTION (R115). -/
def takeSetSubscription (p : Port) (payload : List Byte) (s : State) : Taken :=
  if payload.length = 1 then
    let m := numAt payload 0 1
    if m < 32 then
      done (u8 (s.subs.get p).toNat) { s with subs := s.subs.set p (BitVec.ofNat 5 m) }
    else badValue s
  else badValue s

/-- A TAKE RECORDS or PEEK RECORDS response: level, number of records, two bytes of 0, the records (R192). -/
def recordsBytes (level : Nat) (rs : List Record) : List Byte :=
  u8 level ++ u8 rs.length ++ [0, 0] ++ rs.flatMap Record.bytes

/-- TAKE RECORDS (R116). -/
def takeTakeRecords (p : Port) (payload : List Byte) (s : State) : Taken :=
  if payload.length = 1 then
    let n := numAt payload 0 1
    if 1 ≤ n ∧ n ≤ 8 then
      let rs := (s.rings.get p).records
      done (recordsBytes (rs.drop n).length (rs.take n)) (s.onRing p (fun r => { r with records := r.records.drop n }))
    else badValue s
  else badValue s

/-- PEEK RECORDS (R117). -/
def takePeekRecords (p : Port) (payload : List Byte) (s : State) : Taken :=
  if payload.length = 2 then
    let start := numAt payload 0 1
    let n := numAt payload 1 1
    if start ≤ 63 ∧ 1 ≤ n ∧ n ≤ 8 then
      let rs := (s.rings.get p).records
      done (recordsBytes rs.length ((rs.drop start).take n)) s
    else badValue s
  else badValue s

/-- READ RING STATUS (R118). The oldest and the newest capture number have a presence byte each (assumption 13: the
model's choice). -/
def takeReadRingStatus (p : Port) (payload : List Byte) (s : State) : Taken :=
  if payload.length = 0 then
    let r := s.rings.get p
    done (u8 r.state.code ++ u8 r.records.length ++ u8 r.policy.code ++ u8 r.threshold ++ u16 r.drops ++
      u16 r.overwrites ++ u8 (s.subs.get p).toNat ++ u8 (s.routedEntries p) ++
      optional 4 u32 (r.records.head?.map (fun x => x.number.toNat)) ++
      optional 4 u32 (r.records.getLast?.map (fun x => x.number.toNat))) s
  else badValue s

/-- START_RING: the request at its port. -/
def execStartRing (r : Req) (s : State) : Host.Outcome State Fault Refusal :=
  performed (requestStep RequestKind.startRing.code takeStartRing r s)

/-- STOP_RING: the request at its port. -/
def execStopRing (r : Req) (s : State) : Host.Outcome State Fault Refusal :=
  performed (requestStep RequestKind.stopRing.code takeStopRing r s)

/-- CLEAR_RING: the request at its port. -/
def execClearRing (r : Req) (s : State) : Host.Outcome State Fault Refusal :=
  performed (requestStep RequestKind.clearRing.code takeClearRing r s)

/-- SET_RING_POLICY: the request at its port. -/
def execSetRingPolicy (r : Req) (s : State) : Host.Outcome State Fault Refusal :=
  performed (requestStep RequestKind.setRingPolicy.code takeSetRingPolicy r s)

/-- SET_SUBSCRIPTION: the request at its port. -/
def execSetSubscription (r : Req) (s : State) : Host.Outcome State Fault Refusal :=
  performed (requestStep RequestKind.setSubscription.code takeSetSubscription r s)

/-- TAKE_RECORDS: the request at its port. -/
def execTakeRecords (r : Req) (s : State) : Host.Outcome State Fault Refusal :=
  performed (requestStep RequestKind.takeRecords.code takeTakeRecords r s)

/-- PEEK_RECORDS: the request at its port. -/
def execPeekRecords (r : Req) (s : State) : Host.Outcome State Fault Refusal :=
  performed (requestStep RequestKind.peekRecords.code takePeekRecords r s)

/-- READ_RING_STATUS: the request at its port. -/
def execReadRingStatus (r : Req) (s : State) : Host.Outcome State Fault Refusal :=
  performed (requestStep RequestKind.readRingStatus.code takeReadRingStatus r s)

end Sys2Proof.Machine
end

