-- ==== Sys2Proof/Machine/Sequencing.lean ====
section
/-! DEFINITION. Machine/Sequencing.lean: the requests of the line sequencer (Chapter 7). -/

namespace Sys2Proof.Machine

/-! ## Claiming and releasing (7-2) -/

/-- CLAIM SEQUENCER (R125). -/
def takeClaimSequencer (p : Port) (payload : List Byte) (s : State) : Taken :=
  if payload.length = 0 then
    match s.seq.claimant with
    | none =>
      done (flag false)
        (postOthers .configChanged p (s.onSeq (fun q => { q with state := .loading, claimant := some p })))
    | some c => if c = p then done (flag true) s else refuse .claimed (u8 c.num) s
  else badValue s

/-- Is a scan running? -/
def State.scanning (s : State) : Bool := s.seq.state == .tracking

/-- A running scan halted with a cause; nothing outside TRACKING. -/
def haltIfScanning (cause : HaltCause) (s : State) : State := if s.scanning then halt cause s else s

/-- RELEASE SEQUENCER (R126). -/
def takeReleaseSequencer (p : Port) (payload : List Byte) (s : State) : Taken :=
  if payload.length = 0 then
    if s.seq.claimant = some p then
      done (flag s.scanning) (postOthers .configChanged p (endClaim (haltIfScanning .stopped s)))
    else refuse .notClaimant [] s
  else badValue s

/-- FORCE RELEASE (R127). -/
def takeForceRelease (p : Port) (payload : List Byte) (s : State) : Taken :=
  if payload.length = 0 then
    match s.seq.claimant with
    | none => refuse .state [] s
    | some c =>
      if c = p then refuse .state [] s
      else
        done (u8 c.num ++ flag s.scanning)
          (postAll .scanHalted (post .claimLost c (endClaim (haltIfScanning .forced s))))
  else badValue s

/-! ## The line list (7-3) -/

/-- The entries that a LOAD LINES payload carries (R191). -/
def entriesAt (payload : List Byte) (n : Nat) : List LineEntry :=
  (List.range n).map (fun i => lineEntryAt payload (1 + 11 * i))

/-- The first entry of a request whose half-width is 0 (R129), by its place in the request counted from 0: R129 does not
say by what number it is named (assumption 14). -/
def firstEmptyWindow (es : List LineEntry) : Option Nat := es.findIdx? (fun e => e.halfWidth == 0)

/-- LOAD LINES (R129). The payload's length is judged first (R181; assumption 11). The refusal of a half-width of 0 names
the entry by its place in the request, counted from 0, in one byte (assumption 14: the model's choice). -/
def takeLoadLines (p : Port) (payload : List Byte) (s : State) : Taken :=
  let n := numAt payload 0 1
  if payload.length = 1 + 11 * n then
    if s.seq.claimant ≠ some p then refuse .notClaimant [] s
    else if s.seq.state = .tracking then refuse .state [] s
    else if n = 0 ∨ 16 < n then badValue s
    else
      match firstEmptyWindow (entriesAt payload n) with
      | some i => refuse .badValue (u8 i) s
      | none =>
        if Config.lineRoom < s.seq.lines.length + n then refuse .full [] s
        else
          done (u16 s.seq.lines.length ++ u16 (s.seq.lines.length + n))
            (postOthers .configChanged p
              (s.onSeq (fun q => { q with lines := q.lines ++ entriesAt payload n, state := .loading })))
  else badValue s

/-- CLEAR LINES (R130). -/
def takeClearLines (p : Port) (payload : List Byte) (s : State) : Taken :=
  if payload.length = 0 then
    if s.seq.claimant ≠ some p then refuse .notClaimant [] s
    else if s.seq.state = .tracking then refuse .state [] s
    else
      done (u16 s.seq.lines.length)
        (postOthers .configChanged p (s.onSeq (fun q => { q with lines := [], state := .loading })))
  else badValue s

/-! ## Starting and stopping a scan (7-4, 7-8) -/

/-- The lowest index whose window does not end strictly before the next begins (R132). -/
def orderFault : List LineEntry → Option Nat
  | a :: b :: rest => if b.low ≤ a.high then some 0 else (orderFault (b :: rest)).map (· + 1)
  | _ => none

/-- The lower of CH0 and CH1 that fails a test (R132). -/
def lowerFailing (ok : Chan → Bool) : Option Chan := [Chan.ch0, Chan.ch1].find? (fun c => !ok c)

/-- The counts a scan starts with, its run parameters and its first entry (R133). -/
def Sequencer.start (dir : ScanDir) (first : Nat) (strays : Bool) (q : Sequencer) : Sequencer :=
  { q with state := .tracking, dir := dir, first := first, reportStrays := strays, current := first,
           pulses := 0, found := 0, missed := 0, stray := 0, lost := 0, cause := .none }

/-- The window status of a first entry against a scan coordinate that does not lie beyond it (R133). -/
def firstWindow (e : LineEntry) (dir : ScanDir) (x : Int) : WindowStatus :=
  if e.near dir ≤ x then .opened else .before

/-- A START SCAN that passed every check (R133). -/
def startScan (p : Port) (dir : ScanDir) (first : Nat) (strays : Bool) (w : WindowStatus) (s : State) : State :=
  let s1 := placeRunPins p (s.onSeq (fun q => { q.start dir first strays with window := w }))
  postOthers .configChanged p (s1.onSeqTotals (fun t => { t with started := t.started + 1 }))

/-- The checks of START SCAN from the CH0 and CH1 checks on, for the first entry of the scan (R132, R133). -/
def checkAndStart (p : Port) (dir : ScanDir) (first : Nat) (strays : Bool) (e : LineEntry) (s : State) : Taken :=
  match lowerFailing (fun c => (s.chans.get c).state == .tracking) with
  | some c => refuse .notTracking (u8 c.num) s
  | none =>
    match lowerFailing (fun c => ((s.origins.get p).get c).status != .stale) with
    | some c => refuse .staleOrigin (u8 c.num) s
    | none =>
      match lowerFailing (fun c => (s.comp.get c).weight != 0), s.line p with
      | some c, _ => refuse .uncompensated (u8 c.num) s
      | none, none => refuse .uncompensated [] s
      | none, some l =>
        let x := scanCoord dir l
        if e.far dir < x then refuse .position (i64 l ++ i64 (e.far dir)) s
        else
          let w := firstWindow e dir x
          done (u64 s.time.toNat ++ i64 l ++ u8 w.code) (startScan p dir first strays w s)

/-- START SCAN (R132, R133). -/
def takeStartScan (p : Port) (payload : List Byte) (s : State) : Taken :=
  if payload.length = 4 then
    if s.seq.claimant ≠ some p then refuse .notClaimant [] s
    else if s.seq.state = .tracking then refuse .state [] s
    else
      let first := numAt payload 1 2
      match scanDirOf (numAt payload 0 1), s.seq.lines[first]? with
      | some dir, some e =>
        match orderFault s.seq.lines with
        | some k => refuse .listOrder (u16 k) s
        | none => checkAndStart p dir first (flagAt payload 3) e s
      | _, _ => badValue s
  else badValue s

/-- The four counts of a scan in a response (R145, R148). -/
def Sequencer.countBytes (q : Sequencer) : List Byte := u16 q.found ++ u16 q.missed ++ u16 q.stray ++ u16 q.lost

/-- STOP SCAN (R145). -/
def takeStopScan (p : Port) (payload : List Byte) (s : State) : Taken :=
  if payload.length = 0 then
    if s.seq.claimant ≠ some p then refuse .notClaimant [] s
    else if s.scanning then done (halt .stopped s).seq.countBytes (halt .stopped s)
    else refuse .state [] s
  else badValue s

/-- READ SEQUENCER (R148). -/
def takeReadSequencer (_p : Port) (payload : List Byte) (s : State) : Taken :=
  if payload.length = 3 then
    let start := numAt payload 0 2
    let n := numAt payload 2 1
    if start ≤ 511 ∧ n ≤ 16 then
      let q := s.seq
      let es := (q.lines.drop start).take n
      done (u8 q.state.code ++ optional 1 (fun p : Port => u8 p.num) q.claimant ++ u16 q.lines.length ++
        u8 q.dir.code ++ u16 q.first ++ flag q.reportStrays ++ u16 q.current ++ u8 q.window.code ++ u16 q.pulses ++
        q.countBytes ++ u8 q.cause.code ++ u8 es.length ++ es.flatMap LineEntry.bytes) s
    else badValue s
  else badValue s

/-- CLAIM_SEQUENCER: the request at its port. -/
def execClaimSequencer (r : Req) (s : State) : Host.Outcome State Fault Refusal :=
  performed (requestStep RequestKind.claimSequencer.code takeClaimSequencer r s)

/-- RELEASE_SEQUENCER: the request at its port. -/
def execReleaseSequencer (r : Req) (s : State) : Host.Outcome State Fault Refusal :=
  performed (requestStep RequestKind.releaseSequencer.code takeReleaseSequencer r s)

/-- FORCE_RELEASE: the request at its port. -/
def execForceRelease (r : Req) (s : State) : Host.Outcome State Fault Refusal :=
  performed (requestStep RequestKind.forceRelease.code takeForceRelease r s)

/-- LOAD_LINES: the request at its port. -/
def execLoadLines (r : Req) (s : State) : Host.Outcome State Fault Refusal :=
  performed (requestStep RequestKind.loadLines.code takeLoadLines r s)

/-- CLEAR_LINES: the request at its port. -/
def execClearLines (r : Req) (s : State) : Host.Outcome State Fault Refusal :=
  performed (requestStep RequestKind.clearLines.code takeClearLines r s)

/-- START_SCAN: the request at its port. -/
def execStartScan (r : Req) (s : State) : Host.Outcome State Fault Refusal :=
  performed (requestStep RequestKind.startScan.code takeStartScan r s)

/-- STOP_SCAN: the request at its port. -/
def execStopScan (r : Req) (s : State) : Host.Outcome State Fault Refusal :=
  performed (requestStep RequestKind.stopScan.code takeStopScan r s)

/-- READ_SEQUENCER: the request at its port. -/
def execReadSequencer (r : Req) (s : State) : Host.Outcome State Fault Refusal :=
  performed (requestStep RequestKind.readSequencer.code takeReadSequencer r s)

end Sys2Proof.Machine
end

