-- ==== Sys2Proof/Machine/Points.lean ====
section
/-! DEFINITION. Machine/Points.lean: the requests of the compare table (Chapter 8). -/

namespace Sys2Proof.Machine

/-- Is a threshold in the range of its subject (R159)? -/
def thresholdFits (sub : Subject) (t : Int) : Bool :=
  match sub with
  | .chan _ => decide (-(2 ^ 47) ≤ t ∧ t ≤ 2 ^ 47 - 1)
  | .line => true

/-- The point that an ADD POINT payload carries, for a slot, before its state is judged; none where a field check
refuses it (R159). Payload: kept, shared, replace, subject, threshold, direction, mode, hysteresis, actions. -/
def pointAtPayload (p : Port) (payload : List Byte) (slot : Fin 32) : Option Point :=
  match subjectOf (numAt payload 3 1), pointDirOf (numAt payload 12 1),
      pointModeOf (numAt payload 13 1) (numAt payload 14 2), actionsOf (numAt payload 16 1) with
  | some sub, some dir, some mode, some acts =>
    if thresholdFits sub (intAt payload 4 8) then
      some { slot := slot, owner := p, kept := flagAt payload 0, shared := flagAt payload 1, subject := sub,
             threshold := BitVec.ofNat 64 (numAt payload 4 8), dir := dir, mode := mode, actions := acts,
             state := .armed, lastSide := none, rearmDir := none, firings := 0 }
    else none
  | _, _, _, _ => none

/-- The state of a point at its addition (R159, R154). -/
def Point.initialState (s : State) (pt : Point) : PointState :=
  match availability s pt.owner pt.subject with
  | .inactive => .inactive
  | .suspended => .suspended
  | .available => .armed

/-- The slots in ascending order. -/
def slotList : List (Fin 32) := List.finRange 32

/-- The lowest free slot (R160). -/
def State.freeSlot (s : State) : Option (Fin 32) := slotList.find? (fun k => (s.pointAt k.val).isNone)

/-- The port's unkept point with the lowest creation order (R160). -/
def State.oldestUnkept (s : State) (p : Port) : Option Point :=
  s.points.find? (fun pt => pt.owner == p && !pt.kept)

/-- What R160 gives a new point: a free slot, the place of a replaced point, or a refusal. -/
inductive Room where
  | free (slot : Fin 32)
  | replace (old : Point)
  | refused (status : Status)
  deriving DecidableEq, Repr

/-- The room for a new point (R160). -/
def State.roomFor (s : State) (p : Port) (replace : Bool) : Room :=
  if s.owned p < Config.portPointRoom ∧ s.points.length < Config.pointRoom then
    match s.freeSlot with
    | some k => .free k
    | none => .refused .full
  else
    match (if replace then s.oldestUnkept p else none) with
    | some old => .replace old
    | none => .refused (if s.owned p < Config.portPointRoom then .full else .portLimit)

/-- The points without one slot's: the creation list closes up (R161). -/
def withoutSlot (k : Fin 32) (pts : List Point) : List Point := pts.filter (fun pt => pt.slot != k)

/-- The table with a new point at the end of the creation list (R159). -/
def addPointTo (pt : Point) (kept : List Point) (s : State) : State :=
  postOthers .configChanged pt.owner
    { s with points := kept ++ [{ pt with state := pt.initialState s }] }

/-- The ADD POINT response: slot, creation order, state, and for a replacement the old slot and firings (R159), with a
presence byte each (assumption 13: the model's choice). -/
def addedBytes (s : State) (pt : Point) (kept : List Point) (old : Option Point) : List Byte :=
  u8 pt.slot.val ++ u8 kept.length ++ u8 (pt.initialState s).code ++
  optional 1 (fun o : Point => u8 o.slot.val) old ++ optional 2 (fun o : Point => u16 o.firings) old

/-- ADD POINT (R159, R160). -/
def takeAddPoint (p : Port) (payload : List Byte) (s : State) : Taken :=
  if payload.length = 17 then
    match pointAtPayload p payload 0 with
    | none => badValue s
    | some pt =>
      match s.roomFor p (flagAt payload 2) with
      | .refused st => refuse st [] s
      | .free k =>
        done (addedBytes s { pt with slot := k } s.points none) (addPointTo { pt with slot := k } s.points s)
      | .replace old =>
        done (addedBytes s { pt with slot := old.slot } (withoutSlot old.slot s.points) (some old))
          (addPointTo { pt with slot := old.slot } (withoutSlot old.slot s.points) s)
  else badValue s

/-- REMOVE POINT (R161). -/
def takeRemovePoint (p : Port) (payload : List Byte) (s : State) : Taken :=
  if payload.length = 1 then
    let k := numAt payload 0 1
    if 31 < k then badValue s
    else
      match s.pointAt k with
      | none => refuse .state [] s
      | some pt =>
        if pt.owner ≠ p then refuse .notOwner (u8 pt.owner.num) s
        else
          done (u8 pt.state.code ++ u16 pt.firings)
            (postOthers .configChanged p { s with points := withoutSlot pt.slot s.points })
  else badValue s

/-- Does CLEAR POINTS in a scope remove a point of this port (R162)? -/
def clearedBy (p : Port) (all : Bool) (pt : Point) : Bool := pt.owner == p && (all || !pt.kept)

/-- The table without the points that a test picks. -/
def removePoints (which : Point → Bool) (s : State) : State :=
  { s with points := s.points.filter (fun pt => !which pt) }

/-- CLEAR POINTS (R162). -/
def takeClearPoints (p : Port) (payload : List Byte) (s : State) : Taken :=
  if payload.length = 1 then
    let scope := numAt payload 0 1
    if 1 < scope then badValue s
    else
      let n := (s.points.filter (clearedBy p (scope == 1))).length
      done (u8 n) (announceChange (n != 0) p (removePoints (clearedBy p (scope == 1)) s))
  else badValue s

/-- The block of one point in READ POINTS (R163). -/
def pointBlock (s : State) (pt : Point) : List Byte :=
  u8 pt.slot.val ++ u8 pt.owner.num ++ flag pt.kept ++ flag pt.shared ++ u8 pt.subject.code ++ i64 pt.level ++
  u8 pt.dir.code ++ u8 pt.mode.code ++
  optional 2 (fun h : BitVec 16 => u16 h.toNat) (match pt.mode with
    | .once => none
    | .repeating h => some h) ++
  u8 pt.actions.code ++ u8 pt.state.code ++ optional 1 (fun x : Side => u8 x.code) pt.lastSide ++
  optional 1 (fun d : UpDown => u8 d.code) pt.rearmDir ++ u16 pt.firings ++ u8 (s.creationOrder pt.slot.val)

/-- READ POINTS (R163). -/
def takeReadPoints (_p : Port) (payload : List Byte) (s : State) : Taken :=
  if payload.length = 0 then
    done (u8 s.points.length ++ u8 (s.owned .p0) ++ u8 (s.owned .p1) ++ u8 (s.owned .p2) ++
      (allSlots.filterMap s.pointAt).flatMap (pointBlock s)) s
  else badValue s

/-- ADD_POINT: the request at its port. -/
def execAddPoint (r : Req) (s : State) : Host.Outcome State Fault Refusal :=
  performed (requestStep RequestKind.addPoint.code takeAddPoint r s)

/-- REMOVE_POINT: the request at its port. -/
def execRemovePoint (r : Req) (s : State) : Host.Outcome State Fault Refusal :=
  performed (requestStep RequestKind.removePoint.code takeRemovePoint r s)

/-- CLEAR_POINTS: the request at its port. -/
def execClearPoints (r : Req) (s : State) : Host.Outcome State Fault Refusal :=
  performed (requestStep RequestKind.clearPoints.code takeClearPoints r s)

/-- READ_POINTS: the request at its port. -/
def execReadPoints (r : Req) (s : State) : Host.Outcome State Fault Refusal :=
  performed (requestStep RequestKind.readPoints.code takeReadPoints r s)

end Sys2Proof.Machine
end

