-- ==== Sys2Proof/Machine/NoticeRequests.lean ====
section
/-! DEFINITION. Machine/NoticeRequests.lean: the requests of the notice unit and the fault-detail latch (Chapter 9). -/

namespace Sys2Proof.Machine

/-- READ NOTICES (R169). -/
def takeReadNotices (p : Port) (payload : List Byte) (s : State) : Taken :=
  if payload.length = 0 then
    let n := s.notices.get p
    done (u16 n.pending.toNat ++ u16 n.enable.toNat ++ flag n.note) s
  else badValue s

/-- ACK NOTICES (R170). -/
def takeAckNotices (p : Port) (payload : List Byte) (s : State) : Taken :=
  if payload.length = 2 then
    let m := BitVec.ofNat 16 (numAt payload 0 2)
    let n := s.notices.get p
    done (u16 (n.pending &&& m).toNat ++ u16 (n.pending &&& ~~~m).toNat)
      { s with notices := s.notices.set p { n with pending := n.pending &&& ~~~m } }
  else badValue s

/-- SET NOTICE ENABLE (R171). -/
def takeSetNoticeEnable (p : Port) (payload : List Byte) (s : State) : Taken :=
  if payload.length = 2 then
    let n := s.notices.get p
    done (u16 n.enable.toNat)
      { s with notices := s.notices.set p { n with enable := BitVec.ofNat 16 (numAt payload 0 2) } }
  else badValue s

/-- The offending step of a report: for SKIP only (R11). -/
def LossDetail.step : LossDetail → Option Int
  | .skip x => some x
  | _ => none

/-- The received sequence number of a report: for GAP only (R11). -/
def LossDetail.received : LossDetail → Option Byte
  | .gap r _ => some r
  | _ => none

/-- The expected sequence number of a report: for GAP only (R11). -/
def LossDetail.awaited : LossDetail → Option Byte
  | .gap _ e => some e
  | _ => none

/-- The loss record in a response (R11, R175): 28 bytes. The received and the expected sequence number, one row of R11's
table, have a presence byte each (assumption 13: the model's choice). -/
def LossReport.bytes (r : LossReport) : List Byte :=
  u8 r.chan.num ++ u8 r.detail.cause.code ++ u64 r.time.toNat ++ i64 r.count.toInt ++ u16 r.lastPhase.toNat ++
  u8 r.lastLevel.toNat ++ optional 2 i16 r.detail.step ++
  optional 1 (fun b : Byte => u8 b.toNat) r.detail.received ++
  optional 1 (fun b : Byte => u8 b.toNat) r.detail.awaited

/-- READ FAULT DETAIL (R175): the indication, then the loss record and the more count with a presence byte each
(assumption 13: the model's choice). -/
def takeReadFaultDetail (p : Port) (payload : List Byte) (s : State) : Taken :=
  if payload.length = 0 then
    let l := s.latches.get p
    done (u8 l.isSome.toNat ++ optional 28 (fun h : HeldLoss => h.report.bytes) l ++
        optional 1 (fun h : HeldLoss => u8 h.more) l)
      { s with latches := s.latches.set p none }
  else badValue s

/-- READ_NOTICES: the request at its port. -/
def execReadNotices (r : Req) (s : State) : Host.Outcome State Fault Refusal :=
  performed (requestStep RequestKind.readNotices.code takeReadNotices r s)

/-- ACK_NOTICES: the request at its port. -/
def execAckNotices (r : Req) (s : State) : Host.Outcome State Fault Refusal :=
  performed (requestStep RequestKind.ackNotices.code takeAckNotices r s)

/-- SET_NOTICE_ENABLE: the request at its port. -/
def execSetNoticeEnable (r : Req) (s : State) : Host.Outcome State Fault Refusal :=
  performed (requestStep RequestKind.setNoticeEnable.code takeSetNoticeEnable r s)

/-- READ_FAULT_DETAIL: the request at its port. -/
def execReadFaultDetail (r : Req) (s : State) : Host.Outcome State Fault Refusal :=
  performed (requestStep RequestKind.readFaultDetail.code takeReadFaultDetail r s)

end Sys2Proof.Machine
end

