-- ==== Sys2Proof/Machine/Ports.lean ====
section
/-! DEFINITION. Machine/Ports.lean: the client ports themselves (Chapter 10): IDENTIFY, PORT RESET and its steps, the
dispatch of a request by its code, the immediate answers, device reset and start-up. -/

namespace Sys2Proof.Machine

/-- IDENTIFY (R188). -/
def takeIdentify (p : Port) (payload : List Byte) (s : State) : Taken :=
  if payload.length = 0 then
    done (u16 Config.partCode ++ u8 Config.siliconRevision ++ u8 p.num) s
  else badValue s

/-! ## PORT RESET (10-5) -/

/-- A port removed from the routing set of every queued entry (R92). -/
def unroute (p : Port) (s : State) : State :=
  { s with queue := s.queue.map (fun e => { e with route := e.route.set p false }) }

/-- A port RESETTING with this progress. -/
def setProgress (p : Port) (g : ResetProgress) (s : State) : State :=
  s.onLink p (fun l => { l with state := .resetting, reset := some g })

/-- What step 1 gave up, and step 2 next (R185, R186). -/
def firstProgress (s : State) (p : Port) : ResetProgress :=
  { next := .sequencer, routed := s.routedEntries p, discarded := (s.rings.get p).records.length,
    arm := s.arms.get p, claim := .none, pins := 0, applied := 0, unkept := 0, kept := 0, latch := none }

/-- Step 1 (R185): routing sets, the ring with its subscription mask, the settle arm (R92, R96, R123). -/
def resetCaptures (p : Port) (s : State) : State :=
  reportRouting
    { unroute p s with
      rings := s.rings.set p Ring.reset, subs := s.subs.set p 0, arms := s.arms.set p none }

/-- PORT RESET (R185): the port becomes RESETTING and step 1 is taken; the request stays in progress. -/
def takePortReset (p : Port) (payload : List Byte) (s : State) : Taken :=
  if payload.length = 0 then .goesOn (setProgress p (firstProgress s p) (resetCaptures p s))
  else badValue s

/-- A step of a port reset, taken where it is the next one of a RESETTING port; elsewhere it does not take place
(R185; assumption 3). -/
def atResetStep (p : Port) (step : ResetStep) (f : ResetProgress → State → State) (s : State) : State :=
  match (s.links.get p).state, (s.links.get p).reset with
  | .resetting, some g => if g.next = step then f g s else s
  | _, _ => s

/-- What step 2 does with the claim (R186). -/
def claimOutcome (p : Port) (s : State) : ClaimOutcome :=
  if s.seq.claimant = some p then (if s.scanning then .halted else .released) else .none

/-- Step 2 at the line sequencer (R151). -/
def resetClaim (p : Port) (s : State) : State :=
  if s.seq.claimant = some p then endClaim (haltIfScanning .claimLost s) else s

/-- PORT_RESET_SEQUENCER_STEP (R151, R185). -/
def execPortResetSequencerStep (p : Port) (s : State) : Host.Outcome State Fault Refusal :=
  performed <| atResetStep p .sequencer (fun g t =>
    setProgress p { g with next := .compensation, claim := claimOutcome p t } (resetClaim p t)) s

/-- Step 3 at the compensation store (R61). -/
def resetPins (p : Port) (s : State) : State := removePins p (s.timedPins p Chan.all) s

/-- The channels whose pending value an event applied: occupied before, empty after (R186). -/
def appliedBetween (before after : State) : ChanMask :=
  maskOf (Chan.all.filter (fun c => (before.comp.get c).slot.isSome && (after.comp.get c).slot.isNone))

/-- PORT_RESET_COMPENSATION_STEP (R61, R185). -/
def execPortResetCompensationStep (p : Port) (s : State) : Host.Outcome State Fault Refusal :=
  performed <| atResetStep p .compensation (fun g t =>
    setProgress p { g with next := .compare, pins := (t.timedPins p Chan.all).length,
                           applied := appliedBetween t (resetPins p t) } (resetPins p t)) s

/-- Step 4 at the compare table (R166). -/
def resetPoints (p : Port) (s : State) : State := removePoints (clearedBy p false) s

/-- PORT_RESET_COMPARE_STEP (R166, R185). -/
def execPortResetCompareStep (p : Port) (s : State) : Host.Outcome State Fault Refusal :=
  performed <| atResetStep p .compare (fun g t =>
    setProgress p { g with next := .context, unkept := (t.points.filter (clearedBy p false)).length,
                           kept := (resetPoints p t).owned p } (resetPoints p t)) s

/-- Step 5 at the port context and the notice unit (R78, R173, R177), the origins handed to the table (R166). -/
def resetContext (p : Port) (s : State) : State :=
  pointsOnOrigins p Chan.all
    { s with
      origins := s.origins.set p (PerChan.const Origin.free)
      baselines := s.baselines.set p s.totals
      notices := s.notices.set p Notices.reset
      latches := s.latches.set p none }

/-- PORT_RESET_CONTEXT_STEP (R78, R173, R177, R185). -/
def execPortResetContextStep (p : Port) (s : State) : Host.Outcome State Fault Refusal :=
  performed <| atResetStep p .context (fun g t =>
    setProgress p { g with next := .peers, latch := (t.latches.get p).map HeldLoss.more } (resetContext p t)) s

/-- What the PORT RESET response carries (R186). The arm's mask and the more count have a presence byte after their
indications (assumption 13: the model's choice). -/
def ResetProgress.bytes (g : ResetProgress) : List Byte :=
  u8 g.routed ++ u8 g.discarded ++ flag g.arm.isSome ++ optional 1 (fun m : ChanMask => u8 m.toNat) g.arm ++
  u8 g.claim.code ++ u8 g.pins ++ u8 g.applied.toNat ++ u8 g.unkept ++ u8 g.kept ++
  flag g.latch.isSome ++ optional 1 u8 g.latch

/-- The tag of the request in progress. -/
def Link.tagInProgress (l : Link) : Byte := (l.inProgress.map Request.tag).getD 0

/-- PEER_RESET (R185 step 6, R186). -/
def execPeerReset (p : Port) (s : State) : Host.Outcome State Fault Refusal :=
  performed <| atResetStep p .peers (fun g t =>
    finishRequest p (t.links.get p).tagInProgress ⟨.done, g.bytes⟩ (postOthers .peerReset p t)) s

/-! ## Dispatch of a request by its code (R181, R190) -/

/-- The taking of each request. -/
def takeKind : RequestKind → Port → List Byte → State → Taken
  | .readChannel => takeReadChannel | .configureChannel => takeConfigureChannel
  | .enableChannel => takeEnableChannel | .disableChannel => takeDisableChannel
  | .recoverChannel => takeRecoverChannel | .readStillness => takeReadStillness
  | .setCompensation => takeSetCompensation | .pinCompensation => takePinCompensation
  | .unpinCompensation => takeUnpinCompensation | .readCompensation => takeReadCompensation
  | .setOrigin => takeSetOrigin | .clearOrigin => takeClearOrigin | .readPosition => takeReadPosition
  | .readCounters => takeReadCounters
  | .configureInput => takeConfigureInput | .captureNow => takeCaptureNow | .armSettle => takeArmSettle
  | .cancelSettle => takeCancelSettle | .readCaptureStatus => takeReadCaptureStatus
  | .startRing => takeStartRing | .stopRing => takeStopRing | .clearRing => takeClearRing
  | .setRingPolicy => takeSetRingPolicy | .setSubscription => takeSetSubscription
  | .takeRecords => takeTakeRecords | .peekRecords => takePeekRecords | .readRingStatus => takeReadRingStatus
  | .claimSequencer => takeClaimSequencer | .releaseSequencer => takeReleaseSequencer
  | .forceRelease => takeForceRelease | .loadLines => takeLoadLines | .clearLines => takeClearLines
  | .startScan => takeStartScan | .stopScan => takeStopScan | .readSequencer => takeReadSequencer
  | .addPoint => takeAddPoint | .removePoint => takeRemovePoint | .clearPoints => takeClearPoints
  | .readPoints => takeReadPoints
  | .readNotices => takeReadNotices | .ackNotices => takeAckNotices | .setNoticeEnable => takeSetNoticeEnable
  | .readFaultDetail => takeReadFaultDetail
  | .identify => takeIdentify | .portReset => takePortReset

/-- The taking of the request a code names; a code that names none is answered BAD_REQUEST (R181). -/
def takeCode (code : Byte) (p : Port) (payload : List Byte) (s : State) : Taken :=
  match RequestKind.ofCode code with
  | some k => takeKind k p payload s
  | none => refuse .badRequest [] s

/-- A good frame at a port, whatever its code (R180, R181). -/
def goodRequestFrame (p : Port) (q : Request) (s : State) : State :=
  requestStep q.code (takeCode q.code) ⟨p, q.tag, q.payload, .whole⟩ s

/-- A bad frame at a port: answered BAD_FRAME at its arrival (R179). -/
def badRequestFrame (p : Port) (bytes : List Byte) (s : State) : State :=
  if (s.links.get p).mayReceive then s.onLink p (Link.immediate (badFrameTag bytes) .badFrame) else s

/-- BAD_FRAME (R179): bytes that fail the frame check; bytes that pass it are judged as the good frame they are
(assumption 5). -/
def execBadFrame (p : Port) (bytes : List Byte) (s : State) : Host.Outcome State Fault Refusal :=
  performed <|
    match requestOf bytes with
    | none => badRequestFrame p bytes s
    | some q => goodRequestFrame p q s

/-- BAD_REQUEST (R181): a code that names no request; a code that names one is taken as that request (assumption 5). -/
def execBadRequest (code : Byte) (r : Req) (s : State) : Host.Outcome State Fault Refusal :=
  performed (requestStep code (takeCode code) r s)

/-- BUSY_ANSWER (R180): a good frame at a PERFORMING or RESETTING port; in another port state the frame is judged by
that state (assumption 5). -/
def execBusyAnswer (p : Port) (tag code : Byte) (payload : List Byte) (s : State) :
    Host.Outcome State Fault Refusal :=
  performed (goodRequestFrame p ⟨tag, code, payload⟩ s)

/-- STARTING_ANSWER (R180, R184): a good frame at a STARTING port; in another port state the frame is judged by that
state (assumption 5). -/
def execStartingAnswer (p : Port) (tag code : Byte) (payload : List Byte) (s : State) :
    Host.Outcome State Fault Refusal :=
  performed (goodRequestFrame p ⟨tag, code, payload⟩ s)

/-- RESPONSE_READ_OUT (R178): the oldest response leaves the list; the link may accept a new frame. -/
def execResponseReadOut (p : Port) (s : State) : Host.Outcome State Fault Refusal :=
  performed <| s.onLink p (fun l =>
    { l with outgoing := l.outgoing.tail
             mayReceive := l.mayReceive || decide (l.outgoing.tail.length < Config.linkRoom) })

/-! ## Device reset and start-up (10-4) -/

/-- DEVICE_RESET (R183 and the reset rule of every chapter): every block at its device-reset values. The commands
waiting outside the part, and the counter of the free value, are no state of the part (assumption 16). -/
def execDeviceReset (s : State) : Host.Outcome State Fault Refusal :=
  performed { State.reset with turn := s.turn, pending := s.pending }

/-- A port at the end of start-up (R184). -/
def Link.endStartUp (l : Link) : Link := if l.state = .starting then { l with state := .idle } else l

/-- END_OF_START_UP (R184): every STARTING port becomes IDLE. -/
def execEndOfStartUp (s : State) : Host.Outcome State Fault Refusal :=
  performed { s with links := PerPort.ofFn (fun p => (s.links.get p).endStartUp) }

/-- IDENTIFY: the request at its port. -/
def execIdentify (r : Req) (s : State) : Host.Outcome State Fault Refusal :=
  performed (requestStep RequestKind.identify.code takeIdentify r s)

/-- PORT_RESET: the request at its port, with step 1 in its taking. -/
def execPortReset (r : Req) (s : State) : Host.Outcome State Fault Refusal :=
  performed (requestStep RequestKind.portReset.code takePortReset r s)

end Sys2Proof.Machine
end

