-- ==== Sys2Proof/Machine/TimeBase.lean ====
section
/-! DEFINITION. Machine/TimeBase.lean: what the part does while no command waits (assumption 1): the events whose time
has come, or else one REFCLK period (R98). -/

namespace Sys2Proof.Machine

/-- The hold-off expiries that are due (R80). -/
def dueHoldOffs (s : State) : List Instr :=
  (Input.all.filter (fun i => (s.inputs.get i).holdOffDue s.time)).map .holdOffExpiry

/-- The stillness expiries that are due (R30). -/
def dueStillness (s : State) : List Instr :=
  (Chan.all.filter (fun c => (s.still.get c).due s.time)).map .stillnessExpiry

/-- The hold-time expiries that are due (R56). -/
def duePins (s : State) : List Instr :=
  Chan.all.flatMap (fun c => (Port.all.filter (s.pinDue c)).map (.pinHoldExpiry c))

/-- Has a completion run its longest time (R90)? -/
def State.completionDue (s : State) : Bool :=
  match s.engine with
  | .completing since => decide (Config.completionPeriods ≤ elapsed s.time since)
  | .idle => false

/-- Has start-up run its longest time, from the time base's 0 (R98, R184)? -/
def State.startUpDue (s : State) : Bool :=
  Port.all.any (fun p => (s.links.get p).state == .starting) && decide (Config.startUpPeriods ≤ s.time.toNat)

/-- The events whose time has come, as rows of the table. -/
def dueEvents (s : State) : List Instr :=
  dueHoldOffs s ++ dueStillness s ++ duePins s ++ (if s.syncDue then [.syncPulseEnd] else []) ++
  (if s.completionDue then [.completionEnd] else []) ++ (if s.startUpDue then [.endOfStartUp] else [])

/-- One REFCLK period: the time base increases by 1 (R98), and a new period of the input pins begins (R79). -/
def tick (s : State) : State :=
  { s with
    time := s.time + 1
    inputs := PerInput.ofFn (fun i => { s.inputs.get i with edgeSeen := false }) }

/-- What the part does while no command waits: the due events join the queue, or else a REFCLK period passes. -/
def idleStep (s : State) : State :=
  match dueEvents s with
  | [] => tick s
  | e :: es => { s with pending := e :: es }

end Sys2Proof.Machine
end

