-- ==== Sys2Proof/Machine/Dispatch.lean ====
section
/-! DEFINITION. Machine/Dispatch.lean: the meaning of every command, one arm for each constructor of Instr. -/

namespace Sys2Proof.Machine

def exec (i : Instr) (s : State) : Host.Outcome State Fault Refusal :=
  match i with
  | .sampleFrame c bytes => Sys2Proof.Machine.execSampleFrame c bytes s
  | .edge j e => Sys2Proof.Machine.execEdge j e s
  | .holdOffExpiry j => Sys2Proof.Machine.execHoldOffExpiry j s
  | .stillnessExpiry c => Sys2Proof.Machine.execStillnessExpiry c s
  | .pinHoldExpiry c p => Sys2Proof.Machine.execPinHoldExpiry c p s
  | .completionEnd => Sys2Proof.Machine.execCompletionEnd s
  | .syncPulseEnd => Sys2Proof.Machine.execSyncPulseEnd s
  | .deviceReset => Sys2Proof.Machine.execDeviceReset s
  | .endOfStartUp => Sys2Proof.Machine.execEndOfStartUp s
  | .badFrame p bytes => Sys2Proof.Machine.execBadFrame p bytes s
  | .badRequest code r => Sys2Proof.Machine.execBadRequest code r s
  | .responseReadOut p => Sys2Proof.Machine.execResponseReadOut p s
  | .readChannel r => Sys2Proof.Machine.execReadChannel r s
  | .configureChannel r => Sys2Proof.Machine.execConfigureChannel r s
  | .enableChannel r => Sys2Proof.Machine.execEnableChannel r s
  | .disableChannel r => Sys2Proof.Machine.execDisableChannel r s
  | .recoverChannel r => Sys2Proof.Machine.execRecoverChannel r s
  | .readStillness r => Sys2Proof.Machine.execReadStillness r s
  | .setCompensation r => Sys2Proof.Machine.execSetCompensation r s
  | .pinCompensation r => Sys2Proof.Machine.execPinCompensation r s
  | .unpinCompensation r => Sys2Proof.Machine.execUnpinCompensation r s
  | .readCompensation r => Sys2Proof.Machine.execReadCompensation r s
  | .setOrigin r => Sys2Proof.Machine.execSetOrigin r s
  | .clearOrigin r => Sys2Proof.Machine.execClearOrigin r s
  | .readPosition r => Sys2Proof.Machine.execReadPosition r s
  | .readCounters r => Sys2Proof.Machine.execReadCounters r s
  | .configureInput r => Sys2Proof.Machine.execConfigureInput r s
  | .captureNow r => Sys2Proof.Machine.execCaptureNow r s
  | .armSettle r => Sys2Proof.Machine.execArmSettle r s
  | .cancelSettle r => Sys2Proof.Machine.execCancelSettle r s
  | .readCaptureStatus r => Sys2Proof.Machine.execReadCaptureStatus r s
  | .startRing r => Sys2Proof.Machine.execStartRing r s
  | .stopRing r => Sys2Proof.Machine.execStopRing r s
  | .clearRing r => Sys2Proof.Machine.execClearRing r s
  | .setRingPolicy r => Sys2Proof.Machine.execSetRingPolicy r s
  | .setSubscription r => Sys2Proof.Machine.execSetSubscription r s
  | .takeRecords r => Sys2Proof.Machine.execTakeRecords r s
  | .peekRecords r => Sys2Proof.Machine.execPeekRecords r s
  | .readRingStatus r => Sys2Proof.Machine.execReadRingStatus r s
  | .claimSequencer r => Sys2Proof.Machine.execClaimSequencer r s
  | .releaseSequencer r => Sys2Proof.Machine.execReleaseSequencer r s
  | .forceRelease r => Sys2Proof.Machine.execForceRelease r s
  | .loadLines r => Sys2Proof.Machine.execLoadLines r s
  | .clearLines r => Sys2Proof.Machine.execClearLines r s
  | .startScan r => Sys2Proof.Machine.execStartScan r s
  | .stopScan r => Sys2Proof.Machine.execStopScan r s
  | .readSequencer r => Sys2Proof.Machine.execReadSequencer r s
  | .addPoint r => Sys2Proof.Machine.execAddPoint r s
  | .removePoint r => Sys2Proof.Machine.execRemovePoint r s
  | .clearPoints r => Sys2Proof.Machine.execClearPoints r s
  | .readPoints r => Sys2Proof.Machine.execReadPoints r s
  | .readNotices r => Sys2Proof.Machine.execReadNotices r s
  | .ackNotices r => Sys2Proof.Machine.execAckNotices r s
  | .setNoticeEnable r => Sys2Proof.Machine.execSetNoticeEnable r s
  | .readFaultDetail r => Sys2Proof.Machine.execReadFaultDetail r s
  | .identify r => Sys2Proof.Machine.execIdentify r s
  | .portReset r => Sys2Proof.Machine.execPortReset r s
  | .portResetSequencerStep p => Sys2Proof.Machine.execPortResetSequencerStep p s
  | .portResetCompensationStep p => Sys2Proof.Machine.execPortResetCompensationStep p s
  | .portResetCompareStep p => Sys2Proof.Machine.execPortResetCompareStep p s
  | .portResetContextStep p => Sys2Proof.Machine.execPortResetContextStep p s
  | .peerReset p => Sys2Proof.Machine.execPeerReset p s
  | .busyAnswer p tag code payload => Sys2Proof.Machine.execBusyAnswer p tag code payload s
  | .startingAnswer p tag code payload => Sys2Proof.Machine.execStartingAnswer p tag code payload s

end Sys2Proof.Machine
end

