-- ==== Sys2Proof/WellFormed.lean ====
section
/-! DEFINITION. WellFormed.lean: the checks a command's operands must pass for the command to be the event its
row names. They are checks on the command alone; what the part does in each state is exec's. -/

namespace Sys2Proof

open Sys2Proof.Machine

/-- A frame carries at most 4095 payload bytes (R190). -/
def Req.wellFormed (r : Req) : Bool := r.payload.length ≤ payloadRoom

/-- Is the command the event its row names? A BAD_FRAME carries bytes that fail the check of R179, and a
BAD_REQUEST a code that names no request (R181). -/
def Instr.wellFormed : Instr → Bool
  | .sampleFrame _ _ | .edge _ _ | .holdOffExpiry _ | .stillnessExpiry _ | .pinHoldExpiry _ _ => true
  | .completionEnd | .syncPulseEnd | .deviceReset | .endOfStartUp | .responseReadOut _ => true
  | .badFrame _ bytes => requestOf bytes == none
  | .badRequest code r => RequestKind.ofCode code == none && r.wellFormed
  | .readChannel r | .configureChannel r | .enableChannel r | .disableChannel r | .recoverChannel r => r.wellFormed
  | .readStillness r => r.wellFormed
  | .setCompensation r | .pinCompensation r | .unpinCompensation r | .readCompensation r => r.wellFormed
  | .setOrigin r | .clearOrigin r | .readPosition r | .readCounters r => r.wellFormed
  | .configureInput r | .captureNow r | .armSettle r | .cancelSettle r | .readCaptureStatus r => r.wellFormed
  | .startRing r | .stopRing r | .clearRing r | .setRingPolicy r | .setSubscription r => r.wellFormed
  | .takeRecords r | .peekRecords r | .readRingStatus r => r.wellFormed
  | .claimSequencer r | .releaseSequencer r | .forceRelease r | .loadLines r | .clearLines r => r.wellFormed
  | .startScan r | .stopScan r | .readSequencer r => r.wellFormed
  | .addPoint r | .removePoint r | .clearPoints r | .readPoints r => r.wellFormed
  | .readNotices r | .ackNotices r | .setNoticeEnable r | .readFaultDetail r => r.wellFormed
  | .identify r | .portReset r => r.wellFormed
  | .portResetSequencerStep _ | .portResetCompensationStep _ | .portResetCompareStep _ => true
  | .portResetContextStep _ | .peerReset _ => true
  | .busyAnswer _ _ _ payload | .startingAnswer _ _ _ payload => payload.length ≤ payloadRoom

end Sys2Proof
end

