-- ==== Sys2Proof/Safety.lean ====
section
/-! DEFINITION. Safety.lean: the words in which claims about the part are stated: a request that its port takes in one
step, the state its answer leaves, and the invariants that the rules of the manual ask for. -/

namespace Sys2Proof.Machine

/-! ## Requests -/

/-- The whole request frame arrives at an IDLE port whose link receives it: it is taken in this very step (R178, R180,
R181). -/
def Ready (r : Req) (s : State) : Prop :=
  r.stage = .whole ∧ (s.links.get r.port).mayReceive = true ∧ (s.links.get r.port).state = .idle

/-- The state with a response at the end of the outgoing list of a request's port, the port IDLE with no request in
progress (R178, R181). The receipt of a next frame can have begun if the list held fewer than 8 responses at the
request's arrival. -/
def replied (r : Req) (status : Status) (payload : List Byte) (s : State) : State :=
  s.onLink r.port (fun l =>
    { state := .idle, inProgress := none, outgoing := l.outgoing ++ [⟨r.tag, status, payload⟩],
      mayReceive := decide (l.outgoing.length < 8), reset := none })

/-- The state with an immediate answer at the end of a port's outgoing list; the port state, the request in progress
and a port reset go on as they were (R180). -/
def answeredAtOnce (p : Port) (tag : Byte) (status : Status) (s : State) : State :=
  s.onLink p (fun l =>
    { l with outgoing := l.outgoing ++ [⟨tag, status, []⟩], mayReceive := decide (l.outgoing.length + 1 < 8) })

/-- CONFIG_CHANGED posted to the ports other than one. -/
def tellOthers (p : Port) (s : State) : State := postOthers .configChanged p s

/-! ## Sample frames -/

/-- A step as R7 forms it from one phase to the next: the difference wrapped into −512 to +511, negated under
INVERTED. -/
def StepFormed (sense : CountSense) (last phase : BitVec 10) (step : Int) : Prop :=
  ∃ w : Int, -512 ≤ w ∧ w ≤ 511 ∧ (w - (phase.toNat - last.toNat)) % 1024 = 0 ∧
    step = (match sense with
      | .normal => w
      | .inverted => -w)

/-- The frame shows no gap: no sequence number is expected, or the frame's (R4). -/
def InSequence (u : ChannelUnit) (f : Sample) : Prop := u.expected = none ∨ u.expected = some f.seq

/-- The level of a frame as it is judged: 0 with NRDY (R3). -/
def Sample.judged (f : Sample) : Nat := if f.nrdy then 0 else f.level.toNat

/-- The state once a good frame has been noted: the expected sequence number is the next one, and a SAT frame is counted
(R3, R4). -/
def noted (c : Chan) (f : Sample) (s : State) : State :=
  (s.onChan c (fun u => { u with expected := some (f.seq + 1) })).onChanTotals c
    (fun t => { t with sat := if f.sat then t.sat + 1 else t.sat })

/-! ## Windows -/

/-- The windows of adjacent entries are strictly separated, in load order, up to an index (R132). -/
def SeparatedUpTo (n : Nat) (lines : List LineEntry) : Prop :=
  ∀ (k : Nat) (a b : LineEntry), k < n → lines[k]? = some a → lines[k + 1]? = some b →
    a.nominal.toInt + a.halfWidth.toNat < b.nominal.toInt - b.halfWidth.toNat

/-- A window's edges in the scan coordinate (R135). -/
def WindowEdges (dir : ScanDir) (e : LineEntry) (near far : Int) : Prop :=
  match dir with
  | .forward => near = e.nominal.toInt - e.halfWidth.toNat ∧ far = e.nominal.toInt + e.halfWidth.toNat
  | .reverse => near = -(e.nominal.toInt + e.halfWidth.toNat) ∧ far = -(e.nominal.toInt - e.halfWidth.toNat)

/-! ## Invariants -/

/-- One client port holds together: its list never grows past 9 responses, whatever is still to come of the request in
progress and the frame under receipt (R178); a request is in progress exactly while the port is PERFORMING or
RESETTING (R180, R181, R185); the progress of a port reset is held exactly in RESETTING. -/
def Link.Holds (l : Link) : Prop :=
  l.outgoing.length + l.inProgress.isSome.toNat + l.mayReceive.toNat ≤ 9 ∧
  (l.inProgress.isSome = true ↔ l.state = .performing ∨ l.state = .resetting) ∧
  (l.reset.isSome = true ↔ l.state = .resetting)

/-- Every client port holds together. -/
def LinksHold (s : State) : Prop := ∀ p, (s.links.get p).Holds

/-- The trigger queue holds together: at most 4 entries (R89), numbered without gaps up to the next capture number
(R86), IDLE exactly when it is empty (R90), the admitted total less the completed total its length (R100). -/
def QueueHolds (s : State) : Prop :=
  s.queue.length ≤ 4 ∧
  (s.engine = .idle ↔ s.queue = []) ∧
  s.totals.capture.admitted - s.totals.capture.completed = BitVec.ofNat 32 s.queue.length ∧
  s.totals.capture.admitted = s.nextNumber ∧
  s.queue.map QueueEntry.number =
    (List.range s.queue.length).map
      (fun i => s.nextNumber - BitVec.ofNat 32 s.queue.length + BitVec.ofNat 32 i)

/-- One ring holds together, with so many queued entries routed to it (R103, R105, R107, R114, R118). -/
def Ring.Holds (routedNow : Nat) (r : Ring) : Prop :=
  r.records.length ≤ 64 ∧ 1 ≤ r.threshold ∧ r.threshold ≤ 64 ∧ r.drops ≤ 65535 ∧ r.overwrites ≤ 65535 ∧
  (r.state = .stopped → routedNow = 0) ∧ (r.state = .draining → routedNow ≠ 0)

/-- Every ring holds together. -/
def RingsHold (s : State) : Prop := ∀ p, (s.rings.get p).Holds (s.routedEntries p)

/-- One stillness timer agrees with its channel: NONE exactly outside TRACKING (R28), running exactly in MOVING (R33),
with a settled time exactly in SETTLED (2-1). -/
def StillTimer.Agrees (state : ChanState) (t : StillTimer) : Prop :=
  (t.state = .none ↔ state ≠ .tracking) ∧ (t.timer.isSome = true ↔ t.state = .moving) ∧
  (t.settledTime.isSome = true ↔ t.state = .settled)

/-- Every stillness timer agrees with its channel. -/
def StillHolds (s : State) : Prop := ∀ c, (s.still.get c).Agrees (s.chans.get c).state

/-- A pending value exists only while its channel's pin set is not empty (R46). -/
def StoreHolds (s : State) : Prop := ∀ c, (s.comp.get c).slot.isSome = true → (s.comp.get c).unpinned = false

/-- CH0 and CH1 stand for the claimant's L: both TRACKING, compensated, and read through origins that are not STALE
(R134). -/
def FrameStands (s : State) (p : Port) : Prop :=
  ∀ c : Chan, c.feedsLine = true →
    (s.chans.get c).state = .tracking ∧ (s.comp.get c).weight ≠ 0 ∧ ((s.origins.get p).get c).status ≠ .stale

/-- The claim and the scan hold together: UNCLAIMED exactly when no port holds the claim, and then with an empty list
(R125); a RUN pin exactly for the claimant on CH0 and CH1 of a TRACKING scan (R53, R54, R133); the frame of a TRACKING
scan stands (R134); the current entry exists while TRACKING; the list has at most 512 entries (R129). -/
def ScanHolds (s : State) : Prop :=
  (s.seq.claimant = none ↔ s.seq.state = .unclaimed) ∧
  (s.seq.claimant = none → s.seq.lines = []) ∧
  (∀ c p, (s.comp.get c).pins.get p = .run ↔
    s.seq.state = .tracking ∧ s.seq.claimant = some p ∧ c.feedsLine = true) ∧
  (s.seq.state = .tracking → ∀ p, s.seq.claimant = some p → FrameStands s p) ∧
  (s.seq.state = .tracking → s.seq.current < s.seq.lines.length) ∧
  s.seq.lines.length ≤ 512

/-- The entries that a scan has advanced past (R137). -/
def Sequencer.advanced (q : Sequencer) : Nat :=
  match q.dir with
  | .forward => q.current - q.first
  | .reverse => q.first - q.current

/-- The decisions of a TRACKING scan add up: the current index has moved only in the scan direction, and found plus
missed is the number of entries advanced past, the current one counted from its first pulse (R137). -/
def DecisionsHold (s : State) : Prop :=
  s.seq.state = .tracking →
    s.seq.current < s.seq.lines.length ∧ s.seq.first < s.seq.lines.length ∧
    (match s.seq.dir with
      | .forward => s.seq.first ≤ s.seq.current
      | .reverse => s.seq.current ≤ s.seq.first) ∧
    s.seq.found + s.seq.missed = s.seq.advanced + (if s.seq.pulses = 0 then 0 else 1)

/-- One point agrees with what its owner can see: INACTIVE and SUSPENDED exactly when its subject is so, without a last
side then (R154); a rearm direction exactly in REARMING; a count that saturates at 65535. -/
def Point.Agrees (s : State) (pt : Point) : Prop :=
  (pt.state = .inactive ↔ availability s pt.owner pt.subject = .inactive) ∧
  (pt.state = .suspended ↔ availability s pt.owner pt.subject = .suspended) ∧
  (pt.away = true → pt.lastSide = none) ∧
  (pt.rearmDir.isSome = true ↔ pt.state = .rearming) ∧
  pt.firings ≤ 65535

/-- The compare table holds together: at most 32 points, at most 16 of one port, no slot twice (R152), and every point
in agreement with its subject (R154). -/
def TableHolds (s : State) : Prop :=
  s.points.length ≤ 32 ∧ (∀ p, s.owned p ≤ 16) ∧ (s.points.map Point.slot).Nodup ∧ ∀ pt ∈ s.points, pt.Agrees s

end Sys2Proof.Machine
end

