-- ==== Sys2Proof/Certificates/Slice0/Obligations.lean ====
section
/-! DEFINITION. Certificates/Slice0/Obligations.lean: the statements about the part, each named for what it states. -/

open Sys2Proof Sys2Proof.Machine

/-! ## One step, and what holds after every step -/

/-- A step performs the command at the front of the queue on the state with the queue's rest. -/
def Obligations.AStepPerformsTheFrontCommand : Prop :=
  ∀ (c : Instr) (rest : List Instr) (s : State), s.pending = c :: rest →
    step s = exec c { s with pending := rest }

/-- While no command waits, the events whose time has come join the queue, and where none is due one REFCLK period
passes: the time base increases by 1 and a new period of the input pins begins. Due are, in this order: the hold-off
expiries whose expiry time is not ahead, the stillness expiries after 1000 periods for each unit of the settle
interval, the pin expiries after 1,000,000 periods for each unit of the hold time, the end of SYNC after 100 periods,
the end of a completion after 200, and the end of start-up at 10,000. Rests on log entries 1, 7, 8 and 24. -/
def Obligations.AnIdlePartServesDueEventsOrCountsOnePeriod : Prop :=
  ∀ s : State, s.pending = [] →
    (∀ e es, dueEvents s = e :: es → step s = .next { s with pending := e :: es }) ∧
    (dueEvents s = [] → ∃ inputs, step s = .next { s with time := s.time + 1, inputs := inputs } ∧
      ∀ i, inputs.get i = { s.inputs.get i with edgeSeen := false }) ∧
    dueEvents s =
      ([Input.det, .aux0, .aux1].filter (fun i =>
        match (s.inputs.get i).holdOffUntil with
        | some u => decide ((s.time - u).toNat < 2 ^ 47)
        | none => false)).map .holdOffExpiry ++
      ([Chan.ch0, .ch1, .ch2, .ch3, .ch4, .ch5].filter (fun c =>
        match (s.still.get c).state, (s.still.get c).timer with
        | .moving, some n => decide (1000 * n.toNat ≤ (s.time - (s.still.get c).loadTime).toNat)
        | _, _ => false)).map .stillnessExpiry ++
      [Chan.ch0, .ch1, .ch2, .ch3, .ch4, .ch5].flatMap (fun c =>
        ([Port.p0, .p1, .p2].filter (fun p =>
          match (s.comp.get c).pins.get p with
          | .timed start hold => decide (1000000 * hold.toNat ≤ (s.time - start).toNat)
          | _ => false)).map (.pinHoldExpiry c)) ++
      (match s.sync with
        | some u => if 100 ≤ (s.time - u).toNat then [.syncPulseEnd] else []
        | none => []) ++
      (match s.engine with
        | .completing since => if 200 ≤ (s.time - since).toNat then [.completionEnd] else []
        | .idle => []) ++
      (if ((s.links.get .p0).state = .starting ∨ (s.links.get .p1).state = .starting ∨
          (s.links.get .p2).state = .starting) ∧ 10000 ≤ s.time.toNat then [.endOfStartUp] else [])

/-- Every command answers a next state, from every state (log entry 25: no rule makes the part stop), and leaves the
rest of the queue as it was, DEVICE_RESET included (log entry 16): the waiting commands are outside the part. -/
def Obligations.EveryCommandCompletesAndKeepsTheQueue : Prop :=
  ∀ (i : Instr) (s : State), ∃ t, exec i s = .next t ∧ t.pending = s.pending

/-- The frame that spells a request decodes to that request's command, for every request, tag and payload a frame can
carry; and the bytes that pass the frame check are exactly the frames of R190: tag, code, payload length, payload of
at most 4095 bytes, and the CRC-16 of all that. A decoded frame is the command of its whole stage, its arrival and its
taking in one (log entry 4). -/
def Obligations.RequestFramesDecodeToTheirCommands : Prop :=
  (∀ (k : RequestKind) (r : Req), r.stage = .whole → r.payload.length ≤ 4095 →
     decodeFrame r.port (encodeRequest k r) = k.command r) ∧
  (∀ (bytes : List Byte) (q : Request),
     requestOf bytes = some q ↔ q.payload.length ≤ 4095 ∧ bytes = frameBytes q.tag q.code q.payload)

/-- Every step keeps the invariants of the client ports, of the trigger queue and of the capture rings, each on its
own. -/
def Obligations.EveryStepKeepsPortsQueueAndRingsWithinTheirRoom : Prop :=
  (∀ s t : State, LinksHold s → step s = .next t → LinksHold t) ∧
  (∀ s t : State, QueueHolds s → step s = .next t → QueueHolds t) ∧
  (∀ s t : State, RingsHold s → step s = .next t → RingsHold t)

/-- Every step keeps the stillness state in step with the channel state, and a pending compensation value under a pin.
-/
def Obligations.EveryStepKeepsStillnessAndPendingValuesInStep : Prop :=
  (∀ s t : State, StillHolds s → step s = .next t → StillHolds t) ∧
  (∀ s t : State, StoreHolds s → step s = .next t → StoreHolds t)

/-- Every step keeps the claim, the RUN pins and the frame of a scan together, and the found and missed counts the
number of entries that the scan has advanced past. A step from TRACKING to TRACKING stays in the same scan, with its
claimant, direction, first index and list, and moves the current index in the scan direction alone. -/
def Obligations.EveryStepKeepsTheScanBackedAndItsDecisionsCounted : Prop :=
  (∀ s t : State, ScanHolds s → step s = .next t → ScanHolds t) ∧
  (∀ s t : State, DecisionsHold s → step s = .next t → DecisionsHold t) ∧
  (∀ s t : State, step s = .next t → s.seq.state = .tracking → t.seq.state = .tracking →
    t.seq.claimant = s.seq.claimant ∧ t.seq.dir = s.seq.dir ∧ t.seq.first = s.seq.first ∧ t.seq.lines = s.seq.lines ∧
    (s.seq.dir = .forward → s.seq.current ≤ t.seq.current) ∧ (s.seq.dir = .reverse → t.seq.current ≤ s.seq.current))

/-- The compare table stays within its room, and its points in agreement with what their owners can see. -/
def Obligations.EveryStepKeepsTheCompareTableInStep : Prop :=
  ∀ s t : State, TableHolds s → step s = .next t → TableHolds t

/-- The state right after device reset meets every invariant. -/
def Obligations.ResetMeetsEveryInvariant : Prop :=
  LinksHold State.reset ∧ QueueHolds State.reset ∧ RingsHold State.reset ∧ StillHolds State.reset ∧
  StoreHolds State.reset ∧ ScanHolds State.reset ∧ DecisionsHold State.reset ∧ TableHolds State.reset

/-! ## What may change what -/

/-- The raw count of a channel changes only at a good sample frame of that channel in TRACKING or ACQUIRING, or at
device reset; and while the channel is TRACKING before and after a command, it moves by no more than the step limit.
-/
def Obligations.ARawCountMovesOnlyBySteps : Prop :=
  (∀ (i : Instr) (s t : State) (c : Chan), exec i s = .next t → (t.chans.get c).raw ≠ (s.chans.get c).raw →
     i = .deviceReset ∨
     (((s.chans.get c).state = .tracking ∨ (s.chans.get c).state = .acquiring) ∧ (t.chans.get c).state = .tracking ∧
       ∃ bytes f, i = .sampleFrame c bytes ∧ sampleOf bytes = some f)) ∧
  (∀ (i : Instr) (s t : State) (c : Chan), exec i s = .next t →
     (s.chans.get c).state = .tracking → (t.chans.get c).state = .tracking →
     (t.chans.get c).config = (s.chans.get c).config ∧
     ∃ d : Int, d.natAbs ≤ (s.chans.get c).config.stepLimit.toNat ∧
       (t.chans.get c).raw = (s.chans.get c).raw + BitVec.ofInt 48 d)

/-- A channel's epoch changes only at an acquisition that sets the count to 0, and then by exactly one; a device reset
sets it to 0. -/
def Obligations.AnEpochAdvancesOnlyAtARestart : Prop :=
  ∀ (i : Instr) (s t : State) (c : Chan), exec i s = .next t → (t.chans.get c).epoch ≠ (s.chans.get c).epoch →
    (i = .deviceReset ∧ (t.chans.get c).epoch = 0) ∨
    ((s.chans.get c).state = .acquiring ∧ (t.chans.get c).state = .tracking ∧ (t.chans.get c).raw = 0 ∧
      (t.chans.get c).epoch = (s.chans.get c).epoch + 1 ∧
      ((t.chans.get c).outcome = .restarted ∨ (t.chans.get c).outcome = .continuityRefused))

/-- While a channel's pin set is not empty, its applied weight, offset and version do not change, whatever command but
DEVICE_RESET is performed. -/
def Obligations.APinnedEntryIsNotApplied : Prop :=
  ∀ (i : Instr) (s t : State) (c : Chan), exec i s = .next t → i ≠ .deviceReset →
    (s.comp.get c).unpinned = false → (t.comp.get c).unpinned = false →
    (t.comp.get c).weight = (s.comp.get c).weight ∧ (t.comp.get c).offset = (s.comp.get c).offset ∧
    (t.comp.get c).version = (s.comp.get c).version

/-- A request of one port leaves the context of every other port: its origins, baselines, capture ring, subscriptions,
fault-detail latch, enable mask and its client port. Its pending set can only gain kinds. Its settle arm stays but
where the request is a DISABLE CHANNEL of a TRACKING channel that the arm names: then it is cancelled, with
SETTLE_CANCELLED. The rings hold together beforehand, which every step keeps. -/
def Obligations.ARequestLeavesTheOtherPortsContexts : Prop :=
  ∀ (k : RequestKind) (r : Req) (s t : State) (q : Port), RingsHold s → exec (k.command r) s = .next t → q ≠ r.port →
    t.origins.get q = s.origins.get q ∧ t.baselines.get q = s.baselines.get q ∧ t.subs.get q = s.subs.get q ∧
    t.rings.get q = s.rings.get q ∧ t.latches.get q = s.latches.get q ∧ t.links.get q = s.links.get q ∧
    (t.notices.get q).enable = (s.notices.get q).enable ∧
    (∀ n, (s.notices.get q).pending.getLsbD n = true → (t.notices.get q).pending.getLsbD n = true) ∧
    (t.arms.get q = s.arms.get q ∨
      ∃ (c : Chan) (m : ChanMask), k = .disableChannel ∧ r.payload = u8 c.num ∧ (s.chans.get c).state = .tracking ∧
        s.arms.get q = some m ∧ maskHas m c = true ∧ t.arms.get q = none ∧
        (t.notices.get q).has .settleCancelled = true)

/-- A request that is not answered DONE changes nothing but its own port, for every request and every payload. PORT
RESET with a payload is one of them; PORT RESET without one is answered at its last step. -/
def Obligations.ARefusedRequestChangesNothingElse : Prop :=
  ∀ (k : RequestKind) (r : Req) (s : State), Ready r s → (k = .portReset → r.payload ≠ []) →
    ∃ status payload t, exec (k.command r) s = .next (replied r status payload t) ∧ (status ≠ .done → t = s)

/-! ## Sample frames (Chapters 1 and 2) -/

/-- The sample frame check and layout: five bytes with a matching CRC-8, and the fields of 11-2; a bad frame increases
the CRC-error total and changes nothing else. -/
def Obligations.SampleFramesAreJudgedByLengthAndCrc8 : Prop :=
  ((∀ b0 b1 b2 b3 b4 : Byte, sampleOf [b0, b1, b2, b3, b4] =
     if crc8 [b0, b1, b2, b3] = b4 then
       some { seq := b0, phase := BitVec.ofNat 10 (b1.toNat * 4 + b2.toNat / 64), sat := b2.getLsbD 5,
              nrdy := b2.getLsbD 4, level := b3 }
     else none) ∧
   ∀ bytes : List Byte, bytes.length ≠ 5 → sampleOf bytes = none) ∧
  (∀ (c : Chan) (bytes : List Byte) (s : State), sampleOf bytes = none →
     exec (.sampleFrame c bytes) s = .next (s.onChanTotals c (fun t => { t with crc := t.crc + 1 })))

/-- In DISABLED and in LOST a good frame can increase the SAT total, sets the expected sequence number, and changes
nothing else. -/
def Obligations.AnUntrackedFrameOnlySetsTheExpectedSequence : Prop :=
  ∀ (c : Chan) (bytes : List Byte) (f : Sample) (s : State), sampleOf bytes = some f →
    (s.chans.get c).state = .disabled ∨ (s.chans.get c).state = .lost →
    exec (.sampleFrame c bytes) s = .next
      ((s.onChan c (fun u => { u with expected := some (f.seq + 1) })).onChanTotals c
        (fun t => { t with sat := if f.sat then t.sat + 1 else t.sat }))

/-- A frame in TRACKING that is in sequence, whose level as judged is not below the loss threshold and whose step does
not exceed the step limit is accepted: the step is added to the raw count, the last-sample fields and the accepted
total follow, the stillness timer compares the new count with its anchor, and the update goes to the compare table and
the sequencer. -/
def Obligations.ATrackedFrameWithinLimitsStepsTheCount : Prop :=
  ∀ (c : Chan) (bytes : List Byte) (f : Sample) (s : State) (step : Int) (raw : Count), sampleOf bytes = some f →
    (s.chans.get c).state = .tracking → InSequence (s.chans.get c) f →
    (s.chans.get c).config.loss.toNat ≤ f.judged →
    StepFormed (s.chans.get c).config.sense (s.chans.get c).lastPhase f.phase step →
    step.natAbs ≤ (s.chans.get c).config.stepLimit.toNat →
    raw = (s.chans.get c).raw + BitVec.ofInt 48 step →
    exec (.sampleFrame c bytes) s = .next (updateBlocks c
      ((((noted c f s).onChan c (fun u =>
        { u with raw := raw, lastPhase := f.phase, lastLevel := f.level, lastTime := s.time })).onChanTotals c
          (fun t => { t with accepted := t.accepted + 1 })).onStill c (fun t =>
            if t.state = .none then t
            else if (raw - t.anchor).toInt.natAbs ≤ (s.chans.get c).config.stillBand.toNat then t
            else ⟨.moving, raw, some (s.chans.get c).config.settle, s.time, none⟩)))

/-- A frame in TRACKING that shows a gap, is below the loss threshold, or steps beyond the limit, judged in that
order, is a loss: the channel goes to LOST with the count and phase frozen and the mark from the stillness state
before, the cause and its total are recorded, the stillness timer stops, CHANNEL_LOST goes to every port and the loss
report to every latch; then the departure reaches the readers. -/
def Obligations.LossesFreezeTheCountAndReportIt : Prop :=
  ∀ (c : Chan) (bytes : List Byte) (f : Sample) (s : State) (d : LossDetail) (cause : LossCause)
    (bump : ChanTotals → ChanTotals), sampleOf bytes = some f → (s.chans.get c).state = .tracking →
    ((∃ e, (s.chans.get c).expected = some e ∧ e ≠ f.seq ∧ d = .gap f.seq e ∧ cause = .gap ∧
        bump = fun t => { t with gap := t.gap + 1 }) ∨
      (InSequence (s.chans.get c) f ∧ f.judged < (s.chans.get c).config.loss.toNat ∧ d = .level ∧ cause = .level ∧
        bump = fun t => { t with level := t.level + 1 }) ∨
      (InSequence (s.chans.get c) f ∧ (s.chans.get c).config.loss.toNat ≤ f.judged ∧
        ∃ step, StepFormed (s.chans.get c).config.sense (s.chans.get c).lastPhase f.phase step ∧
          (s.chans.get c).config.stepLimit.toNat < step.natAbs ∧ d = .skip step ∧ cause = .skip ∧
          bump = fun t => { t with skip := t.skip + 1 })) →
    exec (.sampleFrame c bytes) s = .next (departure c
      { ((((noted c f s).onChan c (fun u =>
          { u with state := .lost, frozenCount := u.raw, frozenPhase := u.lastPhase,
                   mark := (s.still.get c).state == .settled, lastCause := cause, run := 0 })).onChanTotals c
            bump).onStill c (fun t => { t with state := .none, timer := none, settledTime := none })) with
        notices := (postAll .channelLost s).notices
        latches := PerPort.ofFn (fun p =>
          match s.latches.get p with
          | none => some ⟨⟨c, d, s.time, (s.chans.get c).raw, (s.chans.get c).lastPhase,
              if f.nrdy then 0 else f.level⟩, 0⟩
          | some h => some { h with more := if h.more < 255 then h.more + 1 else h.more }) })

/-- In ACQUIRING a gap restarts the run; a frame below the acquire threshold sets the run to 0, and one at or above it
extends the run by one, until an extension would bring it to the qualify count. -/
def Obligations.AcquiringFramesCountTheRun : Prop :=
  ∀ (c : Chan) (bytes : List Byte) (f : Sample) (s : State) (run : Nat), sampleOf bytes = some f →
    (s.chans.get c).state = .acquiring →
    (InSequence (s.chans.get c) f ∧ run = (s.chans.get c).run ∨ ¬ InSequence (s.chans.get c) f ∧ run = 0) →
    (f.judged < (s.chans.get c).config.acquire.toNat →
      exec (.sampleFrame c bytes) s = .next ((noted c f s).onChan c (fun u => { u with run := 0 }))) ∧
    ((s.chans.get c).config.acquire.toNat ≤ f.judged → run + 1 < (s.chans.get c).config.qualify.toNat →
      exec (.sampleFrame c bytes) s = .next ((noted c f s).onChan c (fun u => { u with run := run + 1 })))

/-- The frame whose extension brings the run to the qualify count is the qualifying sample. A CONTINUE acquisition
whose mark is set and whose continuation difference is no more than the smaller of the still band and 511 is continued
from the frozen count; every other one sets the count to 0, advances the epoch and makes the origins bound to another
epoch STALE. Either way the stillness timer is loaded at the new count. -/
def Obligations.AcquisitionsStartTheCount : Prop :=
  ∀ (c : Chan) (bytes : List Byte) (f : Sample) (s : State) (run : Nat) (diff : Int) (u : ChannelUnit),
    sampleOf bytes = some f → u = s.chans.get c → u.state = .acquiring →
    (InSequence u f ∧ run = u.run ∨ ¬ InSequence u f ∧ run = 0) →
    u.config.acquire.toNat ≤ f.judged → u.config.qualify.toNat ≤ run + 1 →
    StepFormed u.config.sense u.frozenPhase f.phase diff →
    (u.recovery = .resume ∧ u.mark = true ∧ diff.natAbs ≤ min u.config.stillBand.toNat 511 →
      exec (.sampleFrame c bytes) s = .next (pointsOnChannel c (postAll .channelTracking
        (((noted c f s).onChan c (fun u =>
          { u with state := .tracking, raw := u.frozenCount + BitVec.ofInt 48 diff, outcome := .continued,
                   lastPhase := f.phase, lastLevel := f.level, lastTime := s.time, run := 0, mark := false,
                   recovery := .restart })).onStill c (fun _ =>
            ⟨.moving, u.frozenCount + BitVec.ofInt 48 diff, some u.config.settle, s.time, none⟩))))) ∧
    (¬ (u.recovery = .resume ∧ u.mark = true ∧ diff.natAbs ≤ min u.config.stillBand.toNat 511) →
      exec (.sampleFrame c bytes) s = .next (pointsOnChannel c (postAll .channelTracking (postAll .epochChanged
        { ((noted c f s).onChan c (fun u =>
          { u with state := .tracking, raw := 0, epoch := u.epoch + 1,
                   outcome := (match u.recovery with | .restart => .restarted | .resume => .continuityRefused),
                   lastPhase := f.phase, lastLevel := f.level, lastTime := s.time, run := 0, mark := false,
                   recovery := .restart })).onStill c (fun _ =>
            ⟨.moving, 0, some u.config.settle, s.time, none⟩) with
          origins := PerPort.ofFn (fun p => (s.origins.get p).modify c (fun o =>
            if o.status = .bound ∧ o.epoch ≠ u.epoch + 1 then { o with status := .stale } else o)) }))))

/-- An expiry takes place only where a MOVING timer has run 1000 REFCLK periods for each unit of its interval: the
channel becomes SETTLED with its anchor kept, and the waiting arms are evaluated in the order P0, P1, P2. An arm that
names the channel fires if all its channels are SETTLED; any other stays. Elsewhere nothing changes (log entry 3). -/
def Obligations.AStillnessExpirySettlesAndEvaluatesTheArms : Prop :=
  (∀ (c : Chan) (s : State) (n : BitVec 16), (s.still.get c).state = .moving → (s.still.get c).timer = some n →
    1000 * n.toNat ≤ (s.time - (s.still.get c).loadTime).toNat →
    exec (.stillnessExpiry c) s = .next (evalArm c (evalArm c (evalArm c
      (s.onStill c (fun t => { t with state := .settled, timer := none, settledTime := some s.time })) .p0) .p1) .p2)) ∧
  (∀ (c : Chan) (s : State), (∀ n, (s.still.get c).state = .moving → (s.still.get c).timer = some n →
      (s.time - (s.still.get c).loadTime).toNat < 1000 * n.toNat) →
    exec (.stillnessExpiry c) s = .next s) ∧
  (∀ (c : Chan) (s : State) (p : Port) (m : ChanMask), s.arms.get p = some m → maskHas m c = true →
    (∀ d, maskHas m d = true → (s.still.get d).state = .settled) →
    evalArm c s p = post .settleFired p { hand (.settle p m) s with arms := s.arms.set p none }) ∧
  (∀ (c : Chan) (s : State) (p : Port), (∀ m, s.arms.get p = some m →
      maskHas m c = false ∨ ∃ d, maskHas m d = true ∧ (s.still.get d).state ≠ .settled) →
    evalArm c s p = s)

/-- READ CHANNEL and READ STILLNESS are answered DONE, whatever the channel states, with the fields of R18 and R38 in
their order and widths (log entry 14), and change nothing. A settle interval that has run out while its expiry has not
been taken reads as a remaining interval of 1 (log entry 23). -/
def Obligations.ChannelReadsReturnTheirFields : Prop :=
  (∀ (r : Req) (s : State) (c : Chan) (u : ChannelUnit), Ready r s → r.payload = u8 c.num → u = s.chans.get c →
    exec (.readChannel r) s = .next (replied r .done
      (u8 u.state.code ++ i64 u.raw.toInt ++ flag (decide (u.state = .tracking)) ++ u16 u.epoch.toNat ++
        u16 u.lastPhase.toNat ++ u8 u.lastLevel.toNat ++ u16 u.run ++ u16 u.config.qualify.toNat ++
        u8 u.recovery.code ++ u8 u.lastCause.code ++ u8 u.outcome.code ++ flag u.mark ++ i64 u.frozenCount.toInt ++
        u16 u.frozenPhase.toNat ++ u8 u.config.acquire.toNat ++ u8 u.config.loss.toNat ++
        u16 u.config.qualify.toNat ++ u16 u.config.stepLimit.toNat ++ u16 u.config.stillBand.toNat ++
        u16 u.config.settle.toNat ++ u8 u.config.sense.code) s)) ∧
  (∀ (r : Req) (s : State) (m : ChanMask), Ready r s → r.payload = u8 m.toNat → m ≠ 0 →
    exec (.readStillness r) s = .next (replied r .done
      ((maskChans m).flatMap (fun c =>
        let u := s.chans.get c
        let t := s.still.get c
        u8 u.state.code ++ u8 t.state.code ++ i64 t.anchor.toInt ++
        (match t.state with
          | .none => u8 0 ++ u64 0
          | _ => u8 1 ++ i64 (u.raw - t.anchor).toInt) ++
        u16 (match t.state, t.timer with
          | .moving, some n =>
            max 1 ((1000 * n.toNat - (s.time - t.loadTime).toNat + 999) / 1000)
          | _, _ => 0) ++
        u64 t.loadTime.toNat ++
        (match t.settledTime with
          | none => u8 0 ++ u64 0
          | some at_ => u8 1 ++ u64 at_.toNat) ++
        u16 (min 65535 (s.time - u.lastTime).toNat))) s))

/-- CONFIGURE, ENABLE, DISABLE and RECOVER CHANNEL: the state each is taken in and the fields each changes; the state
is checked before the fields; CONFIG_CHANGED to the other ports where the unit changes (log entry 19); a DISABLE from
TRACKING stops the stillness timer and hands on the departure. -/
def Obligations.ChannelRequestsMoveTheUnit : Prop :=
  (∀ (r : Req) (s : State) (c : Chan) (g : ChanConfig), Ready r s → (s.chans.get c).state = .disabled →
    r.payload = u8 c.num ++ u8 g.acquire.toNat ++ u8 g.loss.toNat ++ u16 g.qualify.toNat ++ u16 g.stepLimit.toNat ++
      u16 g.stillBand.toNat ++ u16 g.settle.toNat ++ u8 g.sense.code →
    (1 ≤ g.loss.toNat ∧ g.loss.toNat ≤ g.acquire.toNat ∧ 1 ≤ g.qualify.toNat ∧ 1 ≤ g.stepLimit.toNat ∧
        g.stepLimit.toNat ≤ 511 ∧ 1 ≤ g.settle.toNat →
      exec (.configureChannel r) s = .next (replied r .done []
        (if (s.chans.get c).config = g then s
         else tellOthers r.port (s.onChan c (fun u => { u with config := g }))))) ∧
    (¬ (1 ≤ g.loss.toNat ∧ g.loss.toNat ≤ g.acquire.toNat ∧ 1 ≤ g.qualify.toNat ∧ 1 ≤ g.stepLimit.toNat ∧
        g.stepLimit.toNat ≤ 511 ∧ 1 ≤ g.settle.toNat) →
      exec (.configureChannel r) s = .next (replied r .badValue [] s))) ∧
  (∀ (r : Req) (s : State) (c : Chan) (fields : List Byte), Ready r s → r.payload = u8 c.num ++ fields →
    fields.length = 11 →
    ((s.chans.get c).state ≠ .disabled → exec (.configureChannel r) s = .next (replied r .state [] s)) ∧
    ((s.chans.get c).state = .disabled → 2 ≤ (fields.getD 10 0).toNat →
      exec (.configureChannel r) s = .next (replied r .badValue [] s))) ∧
  (∀ (r : Req) (s : State) (c : Chan), Ready r s → r.payload = u8 c.num →
    ((s.chans.get c).state = .disabled → exec (.enableChannel r) s = .next (replied r .done []
      (tellOthers r.port (s.onChan c (fun u => { u with state := .acquiring, recovery := .restart, run := 0 }))))) ∧
    ((s.chans.get c).state ≠ .disabled → exec (.enableChannel r) s = .next (replied r .state [] s)) ∧
    ((s.chans.get c).state = .disabled → exec (.disableChannel r) s = .next (replied r .done [] s)) ∧
    ((s.chans.get c).state = .acquiring ∨ (s.chans.get c).state = .lost →
      exec (.disableChannel r) s = .next (replied r .done [] (tellOthers r.port (s.onChan c (fun u =>
        { u with state := .disabled, run := 0, recovery := .restart, mark := false, outcome := .none }))))) ∧
    ((s.chans.get c).state = .tracking →
      exec (.disableChannel r) s = .next (replied r .done [] (tellOthers r.port (departure c ((s.onChan c (fun u =>
        { u with state := .disabled, run := 0, recovery := .restart, mark := false, outcome := .none })).onStill c
          (fun t => { t with state := .none, timer := none, settledTime := none }))))))) ∧
  (∀ (r : Req) (s : State) (c : Chan) (b : Byte), Ready r s → r.payload = u8 c.num ++ [b] →
    ((s.chans.get c).state ≠ .lost → exec (.recoverChannel r) s = .next (replied r .state [] s)) ∧
    ((s.chans.get c).state = .lost → 2 ≤ b.toNat → exec (.recoverChannel r) s = .next (replied r .badValue [] s)) ∧
    ((s.chans.get c).state = .lost → b.toNat < 2 →
      exec (.recoverChannel r) s = .next (replied r .done [] (tellOthers r.port (s.onChan c (fun u =>
        { u with state := .acquiring, recovery := if b = 0 then .restart else .resume, run := 0 }))))))

/-! ## The compensation store (Chapter 3) -/

/-- Views, compensated values, L and D: which exist, and what each is. The compensated value is the product of view
and weight in whole picometres, halves away from zero, plus the offset, saturating at 64 bits; L is the mean of the
two rounded towards minus infinity, D the difference, saturating. -/
def Obligations.ViewsLengthsAndLineAreFormedExactly : Prop :=
  (∀ (s : State) (p : Port) (c : Chan), s.view p c =
    if (s.chans.get c).state = .tracking then
      (match ((s.origins.get p).get c).status with
        | .free => some (s.chans.get c).raw.toInt
        | .bound => some ((s.chans.get c).raw - ((s.origins.get p).get c).count).toInt
        | .stale => none)
    else none) ∧
  (∀ (s : State) (p : Port) (c : Chan) (v x : Int), s.view p c = some v → (s.comp.get c).weight ≠ 0 →
    x = v * (s.comp.get c).weight.toNat →
    ∃ r : Int, 2 * (1000 * r - x).natAbs ≤ 1000 ∧
      (2 * (1000 * r - x).natAbs = 1000 → x.natAbs < (1000 * r).natAbs) ∧
      s.compValue p c = some (max (-(2 ^ 63)) (min (2 ^ 63 - 1) (r + (s.comp.get c).offset.toInt)))) ∧
  (∀ (s : State) (p : Port) (c : Chan), s.view p c = none ∨ (s.comp.get c).weight = 0 → s.compValue p c = none) ∧
  (∀ (s : State) (p : Port) (a b : Int), s.compValue p .ch0 = some a → s.compValue p .ch1 = some b →
    ∃ l : Int, s.line p = some l ∧ 2 * l ≤ a + b ∧ a + b < 2 * l + 2 ∧
      s.yaw p = some (max (-(2 ^ 63)) (min (2 ^ 63 - 1) (b - a)))) ∧
  (∀ (s : State) (p : Port), s.compValue p .ch0 = none ∨ s.compValue p .ch1 = none → s.line p = none ∧ s.yaw p = none)

/-- SET COMPENSATION applies the weight and offset on each channel of its mask whose pin set is empty, and puts them
into the pending slot of each other channel of the mask, all in one change; the response gives each channel's outcome.
The writer of a replaced value gets COMP_SUPERSEDED, and an application posts COMP_APPLIED to every port and makes the
points on L record before they decide (response as log entries 13 and 14 have it). -/
def Obligations.CompensationWritesApplyOrWait : Prop :=
  ∀ (r : Req) (s : State) (m : ChanMask) (w o : BitVec 32), Ready r s →
    r.payload = u8 m.toNat ++ u32 w.toNat ++ u32 o.toNat → m ≠ 0 →
    ∃ t u, exec (.setCompensation r) s = .next (replied r .done
        ((maskChans m).flatMap (fun c =>
          u8 c.num ++ u8 (if (s.comp.get c).unpinned then 0 else 1) ++ u16 (t.comp.get c).version.toNat ++
          (match (s.comp.get c).unpinned, (s.comp.get c).slot with
            | false, some v => flag true ++ u8 1 ++ u8 v.writer.num
            | _, _ => flag false ++ u8 0 ++ u8 0))) t) ∧
      (∀ c, t.comp.get c =
        let e := s.comp.get c
        if maskHas m c then
          if e.unpinned then { e with weight := w, offset := o, version := e.version + 1 }
          else { e with slot := some ⟨w, o, r.port⟩ }
        else e) ∧
      u = postWhere .compSuperseded (fun p => (maskChans m).any (fun c =>
        !(s.comp.get c).unpinned && (s.comp.get c).slot.map PendingComp.writer == some p)) s ∧
      t.notices = (if (maskChans m).any (fun c => (s.comp.get c).unpinned) then postAll .compApplied u else u).notices ∧
      t.points = (if (maskChans m).any (fun c => (s.comp.get c).unpinned && c.feedsLine) then
        (pointsOnApplication { s with comp := t.comp }).points else s.points) ∧
      t = { s with comp := t.comp, notices := t.notices, points := t.points }

/-- PIN COMPENSATION adds or renews the port's TIMED pin on each channel of its mask, and leaves a RUN pin; UNPIN
removes the port's TIMED pins of its mask; each reports what it found. A TIMED pin expires 1,000,000 REFCLK periods
for each unit of its hold time after its start: it is removed, and PIN_EXPIRED goes to its holder; before that, and
without a TIMED pin, nothing changes (log entry 3). -/
def Obligations.PinsAreAddedRenewedRemovedAndExpire : Prop :=
  ((∀ (r : Req) (s : State) (m : ChanMask) (h : BitVec 16), Ready r s → r.payload = u8 m.toNat ++ u16 h.toNat → m ≠ 0 →
     (h = 0 → exec (.pinCompensation r) s = .next (replied r .badValue [] s)) ∧
     (h ≠ 0 → ∃ t, exec (.pinCompensation r) s = .next (replied r .done
         ((maskChans m).flatMap (fun c =>
           match (s.comp.get c).pins.get r.port with
           | .none => u8 0
           | .timed _ _ => u8 1
           | .run => u8 2)) t) ∧
       t = { s with comp := t.comp } ∧
       ∀ c, t.comp.get c =
         if maskHas m c ∧ (s.comp.get c).pins.get r.port ≠ .run then
           { s.comp.get c with pins := (s.comp.get c).pins.set r.port (.timed s.time h) }
         else s.comp.get c)) ∧
   (∀ (r : Req) (s : State) (m : ChanMask), Ready r s → r.payload = u8 m.toNat → m ≠ 0 →
     exec (.unpinCompensation r) s = .next (replied r .done
       ((maskChans m).flatMap (fun c =>
         match (s.comp.get c).pins.get r.port with
         | .none => u8 0
         | .timed _ _ => u8 1
         | .run => u8 2))
       (removePins r.port ((maskChans m).filter (fun c =>
         match (s.comp.get c).pins.get r.port with
         | .timed _ _ => true
         | _ => false)) s)))) ∧
  ((∀ (c : Chan) (p : Port) (s : State) (start : Time) (hold : BitVec 16),
     (s.comp.get c).pins.get p = .timed start hold → 1000000 * hold.toNat ≤ (s.time - start).toNat →
     exec (.pinHoldExpiry c p) s = .next (removePins p [c] (post .pinExpired p s))) ∧
   (∀ (c : Chan) (p : Port) (s : State), (∀ start hold, (s.comp.get c).pins.get p = .timed start hold →
       (s.time - start).toNat < 1000000 * hold.toNat) →
     exec (.pinHoldExpiry c p) s = .next s))

/-- The removal of a port's pins from some channels, in one change: on each channel whose pin set it empties, the
pending value is applied and the slot emptied; with an application COMP_APPLIED goes to every port, and one on CH0 or
CH1 makes the points on L record before they decide. -/
def Obligations.AnEmptiedPinSetAppliesItsPendingValue : Prop :=
  ∀ (p : Port) (cs : List Chan) (s : State) (applied : Chan → Bool), cs.Nodup →
    (∀ c, applied c = (decide (c ∈ cs) && Port.all.all (fun q => q == p || (s.comp.get c).pins.get q == .none) &&
      (s.comp.get c).slot.isSome)) →
    ∃ t, removePins p cs s = t ∧
      (∀ c, t.comp.get c =
        let e := s.comp.get c
        if c ∈ cs then
          match applied c, e.slot with
          | true, some v =>
            { weight := v.weight, offset := v.offset, version := e.version + 1, pins := e.pins.set p .none, slot := none }
          | _, _ => { e with pins := e.pins.set p .none }
        else e) ∧
      t.notices = (if Chan.all.any applied then (postAll .compApplied s).notices else s.notices) ∧
      t.points = (if applied .ch0 || applied .ch1 then (pointsOnApplication { s with comp := t.comp }).points
        else s.points) ∧
      t = { s with comp := t.comp, notices := t.notices, points := t.points }

/-- READ COMPENSATION returns one block for each channel of its mask and changes nothing; a TIMED pin shows the part
of its hold time not yet run in units of 10 ms, rounded up (fields in the order of R60; log entries 13 and 14), and 1
where it has run out while its expiry has not been taken (log entry 23). -/
def Obligations.ReadCompensationReturnsTheEntries : Prop :=
  ∀ (r : Req) (s : State) (m : ChanMask) (pinField : Pin → List Byte), Ready r s → r.payload = u8 m.toNat → m ≠ 0 →
    (pinField .none = u8 0 ++ u8 0 ++ u16 0) → (pinField .run = u8 2 ++ u8 0 ++ u16 0) →
    (∀ start hold, pinField (.timed start hold) = u8 1 ++ u8 1 ++ u16 (max 1
      ((1000000 * hold.toNat - (s.time - start).toNat + 999999) / 1000000))) →
    exec (.readCompensation r) s = .next (replied r .done
      ((maskChans m).flatMap (fun c =>
        let e := s.comp.get c
        u8 c.num ++ u32 e.weight.toNat ++ u32 e.offset.toNat ++ u16 e.version.toNat ++
        pinField e.pins.p0 ++ pinField e.pins.p1 ++ pinField e.pins.p2 ++
        (match e.slot with
          | none => u8 0 ++ u32 0 ++ u32 0 ++ u8 0
          | some v => u8 1 ++ u32 v.weight.toNat ++ u32 v.offset.toNat ++ u8 v.writer.num))) s)

/-! ## Port contexts (Chapter 4) -/

/-- SET ORIGIN, its checks in their order, and its effect: each origin of the mask is bound so that the view reads 0
(HERE) or the value (VALUE), in the channel's epoch. CLEAR ORIGIN frees each origin of its mask and returns the status
each had, in any channel state. The claimant's own frame cannot move during a scan, and the compare table treats the
port's points as moved (log entries 10 and 14). -/
def Obligations.OriginsAreSetAndCleared : Prop :=
  ((∀ (r : Req) (s : State) (m : ChanMask) (mode : Byte) (field : BitVec 64), Ready r s →
     r.payload = u8 m.toNat ++ [mode] ++ u64 field.toNat → m ≠ 0 → 2 ≤ mode.toNat →
     exec (.setOrigin r) s = .next (replied r .badValue [] s)) ∧
   ∀ (r : Req) (s : State) (m : ChanMask) (mode : Byte) (field : BitVec 64) (value : Int), Ready r s →
     r.payload = u8 m.toNat ++ [mode] ++ u64 field.toNat → m ≠ 0 →
     (mode = 0 ∧ value = 0 ∨ mode = 1 ∧ value = field.toInt) →
     (-(2 ^ 47) ≤ value ∧ value < 2 ^ 47 →
       (s.seq.claimant = some r.port ∧ s.seq.state = .tracking ∧ (maskHas m .ch0 ∨ maskHas m .ch1) →
         exec (.setOrigin r) s = .next (replied r .scanActive [] s)) ∧
       (¬ (s.seq.claimant = some r.port ∧ s.seq.state = .tracking ∧ (maskHas m .ch0 ∨ maskHas m .ch1)) →
         (∀ c, maskHas m c → (s.chans.get c).state ≠ .tracking →
           (∀ d : Chan, d.num < c.num → maskHas m d → (s.chans.get d).state = .tracking) →
           exec (.setOrigin r) s = .next (replied r .notTracking (u8 c.num) s)) ∧
         ((∀ c, maskHas m c → (s.chans.get c).state = .tracking) →
           ∃ os, exec (.setOrigin r) s = .next (replied r .done
               ((maskChans m).flatMap (fun c =>
                 u8 c.num ++ i64 ((s.chans.get c).raw - BitVec.ofInt 48 value).toInt ++
                 u16 (s.chans.get c).epoch.toNat ++ i64 value))
               (pointsOnOrigins r.port (maskChans m) { s with origins := s.origins.set r.port os })) ∧
             ∀ c, os.get c = if maskHas m c then
                 ⟨(s.chans.get c).raw - BitVec.ofInt 48 value, (s.chans.get c).epoch, .bound⟩
               else (s.origins.get r.port).get c))) ∧
     (¬ (-(2 ^ 47) ≤ value ∧ value < 2 ^ 47) → exec (.setOrigin r) s = .next (replied r .badValue [] s))) ∧
  (∀ (r : Req) (s : State) (m : ChanMask), Ready r s → r.payload = u8 m.toNat → m ≠ 0 →
     (s.seq.claimant = some r.port ∧ s.seq.state = .tracking ∧ (maskHas m .ch0 ∨ maskHas m .ch1) →
       exec (.clearOrigin r) s = .next (replied r .scanActive [] s)) ∧
     (¬ (s.seq.claimant = some r.port ∧ s.seq.state = .tracking ∧ (maskHas m .ch0 ∨ maskHas m .ch1)) →
       ∃ os, exec (.clearOrigin r) s = .next (replied r .done
           ((maskChans m).flatMap (fun c =>
             match ((s.origins.get r.port).get c).status with
             | .free => u8 0
             | .bound => u8 1
             | .stale => u8 2))
           (pointsOnOrigins r.port (maskChans m) { s with origins := s.origins.set r.port os })) ∧
         ∀ c, os.get c = if maskHas m c then ⟨0, 0, .free⟩ else (s.origins.get r.port).get c))

/-- READ POSITION returns the port's own view of the part at one moment, with L and D whenever both exist, and changes
nothing (fields in the order of R73; log entries 13 and 14). -/
def Obligations.ReadPositionReturnsThePortsView : Prop :=
  ∀ (r : Req) (s : State) (m : ChanMask) (pm : Option Int → List Byte), Ready r s → r.payload = u8 m.toNat → m ≠ 0 →
    (pm none = u8 0 ++ u64 0) → (∀ v, pm (some v) = u8 1 ++ i64 v) →
    exec (.readPosition r) s = .next (replied r .done
      (u64 s.time.toNat ++
        (maskChans m).flatMap (fun c =>
          let u := s.chans.get c
          let o := (s.origins.get r.port).get c
          u8 c.num ++ u8 u.state.code ++ u16 u.epoch.toNat ++
          (match o.status with
            | .free => u8 0 ++ (u8 0 ++ u64 0) ++ (u8 0 ++ u16 0)
            | .bound => u8 1 ++ (u8 1 ++ i64 o.count.toInt) ++ (u8 1 ++ u16 o.epoch.toNat)
            | .stale => u8 2 ++ (u8 1 ++ i64 o.count.toInt) ++ (u8 1 ++ u16 o.epoch.toNat)) ++
          pm (s.view r.port c) ++
          (if u.state = .tracking then u8 1 ++ u16 (min 65535 (s.time - u.lastTime).toNat) else u8 0 ++ u16 0) ++
          pm (s.compValue r.port c) ++ u16 (s.comp.get c).version.toNat) ++
        pm (s.line r.port) ++ pm (s.yaw r.port)) s)

/-- READ COUNTERS returns, for each total of a group in its order, the total less the port's baseline modulo 2^32, and
the time; the port's baselines of that group become the totals, and nothing else changes. -/
def Obligations.ReadCountersReturnsAndMovesTheGroup : Prop :=
  ∀ (r : Req) (s : State) (deltas : List (BitVec 32) → List (BitVec 32) → List Byte), Ready r s →
    (∀ ts bs, deltas ts bs = (List.zipWith (fun t b => t - b) ts bs).flatMap (fun d => u32 d.toNat) ++ u64 s.time.toNat) →
    (∀ c : Chan, r.payload = u8 c.num →
      let t := s.totals.chans.get c
      let b := (s.baselines.get r.port).chans.get c
      exec (.readCounters r) s = .next (replied r .done
        (deltas [t.accepted, t.crc, t.sat, t.skip, t.level, t.gap] [b.accepted, b.crc, b.sat, b.skip, b.level, b.gap])
        { s with baselines := s.baselines.modify r.port (fun b => { b with chans := b.chans.set c t }) })) ∧
    (r.payload = u8 6 →
      let t := s.totals.inputs
      let b := (s.baselines.get r.port).inputs
      exec (.readCounters r) s = .next (replied r .done
        (deltas [t.det.accepted, t.det.heldOff, t.aux0.accepted, t.aux0.heldOff, t.aux1.accepted, t.aux1.heldOff]
          [b.det.accepted, b.det.heldOff, b.aux0.accepted, b.aux0.heldOff, b.aux1.accepted, b.aux1.heldOff])
        { s with baselines := s.baselines.modify r.port (fun b => { b with inputs := t }) })) ∧
    (r.payload = u8 7 →
      let t := s.totals.capture
      let b := (s.baselines.get r.port).capture
      exec (.readCounters r) s = .next (replied r .done
        (deltas [t.admitted, t.discarded, t.overrun, t.completed] [b.admitted, b.discarded, b.overrun, b.completed])
        { s with baselines := s.baselines.modify r.port (fun b => { b with capture := t }) })) ∧
    (r.payload = u8 8 →
      let t := s.totals.seq
      let b := (s.baselines.get r.port).seq
      exec (.readCounters r) s = .next (replied r .done
        (deltas [t.started, t.line, t.missed, t.stray, t.lost, t.fault]
          [b.started, b.line, b.missed, b.stray, b.lost, b.fault])
        { s with baselines := s.baselines.modify r.port (fun b => { b with seq := t }) })) ∧
    (∀ n : Byte, 9 ≤ n.toNat → r.payload = [n] → exec (.readCounters r) s = .next (replied r .badValue [] s))

/-! ## Triggers and the capture engine (Chapter 5) -/

/-- What becomes of a trigger: its routing set is fixed from the ACTIVE rings and the subscriptions; with an empty set
it is discarded, with room it is admitted with the next capture number and the snapshot of this moment, and with a
full queue it is lost, with TRIGGER_OVERRUN to the set, a lost SEQUENCE trigger counted by the sequencer too. -/
def Obligations.TriggersAreDiscardedAdmittedOrLost : Prop :=
  ∀ (src : Source) (s : State) (route : Port → Bool),
    (∀ p, route p = (decide ((s.rings.get p).state = .active) &&
      (match src with
        | .input i => (s.subs.get p).getLsbD i.num
        | .compare _ owner shared => decide (owner = p) || (shared && (s.subs.get p).getLsbD 3)
        | .request q => decide (q = p)
        | .settle q _ => decide (q = p)
        | .sequence _ named _ => decide (named = some p) || (s.subs.get p).getLsbD 4))) →
    ((∀ p, route p = false) →
      hand src s = s.onCaptureTotals (fun t => { t with discarded := t.discarded + 1 })) ∧
    ((∃ p, route p = true) → s.queue.length < 4 →
      hand src s = State.onCaptureTotals
        { s with
          queue := s.queue ++ [
            { number := s.nextNumber, source := src, route := PerPort.ofFn route
              snap :=
                { time := s.time
                  chans := PerChan.ofFn (fun c =>
                    { state := (s.chans.get c).state, epoch := (s.chans.get c).epoch, raw := (s.chans.get c).raw
                      age := if (s.chans.get c).state = .tracking
                        then some (min 65535 (s.time - (s.chans.get c).lastTime).toNat) else none
                      weight := (s.comp.get c).weight, offset := (s.comp.get c).offset
                      version := (s.comp.get c).version })
                  origins := PerPort.ofFn (fun p => if route p then some (s.origins.get p) else none)
                  frame := (match src with
                    | .sequence f _ _ => some ((s.origins.get f).ch0, (s.origins.get f).ch1)
                    | _ => none) } }]
          nextNumber := s.nextNumber + 1
          engine := (match s.engine with
            | .idle => .completing s.time
            | .completing since => .completing since) }
        (fun t => { t with admitted := t.admitted + 1 })) ∧
    ((∃ p, route p = true) → 4 ≤ s.queue.length →
      ∃ u, u = { s.onCaptureTotals (fun t => { t with overrun := t.overrun + 1 }) with
          notices := (postWhere .triggerOverrun route s).notices } ∧
        hand src s =
          (match src with
            | .sequence _ _ _ =>
              (u.onSeq (fun q => { q with lost := if q.lost < 65535 then q.lost + 1 else q.lost })).onSeqTotals
                (fun t => { t with lost := t.lost + 1 })
            | _ => u))

/-- An edge of the selected polarity on an enabled input, the first in its REFCLK period (log entry 8), is accepted
where the input is READY and held off where it is in HOLDOFF; an accepted DET edge goes to the sequencer while it is
TRACKING, any other accepted edge is a trigger. Any other transition has no effect. -/
def Obligations.EdgesAreAcceptedHeldOffOrUnseen : Prop :=
  ∀ (i : Input) (e : Edge) (s : State) (t : TrigInput), t = s.inputs.get i →
    (t.enabled = false ∨ t.edge ≠ e ∨ t.edgeSeen = true → exec (.edge i e) s = .next s) ∧
    (t.enabled = true → t.edge = e → t.edgeSeen = false →
      (t.holdOffUntil ≠ none → exec (.edge i e) s = .next
        ((s.onInput i (fun t => { t with edgeSeen := true })).onInputTotals i
          (fun n => { n with heldOff := n.heldOff + 1 }))) ∧
      (t.holdOffUntil = none →
        ∃ u, u = (s.onInput i (fun t => { t with
            edgeSeen := true
            holdOffUntil := if t.holdOff = 0 then none else some (s.time + t.holdOff.setWidth 48) })).onInputTotals i
              (fun n => { n with accepted := n.accepted + 1 }) ∧
          (i = .det ∧ s.seq.state = .tracking → exec (.edge i e) s = .next (sequencerEdge u)) ∧
          (¬ (i = .det ∧ s.seq.state = .tracking) → exec (.edge i e) s = .next (hand (.input i) u))))

/-- A hold-off expires at its expiry time, which is ahead where it is half the range of the time base or more from the
present time (log entry 24): the input becomes READY. CONFIGURE INPUT replaces the three fields together and returns a
disabled input to READY; CONFIG_CHANGED goes to the other ports where a field differs (log entries 12 and 19). A SYNC
pulse ends 100 REFCLK periods after the last firing. An expiry before its time, or with nothing to expire, changes
nothing (log entry 3). -/
def Obligations.InputsAndSyncExpireAndInputsAreConfigured : Prop :=
  ((∀ (i : Input) (s : State) (u : Time), (s.inputs.get i).holdOffUntil = some u → (s.time - u).toNat < 2 ^ 47 →
     exec (.holdOffExpiry i) s = .next (s.onInput i (fun t => { t with holdOffUntil := none }))) ∧
   (∀ (i : Input) (s : State), (∀ u, (s.inputs.get i).holdOffUntil = some u → 2 ^ 47 ≤ (s.time - u).toNat) →
     exec (.holdOffExpiry i) s = .next s) ∧
   (∀ (r : Req) (s : State) (i : Input) (en : Byte) (e : Edge) (h : BitVec 16), Ready r s →
     r.payload = u8 i.num ++ [en] ++ u8 (edgeCode e) ++ u16 h.toNat →
     ∃ t, t = s.onInput i (fun x => { x with
         enabled := en.getLsbD 0, edge := e, holdOff := h
         holdOffUntil := if en.getLsbD 0 then x.holdOffUntil else none }) ∧
       exec (.configureInput r) s = .next (replied r .done []
         (if (s.inputs.get i).enabled = en.getLsbD 0 ∧ (s.inputs.get i).edge = e ∧ (s.inputs.get i).holdOff = h then t
          else tellOthers r.port t))) ∧
   (∀ (r : Req) (s : State) (n en e h0 h1 : Byte), Ready r s → r.payload = [n, en, e, h0, h1] →
     3 ≤ n.toNat ∨ 2 ≤ e.toNat → exec (.configureInput r) s = .next (replied r .badValue [] s))) ∧
  ((∀ (s : State) (t : Time), s.sync = some t → 100 ≤ (s.time - t).toNat →
     exec .syncPulseEnd s = .next { s with sync := none }) ∧
   (∀ s : State, (∀ t, s.sync = some t → (s.time - t).toNat < 100) → exec .syncPulseEnd s = .next s))

/-- CAPTURE NOW hands a REQUEST trigger and reports what became of it. ARM SETTLE needs every channel of its mask
TRACKING, replaces the port's arm, and fires at once where every channel is SETTLED; CANCEL SETTLE removes the arm;
both report the arm they found (log entries 13 and 14). -/
def Obligations.CaptureNowAndSettleArmsReportTheirOutcome : Prop :=
  (∀ (r : Req) (s : State), Ready r s → r.payload = [] →
     ((s.rings.get r.port).state ≠ .active → exec (.captureNow r) s = .next
       (replied r .done (u8 1 ++ u8 0 ++ u32 0) (hand (.request r.port) s))) ∧
     ((s.rings.get r.port).state = .active → s.queue.length < 4 → exec (.captureNow r) s = .next
       (replied r .done (u8 0 ++ u8 1 ++ u32 s.nextNumber.toNat) (hand (.request r.port) s))) ∧
     ((s.rings.get r.port).state = .active → 4 ≤ s.queue.length → exec (.captureNow r) s = .next
       (replied r .done (u8 2 ++ u8 0 ++ u32 0) (hand (.request r.port) s)))) ∧
  ((∀ (r : Req) (s : State) (m : ChanMask) (old : List Byte), Ready r s → r.payload = u8 m.toNat → m ≠ 0 →
     old = (match s.arms.get r.port with
       | none => u8 0 ++ u8 0 ++ u8 0
       | some o => u8 1 ++ u8 1 ++ u8 o.toNat) →
     (∀ c, maskHas m c → (s.chans.get c).state ≠ .tracking →
       (∀ d : Chan, d.num < c.num → maskHas m d → (s.chans.get d).state = .tracking) →
       exec (.armSettle r) s = .next (replied r .notTracking (u8 c.num) s)) ∧
     ((∀ c, maskHas m c → (s.chans.get c).state = .tracking) →
       ((∃ c, maskHas m c ∧ (s.still.get c).state ≠ .settled) → exec (.armSettle r) s = .next
         (replied r .done (u8 0 ++ old ++ u8 0 ++ u8 0 ++ u8 0 ++ u32 0)
           { s with arms := s.arms.set r.port (some m) })) ∧
       ((∀ c, maskHas m c → (s.still.get c).state = .settled) →
         ∃ fired, fired = { post .settleFired r.port (hand (.settle r.port m) s) with arms := s.arms.set r.port none } ∧
           ((s.rings.get r.port).state ≠ .active → exec (.armSettle r) s = .next
             (replied r .done (u8 1 ++ old ++ u8 1 ++ u8 1 ++ u8 0 ++ u32 0) fired)) ∧
           ((s.rings.get r.port).state = .active → s.queue.length < 4 → exec (.armSettle r) s = .next
             (replied r .done (u8 1 ++ old ++ u8 1 ++ u8 0 ++ u8 1 ++ u32 s.nextNumber.toNat) fired)) ∧
           ((s.rings.get r.port).state = .active → 4 ≤ s.queue.length → exec (.armSettle r) s = .next
             (replied r .done (u8 1 ++ old ++ u8 1 ++ u8 2 ++ u8 0 ++ u32 0) fired))))) ∧
   (∀ (r : Req) (s : State), Ready r s → r.payload = [] →
     exec (.cancelSettle r) s = .next (replied r .done
       (match s.arms.get r.port with
         | none => u8 0 ++ u8 0 ++ u8 0
         | some o => u8 1 ++ u8 1 ++ u8 o.toNat)
       { s with arms := s.arms.set r.port none })))

/-- The end of a completion: the oldest entry's records are delivered to the rings still routed, it leaves the queue
and is counted, the next completion begins or the engine becomes IDLE, and a DRAINING ring that no entry routes to
becomes STOPPED. RING_DATA and RING_OVERFLOW follow the deliveries. In IDLE nothing changes (log entries 3 and 7). -/
def Obligations.ACompletionDeliversTheOldestEntry : Prop :=
  (∀ (s : State) (since : Time) (e : QueueEntry) (rest : List QueueEntry), s.engine = .completing since →
    s.queue = e :: rest →
    ∃ rings, exec .completionEnd s = .next (State.onCaptureTotals
        { s with
          queue := rest
          engine := if rest = [] then .idle else .completing s.time
          rings := rings
          notices := (postWhere .ringOverflow (fun p => e.route.get p && decide (64 ≤ (s.rings.get p).records.length))
            (postWhere .ringData (fun p => e.route.get p && decide ((s.rings.get p).records.length < 64 ∧
              (s.rings.get p).records.length + 1 = (s.rings.get p).threshold)) s)).notices }
        (fun t => { t with completed := t.completed + 1 })) ∧
      ∀ (p : Port) (x d : Ring), x = s.rings.get p →
        d = (if e.route.get p then
            if x.records.length < 64 then { x with records := x.records ++ [buildRecord e p] }
            else (match x.policy with
              | .keepOld => { x with drops := if x.drops < 65535 then x.drops + 1 else x.drops }
              | .keepNew => { x with records := x.records.tail ++ [buildRecord e p]
                                     overwrites := if x.overwrites < 65535 then x.overwrites + 1 else x.overwrites })
          else x) →
        rings.get p =
          if d.state = .draining ∧ ∀ q ∈ rest, q.route.get p = false then { d with state := .stopped } else d) ∧
  (∀ s : State, s.engine = .idle → exec .completionEnd s = .next s)

/-! ## Capture rings and records (Chapter 6) -/

/-- A record is built from the snapshot alone: header, channel blocks through the receiving port's snapshot origins, L
and D from the two compensated values, and a LINE record's deviation through the frame port's origins. It has between
17 and 51 words, and the low byte of its second word is that number. Its words are those of R192: number, length with
kind, source and source detail, presence mask, time, the pair of words of each channel, then the present fields in
order; each 64-bit field low word first (log entry 17), each word low byte first. -/
def Obligations.RecordsAreBuiltFromTheSnapshot : Prop :=
  (∀ (e : QueueEntry) (p : Port) (os : PerChan Origin), e.snap.origins.get p = some os →
     ∃ blocks : PerChan RecordChan,
       (∀ c : Chan,
         let n := e.snap.chans.get c
         let o := os.get c
         blocks.get c =
           { state := n.state, epoch := n.epoch, status := o.status, version := n.version, age := n.age
             view := viewOf n.state n.raw o, comp := compOf (viewOf n.state n.raw o) n.weight n.offset }) ∧
       (buildRecord e p).number = e.number ∧ (buildRecord e p).source = e.source ∧
       (buildRecord e p).time = e.snap.time ∧ (buildRecord e p).chans = blocks ∧
       (buildRecord e p).lineYaw = (match blocks.ch0.comp, blocks.ch1.comp with
         | some a, some b => some (lineOf a b, yawOf a b)
         | _, _ => none) ∧
       (buildRecord e p).deviation = (match e.source, e.snap.frame with
         | .sequence _ _ (.line entry _), some f =>
           (match compOf (viewOf e.snap.chans.ch0.state e.snap.chans.ch0.raw f.1) e.snap.chans.ch0.weight
                 e.snap.chans.ch0.offset,
               compOf (viewOf e.snap.chans.ch1.state e.snap.chans.ch1.raw f.2) e.snap.chans.ch1.weight
                 e.snap.chans.ch1.offset with
             | some a, some b => some (lineOf a b - entry.nominal.toInt)
             | _, _ => none)
         | _, _ => none)) ∧
  (∀ (e : QueueEntry) (p : Port), 17 ≤ (buildRecord e p).words.length ∧ (buildRecord e p).words.length ≤ 51 ∧
     ∃ w, (buildRecord e p).words[1]? = some w ∧ (w.extractLsb' 0 8).toNat = (buildRecord e p).words.length) ∧
  (∀ (e : QueueEntry) (p : Port) (r : Record) (blocks : List RecordChan) (w : Nat → BitVec 32)
     (two : Int → List (BitVec 32)) (kind source detail : Nat) (entry : Option EntryRef) (ordinal : Option Nat)
     (haltBlock : List (BitVec 32)), r = buildRecord e p →
     blocks = [r.chans.ch0, r.chans.ch1, r.chans.ch2, r.chans.ch3, r.chans.ch4, r.chans.ch5] →
     (∀ n, w n = BitVec.ofNat 32 n) →
     (∀ x : Int, two x = [BitVec.ofInt 32 x, BitVec.ofInt 32 (x / 2 ^ 32)]) →
     (source, detail) = (match e.source with
       | .input .det => (0, 0)
       | .input .aux0 => (1, 1)
       | .input .aux1 => (2, 2)
       | .compare slot owner shared => (3, slot.val + 32 * owner.num + if shared then 128 else 0)
       | .request q => (4, q.num)
       | .settle q m => (5, q.num + 256 * m.toNat)
       | .sequence frame _ _ => (6, frame.num)) →
     (kind, entry, ordinal, haltBlock) = (match e.source with
       | .sequence _ _ (.line x n) => (1, some x, some n, [])
       | .sequence _ _ (.missed x) => (2, some x, none, [])
       | .sequence _ _ (.stray x) => (3, some x, none, [])
       | .sequence _ _ (.halt cause x found missed stray lost) => (4, x, none,
           [w (match cause with
             | .none => 0 | .ended => 1 | .stopped => 2 | .fault => 3 | .forced => 4 | .claimLost => 5),
            w (found + 2 ^ 16 * missed), w (stray + 2 ^ 16 * lost)])
       | _ => (0, none, none, [])) →
     ∃ mask : BitVec 32,
       (∀ c : Chan, mask.getLsbD c.num = (r.chans.get c).age.isSome ∧
         mask.getLsbD (6 + c.num) = (r.chans.get c).view.isSome ∧
         mask.getLsbD (12 + c.num) = (r.chans.get c).comp.isSome) ∧
       mask.getLsbD 18 = r.lineYaw.isSome ∧ mask.getLsbD 19 = entry.isSome ∧ mask.getLsbD 20 = ordinal.isSome ∧
       mask.getLsbD 21 = r.deviation.isSome ∧ mask.getLsbD 22 = decide (haltBlock ≠ []) ∧
       (∀ n, 23 ≤ n → mask.getLsbD n = false) ∧
       r.words =
         [r.number, w (r.words.length + 2 ^ 8 * kind + 2 ^ 12 * source + 2 ^ 16 * detail), mask,
          w r.time.toNat, w (r.time.toNat / 2 ^ 32)] ++
         blocks.flatMap (fun b =>
           [w (b.epoch.toNat +
               2 ^ 16 * (match b.state with | .disabled => 0 | .acquiring => 1 | .tracking => 2 | .lost => 3) +
               2 ^ 18 * (match b.status with | .free => 0 | .bound => 1 | .stale => 2)),
            w (b.version.toNat + 2 ^ 16 * b.age.getD 0)]) ++
         (blocks.filterMap RecordChan.view).flatMap two ++ (blocks.filterMap RecordChan.comp).flatMap two ++
         (match r.lineYaw with
           | some (l, d) => two l ++ two d
           | none => []) ++
         (match entry with
           | some x => w (x.index + 2 ^ 16 * x.tag.toNat) :: two x.nominal.toInt
           | none => []) ++
         (match ordinal with
           | some n => [w n]
           | none => []) ++
         (match r.deviation with
           | some d => two d
           | none => []) ++
         haltBlock ∧
       r.bytes = r.words.flatMap (fun x =>
         [x.extractLsb' 0 8, x.extractLsb' 8 8, x.extractLsb' 16 8, x.extractLsb' 24 8]))

/-- The ring requests: START, STOP, CLEAR RING, SET RING POLICY, SET SUBSCRIPTION and TAKE RECORDS change the fields
of the port's own ring that their rules name, and report what their rules name (log entry 14). -/
def Obligations.RingRequestsChangeTheirOwnRing : Prop :=
  ∀ (r : Req) (s : State) (x : Ring) (routedNow : Nat), Ready r s → x = s.rings.get r.port →
    routedNow = (s.queue.filter (fun e => e.route.get r.port)).length →
    (r.payload = [] →
      exec (.startRing r) s = .next (replied r .done (u8 x.state.code)
        (s.onRing r.port (fun x => { x with state := .active }))) ∧
      (x.state = .active → routedNow = 0 → exec (.stopRing r) s = .next (replied r .done (u8 0 ++ u8 0)
        (s.onRing r.port (fun x => { x with state := .stopped })))) ∧
      (x.state = .active → routedNow ≠ 0 → exec (.stopRing r) s = .next (replied r .done (u8 2 ++ u8 routedNow)
        (s.onRing r.port (fun x => { x with state := .draining })))) ∧
      (x.state ≠ .active → exec (.stopRing r) s = .next (replied r .done (u8 x.state.code ++ u8 routedNow) s)) ∧
      exec (.clearRing r) s = .next (replied r .done (u8 x.records.length)
        (s.onRing r.port (fun x => { x with records := [], drops := 0, overwrites := 0 })))) ∧
    (∀ (pol : RingPolicy) (n : Byte), r.payload = u8 pol.code ++ [n] →
      (1 ≤ n.toNat ∧ n.toNat ≤ 64 → exec (.setRingPolicy r) s = .next
        (replied r .done (u8 x.policy.code ++ u8 x.threshold)
          (s.onRing r.port (fun x => { x with policy := pol, threshold := n.toNat })))) ∧
      (¬ (1 ≤ n.toNat ∧ n.toNat ≤ 64) → exec (.setRingPolicy r) s = .next (replied r .badValue [] s))) ∧
    (∀ pol n : Byte, r.payload = [pol, n] → 2 ≤ pol.toNat →
      exec (.setRingPolicy r) s = .next (replied r .badValue [] s)) ∧
    (∀ m : Byte, r.payload = [m] →
      (m.toNat < 32 → exec (.setSubscription r) s = .next (replied r .done (u8 (s.subs.get r.port).toNat)
        { s with subs := s.subs.set r.port (m.setWidth 5) })) ∧
      (32 ≤ m.toNat → exec (.setSubscription r) s = .next (replied r .badValue [] s))) ∧
    (∀ n : Byte, r.payload = [n] →
      (1 ≤ n.toNat ∧ n.toNat ≤ 8 → exec (.takeRecords r) s = .next (replied r .done
        (u8 (x.records.length - n.toNat) ++ u8 (min n.toNat x.records.length) ++ [0, 0] ++
          (x.records.take n.toNat).flatMap Record.bytes)
        (s.onRing r.port (fun x => { x with records := x.records.drop n.toNat })))) ∧
      (¬ (1 ≤ n.toNat ∧ n.toNat ≤ 8) → exec (.takeRecords r) s = .next (replied r .badValue [] s)))

/-- PEEK RECORDS, READ RING STATUS and READ CAPTURE STATUS return what stands at their taking and change nothing
(fields in the order of R117, R118 and R99; log entries 13 and 14). -/
def Obligations.CaptureAndRingReadsReturnTheirFields : Prop :=
  (∀ (r : Req) (s : State) (start n : Byte) (x : Ring), Ready r s → r.payload = [start, n] → x = s.rings.get r.port →
    (start.toNat ≤ 63 ∧ 1 ≤ n.toNat ∧ n.toNat ≤ 8 → exec (.peekRecords r) s = .next (replied r .done
      (u8 x.records.length ++ u8 (min n.toNat (x.records.length - start.toNat)) ++ [0, 0] ++
        ((x.records.drop start.toNat).take n.toNat).flatMap Record.bytes) s)) ∧
    (¬ (start.toNat ≤ 63 ∧ 1 ≤ n.toNat ∧ n.toNat ≤ 8) →
      exec (.peekRecords r) s = .next (replied r .badValue [] s))) ∧
  (∀ (r : Req) (s : State) (x : Ring), Ready r s → r.payload = [] → x = s.rings.get r.port →
    exec (.readRingStatus r) s = .next (replied r .done
      (u8 x.state.code ++ u8 x.records.length ++ u8 x.policy.code ++ u8 x.threshold ++ u16 x.drops ++ u16 x.overwrites ++
        u8 (s.subs.get r.port).toNat ++ u8 (s.queue.filter (fun e => e.route.get r.port)).length ++
        (match x.records.head?, x.records.getLast? with
          | some a, some b => u8 1 ++ u32 a.number.toNat ++ u8 1 ++ u32 b.number.toNat
          | _, _ => u8 0 ++ u32 0 ++ u8 0 ++ u32 0)) s)) ∧
  (∀ (r : Req) (s : State) (inp : TrigInput → List Byte), Ready r s → r.payload = [] →
    (∀ t, inp t = flag t.enabled ++ u8 (edgeCode t.edge) ++ u16 t.holdOff.toNat ++
      u8 (if t.holdOffUntil = none then 0 else 1)) →
    exec (.readCaptureStatus r) s = .next (replied r .done
      (u64 s.time.toNat ++ inp s.inputs.det ++ inp s.inputs.aux0 ++ inp s.inputs.aux1 ++ u8 s.queue.length ++
        u8 (if s.engine = .idle then 0 else 1) ++
        (match s.queue with
          | [] => u8 0 ++ u32 0
          | e :: _ => u8 1 ++ u32 e.number.toNat) ++
        u32 s.nextNumber.toNat ++
        (match s.arms.get r.port with
          | none => u8 0 ++ u8 0
          | some m => u8 1 ++ u8 m.toNat) ++
        flag (decide (s.sync ≠ none))) s))

/-! ## The line sequencer (Chapter 7) -/

/-- An accepted DET edge at the TRACKING sequencer: in the OPEN window a LINE decision with the next ordinal, found at
the entry's first pulse; with the window BEFORE a stray, handed on only where the run reports strays. -/
def Obligations.DetPulsesAreLinesOrStrays : Prop :=
  ∀ (s : State) (p : Port) (e : LineEntry) (entry : EntryRef), s.seq.claimant = some p →
    s.seq.lines[s.seq.current]? = some e → entry = ⟨s.seq.current, e.tag, e.nominal⟩ →
    (s.seq.window = .opened → ∃ n, n = (if s.seq.pulses < 65535 then s.seq.pulses + 1 else s.seq.pulses) ∧
      sequencerEdge s = hand (.sequence p (some p) (.line entry n))
        ((s.onSeq (fun q => { q with
          pulses := n, found := if q.pulses = 0 then q.found + 1 else q.found })).onSeqTotals
            (fun t => { t with line := t.line + 1 }))) ∧
    (s.seq.window = .before → ∃ u, u = (s.onSeq (fun q => { q with
          stray := if q.stray < 65535 then q.stray + 1 else q.stray })).onSeqTotals
            (fun t => { t with stray := t.stray + 1 }) ∧
      sequencerEdge s = if s.seq.reportStrays then hand (.sequence p (some p) (.stray entry)) u else u)

/-- An update of L at the TRACKING sequencer: the scan coordinate is L in a FORWARD scan and minus L in a REVERSE
scan. Before the window it sets BEFORE, within it OPEN, and beyond it the entry is passed, MISSED if it took no pulse:
the scan ends where the list is exhausted, and otherwise the next entry is evaluated against the same coordinate. An
update taken while the claimant's L does not exist decides nothing. -/
def Obligations.WindowsAreEvaluatedUntilStable : Prop :=
  ∀ (s : State) (p : Port) (ev : Int → State → State),
    (∀ x u, ev x u = evalWindow p (s.seq.lines.length + 1) x u) →
    (s.seq.state ≠ .tracking → sequencerUpdate s = s) ∧
    (s.seq.state = .tracking → s.seq.claimant = some p → s.line p = none → sequencerUpdate s = s) ∧
    (∀ l : Int, s.seq.state = .tracking → s.seq.claimant = some p → s.line p = some l →
      (s.seq.dir = .forward → sequencerUpdate s = ev l s) ∧
      (s.seq.dir = .reverse → sequencerUpdate s = ev (max (-(2 ^ 63)) (min (2 ^ 63 - 1) (-l))) s)) ∧
    (∀ (u : State) (e : LineEntry) (x near far : Int), u.seq.lines = s.seq.lines →
      u.seq.lines[u.seq.current]? = some e →
      WindowEdges u.seq.dir e near far →
      (x < near → ev x u = u.onSeq (fun q => { q with window := .before })) ∧
      (near ≤ x ∧ x ≤ far → ev x u = u.onSeq (fun q => { q with window := .opened })) ∧
      (far < x →
        ∃ v, v = (if u.seq.pulses = 0 then
            hand (.sequence p (some p) (.missed ⟨u.seq.current, e.tag, e.nominal⟩))
              ((u.onSeq (fun q => { q with missed := q.missed + 1 })).onSeqTotals
                (fun t => { t with missed := t.missed + 1 }))
          else u) ∧
          (u.seq.dir = .forward → u.seq.current + 1 < u.seq.lines.length →
            ev x u = ev x (v.onSeq (fun q => { q with current := u.seq.current + 1, pulses := 0 }))) ∧
          (u.seq.dir = .forward → u.seq.lines.length ≤ u.seq.current + 1 → ev x u = halt .ended v) ∧
          (u.seq.dir = .reverse → u.seq.current ≠ 0 →
            ev x u = ev x (v.onSeq (fun q => { q with current := u.seq.current - 1, pulses := 0 }))) ∧
          (u.seq.dir = .reverse → u.seq.current = 0 → ev x u = halt .ended v)))

/-- A halt, in its order: the RUN pins go with what they held back applied, the HALT trigger is handed with the
counts, SCAN_HALTED is posted to the claimant named for routing and the SEQUENCE subscribers, and the cause is stored.
FORCED and CLAIM_LOST name no claimant, END names no entry, and FAULT is counted. -/
def Obligations.AHaltUnpinsReportsAndStoresItsCause : Prop :=
  ∀ (cause : HaltCause) (s : State) (p : Port) (named : Option Port) (entry : Option EntryRef), cause ≠ .none →
    s.seq.claimant = some p →
    named = (if cause = .forced ∨ cause = .claimLost then none else some p) →
    entry = (if cause = .ended then none
      else (s.seq.lines[s.seq.current]?).map (fun e => ⟨s.seq.current, e.tag, e.nominal⟩)) →
    ∃ u, u = hand (.sequence p named (.halt cause entry s.seq.found s.seq.missed s.seq.stray s.seq.lost))
        (removePins p [.ch0, .ch1] s) ∧
      halt cause s =
        { u with
          seq := { u.seq with state := .halted, cause := cause }
          notices := (postWhere .scanHalted (fun q => decide (named = some q) || (s.subs.get q).getLsbD 4) u).notices
          totals := if cause = .fault
            then { u.totals with seq := { u.totals.seq with fault := u.totals.seq.fault + 1 } } else u.totals }

/-- A departure of a channel from TRACKING: the points that depend on it become INACTIVE, their last side absent from
then on (log entry 9), every waiting arm that names it is cancelled with SETTLE_CANCELLED, and a TRACKING scan halts
with FAULT where the channel is CH0 or CH1. -/
def Obligations.DeparturesReachTheReaders : Prop :=
  ∀ (c : Chan) (s : State) (named : Port → Bool), (s.chans.get c).state ≠ .tracking →
    (∀ p, named p = (match s.arms.get p with
      | none => false
      | some m => maskHas m c)) →
    ∃ v, v = { s with
        points := s.points.map (fun pt =>
          if pt.subject = .chan c ∨ pt.subject = .line ∧ (c = .ch0 ∨ c = .ch1) then
            { pt with state := .inactive, lastSide := none, rearmDir := none }
          else pt)
        arms := PerPort.ofFn (fun p => if named p then none else s.arms.get p)
        notices := (postWhere .settleCancelled named s).notices } ∧
      ((c = .ch0 ∨ c = .ch1) ∧ s.seq.state = .tracking → departure c s = halt .fault v) ∧
      (¬ ((c = .ch0 ∨ c = .ch1) ∧ s.seq.state = .tracking) → departure c s = v)

/-- CLAIM, RELEASE and FORCE RELEASE: who may, what each refuses with, and that the end of a claim halts a TRACKING
scan, empties the list and leaves the sequencer UNCLAIMED (responses as log entry 14 has them). -/
def Obligations.TheClaimIsTakenReleasedAndForced : Prop :=
  ∀ (r : Req) (s : State) (ended : State → State), Ready r s → r.payload = [] →
    (∀ u, ended u = u.onSeq (fun q => { q with state := .unclaimed, claimant := none, lines := [] })) →
    (s.seq.claimant = none →
      exec (.claimSequencer r) s = .next (replied r .done (u8 0) (tellOthers r.port
        (s.onSeq (fun q => { q with state := .loading, claimant := some r.port })))) ∧
      exec (.releaseSequencer r) s = .next (replied r .notClaimant [] s) ∧
      exec (.forceRelease r) s = .next (replied r .state [] s)) ∧
    (s.seq.claimant = some r.port →
      exec (.claimSequencer r) s = .next (replied r .done (u8 1) s) ∧
      exec (.forceRelease r) s = .next (replied r .state [] s) ∧
      (s.seq.state = .tracking → exec (.releaseSequencer r) s = .next (replied r .done (u8 1)
        (tellOthers r.port (ended (halt .stopped s))))) ∧
      (s.seq.state ≠ .tracking → exec (.releaseSequencer r) s = .next (replied r .done (u8 0)
        (tellOthers r.port (ended s))))) ∧
    (∀ q, s.seq.claimant = some q → q ≠ r.port →
      exec (.claimSequencer r) s = .next (replied r .claimed (u8 q.num) s) ∧
      exec (.releaseSequencer r) s = .next (replied r .notClaimant [] s) ∧
      (s.seq.state = .tracking → exec (.forceRelease r) s = .next (replied r .done (u8 q.num ++ u8 1)
        (postAll .scanHalted (post .claimLost q (ended (halt .forced s)))))) ∧
      (s.seq.state ≠ .tracking → exec (.forceRelease r) s = .next (replied r .done (u8 q.num ++ u8 0)
        (postAll .scanHalted (post .claimLost q (ended s))))))

/-- LOAD LINES appends the entries it carries and CLEAR LINES empties the list, both for the claimant outside TRACKING
alone; the checks come in the order of R129, after the payload's length (log entry 11). The first entry with
half-width 0 is named by its place in the request, counted from 0 (log entry 14). -/
def Obligations.TheLineListIsLoadedAndCleared : Prop :=
  (∀ (r : Req) (s : State) (es : List LineEntry), Ready r s → es.length < 256 →
    r.payload = u8 es.length ++ es.flatMap LineEntry.bytes →
    (s.seq.claimant ≠ some r.port → exec (.loadLines r) s = .next (replied r .notClaimant [] s)) ∧
    (s.seq.claimant = some r.port → s.seq.state = .tracking →
      exec (.loadLines r) s = .next (replied r .state [] s)) ∧
    (s.seq.claimant = some r.port → s.seq.state ≠ .tracking →
      (es.length = 0 ∨ 16 < es.length → exec (.loadLines r) s = .next (replied r .badValue [] s)) ∧
      (1 ≤ es.length → es.length ≤ 16 →
        (∀ (i : Nat) (e : LineEntry), es[i]? = some e → e.halfWidth = 0 →
          (∀ (j : Nat) (d : LineEntry), j < i → es[j]? = some d → d.halfWidth ≠ 0) →
          exec (.loadLines r) s = .next (replied r .badValue (u8 i) s)) ∧
        ((∀ e ∈ es, e.halfWidth ≠ 0) →
          (512 < s.seq.lines.length + es.length → exec (.loadLines r) s = .next (replied r .full [] s)) ∧
          (s.seq.lines.length + es.length ≤ 512 → exec (.loadLines r) s = .next
            (replied r .done (u16 s.seq.lines.length ++ u16 (s.seq.lines.length + es.length))
              (tellOthers r.port (s.onSeq (fun q => { q with lines := q.lines ++ es, state := .loading })))))))))  ∧
  (∀ (r : Req) (s : State), Ready r s → r.payload.length ≠ 1 + 11 * (r.payload.headD 0).toNat →
    exec (.loadLines r) s = .next (replied r .badValue [] s)) ∧
  (∀ (r : Req) (s : State), Ready r s → r.payload = [] →
    (s.seq.claimant ≠ some r.port → exec (.clearLines r) s = .next (replied r .notClaimant [] s)) ∧
    (s.seq.claimant = some r.port → s.seq.state = .tracking →
      exec (.clearLines r) s = .next (replied r .state [] s)) ∧
    (s.seq.claimant = some r.port → s.seq.state ≠ .tracking → exec (.clearLines r) s = .next
      (replied r .done (u16 s.seq.lines.length)
        (tellOthers r.port (s.onSeq (fun q => { q with lines := [], state := .loading }))))))

/-- The checks of START SCAN, in the order of R132, each with the refusal and the detail it names. -/
def Obligations.StartScanChecksInOrder : Prop :=
  ∀ (r : Req) (s : State) (dir : Byte) (first : BitVec 16) (strays : Byte) (fails : Chan → Bool), Ready r s →
    r.payload = [dir] ++ u16 first.toNat ++ [strays] →
    (s.seq.claimant ≠ some r.port → exec (.startScan r) s = .next (replied r .notClaimant [] s)) ∧
    (s.seq.claimant = some r.port → s.seq.state = .tracking →
      exec (.startScan r) s = .next (replied r .state [] s)) ∧
    (s.seq.claimant = some r.port → s.seq.state ≠ .tracking →
      (2 ≤ dir.toNat ∨ s.seq.lines.length ≤ first.toNat → exec (.startScan r) s = .next (replied r .badValue [] s)) ∧
      (dir.toNat < 2 → first.toNat < s.seq.lines.length →
        (∀ k : Nat, SeparatedUpTo k s.seq.lines → ¬ SeparatedUpTo (k + 1) s.seq.lines →
          exec (.startScan r) s = .next (replied r .listOrder (u16 k) s)) ∧
        (SeparatedUpTo s.seq.lines.length s.seq.lines →
          ∀ c : Chan, (c = .ch0 ∨ c = .ch1 ∧ fails .ch0 = false) → fails c = true →
            ((∀ d, fails d = decide ((s.chans.get d).state ≠ .tracking)) →
              exec (.startScan r) s = .next (replied r .notTracking (u8 c.num) s)) ∧
            (s.chans.ch0.state = .tracking → s.chans.ch1.state = .tracking →
              ((∀ d, fails d = decide (((s.origins.get r.port).get d).status = .stale)) →
                exec (.startScan r) s = .next (replied r .staleOrigin (u8 c.num) s)) ∧
              ((s.origins.get r.port).ch0.status ≠ .stale → (s.origins.get r.port).ch1.status ≠ .stale →
                (∀ d, fails d = decide ((s.comp.get d).weight = 0)) →
                exec (.startScan r) s = .next (replied r .uncompensated (u8 c.num) s))))))

/-- START SCAN with its checks passed up to the last: L beyond the first window's far edge in the scan coordinate
refuses it with POSITION, L and that edge (log entries 12 and 14); otherwise the counts, the run parameters and the
first entry are set, the RUN pins are placed, the window is evaluated once, and the scan is TRACKING. -/
def Obligations.StartScanStartsTheScan : Prop :=
  ∀ (r : Req) (s : State) (dir : ScanDir) (first : BitVec 16) (strays : Byte) (e : LineEntry) (l x near far : Int),
    Ready r s → r.payload = u8 dir.code ++ u16 first.toNat ++ [strays] → s.seq.claimant = some r.port →
    s.seq.state ≠ .tracking → s.seq.lines[first.toNat]? = some e →
    SeparatedUpTo s.seq.lines.length s.seq.lines →
    s.line r.port = some l →
    (dir = .forward ∧ x = l ∨ dir = .reverse ∧ x = max (-(2 ^ 63)) (min (2 ^ 63 - 1) (-l))) →
    WindowEdges dir e near far →
    (far < x → exec (.startScan r) s = .next (replied r .position (i64 l ++ i64 far) s)) ∧
    (x ≤ far →
      ∃ comp, exec (.startScan r) s = .next (replied r .done
          (u64 s.time.toNat ++ i64 l ++ u8 (if near ≤ x then 1 else 0))
          (tellOthers r.port (State.onSeqTotals
            { s with
              seq := { s.seq with
                state := .tracking, dir := dir, first := first.toNat, reportStrays := strays.getLsbD 0,
                current := first.toNat, window := if near ≤ x then .opened else .before, pulses := 0, found := 0,
                missed := 0, stray := 0, lost := 0, cause := .none }
              comp := comp }
            (fun t => { t with started := t.started + 1 })))) ∧
        ∀ c : Chan, comp.get c =
          if c = .ch0 ∨ c = .ch1 then { s.comp.get c with pins := (s.comp.get c).pins.set r.port .run }
          else s.comp.get c)

/-- STOP SCAN halts the claimant's TRACKING scan with STOPPED and returns its counts; READ SEQUENCER returns the
sequencer's fields and the entries asked for, from any port, and changes nothing (R148; log entries 13 and 14). -/
def Obligations.ScansAreStoppedAndRead : Prop :=
  (∀ (r : Req) (s : State), Ready r s → r.payload = [] →
    (s.seq.claimant ≠ some r.port → exec (.stopScan r) s = .next (replied r .notClaimant [] s)) ∧
    (s.seq.claimant = some r.port → s.seq.state ≠ .tracking →
      exec (.stopScan r) s = .next (replied r .state [] s)) ∧
    (s.seq.claimant = some r.port → s.seq.state = .tracking → ∃ t, t = halt .stopped s ∧
      exec (.stopScan r) s = .next
        (replied r .done (u16 t.seq.found ++ u16 t.seq.missed ++ u16 t.seq.stray ++ u16 t.seq.lost) t))) ∧
  (∀ (r : Req) (s : State) (start : BitVec 16) (n : Byte) (q : Sequencer), Ready r s → r.payload = u16 start.toNat ++ [n] →
    q = s.seq →
    (start.toNat ≤ 511 ∧ n.toNat ≤ 16 → exec (.readSequencer r) s = .next (replied r .done
      (u8 q.state.code ++
        (match q.claimant with
          | none => u8 0 ++ u8 0
          | some p => u8 1 ++ u8 p.num) ++
        u16 q.lines.length ++ u8 q.dir.code ++ u16 q.first ++ flag q.reportStrays ++ u16 q.current ++
        u8 q.window.code ++ u16 q.pulses ++ u16 q.found ++ u16 q.missed ++ u16 q.stray ++ u16 q.lost ++
        u8 q.cause.code ++ u8 (min n.toNat (q.lines.length - start.toNat)) ++
        ((q.lines.drop start.toNat).take n.toNat).flatMap (fun e =>
          u16 e.tag.toNat ++ leBytes 6 e.nominal.toNat ++ leBytes 3 e.halfWidth.toNat)) s)) ∧
    (¬ (start.toNat ≤ 511 ∧ n.toNat ≤ 16) → exec (.readSequencer r) s = .next (replied r .badValue [] s)))

/-! ## Compare points (Chapter 8) -/

/-- A subject's availability in its owner's view, and what each event that can change it does: a departure or
acquisition of a channel judges the points that depend on it anew; an application on CH0 or CH1 makes every point on L
forget its last side and judges it anew; a change of a port's origins does so to the port's points on those channels
(R154, R155; log entries 9 and 10). -/
def Obligations.AvailabilityIsJudgedAtEachChange : Prop :=
  (∀ (s : State) (p : Port) (c : Chan), availability s p (.chan c) =
    if (s.chans.get c).state ≠ .tracking then .inactive
    else if ((s.origins.get p).get c).status = .stale then .suspended else .available) ∧
  (∀ (s : State) (p : Port), availability s p .line =
    if s.chans.ch0.state ≠ .tracking ∨ s.chans.ch1.state ≠ .tracking ∨
        s.comp.ch0.weight = 0 ∨ s.comp.ch1.weight = 0 then .inactive
    else if (s.origins.get p).ch0.status = .stale ∨ (s.origins.get p).ch1.status = .stale then .suspended
    else .available) ∧
  (∀ (s : State) (pt : Point), judge s pt =
    match availability s pt.owner pt.subject with
    | .inactive => { pt with state := .inactive, lastSide := none, rearmDir := none }
    | .suspended => { pt with state := .suspended, lastSide := none, rearmDir := none }
    | .available =>
      if pt.state = .inactive ∨ pt.state = .suspended then
        { pt with state := if pt.mode = .once ∧ 0 < pt.firings then .fired else .armed, lastSide := none }
      else pt) ∧
  (∀ (s : State) (c : Chan), pointsOnChannel c s = { s with points := s.points.map (fun pt =>
    if pt.subject = .chan c ∨ pt.subject = .line ∧ (c = .ch0 ∨ c = .ch1) then judge s pt else pt) }) ∧
  (∀ s : State, pointsOnApplication s = { s with points := s.points.map (fun pt =>
    if pt.subject = .line then judge s { pt with lastSide := none } else pt) }) ∧
  (∀ (s : State) (p : Port) (cs : List Chan), pointsOnOrigins p cs s = { s with points := s.points.map (fun pt =>
    if pt.owner = p ∧ (∃ c ∈ cs, pt.subject = .chan c ∨ pt.subject = .line ∧ (c = .ch0 ∨ c = .ch1))
      then judge s { pt with lastSide := none } else pt) })

/-- The evaluation of a slot's point at an update of a channel its subject depends on, with the subject value v and
the threshold T: the side of v is recorded. An ARMED point fires on a crossing its direction enables, counts the
firing and becomes FIRED (ONCE) or REARMING with the direction of the crossing (REPEAT; log entry 20); a REARMING
point returns to ARMED by the hysteresis. A point that is INACTIVE or SUSPENDED, or whose subject does not depend on
the channel, is not evaluated. A firing performs each of its actions. -/
def Obligations.PointsAreEvaluatedByTheirStateAndSide : Prop :=
  (∀ (c : Chan) (s : State) (k : Nat) (pt : Point) (v T : Int) (up down : Prop) (put : Point → State),
    s.pointAt k = some pt → T = pt.threshold.toInt →
    (match pt.subject with
      | .chan d => d = c ∧ s.view pt.owner d = some v
      | .line => (c = .ch0 ∨ c = .ch1) ∧ s.line pt.owner = some v) →
    (up ↔ pt.lastSide = some .below ∧ T ≤ v ∧ pt.dir ≠ .down) →
    (down ↔ pt.lastSide = some .above ∧ v ≤ T ∧ pt.dir ≠ .up) →
    (∀ x, put x = { s with points := s.points.map (fun y => if y.slot = pt.slot then
      { x with lastSide := some (if v < T then .below else if v = T then .at else .above) } else y) }) →
    (pt.state = .armed → ∀ d : UpDown, (d = .up ∧ up ∨ d = .down ∧ down) →
      evalSlot c s k = fireActions pt (put { pt with
        firings := if pt.firings < 65535 then pt.firings + 1 else pt.firings
        state := (match pt.mode with | .once => .fired | .repeating _ => .rearming)
        rearmDir := (match pt.mode with | .once => none | .repeating _ => some d) })) ∧
    (pt.state = .armed → ¬ up → ¬ down → evalSlot c s k = put pt) ∧
    (pt.state = .fired → evalSlot c s k = put pt) ∧
    (∀ h, pt.state = .rearming → pt.mode = .repeating h →
      (pt.rearmDir = some .up ∧ v ≤ T - h.toNat ∨ pt.rearmDir = some .down ∧ T + h.toNat ≤ v →
        evalSlot c s k = put { pt with state := .armed, rearmDir := none }) ∧
      (¬ (pt.rearmDir = some .up ∧ v ≤ T - h.toNat ∨ pt.rearmDir = some .down ∧ T + h.toNat ≤ v) →
        evalSlot c s k = put pt))) ∧
  (∀ (c : Chan) (s : State) (k : Nat), (∀ pt, s.pointAt k = some pt →
      pt.state = .inactive ∨ pt.state = .suspended ∨
      ¬ (pt.subject = .chan c ∨ pt.subject = .line ∧ (c = .ch0 ∨ c = .ch1))) → evalSlot c s k = s) ∧
  (∀ (pt : Point) (s : State), ∃ u v,
    u = (if pt.actions.notice then postWhere .pointFired (fun q => pt.shared || decide (q = pt.owner)) s else s) ∧
    v = (if pt.actions.sync then { u with sync := some s.time } else u) ∧
    fireActions pt s = if pt.actions.capture then hand (.compare pt.slot pt.owner pt.shared) v else v)

/-- An update of a channel evaluates the slots of the table in ascending order; on CH0 and CH1 a TRACKING scan handles
the same update, somewhere among the slots: the manual leaves the order open, and the statement holds for every place
of it (log entry 2). -/
def Obligations.UpdatesRunTheTableAndTheSequencer : Prop :=
  ∀ (c : Chan) (s : State) (eval : List Nat → State → State), (∀ ks u, eval ks u = ks.foldl (evalSlot c) u) →
    (¬ ((c = .ch0 ∨ c = .ch1) ∧ s.seq.state = .tracking) → updateBlocks c s = eval (List.range 32) s) ∧
    ((c = .ch0 ∨ c = .ch1) → s.seq.state = .tracking →
      (s.points = [] → updateBlocks c s = sequencerUpdate s) ∧
      (s.points ≠ [] → ∃ k, updateBlocks c s =
        { eval ((List.range 32).drop k) (sequencerUpdate (eval ((List.range 32).take k) s)) with turn := s.turn + 1 }))

/-- ADD POINT: a field outside its range refuses the whole request with BAD_VALUE; otherwise the new point takes the
lowest free slot, or with the replace flag the slot of the port's oldest unkept point, or is refused with PORT_LIMIT
or FULL. It joins the end of the creation list, its state judged from its subject's availability (R159, R160; log
entries 12 to 14). -/
def Obligations.AddPointJudgesFieldsThenRoom : Prop :=
  ∀ (r : Req) (s : State) (kept shared replace subj dir mode acts : Byte) (T : BitVec 64) (h : BitVec 16), Ready r s →
    r.payload = [kept, shared, replace, subj] ++ u64 T.toNat ++ [dir, mode] ++ u16 h.toNat ++ [acts] →
    (7 ≤ subj.toNat ∨ (subj.toNat ≤ 5 ∧ ¬ (-(2 ^ 47) ≤ T.toInt ∧ T.toInt < 2 ^ 47)) ∨ 3 ≤ dir.toNat ∨ 2 ≤ mode.toNat ∨
        (mode = 1 ∧ h = 0) ∨ acts = 0 ∨ 8 ≤ acts.toNat →
      exec (.addPoint r) s = .next (replied r .badValue [] s)) ∧
    (∀ (sub : Subject) (d : PointDir) (m : PointMode) (st : PointState) (new : Fin 32 → Point),
      subj.toNat = sub.code → (∀ c, sub = .chan c → -(2 ^ 47) ≤ T.toInt ∧ T.toInt < 2 ^ 47) → dir.toNat = d.code →
      (mode = 0 ∧ m = .once ∨ mode = 1 ∧ h ≠ 0 ∧ m = .repeating h) → 1 ≤ acts.toNat → acts.toNat < 8 →
      st = (match availability s r.port sub with
        | .inactive => .inactive
        | .suspended => .suspended
        | .available => .armed) →
      (∀ k, new k =
        { slot := k, owner := r.port, kept := kept.getLsbD 0, shared := shared.getLsbD 0, subject := sub, threshold := T
          dir := d, mode := m, actions := ⟨acts.getLsbD 0, acts.getLsbD 1, acts.getLsbD 2⟩, state := st
          lastSide := none, rearmDir := none, firings := 0 }) →
      (s.owned r.port < 16 → s.points.length < 32 →
        ∀ k : Fin 32, (∀ pt ∈ s.points, pt.slot ≠ k) → (∀ j : Fin 32, j < k → ∃ pt ∈ s.points, pt.slot = j) →
        exec (.addPoint r) s = .next (replied r .done
          (u8 k.val ++ u8 s.points.length ++ u8 st.code ++ (u8 0 ++ u8 0) ++ (u8 0 ++ u16 0))
          (tellOthers r.port { s with points := s.points ++ [new k] }))) ∧
      (¬ (s.owned r.port < 16 ∧ s.points.length < 32) →
        (∀ (i : Nat) (old : Point), replace.getLsbD 0 = true → s.points[i]? = some old → old.owner = r.port →
          old.kept = false →
          (∀ (j : Nat) (pt : Point), j < i → s.points[j]? = some pt → pt.owner = r.port → pt.kept = true) →
          exec (.addPoint r) s = .next (replied r .done
            (u8 old.slot.val ++ u8 (s.points.filter (fun pt => pt.slot ≠ old.slot)).length ++ u8 st.code ++
              (u8 1 ++ u8 old.slot.val) ++ (u8 1 ++ u16 old.firings))
            (tellOthers r.port
              { s with points := s.points.filter (fun pt => pt.slot ≠ old.slot) ++ [new old.slot] }))) ∧
        (replace.getLsbD 0 = false ∨ (∀ pt ∈ s.points, pt.owner = r.port → pt.kept = true) →
          exec (.addPoint r) s = .next
            (replied r (if s.owned r.port < 16 then .full else .portLimit) [] s))))

/-- REMOVE POINT, CLEAR POINTS and READ POINTS: what each checks, which points leave the table, who is told, and what
each response holds (R161 to R163; log entries 13 and 14). -/
def Obligations.PointsAreRemovedClearedAndRead : Prop :=
  (∀ (r : Req) (s : State) (n : Byte), Ready r s → r.payload = [n] →
    (32 ≤ n.toNat → exec (.removePoint r) s = .next (replied r .badValue [] s)) ∧
    (n.toNat < 32 → s.pointAt n.toNat = none → exec (.removePoint r) s = .next (replied r .state [] s)) ∧
    (∀ pt, n.toNat < 32 → s.pointAt n.toNat = some pt →
      (pt.owner ≠ r.port → exec (.removePoint r) s = .next (replied r .notOwner (u8 pt.owner.num) s)) ∧
      (pt.owner = r.port → exec (.removePoint r) s = .next (replied r .done (u8 pt.state.code ++ u16 pt.firings)
        (tellOthers r.port { s with points := s.points.filter (fun x => x.slot ≠ pt.slot) }))))) ∧
  (∀ (r : Req) (s : State) (n : Byte) (gone : Point → Bool), Ready r s → r.payload = [n] →
    (∀ pt, gone pt = decide (pt.owner = r.port ∧ (n = 1 ∨ pt.kept = false))) →
    (2 ≤ n.toNat → exec (.clearPoints r) s = .next (replied r .badValue [] s)) ∧
    (n.toNat < 2 → ∃ t, t = { s with points := s.points.filter (fun pt => !gone pt) } ∧
      exec (.clearPoints r) s = .next (replied r .done (u8 (s.points.filter gone).length)
        (if s.points.filter gone = [] then t else tellOthers r.port t)))) ∧
  (∀ (r : Req) (s : State) (block : Point → List Byte), Ready r s → r.payload = [] →
    (∀ pt, block pt =
      u8 pt.slot.val ++ u8 pt.owner.num ++ flag pt.kept ++ flag pt.shared ++ u8 pt.subject.code ++
      i64 pt.threshold.toInt ++ u8 pt.dir.code ++
      (match pt.mode with
        | .once => u8 0 ++ (u8 0 ++ u16 0)
        | .repeating h => u8 1 ++ (u8 1 ++ u16 h.toNat)) ++
      u8 (pt.actions.notice.toNat + 2 * pt.actions.capture.toNat + 4 * pt.actions.sync.toNat) ++ u8 pt.state.code ++
      (match pt.lastSide with
        | none => u8 0 ++ u8 0
        | some x => u8 1 ++ u8 x.code) ++
      (match pt.rearmDir with
        | none => u8 0 ++ u8 0
        | some d => u8 1 ++ u8 d.code) ++
      u16 pt.firings ++ u8 (s.points.findIdx (fun x => x.slot.val == pt.slot.val))) →
    exec (.readPoints r) s = .next (replied r .done
      (u8 s.points.length ++ u8 (s.owned .p0) ++ u8 (s.owned .p1) ++ u8 (s.owned .p2) ++
        ((List.range 32).filterMap s.pointAt).flatMap block) s))

/-! ## Notices (Chapter 9) -/

/-- A port's NOTE line is asserted exactly when its pending set and its enable mask have a kind in common: a posting
asserts it exactly where it adds an enabled kind, and the empty set and mask of a reset leave it deasserted. A posting
adds its kind to the pending set of each port it names and changes nothing else. -/
def Obligations.ANoteLineFollowsItsSetAndMask : Prop :=
  (∀ n : Notices, n.note = true ↔ ∃ k : Nat, n.pending.getLsbD k = true ∧ n.enable.getLsbD k = true) ∧
  (∀ (k : Notice) (which : Port → Bool) (s : State) (p : Port),
    ((postWhere k which s).notices.get p).note =
      ((s.notices.get p).note || which p && (s.notices.get p).enable.getLsbD k.num)) ∧
  (∀ n : Notices, n.pending = 0 ∨ n.enable = 0 → n.note = false) ∧
  (∀ (k : Notice) (which : Port → Bool) (s : State), ∃ ns, postWhere k which s = { s with notices := ns } ∧
    ∀ p, (ns.get p).enable = (s.notices.get p).enable ∧
      ∀ j, (ns.get p).pending.getLsbD j = ((s.notices.get p).pending.getLsbD j || which p && decide (j = k.num)))

/-- READ NOTICES, ACK NOTICES, SET NOTICE ENABLE and READ FAULT DETAIL: what each returns and what each changes, for
every mask (R169 to R171, R175; log entries 13 and 14). -/
def Obligations.NoticesAreReadAcknowledgedAndEnabled : Prop :=
  ∀ (r : Req) (s : State) (n : Notices), Ready r s → n = s.notices.get r.port →
    (r.payload = [] → exec (.readNotices r) s = .next (replied r .done
      (u16 n.pending.toNat ++ u16 n.enable.toNat ++ u8 (if n.note then 1 else 0)) s)) ∧
    (∀ m : BitVec 16, r.payload = u16 m.toNat →
      exec (.ackNotices r) s = .next (replied r .done
        (u16 (n.pending &&& m).toNat ++ u16 (n.pending &&& ~~~m).toNat)
        { s with notices := s.notices.set r.port { n with pending := n.pending &&& ~~~m } }) ∧
      exec (.setNoticeEnable r) s = .next (replied r .done (u16 n.enable.toNat)
        { s with notices := s.notices.set r.port { n with enable := m } })) ∧
    (r.payload = [] →
      (s.latches.get r.port = none → exec (.readFaultDetail r) s = .next (replied r .done
        (u8 0 ++ (u8 0 ++ List.replicate 28 0) ++ (u8 0 ++ u8 0)) s)) ∧
      (∀ h, s.latches.get r.port = some h → exec (.readFaultDetail r) s = .next (replied r .done
        (u8 1 ++ (u8 1 ++ (u8 h.report.chan.num ++
          u8 (match h.report.detail with | .level => 1 | .skip _ => 2 | .gap _ _ => 3) ++
          u64 h.report.time.toNat ++ i64 h.report.count.toInt ++ u16 h.report.lastPhase.toNat ++
          u8 h.report.lastLevel.toNat ++
          (match h.report.detail with
            | .level => (u8 0 ++ u16 0) ++ (u8 0 ++ u8 0) ++ (u8 0 ++ u8 0)
            | .skip x => (u8 1 ++ i16 x) ++ (u8 0 ++ u8 0) ++ (u8 0 ++ u8 0)
            | .gap a b => (u8 0 ++ u16 0) ++ (u8 1 ++ u8 a.toNat) ++ (u8 1 ++ u8 b.toNat)))) ++ (u8 1 ++ u8 h.more))
        { s with latches := s.latches.set r.port none })))

/-! ## Client ports (Chapter 10) -/

/-- IDENTIFY returns the part code 0FC6h, the silicon revision 1 and the index of the port it arrived on, and changes
nothing but its port. -/
def Obligations.IdentifyNamesThePartAndThePort : Prop :=
  ∀ (r : Req) (s : State), Ready r s → r.payload = [] →
    exec (.identify r) s = .next (replied r .done
      (u16 0x0FC6 ++ u8 1 ++ u8 (match r.port with | .p0 => 0 | .p1 => 1 | .p2 => 2)) s)

/-- What a port does with a frame by its own state: a bad frame is answered BAD_FRAME in every state, with the first
byte received as its tag; a good one STARTING during start-up and BUSY at a PERFORMING or RESETTING port; at an IDLE
port it becomes the request in progress, and its taking then leaves what the whole request leaves (log entry 4); a
code that names no request is answered BAD_REQUEST (log entry 5 where a row's name says otherwise). A frame the link
has not accepted does not arrive (log entry 6). A response read out leaves the list. -/
def Obligations.FramesAreAnsweredByThePortState : Prop :=
  (∀ (p : Port) (bytes : List Byte) (s : State), requestOf bytes = none → (s.links.get p).mayReceive = true →
    exec (.badFrame p bytes) s = .next (answeredAtOnce p (bytes.headD 0) .badFrame s)) ∧
  (∀ (k : RequestKind) (p : Port) (tag code : Byte) (payload : List Byte) (s : State) (st : Stage), st ≠ .taking →
    (s.links.get p).mayReceive = true →
    ((s.links.get p).state = .starting →
      exec (.startingAnswer p tag code payload) s = .next (answeredAtOnce p tag .starting s) ∧
      exec (k.command ⟨p, tag, payload, st⟩) s = .next (answeredAtOnce p tag .starting s)) ∧
    ((s.links.get p).state = .performing ∨ (s.links.get p).state = .resetting →
      exec (.busyAnswer p tag code payload) s = .next (answeredAtOnce p tag .busy s) ∧
      exec (k.command ⟨p, tag, payload, st⟩) s = .next (answeredAtOnce p tag .busy s))) ∧
  (∀ (k : RequestKind) (r : Req) (s : State), Ready r s → ∃ t,
    t = s.onLink r.port (fun l => { l with
      state := .performing, inProgress := some ⟨r.tag, k.code, r.payload⟩
      mayReceive := decide (l.outgoing.length < 8) }) ∧
    exec (k.command { r with stage := .arrival }) s = .next t ∧
    exec (k.command { r with stage := .taking }) t = exec (k.command r) s) ∧
  (∀ (code : Byte) (r : Req) (s : State), Ready r s → (∀ k : RequestKind, k.code ≠ code) →
    exec (.badRequest code r) s = .next (replied r .badRequest [] s)) ∧
  (∀ (k : RequestKind) (r : Req) (s : State), r.stage ≠ .taking → (s.links.get r.port).mayReceive = false →
    exec (k.command r) s = .next s) ∧
  (∀ (p : Port) (s : State), exec (.responseReadOut p) s = .next (s.onLink p (fun l => { l with
    outgoing := l.outgoing.tail
    mayReceive := l.mayReceive || decide (l.outgoing.tail.length < 8) })))

/-- A payload whose length does not fit its request is answered BAD_VALUE, and so is a channel number above 5 and a
channel mask that is empty or has a bit above the bit of CH5. -/
def Obligations.PayloadsThatDoNotFitAreRefused : Prop :=
  ∀ (k : RequestKind) (r : Req) (s : State) (n : Nat), Ready r s →
    (k, n) ∈ [(RequestKind.readChannel, 1), (.configureChannel, 12), (.enableChannel, 1), (.disableChannel, 1),
      (.recoverChannel, 2), (.readStillness, 1), (.setCompensation, 9), (.pinCompensation, 3), (.unpinCompensation, 1),
      (.readCompensation, 1), (.setOrigin, 10), (.clearOrigin, 1), (.readPosition, 1), (.readCounters, 1),
      (.configureInput, 5), (.captureNow, 0), (.armSettle, 1), (.cancelSettle, 0), (.readCaptureStatus, 0),
      (.startRing, 0), (.stopRing, 0), (.clearRing, 0), (.setRingPolicy, 2), (.setSubscription, 1), (.takeRecords, 1),
      (.peekRecords, 2), (.readRingStatus, 0), (.claimSequencer, 0), (.releaseSequencer, 0), (.forceRelease, 0),
      (.clearLines, 0), (.startScan, 4), (.stopScan, 0), (.readSequencer, 3), (.addPoint, 17), (.removePoint, 1),
      (.clearPoints, 1), (.readPoints, 0), (.readNotices, 0), (.ackNotices, 2), (.setNoticeEnable, 2),
      (.readFaultDetail, 0), (.identify, 0), (.portReset, 0)] →
    (r.payload.length ≠ n → exec (k.command r) s = .next (replied r .badValue [] s)) ∧
    (∀ (b : Byte) (rest : List Byte), r.payload = b :: rest → r.payload.length = n →
      (k = .readChannel ∨ k = .configureChannel ∨ k = .enableChannel ∨ k = .disableChannel ∨ k = .recoverChannel →
        6 ≤ b.toNat → exec (k.command r) s = .next (replied r .badValue [] s)) ∧
      (k = .readStillness ∨ k = .setCompensation ∨ k = .pinCompensation ∨ k = .unpinCompensation ∨
          k = .readCompensation ∨ k = .setOrigin ∨ k = .clearOrigin ∨ k = .readPosition ∨ k = .armSettle →
        b = 0 ∨ 64 ≤ b.toNat → exec (k.command r) s = .next (replied r .badValue [] s)))

/-- PORT RESET takes its six steps in their order, each only as the next one of a RESETTING port; the first gives up
the port's routing, ring, subscriptions and arm, the others the claim, the TIMED pins, the unkept points, the context
and notices, and the last tells the other ports and answers with what was given up (fields in the order of R186; log
entries 3, 13 and 14). -/
def Obligations.APortResetGivesUpItsContextInSteps : Prop :=
  (∀ (r : Req) (s : State) (p : Port), Ready r s → r.payload = [] → p = r.port →
    ∃ rings, exec (.portReset r) s = .next (State.onLink
        { s with
          queue := s.queue.map (fun e => { e with route := e.route.set p false })
          rings := rings, subs := s.subs.set p 0, arms := s.arms.set p none }
        p (fun l => { l with
          state := .resetting, inProgress := some ⟨r.tag, 0x61, []⟩, mayReceive := decide (l.outgoing.length < 8)
          reset := some
            { next := .sequencer, routed := (s.queue.filter (fun e => e.route.get p)).length
              discarded := (s.rings.get p).records.length, arm := s.arms.get p
              claim := .none, pins := 0, applied := 0, unkept := 0, kept := 0, latch := none } })) ∧
      rings.get p = ⟨[], .stopped, .keepOld, 1, 0, 0⟩ ∧
      ∀ q, q ≠ p → rings.get q =
        if (s.rings.get q).state = .draining ∧ ∀ e ∈ s.queue, e.route.get q = false
          then { s.rings.get q with state := .stopped } else s.rings.get q) ∧
  (∀ (p : Port) (s : State) (g : ResetProgress) (goes : ResetProgress → State → State),
    (s.links.get p).state = .resetting → (s.links.get p).reset = some g →
    (∀ h u, goes h u = u.onLink p (fun l => { l with reset := some h })) →
    (g.next = .sequencer →
      ∃ t, exec (.portResetSequencerStep p) s = .next (goes
          { g with
            next := .compensation
            claim := if s.seq.claimant = some p then (if s.seq.state = .tracking then .halted else .released)
              else .none } t) ∧
        (s.seq.claimant ≠ some p → t = s) ∧
        (s.seq.claimant = some p →
          t = (if s.seq.state = .tracking then halt .claimLost s else s).onSeq
            (fun q => { q with state := .unclaimed, claimant := none, lines := [] }))) ∧
    (g.next = .compensation → ∀ (cs : List Chan) (m : ChanMask),
      cs = Chan.all.filter (fun c => match (s.comp.get c).pins.get p with
        | .timed _ _ => true
        | _ => false) →
      (∀ c, maskHas m c = ((s.comp.get c).slot.isSome && ((removePins p cs s).comp.get c).slot.isNone)) →
      exec (.portResetCompensationStep p) s = .next
        (goes { g with next := .compare, pins := cs.length, applied := m } (removePins p cs s))) ∧
    (g.next = .compare → exec (.portResetCompareStep p) s = .next (goes
      { g with
        next := .context
        unkept := (s.points.filter (fun pt => pt.owner == p && !pt.kept)).length
        kept := (s.points.filter (fun pt => pt.owner == p && pt.kept)).length }
      { s with points := s.points.filter (fun pt => !(pt.owner == p && !pt.kept)) })) ∧
    (g.next = .context → exec (.portResetContextStep p) s = .next (goes
      { g with next := .peers, latch := (s.latches.get p).map HeldLoss.more }
      (pointsOnOrigins p Chan.all
        { s with
          origins := s.origins.set p (PerChan.const ⟨0, 0, .free⟩), baselines := s.baselines.set p s.totals
          notices := s.notices.set p ⟨0, 0⟩, latches := s.latches.set p none }))) ∧
    (g.next = .peers → ∀ q : Request, (s.links.get p).inProgress = some q →
      exec (.peerReset p) s = .next ((postOthers .peerReset p s).onLink p (fun l => { l with
        state := .idle, inProgress := none, reset := none
        outgoing := l.outgoing ++ [⟨q.tag, .done,
          u8 g.routed ++ u8 g.discarded ++
          (match g.arm with
            | none => u8 0 ++ (u8 0 ++ u8 0)
            | some m => u8 1 ++ (u8 1 ++ u8 m.toNat)) ++
          u8 (match g.claim with | .none => 0 | .released => 1 | .halted => 2) ++ u8 g.pins ++ u8 g.applied.toNat ++
          u8 g.unkept ++ u8 g.kept ++
          (match g.latch with
            | none => u8 0 ++ (u8 0 ++ u8 0)
            | some n => u8 1 ++ (u8 1 ++ u8 n))⟩] })))) ∧
  (∀ (p : Port) (s : State), (∀ g, (s.links.get p).state = .resetting → (s.links.get p).reset = some g →
      g.next ≠ .sequencer) → exec (.portResetSequencerStep p) s = .next s) ∧
  (∀ (p : Port) (s : State), (∀ g, (s.links.get p).state = .resetting → (s.links.get p).reset = some g →
      g.next ≠ .compensation) → exec (.portResetCompensationStep p) s = .next s) ∧
  (∀ (p : Port) (s : State), (∀ g, (s.links.get p).state = .resetting → (s.links.get p).reset = some g →
      g.next ≠ .compare) → exec (.portResetCompareStep p) s = .next s) ∧
  (∀ (p : Port) (s : State), (∀ g, (s.links.get p).state = .resetting → (s.links.get p).reset = some g →
      g.next ≠ .context) → exec (.portResetContextStep p) s = .next s) ∧
  (∀ (p : Port) (s : State), (∀ g, (s.links.get p).state = .resetting → (s.links.get p).reset = some g →
      g.next ≠ .peers) → exec (.peerReset p) s = .next s)

/-- A device reset, from every state, sets every block to the values its chapter gives; the commands waiting outside
the part and the counter of the free value stay (log entry 16). The end of start-up makes every STARTING port IDLE,
whenever it is performed (log entry 7). -/
def Obligations.DeviceResetSetsEveryValue : Prop :=
  (∀ s : State, ∃ t, exec .deviceReset s = .next t ∧
    t.pending = s.pending ∧ t.turn = s.turn ∧ t.time = 0 ∧
    (∀ c, t.chans.get c =
      { state := .disabled, raw := 0, epoch := 0, lastPhase := 0, lastLevel := 0, lastTime := 0, expected := none
        run := 0, recovery := .restart, frozenCount := 0, frozenPhase := 0, mark := false, lastCause := .none
        outcome := .none
        config := { acquire := 64, loss := 32, qualify := 1024, stepLimit := 384, stillBand := 64, settle := 1000
                    sense := .normal } }) ∧
    (∀ c, t.still.get c = { state := .none, anchor := 0, timer := none, loadTime := 0, settledTime := none }) ∧
    (∀ c, (t.comp.get c).weight = 0 ∧ (t.comp.get c).offset = 0 ∧ (t.comp.get c).version = 0 ∧
      (∀ p, (t.comp.get c).pins.get p = .none) ∧ (t.comp.get c).slot = none) ∧
    (∀ p c, (t.origins.get p).get c = ⟨0, 0, .free⟩) ∧
    (∀ u : Totals, (u = t.totals ∨ ∃ p, u = t.baselines.get p) →
      (∀ c, u.chans.get c = ⟨0, 0, 0, 0, 0, 0⟩) ∧ (∀ i, u.inputs.get i = ⟨0, 0⟩) ∧ u.capture = ⟨0, 0, 0, 0⟩ ∧
      u.seq = ⟨0, 0, 0, 0, 0, 0⟩) ∧
    (∀ i, (t.inputs.get i).enabled = false ∧ (t.inputs.get i).edge = .rising ∧ (t.inputs.get i).holdOff = 100 ∧
      (t.inputs.get i).holdOffUntil = none) ∧
    t.queue = [] ∧ t.nextNumber = 0 ∧ t.engine = .idle ∧ t.sync = none ∧ (∀ p, t.arms.get p = none) ∧
    (∀ p, t.rings.get p =
      { records := [], state := .stopped, policy := .keepOld, threshold := 1, drops := 0, overwrites := 0 }) ∧
    (∀ p, t.subs.get p = 0) ∧
    t.seq =
      { state := .unclaimed, claimant := none, lines := [], dir := .forward, first := 0, reportStrays := false
        current := 0, window := .before, pulses := 0, found := 0, missed := 0, stray := 0, lost := 0, cause := .none } ∧
    t.points = [] ∧
    (∀ p, t.notices.get p = ⟨0, 0⟩ ∧ (t.notices.get p).note = false) ∧ (∀ p, t.latches.get p = none) ∧
    (∀ p, (t.links.get p).state = .starting ∧ (t.links.get p).inProgress = none ∧ (t.links.get p).outgoing = [] ∧
      (t.links.get p).reset = none)) ∧
  (∀ s : State, ∃ links, exec .endOfStartUp s = .next { s with links := links } ∧
    ∀ p, links.get p = if (s.links.get p).state = .starting then { s.links.get p with state := .idle }
      else s.links.get p)
end

