-- ==== Sys2Proof/Laws/Tables.lean ====
section
/-! SUPPORT. Laws/Tables.lean: the small lemmas of the three fixed-size tables: what get gives after each update, and
that equal entries make equal tables. -/

namespace Sys2Proof

namespace PerChan
variable {α : Type}

@[simp] theorem get_ofFn (f : Chan → α) (c : Chan) : (PerChan.ofFn f).get c = f c := by cases c <;> rfl

@[simp] theorem get_const (a : α) (c : Chan) : (PerChan.const a).get c = a := by cases c <;> rfl

@[simp] theorem get_set_self (v : PerChan α) (c : Chan) (a : α) : (v.set c a).get c = a := by cases c <;> rfl

theorem get_set_ne (v : PerChan α) {c d : Chan} (a : α) (h : d ≠ c) : (v.set c a).get d = v.get d := by
  cases c <;> cases d <;> first | rfl | exact absurd rfl h

theorem get_set (v : PerChan α) (c d : Chan) (a : α) : (v.set c a).get d = if d = c then a else v.get d := by
  cases c <;> cases d <;> rfl

@[simp] theorem get_modify_self (v : PerChan α) (c : Chan) (f : α → α) : (v.modify c f).get c = f (v.get c) := by
  cases c <;> rfl

theorem get_modify (v : PerChan α) (c d : Chan) (f : α → α) :
    (v.modify c f).get d = if d = c then f (v.get d) else v.get d := by
  cases c <;> cases d <;> rfl

theorem ext_get {v w : PerChan α} (h : ∀ c, v.get c = w.get c) : v = w := by
  cases v; cases w
  have h0 := h .ch0; have h1 := h .ch1; have h2 := h .ch2
  have h3 := h .ch3; have h4 := h .ch4; have h5 := h .ch5
  simp only [get] at h0 h1 h2 h3 h4 h5
  subst h0 h1 h2 h3 h4 h5; rfl

@[simp] theorem set_get (v : PerChan α) (c : Chan) : v.set c (v.get c) = v := by cases c <;> rfl

@[simp] theorem set_set (v : PerChan α) (c : Chan) (a b : α) : (v.set c a).set c b = v.set c b := by cases c <;> rfl

end PerChan

namespace PerPort
variable {α : Type}

@[simp] theorem get_ofFn (f : Port → α) (c : Port) : (PerPort.ofFn f).get c = f c := by cases c <;> rfl

@[simp] theorem get_const (a : α) (c : Port) : (PerPort.const a).get c = a := by cases c <;> rfl

@[simp] theorem get_set_self (v : PerPort α) (c : Port) (a : α) : (v.set c a).get c = a := by cases c <;> rfl

theorem get_set_ne (v : PerPort α) {c d : Port} (a : α) (h : d ≠ c) : (v.set c a).get d = v.get d := by
  cases c <;> cases d <;> first | rfl | exact absurd rfl h

theorem get_set (v : PerPort α) (c d : Port) (a : α) : (v.set c a).get d = if d = c then a else v.get d := by
  cases c <;> cases d <;> rfl

@[simp] theorem get_modify_self (v : PerPort α) (c : Port) (f : α → α) : (v.modify c f).get c = f (v.get c) := by
  cases c <;> rfl

theorem get_modify (v : PerPort α) (c d : Port) (f : α → α) :
    (v.modify c f).get d = if d = c then f (v.get d) else v.get d := by
  cases c <;> cases d <;> rfl

theorem ext_get {v w : PerPort α} (h : ∀ c, v.get c = w.get c) : v = w := by
  cases v; cases w
  have h0 := h .p0; have h1 := h .p1; have h2 := h .p2
  simp only [get] at h0 h1 h2
  subst h0 h1 h2; rfl

theorem get_modify_ne (v : PerPort α) {c d : Port} (f : α → α) (h : d ≠ c) : (v.modify c f).get d = v.get d := by
  rw [get_modify, if_neg h]

@[simp] theorem set_get (v : PerPort α) (c : Port) : v.set c (v.get c) = v := by cases c <;> rfl

@[simp] theorem set_set (v : PerPort α) (c : Port) (a b : α) : (v.set c a).set c b = v.set c b := by cases c <;> rfl

end PerPort

namespace PerInput
variable {α : Type}

@[simp] theorem get_ofFn (f : Input → α) (c : Input) : (PerInput.ofFn f).get c = f c := by cases c <;> rfl

@[simp] theorem get_const (a : α) (c : Input) : (PerInput.const a).get c = a := by cases c <;> rfl

@[simp] theorem get_set_self (v : PerInput α) (c : Input) (a : α) : (v.set c a).get c = a := by cases c <;> rfl

theorem get_set_ne (v : PerInput α) {c d : Input} (a : α) (h : d ≠ c) : (v.set c a).get d = v.get d := by
  cases c <;> cases d <;> first | rfl | exact absurd rfl h

theorem get_set (v : PerInput α) (c d : Input) (a : α) : (v.set c a).get d = if d = c then a else v.get d := by
  cases c <;> cases d <;> rfl

@[simp] theorem get_modify_self (v : PerInput α) (c : Input) (f : α → α) : (v.modify c f).get c = f (v.get c) := by
  cases c <;> rfl

theorem get_modify (v : PerInput α) (c d : Input) (f : α → α) :
    (v.modify c f).get d = if d = c then f (v.get d) else v.get d := by
  cases c <;> cases d <;> rfl

theorem ext_get {v w : PerInput α} (h : ∀ c, v.get c = w.get c) : v = w := by
  cases v; cases w
  have h0 := h .det; have h1 := h .aux0; have h2 := h .aux1
  simp only [get] at h0 h1 h2
  subst h0 h1 h2; rfl

@[simp] theorem set_get (v : PerInput α) (c : Input) : v.set c (v.get c) = v := by cases c <;> rfl

@[simp] theorem set_set (v : PerInput α) (c : Input) (a b : α) : (v.set c a).set c b = v.set c b := by cases c <;> rfl

end PerInput

/-- Every port is in the list of all ports. -/
@[simp] theorem Port.mem_all (p : Port) : p ∈ Port.all := by cases p <;> decide

/-- Every channel is in the list of all channels. -/
@[simp] theorem Chan.mem_all (c : Chan) : c ∈ Chan.all := by cases c <;> decide

/-- A channel's number names it. -/
@[simp] theorem Chan.ofNum_num (c : Chan) : Chan.ofNum c.num = some c := by cases c <;> rfl

/-- An input's number names it. -/
@[simp] theorem Input.ofNum_num (i : Input) : Input.ofNum i.num = some i := by cases i <;> rfl

end Sys2Proof
end

