-- ==== Sys2Proof/Laws/State.lean ====
section
/-! SUPPORT. Laws/State.lean: one lemma for each field of State under each update of one block, so that no proof
unfolds a record update. -/

namespace Sys2Proof.Machine

section
variable (s : State) (c : Chan) (f : ChannelUnit → ChannelUnit)

@[simp] theorem onChan_time : (s.onChan c f).time = s.time := rfl
@[simp] theorem onChan_chans : (s.onChan c f).chans = s.chans.modify c f := rfl
@[simp] theorem onChan_still : (s.onChan c f).still = s.still := rfl
@[simp] theorem onChan_comp : (s.onChan c f).comp = s.comp := rfl
@[simp] theorem onChan_origins : (s.onChan c f).origins = s.origins := rfl
@[simp] theorem onChan_totals : (s.onChan c f).totals = s.totals := rfl
@[simp] theorem onChan_baselines : (s.onChan c f).baselines = s.baselines := rfl
@[simp] theorem onChan_inputs : (s.onChan c f).inputs = s.inputs := rfl
@[simp] theorem onChan_queue : (s.onChan c f).queue = s.queue := rfl
@[simp] theorem onChan_nextNumber : (s.onChan c f).nextNumber = s.nextNumber := rfl
@[simp] theorem onChan_engine : (s.onChan c f).engine = s.engine := rfl
@[simp] theorem onChan_arms : (s.onChan c f).arms = s.arms := rfl
@[simp] theorem onChan_sync : (s.onChan c f).sync = s.sync := rfl
@[simp] theorem onChan_rings : (s.onChan c f).rings = s.rings := rfl
@[simp] theorem onChan_subs : (s.onChan c f).subs = s.subs := rfl
@[simp] theorem onChan_seq : (s.onChan c f).seq = s.seq := rfl
@[simp] theorem onChan_points : (s.onChan c f).points = s.points := rfl
@[simp] theorem onChan_notices : (s.onChan c f).notices = s.notices := rfl
@[simp] theorem onChan_latches : (s.onChan c f).latches = s.latches := rfl
@[simp] theorem onChan_links : (s.onChan c f).links = s.links := rfl
@[simp] theorem onChan_turn : (s.onChan c f).turn = s.turn := rfl
@[simp] theorem onChan_pending : (s.onChan c f).pending = s.pending := rfl

end

section
variable (s : State) (c : Chan) (f : StillTimer → StillTimer)

@[simp] theorem onStill_time : (s.onStill c f).time = s.time := rfl
@[simp] theorem onStill_chans : (s.onStill c f).chans = s.chans := rfl
@[simp] theorem onStill_still : (s.onStill c f).still = s.still.modify c f := rfl
@[simp] theorem onStill_comp : (s.onStill c f).comp = s.comp := rfl
@[simp] theorem onStill_origins : (s.onStill c f).origins = s.origins := rfl
@[simp] theorem onStill_totals : (s.onStill c f).totals = s.totals := rfl
@[simp] theorem onStill_baselines : (s.onStill c f).baselines = s.baselines := rfl
@[simp] theorem onStill_inputs : (s.onStill c f).inputs = s.inputs := rfl
@[simp] theorem onStill_queue : (s.onStill c f).queue = s.queue := rfl
@[simp] theorem onStill_nextNumber : (s.onStill c f).nextNumber = s.nextNumber := rfl
@[simp] theorem onStill_engine : (s.onStill c f).engine = s.engine := rfl
@[simp] theorem onStill_arms : (s.onStill c f).arms = s.arms := rfl
@[simp] theorem onStill_sync : (s.onStill c f).sync = s.sync := rfl
@[simp] theorem onStill_rings : (s.onStill c f).rings = s.rings := rfl
@[simp] theorem onStill_subs : (s.onStill c f).subs = s.subs := rfl
@[simp] theorem onStill_seq : (s.onStill c f).seq = s.seq := rfl
@[simp] theorem onStill_points : (s.onStill c f).points = s.points := rfl
@[simp] theorem onStill_notices : (s.onStill c f).notices = s.notices := rfl
@[simp] theorem onStill_latches : (s.onStill c f).latches = s.latches := rfl
@[simp] theorem onStill_links : (s.onStill c f).links = s.links := rfl
@[simp] theorem onStill_turn : (s.onStill c f).turn = s.turn := rfl
@[simp] theorem onStill_pending : (s.onStill c f).pending = s.pending := rfl

end

section
variable (s : State) (c : Chan) (f : CompEntry → CompEntry)

@[simp] theorem onComp_time : (s.onComp c f).time = s.time := rfl
@[simp] theorem onComp_chans : (s.onComp c f).chans = s.chans := rfl
@[simp] theorem onComp_still : (s.onComp c f).still = s.still := rfl
@[simp] theorem onComp_comp : (s.onComp c f).comp = s.comp.modify c f := rfl
@[simp] theorem onComp_origins : (s.onComp c f).origins = s.origins := rfl
@[simp] theorem onComp_totals : (s.onComp c f).totals = s.totals := rfl
@[simp] theorem onComp_baselines : (s.onComp c f).baselines = s.baselines := rfl
@[simp] theorem onComp_inputs : (s.onComp c f).inputs = s.inputs := rfl
@[simp] theorem onComp_queue : (s.onComp c f).queue = s.queue := rfl
@[simp] theorem onComp_nextNumber : (s.onComp c f).nextNumber = s.nextNumber := rfl
@[simp] theorem onComp_engine : (s.onComp c f).engine = s.engine := rfl
@[simp] theorem onComp_arms : (s.onComp c f).arms = s.arms := rfl
@[simp] theorem onComp_sync : (s.onComp c f).sync = s.sync := rfl
@[simp] theorem onComp_rings : (s.onComp c f).rings = s.rings := rfl
@[simp] theorem onComp_subs : (s.onComp c f).subs = s.subs := rfl
@[simp] theorem onComp_seq : (s.onComp c f).seq = s.seq := rfl
@[simp] theorem onComp_points : (s.onComp c f).points = s.points := rfl
@[simp] theorem onComp_notices : (s.onComp c f).notices = s.notices := rfl
@[simp] theorem onComp_latches : (s.onComp c f).latches = s.latches := rfl
@[simp] theorem onComp_links : (s.onComp c f).links = s.links := rfl
@[simp] theorem onComp_turn : (s.onComp c f).turn = s.turn := rfl
@[simp] theorem onComp_pending : (s.onComp c f).pending = s.pending := rfl

end

section
variable (s : State) (p : Port) (f : Ring → Ring)

@[simp] theorem onRing_time : (s.onRing p f).time = s.time := rfl
@[simp] theorem onRing_chans : (s.onRing p f).chans = s.chans := rfl
@[simp] theorem onRing_still : (s.onRing p f).still = s.still := rfl
@[simp] theorem onRing_comp : (s.onRing p f).comp = s.comp := rfl
@[simp] theorem onRing_origins : (s.onRing p f).origins = s.origins := rfl
@[simp] theorem onRing_totals : (s.onRing p f).totals = s.totals := rfl
@[simp] theorem onRing_baselines : (s.onRing p f).baselines = s.baselines := rfl
@[simp] theorem onRing_inputs : (s.onRing p f).inputs = s.inputs := rfl
@[simp] theorem onRing_queue : (s.onRing p f).queue = s.queue := rfl
@[simp] theorem onRing_nextNumber : (s.onRing p f).nextNumber = s.nextNumber := rfl
@[simp] theorem onRing_engine : (s.onRing p f).engine = s.engine := rfl
@[simp] theorem onRing_arms : (s.onRing p f).arms = s.arms := rfl
@[simp] theorem onRing_sync : (s.onRing p f).sync = s.sync := rfl
@[simp] theorem onRing_rings : (s.onRing p f).rings = s.rings.modify p f := rfl
@[simp] theorem onRing_subs : (s.onRing p f).subs = s.subs := rfl
@[simp] theorem onRing_seq : (s.onRing p f).seq = s.seq := rfl
@[simp] theorem onRing_points : (s.onRing p f).points = s.points := rfl
@[simp] theorem onRing_notices : (s.onRing p f).notices = s.notices := rfl
@[simp] theorem onRing_latches : (s.onRing p f).latches = s.latches := rfl
@[simp] theorem onRing_links : (s.onRing p f).links = s.links := rfl
@[simp] theorem onRing_turn : (s.onRing p f).turn = s.turn := rfl
@[simp] theorem onRing_pending : (s.onRing p f).pending = s.pending := rfl

end

section
variable (s : State) (i : Input) (f : TrigInput → TrigInput)

@[simp] theorem onInput_time : (s.onInput i f).time = s.time := rfl
@[simp] theorem onInput_chans : (s.onInput i f).chans = s.chans := rfl
@[simp] theorem onInput_still : (s.onInput i f).still = s.still := rfl
@[simp] theorem onInput_comp : (s.onInput i f).comp = s.comp := rfl
@[simp] theorem onInput_origins : (s.onInput i f).origins = s.origins := rfl
@[simp] theorem onInput_totals : (s.onInput i f).totals = s.totals := rfl
@[simp] theorem onInput_baselines : (s.onInput i f).baselines = s.baselines := rfl
@[simp] theorem onInput_inputs : (s.onInput i f).inputs = s.inputs.modify i f := rfl
@[simp] theorem onInput_queue : (s.onInput i f).queue = s.queue := rfl
@[simp] theorem onInput_nextNumber : (s.onInput i f).nextNumber = s.nextNumber := rfl
@[simp] theorem onInput_engine : (s.onInput i f).engine = s.engine := rfl
@[simp] theorem onInput_arms : (s.onInput i f).arms = s.arms := rfl
@[simp] theorem onInput_sync : (s.onInput i f).sync = s.sync := rfl
@[simp] theorem onInput_rings : (s.onInput i f).rings = s.rings := rfl
@[simp] theorem onInput_subs : (s.onInput i f).subs = s.subs := rfl
@[simp] theorem onInput_seq : (s.onInput i f).seq = s.seq := rfl
@[simp] theorem onInput_points : (s.onInput i f).points = s.points := rfl
@[simp] theorem onInput_notices : (s.onInput i f).notices = s.notices := rfl
@[simp] theorem onInput_latches : (s.onInput i f).latches = s.latches := rfl
@[simp] theorem onInput_links : (s.onInput i f).links = s.links := rfl
@[simp] theorem onInput_turn : (s.onInput i f).turn = s.turn := rfl
@[simp] theorem onInput_pending : (s.onInput i f).pending = s.pending := rfl

end

section
variable (s : State) (p : Port) (f : Link → Link)

@[simp] theorem onLink_time : (s.onLink p f).time = s.time := rfl
@[simp] theorem onLink_chans : (s.onLink p f).chans = s.chans := rfl
@[simp] theorem onLink_still : (s.onLink p f).still = s.still := rfl
@[simp] theorem onLink_comp : (s.onLink p f).comp = s.comp := rfl
@[simp] theorem onLink_origins : (s.onLink p f).origins = s.origins := rfl
@[simp] theorem onLink_totals : (s.onLink p f).totals = s.totals := rfl
@[simp] theorem onLink_baselines : (s.onLink p f).baselines = s.baselines := rfl
@[simp] theorem onLink_inputs : (s.onLink p f).inputs = s.inputs := rfl
@[simp] theorem onLink_queue : (s.onLink p f).queue = s.queue := rfl
@[simp] theorem onLink_nextNumber : (s.onLink p f).nextNumber = s.nextNumber := rfl
@[simp] theorem onLink_engine : (s.onLink p f).engine = s.engine := rfl
@[simp] theorem onLink_arms : (s.onLink p f).arms = s.arms := rfl
@[simp] theorem onLink_sync : (s.onLink p f).sync = s.sync := rfl
@[simp] theorem onLink_rings : (s.onLink p f).rings = s.rings := rfl
@[simp] theorem onLink_subs : (s.onLink p f).subs = s.subs := rfl
@[simp] theorem onLink_seq : (s.onLink p f).seq = s.seq := rfl
@[simp] theorem onLink_points : (s.onLink p f).points = s.points := rfl
@[simp] theorem onLink_notices : (s.onLink p f).notices = s.notices := rfl
@[simp] theorem onLink_latches : (s.onLink p f).latches = s.latches := rfl
@[simp] theorem onLink_links : (s.onLink p f).links = s.links.modify p f := rfl
@[simp] theorem onLink_turn : (s.onLink p f).turn = s.turn := rfl
@[simp] theorem onLink_pending : (s.onLink p f).pending = s.pending := rfl

end

section
variable (s : State) (f : Sequencer → Sequencer)

@[simp] theorem onSeq_time : (s.onSeq f).time = s.time := rfl
@[simp] theorem onSeq_chans : (s.onSeq f).chans = s.chans := rfl
@[simp] theorem onSeq_still : (s.onSeq f).still = s.still := rfl
@[simp] theorem onSeq_comp : (s.onSeq f).comp = s.comp := rfl
@[simp] theorem onSeq_origins : (s.onSeq f).origins = s.origins := rfl
@[simp] theorem onSeq_totals : (s.onSeq f).totals = s.totals := rfl
@[simp] theorem onSeq_baselines : (s.onSeq f).baselines = s.baselines := rfl
@[simp] theorem onSeq_inputs : (s.onSeq f).inputs = s.inputs := rfl
@[simp] theorem onSeq_queue : (s.onSeq f).queue = s.queue := rfl
@[simp] theorem onSeq_nextNumber : (s.onSeq f).nextNumber = s.nextNumber := rfl
@[simp] theorem onSeq_engine : (s.onSeq f).engine = s.engine := rfl
@[simp] theorem onSeq_arms : (s.onSeq f).arms = s.arms := rfl
@[simp] theorem onSeq_sync : (s.onSeq f).sync = s.sync := rfl
@[simp] theorem onSeq_rings : (s.onSeq f).rings = s.rings := rfl
@[simp] theorem onSeq_subs : (s.onSeq f).subs = s.subs := rfl
@[simp] theorem onSeq_seq : (s.onSeq f).seq = f s.seq := rfl
@[simp] theorem onSeq_points : (s.onSeq f).points = s.points := rfl
@[simp] theorem onSeq_notices : (s.onSeq f).notices = s.notices := rfl
@[simp] theorem onSeq_latches : (s.onSeq f).latches = s.latches := rfl
@[simp] theorem onSeq_links : (s.onSeq f).links = s.links := rfl
@[simp] theorem onSeq_turn : (s.onSeq f).turn = s.turn := rfl
@[simp] theorem onSeq_pending : (s.onSeq f).pending = s.pending := rfl

end

section
variable (s : State) (c : Chan) (f : ChanTotals → ChanTotals)

@[simp] theorem onChanTotals_time : (s.onChanTotals c f).time = s.time := rfl
@[simp] theorem onChanTotals_chans : (s.onChanTotals c f).chans = s.chans := rfl
@[simp] theorem onChanTotals_still : (s.onChanTotals c f).still = s.still := rfl
@[simp] theorem onChanTotals_comp : (s.onChanTotals c f).comp = s.comp := rfl
@[simp] theorem onChanTotals_origins : (s.onChanTotals c f).origins = s.origins := rfl
@[simp] theorem onChanTotals_totals : (s.onChanTotals c f).totals =
    { s.totals with chans := s.totals.chans.modify c f } := rfl
@[simp] theorem onChanTotals_baselines : (s.onChanTotals c f).baselines = s.baselines := rfl
@[simp] theorem onChanTotals_inputs : (s.onChanTotals c f).inputs = s.inputs := rfl
@[simp] theorem onChanTotals_queue : (s.onChanTotals c f).queue = s.queue := rfl
@[simp] theorem onChanTotals_nextNumber : (s.onChanTotals c f).nextNumber = s.nextNumber := rfl
@[simp] theorem onChanTotals_engine : (s.onChanTotals c f).engine = s.engine := rfl
@[simp] theorem onChanTotals_arms : (s.onChanTotals c f).arms = s.arms := rfl
@[simp] theorem onChanTotals_sync : (s.onChanTotals c f).sync = s.sync := rfl
@[simp] theorem onChanTotals_rings : (s.onChanTotals c f).rings = s.rings := rfl
@[simp] theorem onChanTotals_subs : (s.onChanTotals c f).subs = s.subs := rfl
@[simp] theorem onChanTotals_seq : (s.onChanTotals c f).seq = s.seq := rfl
@[simp] theorem onChanTotals_points : (s.onChanTotals c f).points = s.points := rfl
@[simp] theorem onChanTotals_notices : (s.onChanTotals c f).notices = s.notices := rfl
@[simp] theorem onChanTotals_latches : (s.onChanTotals c f).latches = s.latches := rfl
@[simp] theorem onChanTotals_links : (s.onChanTotals c f).links = s.links := rfl
@[simp] theorem onChanTotals_turn : (s.onChanTotals c f).turn = s.turn := rfl
@[simp] theorem onChanTotals_pending : (s.onChanTotals c f).pending = s.pending := rfl

end

section
variable (s : State) (i : Input) (f : InputTotals → InputTotals)

@[simp] theorem onInputTotals_time : (s.onInputTotals i f).time = s.time := rfl
@[simp] theorem onInputTotals_chans : (s.onInputTotals i f).chans = s.chans := rfl
@[simp] theorem onInputTotals_still : (s.onInputTotals i f).still = s.still := rfl
@[simp] theorem onInputTotals_comp : (s.onInputTotals i f).comp = s.comp := rfl
@[simp] theorem onInputTotals_origins : (s.onInputTotals i f).origins = s.origins := rfl
@[simp] theorem onInputTotals_totals : (s.onInputTotals i f).totals =
    { s.totals with inputs := s.totals.inputs.modify i f } := rfl
@[simp] theorem onInputTotals_baselines : (s.onInputTotals i f).baselines = s.baselines := rfl
@[simp] theorem onInputTotals_inputs : (s.onInputTotals i f).inputs = s.inputs := rfl
@[simp] theorem onInputTotals_queue : (s.onInputTotals i f).queue = s.queue := rfl
@[simp] theorem onInputTotals_nextNumber : (s.onInputTotals i f).nextNumber = s.nextNumber := rfl
@[simp] theorem onInputTotals_engine : (s.onInputTotals i f).engine = s.engine := rfl
@[simp] theorem onInputTotals_arms : (s.onInputTotals i f).arms = s.arms := rfl
@[simp] theorem onInputTotals_sync : (s.onInputTotals i f).sync = s.sync := rfl
@[simp] theorem onInputTotals_rings : (s.onInputTotals i f).rings = s.rings := rfl
@[simp] theorem onInputTotals_subs : (s.onInputTotals i f).subs = s.subs := rfl
@[simp] theorem onInputTotals_seq : (s.onInputTotals i f).seq = s.seq := rfl
@[simp] theorem onInputTotals_points : (s.onInputTotals i f).points = s.points := rfl
@[simp] theorem onInputTotals_notices : (s.onInputTotals i f).notices = s.notices := rfl
@[simp] theorem onInputTotals_latches : (s.onInputTotals i f).latches = s.latches := rfl
@[simp] theorem onInputTotals_links : (s.onInputTotals i f).links = s.links := rfl
@[simp] theorem onInputTotals_turn : (s.onInputTotals i f).turn = s.turn := rfl
@[simp] theorem onInputTotals_pending : (s.onInputTotals i f).pending = s.pending := rfl

end

section
variable (s : State) (f : CaptureTotals → CaptureTotals)

@[simp] theorem onCaptureTotals_time : (s.onCaptureTotals f).time = s.time := rfl
@[simp] theorem onCaptureTotals_chans : (s.onCaptureTotals f).chans = s.chans := rfl
@[simp] theorem onCaptureTotals_still : (s.onCaptureTotals f).still = s.still := rfl
@[simp] theorem onCaptureTotals_comp : (s.onCaptureTotals f).comp = s.comp := rfl
@[simp] theorem onCaptureTotals_origins : (s.onCaptureTotals f).origins = s.origins := rfl
@[simp] theorem onCaptureTotals_totals : (s.onCaptureTotals f).totals =
    { s.totals with capture := f s.totals.capture } := rfl
@[simp] theorem onCaptureTotals_baselines : (s.onCaptureTotals f).baselines = s.baselines := rfl
@[simp] theorem onCaptureTotals_inputs : (s.onCaptureTotals f).inputs = s.inputs := rfl
@[simp] theorem onCaptureTotals_queue : (s.onCaptureTotals f).queue = s.queue := rfl
@[simp] theorem onCaptureTotals_nextNumber : (s.onCaptureTotals f).nextNumber = s.nextNumber := rfl
@[simp] theorem onCaptureTotals_engine : (s.onCaptureTotals f).engine = s.engine := rfl
@[simp] theorem onCaptureTotals_arms : (s.onCaptureTotals f).arms = s.arms := rfl
@[simp] theorem onCaptureTotals_sync : (s.onCaptureTotals f).sync = s.sync := rfl
@[simp] theorem onCaptureTotals_rings : (s.onCaptureTotals f).rings = s.rings := rfl
@[simp] theorem onCaptureTotals_subs : (s.onCaptureTotals f).subs = s.subs := rfl
@[simp] theorem onCaptureTotals_seq : (s.onCaptureTotals f).seq = s.seq := rfl
@[simp] theorem onCaptureTotals_points : (s.onCaptureTotals f).points = s.points := rfl
@[simp] theorem onCaptureTotals_notices : (s.onCaptureTotals f).notices = s.notices := rfl
@[simp] theorem onCaptureTotals_latches : (s.onCaptureTotals f).latches = s.latches := rfl
@[simp] theorem onCaptureTotals_links : (s.onCaptureTotals f).links = s.links := rfl
@[simp] theorem onCaptureTotals_turn : (s.onCaptureTotals f).turn = s.turn := rfl
@[simp] theorem onCaptureTotals_pending : (s.onCaptureTotals f).pending = s.pending := rfl

end

section
variable (s : State) (f : SeqTotals → SeqTotals)

@[simp] theorem onSeqTotals_time : (s.onSeqTotals f).time = s.time := rfl
@[simp] theorem onSeqTotals_chans : (s.onSeqTotals f).chans = s.chans := rfl
@[simp] theorem onSeqTotals_still : (s.onSeqTotals f).still = s.still := rfl
@[simp] theorem onSeqTotals_comp : (s.onSeqTotals f).comp = s.comp := rfl
@[simp] theorem onSeqTotals_origins : (s.onSeqTotals f).origins = s.origins := rfl
@[simp] theorem onSeqTotals_totals : (s.onSeqTotals f).totals = { s.totals with seq := f s.totals.seq } := rfl
@[simp] theorem onSeqTotals_baselines : (s.onSeqTotals f).baselines = s.baselines := rfl
@[simp] theorem onSeqTotals_inputs : (s.onSeqTotals f).inputs = s.inputs := rfl
@[simp] theorem onSeqTotals_queue : (s.onSeqTotals f).queue = s.queue := rfl
@[simp] theorem onSeqTotals_nextNumber : (s.onSeqTotals f).nextNumber = s.nextNumber := rfl
@[simp] theorem onSeqTotals_engine : (s.onSeqTotals f).engine = s.engine := rfl
@[simp] theorem onSeqTotals_arms : (s.onSeqTotals f).arms = s.arms := rfl
@[simp] theorem onSeqTotals_sync : (s.onSeqTotals f).sync = s.sync := rfl
@[simp] theorem onSeqTotals_rings : (s.onSeqTotals f).rings = s.rings := rfl
@[simp] theorem onSeqTotals_subs : (s.onSeqTotals f).subs = s.subs := rfl
@[simp] theorem onSeqTotals_seq : (s.onSeqTotals f).seq = s.seq := rfl
@[simp] theorem onSeqTotals_points : (s.onSeqTotals f).points = s.points := rfl
@[simp] theorem onSeqTotals_notices : (s.onSeqTotals f).notices = s.notices := rfl
@[simp] theorem onSeqTotals_latches : (s.onSeqTotals f).latches = s.latches := rfl
@[simp] theorem onSeqTotals_links : (s.onSeqTotals f).links = s.links := rfl
@[simp] theorem onSeqTotals_turn : (s.onSeqTotals f).turn = s.turn := rfl
@[simp] theorem onSeqTotals_pending : (s.onSeqTotals f).pending = s.pending := rfl

end

section
variable (s : State) (k : Notice) (w : Port → Bool)

@[simp] theorem postWhere_time : (postWhere k w s).time = s.time := rfl
@[simp] theorem postWhere_chans : (postWhere k w s).chans = s.chans := rfl
@[simp] theorem postWhere_still : (postWhere k w s).still = s.still := rfl
@[simp] theorem postWhere_comp : (postWhere k w s).comp = s.comp := rfl
@[simp] theorem postWhere_origins : (postWhere k w s).origins = s.origins := rfl
@[simp] theorem postWhere_totals : (postWhere k w s).totals = s.totals := rfl
@[simp] theorem postWhere_baselines : (postWhere k w s).baselines = s.baselines := rfl
@[simp] theorem postWhere_inputs : (postWhere k w s).inputs = s.inputs := rfl
@[simp] theorem postWhere_queue : (postWhere k w s).queue = s.queue := rfl
@[simp] theorem postWhere_nextNumber : (postWhere k w s).nextNumber = s.nextNumber := rfl
@[simp] theorem postWhere_engine : (postWhere k w s).engine = s.engine := rfl
@[simp] theorem postWhere_arms : (postWhere k w s).arms = s.arms := rfl
@[simp] theorem postWhere_sync : (postWhere k w s).sync = s.sync := rfl
@[simp] theorem postWhere_rings : (postWhere k w s).rings = s.rings := rfl
@[simp] theorem postWhere_subs : (postWhere k w s).subs = s.subs := rfl
@[simp] theorem postWhere_seq : (postWhere k w s).seq = s.seq := rfl
@[simp] theorem postWhere_points : (postWhere k w s).points = s.points := rfl
@[simp] theorem postWhere_notices : (postWhere k w s).notices =
    PerPort.ofFn (fun p => if w p then (s.notices.get p).add k else s.notices.get p) := rfl
@[simp] theorem postWhere_latches : (postWhere k w s).latches = s.latches := rfl
@[simp] theorem postWhere_links : (postWhere k w s).links = s.links := rfl
@[simp] theorem postWhere_turn : (postWhere k w s).turn = s.turn := rfl
@[simp] theorem postWhere_pending : (postWhere k w s).pending = s.pending := rfl

end

/-! ## Posting (R167) -/

theorem post_eq (k : Notice) (p : Port) (s : State) : post k p s = postWhere k (fun q => q == p) s := rfl
theorem postAll_eq (k : Notice) (s : State) : postAll k s = postWhere k (fun _ => true) s := rfl
theorem postOthers_eq (k : Notice) (p : Port) (s : State) : postOthers k p s = postWhere k (fun q => q != p) s := rfl

/-- What a posting leaves of one port's notice items. -/
theorem postWhere_get (k : Notice) (w : Port → Bool) (s : State) (p : Port) :
    (postWhere k w s).notices.get p = if w p then (s.notices.get p).add k else s.notices.get p := by simp

/-- The kinds pending after a kind is added. -/
theorem Notices.has_add (k j : Notice) (n : Notices) : (n.add k).has j = (n.has j || decide (j = k)) := by
  have hk : k.num < 16 := by cases k <;> decide
  have hj : j.num < 16 := by cases j <;> decide
  have hinj : (k.num = j.num) ↔ j = k := by
    constructor
    · intro h; cases k <;> cases j <;> first | rfl | exact absurd h (by decide)
    · rintro rfl; rfl
  simp only [Notices.has, Notices.add, Notice.mask, BitVec.getLsbD_or, BitVec.getLsbD_twoPow, hinj]
  by_cases h : j = k <;> simp [h, hj, hk]

end Sys2Proof.Machine
end

