-- ==== Sys2Proof/Laws/Boundary.lean ====
section
/-! SUPPORT. Laws/Boundary.lean: no block reads or writes the client ports and the queue of waiting commands: every
shared operation and every taking but PORT RESET's commutes with a change of them. -/

namespace Sys2Proof.Machine

/-- The state with other client ports and another queue of waiting commands. -/
def State.withBoundary (s : State) (L : PerPort Link) (P : List Instr) : State := { s with links := L, pending := P }

section
variable (s : State) (L : PerPort Link) (P : List Instr)

@[simp] theorem withBoundary_time : (s.withBoundary L P).time = s.time := rfl
@[simp] theorem withBoundary_chans : (s.withBoundary L P).chans = s.chans := rfl
@[simp] theorem withBoundary_still : (s.withBoundary L P).still = s.still := rfl
@[simp] theorem withBoundary_comp : (s.withBoundary L P).comp = s.comp := rfl
@[simp] theorem withBoundary_origins : (s.withBoundary L P).origins = s.origins := rfl
@[simp] theorem withBoundary_totals : (s.withBoundary L P).totals = s.totals := rfl
@[simp] theorem withBoundary_baselines : (s.withBoundary L P).baselines = s.baselines := rfl
@[simp] theorem withBoundary_inputs : (s.withBoundary L P).inputs = s.inputs := rfl
@[simp] theorem withBoundary_queue : (s.withBoundary L P).queue = s.queue := rfl
@[simp] theorem withBoundary_nextNumber : (s.withBoundary L P).nextNumber = s.nextNumber := rfl
@[simp] theorem withBoundary_engine : (s.withBoundary L P).engine = s.engine := rfl
@[simp] theorem withBoundary_arms : (s.withBoundary L P).arms = s.arms := rfl
@[simp] theorem withBoundary_sync : (s.withBoundary L P).sync = s.sync := rfl
@[simp] theorem withBoundary_rings : (s.withBoundary L P).rings = s.rings := rfl
@[simp] theorem withBoundary_subs : (s.withBoundary L P).subs = s.subs := rfl
@[simp] theorem withBoundary_seq : (s.withBoundary L P).seq = s.seq := rfl
@[simp] theorem withBoundary_points : (s.withBoundary L P).points = s.points := rfl
@[simp] theorem withBoundary_notices : (s.withBoundary L P).notices = s.notices := rfl
@[simp] theorem withBoundary_latches : (s.withBoundary L P).latches = s.latches := rfl
@[simp] theorem withBoundary_turn : (s.withBoundary L P).turn = s.turn := rfl
@[simp] theorem withBoundary_links : (s.withBoundary L P).links = L := rfl
@[simp] theorem withBoundary_pending : (s.withBoundary L P).pending = P := rfl

end

/-! ## The updates of one block -/

section
variable (s : State) (L : PerPort Link) (P : List Instr)

@[simp] theorem withBoundary_onChan (c : Chan) (f : ChannelUnit → ChannelUnit) :
    (s.withBoundary L P).onChan c f = (s.onChan c f).withBoundary L P := rfl

@[simp] theorem withBoundary_onStill (c : Chan) (f : StillTimer → StillTimer) :
    (s.withBoundary L P).onStill c f = (s.onStill c f).withBoundary L P := rfl

@[simp] theorem withBoundary_onComp (c : Chan) (f : CompEntry → CompEntry) :
    (s.withBoundary L P).onComp c f = (s.onComp c f).withBoundary L P := rfl

@[simp] theorem withBoundary_onRing (p : Port) (f : Ring → Ring) :
    (s.withBoundary L P).onRing p f = (s.onRing p f).withBoundary L P := rfl

@[simp] theorem withBoundary_onInput (i : Input) (f : TrigInput → TrigInput) :
    (s.withBoundary L P).onInput i f = (s.onInput i f).withBoundary L P := rfl

@[simp] theorem withBoundary_onSeq (f : Sequencer → Sequencer) :
    (s.withBoundary L P).onSeq f = (s.onSeq f).withBoundary L P := rfl

@[simp] theorem withBoundary_onChanTotals (c : Chan) (f : ChanTotals → ChanTotals) :
    (s.withBoundary L P).onChanTotals c f = (s.onChanTotals c f).withBoundary L P := rfl

@[simp] theorem withBoundary_onInputTotals (i : Input) (f : InputTotals → InputTotals) :
    (s.withBoundary L P).onInputTotals i f = (s.onInputTotals i f).withBoundary L P := rfl

@[simp] theorem withBoundary_onCaptureTotals (f : CaptureTotals → CaptureTotals) :
    (s.withBoundary L P).onCaptureTotals f = (s.onCaptureTotals f).withBoundary L P := rfl

@[simp] theorem withBoundary_onSeqTotals (f : SeqTotals → SeqTotals) :
    (s.withBoundary L P).onSeqTotals f = (s.onSeqTotals f).withBoundary L P := rfl

@[simp] theorem withBoundary_postWhere (k : Notice) (w : Port → Bool) :
    postWhere k w (s.withBoundary L P) = (postWhere k w s).withBoundary L P := rfl

@[simp] theorem withBoundary_post (k : Notice) (p : Port) :
    post k p (s.withBoundary L P) = (post k p s).withBoundary L P := rfl

@[simp] theorem withBoundary_postAll (k : Notice) :
    postAll k (s.withBoundary L P) = (postAll k s).withBoundary L P := rfl

@[simp] theorem withBoundary_postOthers (k : Notice) (p : Port) :
    postOthers k p (s.withBoundary L P) = (postOthers k p s).withBoundary L P := rfl

/-! ## Readings -/

@[simp] theorem withBoundary_view (p : Port) (c : Chan) : (s.withBoundary L P).view p c = s.view p c := rfl
@[simp] theorem withBoundary_compValue (p : Port) (c : Chan) :
    (s.withBoundary L P).compValue p c = s.compValue p c := rfl
@[simp] theorem withBoundary_line (p : Port) : (s.withBoundary L P).line p = s.line p := rfl
@[simp] theorem withBoundary_yaw (p : Port) : (s.withBoundary L P).yaw p = s.yaw p := rfl
@[simp] theorem withBoundary_outcomeOf (src : Source) : outcomeOf src (s.withBoundary L P) = outcomeOf src s := rfl
@[simp] theorem withBoundary_allSettled (m : ChanMask) : (s.withBoundary L P).allSettled m = s.allSettled m := rfl
@[simp] theorem withBoundary_slotDue : (s.withBoundary L P).slotDue = s.slotDue := rfl
@[simp] theorem withBoundary_pointAt (k : Nat) : (s.withBoundary L P).pointAt k = s.pointAt k := rfl
@[simp] theorem withBoundary_subjectValue (pt : Point) :
    (s.withBoundary L P).subjectValue pt = s.subjectValue pt := rfl
@[simp] theorem withBoundary_scanning : (s.withBoundary L P).scanning = s.scanning := rfl
@[simp] theorem withBoundary_movesFrame (p : Port) (cs : List Chan) :
    (s.withBoundary L P).movesFrame p cs = s.movesFrame p cs := rfl
@[simp] theorem withBoundary_firstNotTracking (cs : List Chan) :
    (s.withBoundary L P).firstNotTracking cs = s.firstNotTracking cs := rfl
@[simp] theorem withBoundary_timedPins (p : Port) (cs : List Chan) :
    (s.withBoundary L P).timedPins p cs = s.timedPins p cs := rfl
@[simp] theorem withBoundary_routedEntries (p : Port) :
    (s.withBoundary L P).routedEntries p = s.routedEntries p := rfl
@[simp] theorem withBoundary_roomFor (p : Port) (b : Bool) : (s.withBoundary L P).roomFor p b = s.roomFor p b := rfl

end

section
variable (L : PerPort Link) (P : List Instr)

/-- A fold of steps that commute with a change of the boundary commutes with it. -/
theorem foldl_withBoundary {α : Type} (f : State → α → State)
    (h : ∀ s a, f (s.withBoundary L P) a = (f s a).withBoundary L P) (l : List α) :
    ∀ s : State, l.foldl f (s.withBoundary L P) = (l.foldl f s).withBoundary L P := by
  induction l with
  | nil => intro s; rfl
  | cons a l ih => intro s; rw [List.foldl_cons, List.foldl_cons, h, ih]

/-! ## The shared operations -/

@[simp] theorem hand_withBoundary (src : Source) (s : State) :
    hand src (s.withBoundary L P) = (hand src s).withBoundary L P := by
  unfold hand
  rw [withBoundary_outcomeOf]
  cases outcomeOf src s with
  | admitted n => rfl
  | discarded => rfl
  | overrun => cases src <;> rfl

@[simp] theorem fireArm_withBoundary (p : Port) (m : ChanMask) (s : State) :
    fireArm p m (s.withBoundary L P) = (fireArm p m s).withBoundary L P := by
  unfold fireArm
  rw [hand_withBoundary]
  rfl

@[simp] theorem evalArm_withBoundary (c : Chan) (p : Port) (s : State) :
    evalArm c (s.withBoundary L P) p = (evalArm c s p).withBoundary L P := by
  unfold evalArm
  simp only [withBoundary_arms, withBoundary_allSettled, fireArm_withBoundary]
  split
  · split <;> rfl
  · rfl

@[simp] theorem settleEntered_withBoundary (c : Chan) (s : State) :
    settleEntered c (s.withBoundary L P) = (settleEntered c s).withBoundary L P := by
  unfold settleEntered
  exact foldl_withBoundary L P (evalArm c) (fun s p => evalArm_withBoundary L P c p s) Port.all s

@[simp] theorem announceApplied_withBoundary (cs : List Chan) (s : State) :
    announceApplied cs (s.withBoundary L P) = (announceApplied cs s).withBoundary L P := by
  unfold announceApplied
  split
  · rfl
  · dsimp only
    split <;> rfl

@[simp] theorem applyDueSlots_withBoundary (cs : List Chan) (s : State) :
    applyDueSlots cs (s.withBoundary L P) = (applyDueSlots cs s).withBoundary L P := by
  unfold applyDueSlots
  simp only [withBoundary_slotDue]
  rw [foldl_withBoundary L P _ (fun _ _ => rfl), announceApplied_withBoundary]

@[simp] theorem removePins_withBoundary (p : Port) (cs : List Chan) (s : State) :
    removePins p cs (s.withBoundary L P) = (removePins p cs s).withBoundary L P := by
  unfold removePins
  rw [foldl_withBoundary L P _ (fun _ _ => rfl), applyDueSlots_withBoundary]

@[simp] theorem expirePin_withBoundary (c : Chan) (p : Port) (s : State) :
    expirePin c p (s.withBoundary L P) = (expirePin c p s).withBoundary L P := by
  simp [expirePin]

@[simp] theorem writeComp_withBoundary (p : Port) (cs : List Chan) (w o : BitVec 32) (s : State) :
    writeComp p cs w o (s.withBoundary L P) = (writeComp p cs w o s).withBoundary L P := by
  have h : (s.withBoundary L P).supersededAt cs = s.supersededAt cs := rfl
  unfold writeComp
  dsimp only
  rw [foldl_withBoundary L P _ (fun _ _ => rfl), h, withBoundary_postWhere, announceApplied_withBoundary]
  rfl

@[simp] theorem halt_withBoundary (cause : HaltCause) (s : State) :
    halt cause (s.withBoundary L P) = (halt cause s).withBoundary L P := by
  unfold halt
  rw [withBoundary_seq]
  cases s.seq.claimant with
  | none => rfl
  | some p =>
    dsimp only
    rw [removePins_withBoundary, withBoundary_seq, hand_withBoundary]
    cases cause <;> rfl

@[simp] theorem haltIfScanning_withBoundary (cause : HaltCause) (s : State) :
    haltIfScanning cause (s.withBoundary L P) = (haltIfScanning cause s).withBoundary L P := by
  unfold haltIfScanning
  rw [withBoundary_scanning, halt_withBoundary]
  split <;> rfl

@[simp] theorem endClaim_withBoundary (s : State) :
    endClaim (s.withBoundary L P) = (endClaim s).withBoundary L P := by
  rfl

@[simp] theorem passEntry_withBoundary (p : Port) (e : EntryRef) (s : State) :
    passEntry p e (s.withBoundary L P) = (passEntry p e s).withBoundary L P := by
  unfold passEntry missedDecision
  simp
  split <;> rfl

@[simp] theorem evalWindow_withBoundary (p : Port) (n : Nat) (x : Int) (s : State) :
    evalWindow p n x (s.withBoundary L P) = (evalWindow p n x s).withBoundary L P := by
  induction n generalizing s with
  | zero => rfl
  | succ n ih =>
    unfold evalWindow
    rw [withBoundary_seq]
    cases s.seq.lines[s.seq.current]? with
    | none => rfl
    | some e =>
      dsimp only
      split
      · rw [passEntry_withBoundary]
        cases s.seq.nextIndex with
        | none => exact halt_withBoundary L P _ _
        | some j =>
          dsimp only
          rw [withBoundary_onSeq, ih]
      · split <;> rfl

@[simp] theorem sequencerUpdate_withBoundary (s : State) :
    sequencerUpdate (s.withBoundary L P) = (sequencerUpdate s).withBoundary L P := by
  unfold sequencerUpdate
  rw [withBoundary_seq]
  split
  · cases s.seq.claimant with
    | none => rfl
    | some p =>
      dsimp only
      rw [withBoundary_line]
      cases s.line p with
      | none => rfl
      | some l => exact evalWindow_withBoundary L P _ _ _ _
  · rfl

@[simp] theorem linePulse_withBoundary (p : Port) (e : EntryRef) (s : State) :
    linePulse p e (s.withBoundary L P) = (linePulse p e s).withBoundary L P := by
  simp [linePulse]

@[simp] theorem strayPulse_withBoundary (p : Port) (e : EntryRef) (s : State) :
    strayPulse p e (s.withBoundary L P) = (strayPulse p e s).withBoundary L P := by
  unfold strayPulse
  simp
  split <;> rfl

@[simp] theorem sequencerEdge_withBoundary (s : State) :
    sequencerEdge (s.withBoundary L P) = (sequencerEdge s).withBoundary L P := by
  unfold sequencerEdge
  simp only [withBoundary_seq, linePulse_withBoundary, strayPulse_withBoundary]
  cases s.seq.claimant with
  | none => rfl
  | some p =>
    cases s.seq.currentRef with
    | none => rfl
    | some e => dsimp only; cases s.seq.window <;> rfl

@[simp] theorem sequencerDeparture_withBoundary (c : Chan) (s : State) :
    sequencerDeparture c (s.withBoundary L P) = (sequencerDeparture c s).withBoundary L P := by
  unfold sequencerDeparture
  rw [withBoundary_seq, halt_withBoundary]
  split <;> rfl

@[simp] theorem fireActions_withBoundary (pt : Point) (s : State) :
    fireActions pt (s.withBoundary L P) = (fireActions pt s).withBoundary L P := by
  have hs : ∀ t : State, ({ t.withBoundary L P with sync := some (t.withBoundary L P).time } : State) =
      State.withBoundary { t with sync := some t.time } L P := fun _ => rfl
  unfold fireActions
  obtain ⟨n, c, y⟩ := pt.actions
  cases n <;> cases c <;> cases y <;>
    simp only [if_true, if_false, Bool.false_eq_true, withBoundary_postWhere, hs, hand_withBoundary]

@[simp] theorem evalSlot_withBoundary (c : Chan) (k : Nat) (s : State) :
    evalSlot c (s.withBoundary L P) k = (evalSlot c s k).withBoundary L P := by
  have hp : ∀ pt, (s.withBoundary L P).putPoint pt = (s.putPoint pt).withBoundary L P := fun _ => rfl
  unfold evalSlot
  rw [withBoundary_pointAt]
  cases s.pointAt k with
  | none => rfl
  | some pt =>
    dsimp only
    rw [withBoundary_subjectValue]
    split
    · cases s.subjectValue pt with
      | none => rfl
      | some v =>
        dsimp only
        rw [hp, fireActions_withBoundary]
        split <;> rfl
    · rfl

@[simp] theorem evalSlots_withBoundary (c : Chan) (ks : List Nat) (s : State) :
    evalSlots c ks (s.withBoundary L P) = (evalSlots c ks s).withBoundary L P := by
  unfold evalSlots
  exact foldl_withBoundary L P (evalSlot c) (fun s k => evalSlot_withBoundary L P c k s) ks s

@[simp] theorem meetAtUpdate_withBoundary (c : Chan) (s : State) :
    meetAtUpdate c (s.withBoundary L P) = (meetAtUpdate c s).withBoundary L P := by
  unfold meetAtUpdate
  dsimp only
  rw [withBoundary_turn, evalSlots_withBoundary, sequencerUpdate_withBoundary, evalSlots_withBoundary]
  rfl

@[simp] theorem updateBlocks_withBoundary (c : Chan) (s : State) :
    updateBlocks c (s.withBoundary L P) = (updateBlocks c s).withBoundary L P := by
  unfold updateBlocks
  rw [withBoundary_seq, withBoundary_points, evalSlots_withBoundary, meetAtUpdate_withBoundary,
    sequencerUpdate_withBoundary]
  split
  · split <;> rfl
  · rfl

@[simp] theorem departure_withBoundary (c : Chan) (s : State) :
    departure c (s.withBoundary L P) = (departure c s).withBoundary L P := by
  have h : ∀ t : State, cancelArms c (t.withBoundary L P) = (cancelArms c t).withBoundary L P := fun _ => rfl
  have h2 : pointsOnChannel c (s.withBoundary L P) = (pointsOnChannel c s).withBoundary L P := rfl
  unfold departure
  rw [h2, h, sequencerDeparture_withBoundary]

@[simp] theorem lossOf_withBoundary (c : Chan) (d : LossDetail) (level : Byte) (s : State) :
    lossOf c d level (s.withBoundary L P) = (lossOf c d level s).withBoundary L P := by
  have h : ∀ r (t : State), handReport r (t.withBoundary L P) = (handReport r t).withBoundary L P := fun _ _ => rfl
  unfold lossOf
  simp only [withBoundary_onChan, withBoundary_onChanTotals, withBoundary_onStill, withBoundary_postAll, h,
    departure_withBoundary, withBoundary_chans, withBoundary_still, withBoundary_time]

@[simp] theorem acceptSample_withBoundary (c : Chan) (f : Sample) (s : State) :
    acceptSample c f (s.withBoundary L P) = (acceptSample c f s).withBoundary L P := by
  unfold acceptSample
  simp only [withBoundary_onChan, withBoundary_onChanTotals, withBoundary_onStill, updateBlocks_withBoundary,
    withBoundary_chans, withBoundary_time]

@[simp] theorem judgeTracking_withBoundary (c : Chan) (f : Sample) (s : State) :
    judgeTracking c f (s.withBoundary L P) = (judgeTracking c f s).withBoundary L P := by
  unfold judgeTracking
  simp only [withBoundary_chans, lossOf_withBoundary, acceptSample_withBoundary]
  split
  · rfl
  · split <;> rfl

@[simp] theorem acquisition_withBoundary (c : Chan) (f : Sample) (s : State) :
    acquisition c f (s.withBoundary L P) = (acquisition c f s).withBoundary L P := by
  unfold acquisition
  rw [withBoundary_chans]
  split <;> rfl

@[simp] theorem judgeAcquiring_withBoundary (c : Chan) (f : Sample) (g : Bool) (s : State) :
    judgeAcquiring c f g (s.withBoundary L P) = (judgeAcquiring c f g s).withBoundary L P := by
  unfold judgeAcquiring
  simp only [withBoundary_chans, withBoundary_onChan, acquisition_withBoundary, ← apply_ite (fun t => State.withBoundary t L P)]

@[simp] theorem goodFrame_withBoundary (c : Chan) (f : Sample) (s : State) :
    goodFrame c f (s.withBoundary L P) = (goodFrame c f s).withBoundary L P := by
  have hn : noteFrame c f (s.withBoundary L P) = (noteFrame c f s).withBoundary L P := rfl
  unfold goodFrame
  simp only [withBoundary_chans, hn, lossOf_withBoundary, judgeTracking_withBoundary, judgeAcquiring_withBoundary]
  cases (s.chans.get c).state <;> first | rfl | (dsimp only; split <;> rfl)

@[simp] theorem disableChannel_withBoundary (c : Chan) (s : State) :
    disableChannel c (s.withBoundary L P) = (disableChannel c s).withBoundary L P := by
  unfold disableChannel
  simp only [withBoundary_chans, withBoundary_onChan, withBoundary_onStill, departure_withBoundary]
  split <;> rfl

@[simp] theorem handEdge_withBoundary (i : Input) (s : State) :
    handEdge i (s.withBoundary L P) = (handEdge i s).withBoundary L P := by
  unfold handEdge
  rw [withBoundary_seq, sequencerEdge_withBoundary, hand_withBoundary]
  split <;> rfl

@[simp] theorem takeEdge_withBoundary (i : Input) (s : State) :
    takeEdge i (s.withBoundary L P) = (takeEdge i s).withBoundary L P := by
  unfold takeEdge
  simp only [withBoundary_inputs, withBoundary_time, withBoundary_onInput, withBoundary_onInputTotals,
    handEdge_withBoundary]
  cases (s.inputs.get i).holdOffUntil <;> rfl

@[simp] theorem endCompletion_withBoundary (e : QueueEntry) (rest : List QueueEntry) (s : State) :
    endCompletion e rest (s.withBoundary L P) = (endCompletion e rest s).withBoundary L P := by
  rfl

@[simp] theorem resetCaptures_withBoundary (p : Port) (s : State) :
    resetCaptures p (s.withBoundary L P) = (resetCaptures p s).withBoundary L P := by
  rfl

@[simp] theorem resetClaim_withBoundary (p : Port) (s : State) :
    resetClaim p (s.withBoundary L P) = (resetClaim p s).withBoundary L P := by
  unfold resetClaim
  rw [withBoundary_seq, haltIfScanning_withBoundary, endClaim_withBoundary]
  split <;> rfl

@[simp] theorem resetPins_withBoundary (p : Port) (s : State) :
    resetPins p (s.withBoundary L P) = (resetPins p s).withBoundary L P := by
  simp [resetPins]

@[simp] theorem resetContext_withBoundary (p : Port) (s : State) :
    resetContext p (s.withBoundary L P) = (resetContext p s).withBoundary L P := by
  rfl

end

end Sys2Proof.Machine
end

