-- ==== Sys2Proof/Laws/Requests.lean ====
section
/-! SUPPORT. Laws/Requests.lean: what the request exchange does: every taking but PORT RESET's commutes with a change of
the boundary, and a request that its port takes at once leaves what its taking leaves, with the reply at its port. -/

namespace Sys2Proof.Machine

section
variable (L : PerPort Link) (P : List Instr)

@[simp] theorem withBoundary_announceChange (c : Bool) (p : Port) (s : State) :
    announceChange c p (s.withBoundary L P) = (announceChange c p s).withBoundary L P := by
  cases c <;> rfl

/-- What a taking leaves, with the boundary changed. -/
def Taken.withBoundary : Taken → Taken
  | .answered reply s => .answered reply (s.withBoundary L P)
  | .goesOn s => .goesOn (s.withBoundary L P)

@[simp] theorem withBoundary_done (b : List Byte) (s : State) :
    (done b s).withBoundary L P = done b (s.withBoundary L P) := rfl

@[simp] theorem withBoundary_refuse (st : Status) (b : List Byte) (s : State) :
    (refuse st b s).withBoundary L P = refuse st b (s.withBoundary L P) := rfl

@[simp] theorem withBoundary_badValue (s : State) : (badValue s).withBoundary L P = badValue (s.withBoundary L P) := rfl

theorem withBoundary_withChannel (n : Nat) (b : List Byte) (s : State) (k k' : Chan → Taken)
    (h : ∀ c, k' c = (k c).withBoundary L P) :
    withChannel n b (s.withBoundary L P) k' = (withChannel n b s k).withBoundary L P := by
  unfold withChannel; split
  · cases chanAt b 0 with
    | none => rfl
    | some c => exact h c
  · rfl

theorem withBoundary_withMask (n : Nat) (b : List Byte) (s : State) (k k' : ChanMask → Taken)
    (h : ∀ c, k' c = (k c).withBoundary L P) :
    withMask n b (s.withBoundary L P) k' = (withMask n b s k).withBoundary L P := by
  unfold withMask; split
  · cases chanMaskAt b 0 with
    | none => rfl
    | some c => exact h c
  · rfl

@[simp] theorem checkAndStart_withBoundary (p : Port) (d : ScanDir) (first : Nat) (st : Bool) (e : LineEntry) (s : State) :
    checkAndStart p d first st e (s.withBoundary L P) = (checkAndStart p d first st e s).withBoundary L P := by
  have h : ∀ w, startScan p d first st w (s.withBoundary L P) = (startScan p d first st w s).withBoundary L P :=
    fun _ => rfl
  unfold checkAndStart
  simp only [withBoundary_chans, withBoundary_origins, withBoundary_comp, withBoundary_line, withBoundary_time, h]
  split
  · rfl
  · split
    · rfl
    · split
      · rfl
      · rfl
      · split <;> rfl

theorem takeReadChannel_withBoundary (p : Port) (b : List Byte) (s : State) :
    takeReadChannel p b (s.withBoundary L P) = (takeReadChannel p b s).withBoundary L P := by
  unfold takeReadChannel
  exact withBoundary_withChannel L P _ _ _ _ _ (fun _ => rfl)

theorem takeConfigureChannel_withBoundary (p : Port) (b : List Byte) (s : State) :
    takeConfigureChannel p b (s.withBoundary L P) = (takeConfigureChannel p b s).withBoundary L P := by
  unfold takeConfigureChannel
  refine withBoundary_withChannel L P _ _ _ _ _ (fun c => ?_)
  simp only [withBoundary_chans, withBoundary_onChan, withBoundary_announceChange]
  split
  · cases configAt b <;> rfl
  · rfl

theorem takeEnableChannel_withBoundary (p : Port) (b : List Byte) (s : State) :
    takeEnableChannel p b (s.withBoundary L P) = (takeEnableChannel p b s).withBoundary L P := by
  unfold takeEnableChannel
  refine withBoundary_withChannel L P _ _ _ _ _ (fun c => ?_)
  simp only [withBoundary_chans, withBoundary_onChan, withBoundary_announceChange]
  split <;> rfl

theorem takeDisableChannel_withBoundary (p : Port) (b : List Byte) (s : State) :
    takeDisableChannel p b (s.withBoundary L P) = (takeDisableChannel p b s).withBoundary L P := by
  unfold takeDisableChannel
  refine withBoundary_withChannel L P _ _ _ _ _ (fun c => ?_)
  simp only [withBoundary_chans, disableChannel_withBoundary, withBoundary_announceChange]
  split <;> rfl

theorem takeRecoverChannel_withBoundary (p : Port) (b : List Byte) (s : State) :
    takeRecoverChannel p b (s.withBoundary L P) = (takeRecoverChannel p b s).withBoundary L P := by
  unfold takeRecoverChannel
  refine withBoundary_withChannel L P _ _ _ _ _ (fun c => ?_)
  simp only [withBoundary_chans, withBoundary_onChan, withBoundary_announceChange]
  split
  · cases recoveryModeOf (numAt b 1 1) <;> rfl
  · rfl

theorem takeReadStillness_withBoundary (p : Port) (b : List Byte) (s : State) :
    takeReadStillness p b (s.withBoundary L P) = (takeReadStillness p b s).withBoundary L P := by
  unfold takeReadStillness
  exact withBoundary_withMask L P _ _ _ _ _ (fun _ => rfl)

theorem takeSetCompensation_withBoundary (p : Port) (b : List Byte) (s : State) :
    takeSetCompensation p b (s.withBoundary L P) = (takeSetCompensation p b s).withBoundary L P := by
  unfold takeSetCompensation
  refine withBoundary_withMask L P _ _ _ _ _ (fun m => ?_)
  simp only [writeComp_withBoundary, withBoundary_done]
  rfl

theorem takePinCompensation_withBoundary (p : Port) (b : List Byte) (s : State) :
    takePinCompensation p b (s.withBoundary L P) = (takePinCompensation p b s).withBoundary L P := by
  unfold takePinCompensation
  refine withBoundary_withMask L P _ _ _ _ _ (fun m => ?_)
  rw [foldl_withBoundary L P _ (fun _ _ => rfl)]
  split <;> rfl

theorem takeUnpinCompensation_withBoundary (p : Port) (b : List Byte) (s : State) :
    takeUnpinCompensation p b (s.withBoundary L P) = (takeUnpinCompensation p b s).withBoundary L P := by
  unfold takeUnpinCompensation
  refine withBoundary_withMask L P _ _ _ _ _ (fun m => ?_)
  rw [withBoundary_timedPins, removePins_withBoundary]
  rfl

theorem takeReadCompensation_withBoundary (p : Port) (b : List Byte) (s : State) :
    takeReadCompensation p b (s.withBoundary L P) = (takeReadCompensation p b s).withBoundary L P := by
  unfold takeReadCompensation
  exact withBoundary_withMask L P _ _ _ _ _ (fun _ => rfl)

theorem takeSetOrigin_withBoundary (p : Port) (b : List Byte) (s : State) :
    takeSetOrigin p b (s.withBoundary L P) = (takeSetOrigin p b s).withBoundary L P := by
  unfold takeSetOrigin
  refine withBoundary_withMask L P _ _ _ _ _ (fun m => ?_)
  have h : ∀ v, bindOrigins p (maskChans m) v (s.withBoundary L P) =
      (bindOrigins p (maskChans m) v s).withBoundary L P := fun _ => rfl
  dsimp only
  cases originValue b with
  | none => rfl
  | some v =>
    dsimp only
    rw [withBoundary_movesFrame, withBoundary_firstNotTracking, h]
    cases s.movesFrame p (maskChans m) <;> cases s.firstNotTracking (maskChans m) <;> rfl

theorem takeClearOrigin_withBoundary (p : Port) (b : List Byte) (s : State) :
    takeClearOrigin p b (s.withBoundary L P) = (takeClearOrigin p b s).withBoundary L P := by
  unfold takeClearOrigin
  refine withBoundary_withMask L P _ _ _ _ _ (fun m => ?_)
  have h : freeOrigins p (maskChans m) (s.withBoundary L P) = (freeOrigins p (maskChans m) s).withBoundary L P := rfl
  dsimp only
  rw [withBoundary_movesFrame, h]
  cases s.movesFrame p (maskChans m) <;> rfl

theorem takeReadPosition_withBoundary (p : Port) (b : List Byte) (s : State) :
    takeReadPosition p b (s.withBoundary L P) = (takeReadPosition p b s).withBoundary L P := by
  unfold takeReadPosition
  exact withBoundary_withMask L P _ _ _ _ _ (fun _ => rfl)

theorem takeReadCounters_withBoundary (p : Port) (b : List Byte) (s : State) :
    takeReadCounters p b (s.withBoundary L P) = (takeReadCounters p b s).withBoundary L P := by
  unfold takeReadCounters
  split
  · cases Group.ofNum (numAt b 0 1) <;> rfl
  · rfl

theorem takeConfigureInput_withBoundary (p : Port) (b : List Byte) (s : State) :
    takeConfigureInput p b (s.withBoundary L P) = (takeConfigureInput p b s).withBoundary L P := by
  unfold takeConfigureInput
  simp only [withBoundary_inputs, withBoundary_onInput, withBoundary_announceChange]
  split
  · cases Input.ofNum (numAt b 0 1) with
    | none => rfl
    | some i => cases edgeOf (numAt b 2 1) <;> rfl
  · rfl

theorem takeCaptureNow_withBoundary (p : Port) (b : List Byte) (s : State) :
    takeCaptureNow p b (s.withBoundary L P) = (takeCaptureNow p b s).withBoundary L P := by
  unfold takeCaptureNow
  simp only [withBoundary_outcomeOf, hand_withBoundary]
  split <;> rfl

theorem takeArmSettle_withBoundary (p : Port) (b : List Byte) (s : State) :
    takeArmSettle p b (s.withBoundary L P) = (takeArmSettle p b s).withBoundary L P := by
  unfold takeArmSettle
  have ha : ∀ m, ({ s.withBoundary L P with arms := s.arms.set p (some m) } : State) =
      State.withBoundary { s with arms := s.arms.set p (some m) } L P := fun _ => rfl
  refine withBoundary_withMask L P _ _ _ _ _ (fun m => ?_)
  simp only [withBoundary_firstNotTracking, withBoundary_arms, ha, withBoundary_allSettled, withBoundary_outcomeOf,
    fireArm_withBoundary]
  cases s.firstNotTracking (maskChans m) with
  | some c => rfl
  | none => dsimp only; split <;> rfl

theorem takeCancelSettle_withBoundary (p : Port) (b : List Byte) (s : State) :
    takeCancelSettle p b (s.withBoundary L P) = (takeCancelSettle p b s).withBoundary L P := by
  unfold takeCancelSettle
  split <;> rfl

theorem takeReadCaptureStatus_withBoundary (p : Port) (b : List Byte) (s : State) :
    takeReadCaptureStatus p b (s.withBoundary L P) = (takeReadCaptureStatus p b s).withBoundary L P := by
  unfold takeReadCaptureStatus
  split <;> rfl

theorem takeStartRing_withBoundary (p : Port) (b : List Byte) (s : State) :
    takeStartRing p b (s.withBoundary L P) = (takeStartRing p b s).withBoundary L P := by
  unfold takeStartRing
  split <;> rfl

theorem takeStopRing_withBoundary (p : Port) (b : List Byte) (s : State) :
    takeStopRing p b (s.withBoundary L P) = (takeStopRing p b s).withBoundary L P := by
  unfold takeStopRing
  split <;> rfl

theorem takeClearRing_withBoundary (p : Port) (b : List Byte) (s : State) :
    takeClearRing p b (s.withBoundary L P) = (takeClearRing p b s).withBoundary L P := by
  unfold takeClearRing
  split <;> rfl

theorem takeSetRingPolicy_withBoundary (p : Port) (b : List Byte) (s : State) :
    takeSetRingPolicy p b (s.withBoundary L P) = (takeSetRingPolicy p b s).withBoundary L P := by
  unfold takeSetRingPolicy
  split
  · cases ringPolicyOf (numAt b 0 1) with
    | none => rfl
    | some pol => dsimp only; split <;> rfl
  · rfl

theorem takeSetSubscription_withBoundary (p : Port) (b : List Byte) (s : State) :
    takeSetSubscription p b (s.withBoundary L P) = (takeSetSubscription p b s).withBoundary L P := by
  unfold takeSetSubscription
  split
  · dsimp only; split <;> rfl
  · rfl

theorem takeTakeRecords_withBoundary (p : Port) (b : List Byte) (s : State) :
    takeTakeRecords p b (s.withBoundary L P) = (takeTakeRecords p b s).withBoundary L P := by
  unfold takeTakeRecords
  split
  · dsimp only; split <;> rfl
  · rfl

theorem takePeekRecords_withBoundary (p : Port) (b : List Byte) (s : State) :
    takePeekRecords p b (s.withBoundary L P) = (takePeekRecords p b s).withBoundary L P := by
  unfold takePeekRecords
  split
  · dsimp only; split <;> rfl
  · rfl

theorem takeReadRingStatus_withBoundary (p : Port) (b : List Byte) (s : State) :
    takeReadRingStatus p b (s.withBoundary L P) = (takeReadRingStatus p b s).withBoundary L P := by
  unfold takeReadRingStatus
  split <;> rfl

theorem takeClaimSequencer_withBoundary (p : Port) (b : List Byte) (s : State) :
    takeClaimSequencer p b (s.withBoundary L P) = (takeClaimSequencer p b s).withBoundary L P := by
  unfold takeClaimSequencer
  simp only [withBoundary_seq, withBoundary_onSeq, withBoundary_postOthers]
  split
  · cases s.seq.claimant with
    | none => rfl
    | some c => dsimp only; split <;> rfl
  · rfl

theorem takeReleaseSequencer_withBoundary (p : Port) (b : List Byte) (s : State) :
    takeReleaseSequencer p b (s.withBoundary L P) = (takeReleaseSequencer p b s).withBoundary L P := by
  unfold takeReleaseSequencer
  simp only [withBoundary_seq, withBoundary_scanning, haltIfScanning_withBoundary, endClaim_withBoundary,
    withBoundary_postOthers]
  split
  · split <;> rfl
  · rfl

theorem takeForceRelease_withBoundary (p : Port) (b : List Byte) (s : State) :
    takeForceRelease p b (s.withBoundary L P) = (takeForceRelease p b s).withBoundary L P := by
  unfold takeForceRelease
  simp only [withBoundary_seq, withBoundary_scanning, haltIfScanning_withBoundary, endClaim_withBoundary,
    withBoundary_post, withBoundary_postAll]
  split
  · cases s.seq.claimant with
    | none => rfl
    | some c => dsimp only; split <;> rfl
  · rfl

theorem takeLoadLines_withBoundary (p : Port) (b : List Byte) (s : State) :
    takeLoadLines p b (s.withBoundary L P) = (takeLoadLines p b s).withBoundary L P := by
  unfold takeLoadLines
  dsimp only
  rw [withBoundary_seq, withBoundary_onSeq, withBoundary_postOthers]
  split
  · split
    · rfl
    · split
      · rfl
      · split
        · rfl
        · cases firstEmptyWindow (entriesAt b (numAt b 0 1)) with
          | some i => rfl
          | none => dsimp only; split <;> rfl
  · rfl

theorem takeClearLines_withBoundary (p : Port) (b : List Byte) (s : State) :
    takeClearLines p b (s.withBoundary L P) = (takeClearLines p b s).withBoundary L P := by
  unfold takeClearLines
  rw [withBoundary_seq, withBoundary_onSeq, withBoundary_postOthers]
  split
  · split
    · rfl
    · split <;> rfl
  · rfl

theorem takeStartScan_withBoundary (p : Port) (b : List Byte) (s : State) :
    takeStartScan p b (s.withBoundary L P) = (takeStartScan p b s).withBoundary L P := by
  unfold takeStartScan
  simp only [withBoundary_seq, checkAndStart_withBoundary]
  split
  · split
    · rfl
    · split
      · rfl
      · cases scanDirOf (numAt b 0 1) with
        | none => rfl
        | some d =>
          cases s.seq.lines[numAt b 1 2]? with
          | none => rfl
          | some e => dsimp only; cases orderFault s.seq.lines <;> rfl
  · rfl

theorem takeStopScan_withBoundary (p : Port) (b : List Byte) (s : State) :
    takeStopScan p b (s.withBoundary L P) = (takeStopScan p b s).withBoundary L P := by
  unfold takeStopScan
  rw [withBoundary_seq, withBoundary_scanning, halt_withBoundary]
  split
  · split
    · rfl
    · split <;> rfl
  · rfl

theorem takeReadSequencer_withBoundary (p : Port) (b : List Byte) (s : State) :
    takeReadSequencer p b (s.withBoundary L P) = (takeReadSequencer p b s).withBoundary L P := by
  unfold takeReadSequencer
  split
  · dsimp only; split <;> rfl
  · rfl

theorem takeAddPoint_withBoundary (p : Port) (b : List Byte) (s : State) :
    takeAddPoint p b (s.withBoundary L P) = (takeAddPoint p b s).withBoundary L P := by
  unfold takeAddPoint
  simp only [withBoundary_roomFor]
  split
  · cases pointAtPayload p b 0 with
    | none => rfl
    | some pt => dsimp only; cases s.roomFor p (flagAt b 2) <;> rfl
  · rfl

theorem takeRemovePoint_withBoundary (p : Port) (b : List Byte) (s : State) :
    takeRemovePoint p b (s.withBoundary L P) = (takeRemovePoint p b s).withBoundary L P := by
  unfold takeRemovePoint
  simp only [withBoundary_pointAt]
  split
  · split
    · rfl
    · cases s.pointAt (numAt b 0 1) with
      | none => rfl
      | some pt => dsimp only; split <;> rfl
  · rfl

theorem takeClearPoints_withBoundary (p : Port) (b : List Byte) (s : State) :
    takeClearPoints p b (s.withBoundary L P) = (takeClearPoints p b s).withBoundary L P := by
  unfold takeClearPoints
  have h : ∀ w, removePoints w (s.withBoundary L P) = (removePoints w s).withBoundary L P := fun _ => rfl
  simp only [withBoundary_points, h, withBoundary_announceChange]
  split
  · split <;> rfl
  · rfl

theorem takeReadPoints_withBoundary (p : Port) (b : List Byte) (s : State) :
    takeReadPoints p b (s.withBoundary L P) = (takeReadPoints p b s).withBoundary L P := by
  unfold takeReadPoints
  split <;> rfl

theorem takeReadNotices_withBoundary (p : Port) (b : List Byte) (s : State) :
    takeReadNotices p b (s.withBoundary L P) = (takeReadNotices p b s).withBoundary L P := by
  unfold takeReadNotices
  split <;> rfl

theorem takeAckNotices_withBoundary (p : Port) (b : List Byte) (s : State) :
    takeAckNotices p b (s.withBoundary L P) = (takeAckNotices p b s).withBoundary L P := by
  unfold takeAckNotices
  split <;> rfl

theorem takeSetNoticeEnable_withBoundary (p : Port) (b : List Byte) (s : State) :
    takeSetNoticeEnable p b (s.withBoundary L P) = (takeSetNoticeEnable p b s).withBoundary L P := by
  unfold takeSetNoticeEnable
  split <;> rfl

theorem takeReadFaultDetail_withBoundary (p : Port) (b : List Byte) (s : State) :
    takeReadFaultDetail p b (s.withBoundary L P) = (takeReadFaultDetail p b s).withBoundary L P := by
  unfold takeReadFaultDetail
  split <;> rfl

theorem takeIdentify_withBoundary (p : Port) (b : List Byte) (s : State) :
    takeIdentify p b (s.withBoundary L P) = (takeIdentify p b s).withBoundary L P := by
  unfold takeIdentify
  split <;> rfl
end

/-- Does a taking commute with every change of the boundary? -/
def IgnoresBoundary (take : Port → List Byte → State → Taken) : Prop :=
  ∀ L P p b s, take p b (s.withBoundary L P) = (take p b s).withBoundary L P

/-- Every taking but PORT RESET's ignores the boundary. -/
theorem takeKind_ignoresBoundary (k : RequestKind) (h : k ≠ .portReset) : IgnoresBoundary (takeKind k) := by
  intro L P p b s
  cases k with
  | readChannel => exact takeReadChannel_withBoundary L P p b s
  | configureChannel => exact takeConfigureChannel_withBoundary L P p b s
  | enableChannel => exact takeEnableChannel_withBoundary L P p b s
  | disableChannel => exact takeDisableChannel_withBoundary L P p b s
  | recoverChannel => exact takeRecoverChannel_withBoundary L P p b s
  | readStillness => exact takeReadStillness_withBoundary L P p b s
  | setCompensation => exact takeSetCompensation_withBoundary L P p b s
  | pinCompensation => exact takePinCompensation_withBoundary L P p b s
  | unpinCompensation => exact takeUnpinCompensation_withBoundary L P p b s
  | readCompensation => exact takeReadCompensation_withBoundary L P p b s
  | setOrigin => exact takeSetOrigin_withBoundary L P p b s
  | clearOrigin => exact takeClearOrigin_withBoundary L P p b s
  | readPosition => exact takeReadPosition_withBoundary L P p b s
  | readCounters => exact takeReadCounters_withBoundary L P p b s
  | configureInput => exact takeConfigureInput_withBoundary L P p b s
  | captureNow => exact takeCaptureNow_withBoundary L P p b s
  | armSettle => exact takeArmSettle_withBoundary L P p b s
  | cancelSettle => exact takeCancelSettle_withBoundary L P p b s
  | readCaptureStatus => exact takeReadCaptureStatus_withBoundary L P p b s
  | startRing => exact takeStartRing_withBoundary L P p b s
  | stopRing => exact takeStopRing_withBoundary L P p b s
  | clearRing => exact takeClearRing_withBoundary L P p b s
  | setRingPolicy => exact takeSetRingPolicy_withBoundary L P p b s
  | setSubscription => exact takeSetSubscription_withBoundary L P p b s
  | takeRecords => exact takeTakeRecords_withBoundary L P p b s
  | peekRecords => exact takePeekRecords_withBoundary L P p b s
  | readRingStatus => exact takeReadRingStatus_withBoundary L P p b s
  | claimSequencer => exact takeClaimSequencer_withBoundary L P p b s
  | releaseSequencer => exact takeReleaseSequencer_withBoundary L P p b s
  | forceRelease => exact takeForceRelease_withBoundary L P p b s
  | loadLines => exact takeLoadLines_withBoundary L P p b s
  | clearLines => exact takeClearLines_withBoundary L P p b s
  | startScan => exact takeStartScan_withBoundary L P p b s
  | stopScan => exact takeStopScan_withBoundary L P p b s
  | readSequencer => exact takeReadSequencer_withBoundary L P p b s
  | addPoint => exact takeAddPoint_withBoundary L P p b s
  | removePoint => exact takeRemovePoint_withBoundary L P p b s
  | clearPoints => exact takeClearPoints_withBoundary L P p b s
  | readPoints => exact takeReadPoints_withBoundary L P p b s
  | readNotices => exact takeReadNotices_withBoundary L P p b s
  | ackNotices => exact takeAckNotices_withBoundary L P p b s
  | setNoticeEnable => exact takeSetNoticeEnable_withBoundary L P p b s
  | readFaultDetail => exact takeReadFaultDetail_withBoundary L P p b s
  | identify => exact takeIdentify_withBoundary L P p b s
  | portReset => exact absurd rfl h

/-! ## The exchange of one request -/

/-- The boundary that the arrival of a request at its IDLE port leaves (R180). -/
theorem onLink_eq_withBoundary (p : Port) (f : Link → Link) (s : State) :
    s.onLink p f = s.withBoundary (s.links.modify p f) s.pending := rfl

/-- The links of a state changed twice at one port. -/
theorem modify_modify (v : PerPort Link) (p : Port) (f g : Link → Link) :
    (v.modify p f).modify p g = v.modify p (fun l => g (f l)) := by cases p <;> rfl

/-- A taking that ignores the boundary leaves the links as they were. -/
theorem taking_keeps_links {take : Port → List Byte → State → Taken} (hi : IgnoresBoundary take) {p : Port}
    {b : List Byte} {s t : State} {reply : Reply} (h : take p b s = .answered reply t) :
    t.links = s.links ∧ t.pending = s.pending := by
  have h1 := hi s.links s.pending p b s
  have h2 : s.withBoundary s.links s.pending = s := rfl
  rw [h2, h] at h1
  simp only [Taken.withBoundary, Taken.answered.injEq, true_and] at h1
  rw [h1]
  exact ⟨rfl, rfl⟩

/-- A request taken at once leaves what its taking leaves, with the reply at its port (R180, R181). -/
theorem requestStep_ready {code : Byte} {take : Port → List Byte → State → Taken} (hi : IgnoresBoundary take)
    {r : Req} {s t : State} {reply : Reply} (hr : Ready r s)
    (h : take r.port r.payload s = .answered reply t) :
    requestStep code take r s = replied r reply.status reply.payload t := by
  obtain ⟨hs, hm, hl⟩ := hr
  obtain ⟨hlinks, hpend⟩ := taking_keeps_links hi h
  have ht : take r.port r.payload (s.onLink r.port (Link.accept ⟨r.tag, code, r.payload⟩)) =
      .answered reply (t.onLink r.port (Link.accept ⟨r.tag, code, r.payload⟩)) := by
    rw [onLink_eq_withBoundary, hi, h, onLink_eq_withBoundary, hlinks, hpend]
    rfl
  unfold requestStep
  rw [hs]
  simp only [hm, hl, if_true, ht, finishTaken, finishRequest, replied]
  rw [onLink_eq_withBoundary, onLink_eq_withBoundary, onLink_eq_withBoundary]
  simp only [withBoundary_links, modify_modify, withBoundary_pending]
  rfl

/-- The state after a request of a kind: what `requestStep_ready` says for each of them but PORT RESET. -/
theorem requestStep_kind {k : RequestKind} (hk : k ≠ .portReset) {r : Req} {s t : State} {reply : Reply}
    (hr : Ready r s) (h : takeKind k r.port r.payload s = .answered reply t) :
    requestStep k.code (takeKind k) r s = replied r reply.status reply.payload t :=
  requestStep_ready (takeKind_ignoresBoundary k hk) hr h

/-- Every code of a request names it (R190). -/
@[simp] theorem RequestKind.ofCode_code (k : RequestKind) : RequestKind.ofCode k.code = some k := by
  cases k <;> decide

end Sys2Proof.Machine
end

