-- ==== Sys2Proof/Laws/Effects.lean ====
section
/-! SUPPORT. Laws/Effects.lean: everything a command can do to the blocks of the part, said once: `Effect` lists it, and
`exec_effect` says that a command does one of these, changes the client ports and the queue alone, or resets the part. -/

namespace Sys2Proof.Machine

/-- What one command can do to the blocks, the boundary apart. -/
inductive Effect (s : State) : State → Prop
  | same : Effect s s
  | badSample (c : Chan) : Effect s (s.onChanTotals c (fun t => { t with crc := t.crc + 1 }))
  | frame (c : Chan) (f : Sample) : Effect s (goodFrame c f s)
  | edge (i : Input) : Effect s (takeEdge i s)
  | holdOff (i : Input) : Effect s (s.onInput i (fun t => { t with holdOffUntil := none }))
  | settled (c : Chan) (h : (s.still.get c).due s.time = true) :
      Effect s (settleEntered c (s.onStill c (StillTimer.expire s.time)))
  | pinExpired (c : Chan) (p : Port) (h : s.pinDue c p = true) : Effect s (expirePin c p s)
  | completion (e : QueueEntry) (rest : List QueueEntry) (since : Time) (he : s.engine = .completing since)
      (hq : s.queue = e :: rest) : Effect s (endCompletion e rest s)
  | emptyCompletion (hq : s.queue = []) : Effect s { s with engine := .idle }
  | syncEnd : Effect s { s with sync := none }
  | configure (c : Chan) (g : ChanConfig) (ch : Bool) (p : Port) (h : (s.chans.get c).state = .disabled) :
      Effect s (announceChange ch p (s.onChan c (fun u => { u with config := g })))
  | enable (c : Chan) (p : Port) (h : (s.chans.get c).state = .disabled) :
      Effect s (announceChange true p (s.onChan c ChannelUnit.enable))
  | disable (c : Chan) (p : Port) (h : (s.chans.get c).state ≠ .disabled) :
      Effect s (announceChange true p (disableChannel c s))
  | recover (c : Chan) (m : RecoveryMode) (p : Port) (h : (s.chans.get c).state = .lost) :
      Effect s (announceChange true p (s.onChan c (ChannelUnit.recover m)))
  | write (p : Port) (m : ChanMask) (w o : BitVec 32) : Effect s (writeComp p (maskChans m) w o s)
  | pin (p : Port) (m : ChanMask) (hold : BitVec 16) :
      Effect s ((maskChans m).foldl (fun t c => t.onComp c (CompEntry.pin p s.time hold)) s)
  | unpin (p : Port) (m : ChanMask) : Effect s (removePins p (s.timedPins p (maskChans m)) s)
  | bind (p : Port) (m : ChanMask) (v : Int) (hm : s.movesFrame p (maskChans m) = false)
      (ht : s.firstNotTracking (maskChans m) = none) : Effect s (bindOrigins p (maskChans m) v s)
  | free (p : Port) (m : ChanMask) (hm : s.movesFrame p (maskChans m) = false) : Effect s (freeOrigins p (maskChans m) s)
  | counters (p : Port) (g : Group) :
      Effect s { s with baselines := s.baselines.modify p (fun b => b.moveGroup s.totals g) }
  | input (i : Input) (en : Bool) (e : Edge) (h : BitVec 16) (ch : Bool) (p : Port) :
      Effect s (announceChange ch p (s.onInput i (TrigInput.configure en e h)))
  | capture (p : Port) : Effect s (hand (.request p) s)
  | arm (p : Port) (m : ChanMask) : Effect s { s with arms := s.arms.set p (some m) }
  | armFires (p : Port) (m : ChanMask) : Effect s (fireArm p m { s with arms := s.arms.set p (some m) })
  | cancelArm (p : Port) : Effect s { s with arms := s.arms.set p none }
  | startRing (p : Port) : Effect s (s.onRing p (fun r => { r with state := .active }))
  | stopRing (p : Port) :
      Effect s (s.onRing p (fun r => { r with state := stoppedState (s.routedEntries p) (s.rings.get p).state }))
  | clearRing (p : Port) : Effect s (s.onRing p (fun r => { r with records := [], drops := 0, overwrites := 0 }))
  | ringPolicy (p : Port) (pol : RingPolicy) (n : Nat) (h : 1 ≤ n ∧ n ≤ 64) :
      Effect s (s.onRing p (fun r => { r with policy := pol, threshold := n }))
  | subscribe (p : Port) (m : BitVec 5) : Effect s { s with subs := s.subs.set p m }
  | takeRecords (p : Port) (n : Nat) : Effect s (s.onRing p (fun r => { r with records := r.records.drop n }))
  | claim (p : Port) (h : s.seq.claimant = none) :
      Effect s (postOthers .configChanged p (s.onSeq (fun q => { q with state := .loading, claimant := some p })))
  | release (p : Port) (h : s.seq.claimant = some p) :
      Effect s (postOthers .configChanged p (endClaim (haltIfScanning .stopped s)))
  | force (c : Port) (h : s.seq.claimant = some c) :
      Effect s (postAll .scanHalted (post .claimLost c (endClaim (haltIfScanning .forced s))))
  | load (p : Port) (es : List LineEntry) (h : s.seq.claimant = some p) (ht : s.seq.state ≠ .tracking)
      (hl : s.seq.lines.length + es.length ≤ 512) :
      Effect s (postOthers .configChanged p
        (s.onSeq (fun q => { q with lines := q.lines ++ es, state := .loading })))
  | clearLines (p : Port) (h : s.seq.claimant = some p) (ht : s.seq.state ≠ .tracking) :
      Effect s (postOthers .configChanged p (s.onSeq (fun q => { q with lines := [], state := .loading })))
  | start (p : Port) (dir : ScanDir) (first : Nat) (strays : Bool) (w : WindowStatus)
      (h : s.seq.claimant = some p) (ht : s.seq.state ≠ .tracking) (hf : first < s.seq.lines.length)
      (hs : FrameStands s p) : Effect s (startScan p dir first strays w s)
  | stop (p : Port) (h : s.seq.claimant = some p) (ht : s.scanning = true) : Effect s (halt .stopped s)
  | addFree (p : Port) (pt : Point) (k : Fin 32) (hp : pt.owner = p) (hn : pt.lastSide = none ∧ pt.rearmDir = none ∧ pt.firings = 0)
      (hk : pt.slot = k) (hr : ∃ b, s.roomFor p b = .free k) : Effect s (addPointTo pt s.points s)
  | addReplacing (p : Port) (pt old : Point) (hp : pt.owner = p) (hn : pt.lastSide = none ∧ pt.rearmDir = none ∧ pt.firings = 0)
      (hk : pt.slot = old.slot) (hr : ∃ b, s.roomFor p b = .replace old) :
      Effect s (addPointTo pt (withoutSlot old.slot s.points) s)
  | removePoint (p : Port) (pt : Point) (h : pt ∈ s.points) :
      Effect s (postOthers .configChanged p { s with points := withoutSlot pt.slot s.points })
  | clearPoints (p : Port) (all : Bool) (ch : Bool) :
      Effect s (announceChange ch p (removePoints (clearedBy p all) s))
  | notices (p : Port) (n : Notices) : Effect s { s with notices := s.notices.set p n }
  | readFault (p : Port) : Effect s { s with latches := s.latches.set p none }
  | resetCaptures (p : Port) : Effect s (resetCaptures p s)
  | resetClaim (p : Port) : Effect s (resetClaim p s)
  | resetPins (p : Port) : Effect s (resetPins p s)
  | resetPoints (p : Port) : Effect s (resetPoints p s)
  | resetContext (p : Port) : Effect s (resetContext p s)
  | peers (p : Port) : Effect s (postOthers .peerReset p s)

/-- What a mask's lower failing channel says when there is none. -/
theorem lowerFailing_none {ok : Chan → Bool} (h : lowerFailing ok = none) (c : Chan) (hc : c.feedsLine = true) :
    ok c = true := by
  unfold lowerFailing at h
  rw [List.find?_eq_none] at h
  cases c <;> first | (exact absurd hc (by decide)) | skip
  · simpa using h .ch0 (by simp)
  · simpa using h .ch1 (by simp)

/-- What START SCAN's checks let through. -/
theorem checkAndStart_effect {p : Port} {dir : ScanDir} {first : Nat} {strays : Bool} {e : LineEntry} {s t : State}
    {reply : Reply} (hc : s.seq.claimant = some p) (ht : s.seq.state ≠ .tracking)
    (he : s.seq.lines[first]? = some e) (h : checkAndStart p dir first strays e s = .answered reply t) :
    Effect s t := by
  unfold checkAndStart at h
  split at h
  · cases h; exact .same
  · rename_i h1
    split at h
    · cases h; exact .same
    · rename_i h2
      split at h
      · cases h; exact .same
      · cases h; exact .same
      · rename_i h3 _
        dsimp only at h
        split at h
        · cases h; exact .same
        · cases h
          refine .start _ _ _ _ _ hc ht ?_ ?_
          · exact (List.getElem?_eq_some_iff.mp he).1
          · intro c hcf
            have a1 := lowerFailing_none h1 c hcf
            have a2 := lowerFailing_none h2 c hcf
            have a3 := lowerFailing_none h3 c hcf
            exact ⟨by simpa using a1, by simpa using a3, by simpa using a2⟩

/-- The point that a payload carries is the requester's, and new. -/
theorem pointAtPayload_new {p : Port} {b : List Byte} {k : Fin 32} {pt : Point} (h : pointAtPayload p b k = some pt) :
    pt.owner = p ∧ pt.lastSide = none ∧ pt.rearmDir = none ∧ pt.firings = 0 := by
  unfold pointAtPayload at h
  repeat' split at h
  all_goals first | (cases h; exact ⟨rfl, rfl, rfl, rfl⟩) | cases h

section
variable {p : Port} {b : List Byte} {s t : State} {reply : Reply}

theorem takeReadChannel_effect (h : takeReadChannel p b s = .answered reply t) : Effect s t := by
  simp only [takeReadChannel, withChannel] at h
  repeat' split at h
  all_goals cases h
  all_goals first
    | exact .same

theorem takeConfigureChannel_effect (h : takeConfigureChannel p b s = .answered reply t) : Effect s t := by
  simp only [takeConfigureChannel, withChannel] at h
  repeat' split at h
  all_goals cases h
  all_goals first
    | exact .same
    | exact .configure _ _ _ _ (by assumption)

theorem takeEnableChannel_effect (h : takeEnableChannel p b s = .answered reply t) : Effect s t := by
  simp only [takeEnableChannel, withChannel] at h
  repeat' split at h
  all_goals cases h
  all_goals first
    | exact .same
    | exact .enable _ _ (by assumption)

theorem takeDisableChannel_effect (h : takeDisableChannel p b s = .answered reply t) : Effect s t := by
  simp only [takeDisableChannel, withChannel] at h
  repeat' split at h
  all_goals cases h
  all_goals first
    | exact .same
    | exact .disable _ _ (by assumption)

theorem takeRecoverChannel_effect (h : takeRecoverChannel p b s = .answered reply t) : Effect s t := by
  simp only [takeRecoverChannel, withChannel] at h
  repeat' split at h
  all_goals cases h
  all_goals first
    | exact .same
    | exact .recover _ _ _ (by assumption)

theorem takeReadStillness_effect (h : takeReadStillness p b s = .answered reply t) : Effect s t := by
  simp only [takeReadStillness, withMask] at h
  repeat' split at h
  all_goals cases h
  all_goals first
    | exact .same

theorem takeSetCompensation_effect (h : takeSetCompensation p b s = .answered reply t) : Effect s t := by
  simp only [takeSetCompensation, withMask] at h
  repeat' split at h
  all_goals cases h
  all_goals first
    | exact .same
    | exact .write _ _ _ _

theorem takePinCompensation_effect (h : takePinCompensation p b s = .answered reply t) : Effect s t := by
  simp only [takePinCompensation, withMask] at h
  repeat' split at h
  all_goals cases h
  all_goals first
    | exact .same
    | exact .pin _ _ _

theorem takeUnpinCompensation_effect (h : takeUnpinCompensation p b s = .answered reply t) : Effect s t := by
  simp only [takeUnpinCompensation, withMask] at h
  repeat' split at h
  all_goals cases h
  all_goals first
    | exact .same
    | exact .unpin _ _

theorem takeReadCompensation_effect (h : takeReadCompensation p b s = .answered reply t) : Effect s t := by
  simp only [takeReadCompensation, withMask] at h
  repeat' split at h
  all_goals cases h
  all_goals first
    | exact .same

theorem takeSetOrigin_effect (h : takeSetOrigin p b s = .answered reply t) : Effect s t := by
  unfold takeSetOrigin withMask at h
  split at h
  · cases hm : chanMaskAt b 0 with
    | none => rw [hm] at h; cases h; exact .same
    | some m =>
      rw [hm] at h
      dsimp only at h
      cases hv : originValue b with
      | none => rw [hv] at h; cases h; exact .same
      | some v =>
        rw [hv] at h
        dsimp only at h
        cases hf : s.movesFrame p (maskChans m) with
        | true => rw [hf] at h; cases h; exact .same
        | false =>
          rw [hf] at h
          cases hn : s.firstNotTracking (maskChans m) with
          | some c => rw [hn] at h; cases h; exact .same
          | none => rw [hn] at h; cases h; exact .bind _ _ _ hf hn
  · cases h; exact .same

theorem takeClearOrigin_effect (h : takeClearOrigin p b s = .answered reply t) : Effect s t := by
  unfold takeClearOrigin withMask at h
  split at h
  · cases hm : chanMaskAt b 0 with
    | none => rw [hm] at h; cases h; exact .same
    | some m =>
      rw [hm] at h
      dsimp only at h
      cases hf : s.movesFrame p (maskChans m) with
      | true => rw [hf] at h; cases h; exact .same
      | false => rw [hf] at h; cases h; exact .free _ _ hf
  · cases h; exact .same

theorem takeReadPosition_effect (h : takeReadPosition p b s = .answered reply t) : Effect s t := by
  simp only [takeReadPosition, withMask] at h
  repeat' split at h
  all_goals cases h
  all_goals first
    | exact .same

theorem takeReadCounters_effect (h : takeReadCounters p b s = .answered reply t) : Effect s t := by
  simp only [takeReadCounters] at h
  repeat' split at h
  all_goals cases h
  all_goals first
    | exact .same
    | exact .counters _ _

theorem takeConfigureInput_effect (h : takeConfigureInput p b s = .answered reply t) : Effect s t := by
  simp only [takeConfigureInput] at h
  repeat' split at h
  all_goals cases h
  all_goals first
    | exact .same
    | exact .input _ _ _ _ _ _

theorem takeCaptureNow_effect (h : takeCaptureNow p b s = .answered reply t) : Effect s t := by
  simp only [takeCaptureNow] at h
  repeat' split at h
  all_goals cases h
  all_goals first
    | exact .same
    | exact .capture _

theorem takeArmSettle_effect (h : takeArmSettle p b s = .answered reply t) : Effect s t := by
  simp only [takeArmSettle, withMask] at h
  repeat' split at h
  all_goals cases h
  all_goals first
    | exact .same
    | exact .armFires _ _
    | exact .arm _ _

theorem takeCancelSettle_effect (h : takeCancelSettle p b s = .answered reply t) : Effect s t := by
  simp only [takeCancelSettle] at h
  repeat' split at h
  all_goals cases h
  all_goals first
    | exact .same
    | exact .cancelArm _

theorem takeReadCaptureStatus_effect (h : takeReadCaptureStatus p b s = .answered reply t) : Effect s t := by
  simp only [takeReadCaptureStatus] at h
  repeat' split at h
  all_goals cases h
  all_goals first
    | exact .same

theorem takeStartRing_effect (h : takeStartRing p b s = .answered reply t) : Effect s t := by
  simp only [takeStartRing] at h
  repeat' split at h
  all_goals cases h
  all_goals first
    | exact .same
    | exact .startRing _

theorem takeStopRing_effect (h : takeStopRing p b s = .answered reply t) : Effect s t := by
  simp only [takeStopRing] at h
  repeat' split at h
  all_goals cases h
  all_goals first
    | exact .same
    | exact .stopRing _

theorem takeClearRing_effect (h : takeClearRing p b s = .answered reply t) : Effect s t := by
  simp only [takeClearRing] at h
  repeat' split at h
  all_goals cases h
  all_goals first
    | exact .same
    | exact .clearRing _

theorem takeSetRingPolicy_effect (h : takeSetRingPolicy p b s = .answered reply t) : Effect s t := by
  simp only [takeSetRingPolicy] at h
  repeat' split at h
  all_goals cases h
  all_goals first
    | exact .same
    | exact .ringPolicy _ _ _ (by assumption)

theorem takeSetSubscription_effect (h : takeSetSubscription p b s = .answered reply t) : Effect s t := by
  simp only [takeSetSubscription] at h
  repeat' split at h
  all_goals cases h
  all_goals first
    | exact .same
    | exact .subscribe _ _

theorem takeTakeRecords_effect (h : takeTakeRecords p b s = .answered reply t) : Effect s t := by
  simp only [takeTakeRecords] at h
  repeat' split at h
  all_goals cases h
  all_goals first
    | exact .same
    | exact .takeRecords _ _

theorem takePeekRecords_effect (h : takePeekRecords p b s = .answered reply t) : Effect s t := by
  simp only [takePeekRecords] at h
  repeat' split at h
  all_goals cases h
  all_goals first
    | exact .same

theorem takeReadRingStatus_effect (h : takeReadRingStatus p b s = .answered reply t) : Effect s t := by
  simp only [takeReadRingStatus] at h
  repeat' split at h
  all_goals cases h
  all_goals first
    | exact .same

theorem takeClaimSequencer_effect (h : takeClaimSequencer p b s = .answered reply t) : Effect s t := by
  simp only [takeClaimSequencer] at h
  repeat' split at h
  all_goals cases h
  all_goals first
    | exact .same
    | exact .claim _ (by assumption)

theorem takeReleaseSequencer_effect (h : takeReleaseSequencer p b s = .answered reply t) : Effect s t := by
  simp only [takeReleaseSequencer] at h
  repeat' split at h
  all_goals cases h
  all_goals first
    | exact .same
    | exact .release _ (by assumption)

theorem takeForceRelease_effect (h : takeForceRelease p b s = .answered reply t) : Effect s t := by
  simp only [takeForceRelease] at h
  repeat' split at h
  all_goals cases h
  all_goals first
    | exact .same
    | exact .force _ (by assumption)

theorem takeLoadLines_effect (h : takeLoadLines p b s = .answered reply t) : Effect s t := by
  unfold takeLoadLines at h
  simp only at h
  repeat' split at h
  all_goals cases h
  all_goals first
    | exact .same
    | exact .load _ _ (by simp_all) (by assumption) (by simp [entriesAt, Config.lineRoom] at *; omega)

theorem takeClearLines_effect (h : takeClearLines p b s = .answered reply t) : Effect s t := by
  simp only [takeClearLines] at h
  repeat' split at h
  all_goals cases h
  all_goals first
    | exact .same
    | exact .clearLines _ (by simp_all) (by assumption)

theorem takeStartScan_effect (h : takeStartScan p b s = .answered reply t) : Effect s t := by
  unfold takeStartScan at h
  simp only at h
  repeat' split at h
  all_goals first
    | (cases h; exact .same)
    | exact checkAndStart_effect (by simp_all) (by assumption) (by assumption) h

theorem takeStopScan_effect (h : takeStopScan p b s = .answered reply t) : Effect s t := by
  simp only [takeStopScan] at h
  repeat' split at h
  all_goals cases h
  all_goals first
    | exact .same
    | exact .stop p (by simp_all) (by assumption)

theorem takeReadSequencer_effect (h : takeReadSequencer p b s = .answered reply t) : Effect s t := by
  simp only [takeReadSequencer] at h
  repeat' split at h
  all_goals cases h
  all_goals first
    | exact .same

theorem takeAddPoint_effect (h : takeAddPoint p b s = .answered reply t) : Effect s t := by
  unfold takeAddPoint at h
  split at h
  · cases hp : pointAtPayload p b 0 with
    | none => rw [hp] at h; cases h; exact .same
    | some pt =>
      rw [hp] at h
      have hn := pointAtPayload_new hp
      cases hr : s.roomFor p (flagAt b 2) with
      | refused st => simp only [hr] at h; cases h; exact .same
      | free k => simp only [hr] at h; cases h; exact .addFree p { pt with slot := k } k hn.1 hn.2 rfl ⟨_, hr⟩
      | replace old =>
        simp only [hr] at h; cases h
        exact .addReplacing p { pt with slot := old.slot } old hn.1 hn.2 rfl ⟨_, hr⟩
  · cases h; exact .same

theorem takeRemovePoint_effect (h : takeRemovePoint p b s = .answered reply t) : Effect s t := by
  simp only [takeRemovePoint] at h
  repeat' split at h
  all_goals cases h
  all_goals first
    | exact .same
    | exact .removePoint _ _ (List.mem_of_find?_eq_some (by assumption))

theorem takeClearPoints_effect (h : takeClearPoints p b s = .answered reply t) : Effect s t := by
  simp only [takeClearPoints] at h
  repeat' split at h
  all_goals cases h
  all_goals first
    | exact .same
    | exact .clearPoints _ _ _

theorem takeReadPoints_effect (h : takeReadPoints p b s = .answered reply t) : Effect s t := by
  simp only [takeReadPoints] at h
  repeat' split at h
  all_goals cases h
  all_goals first
    | exact .same

theorem takeReadNotices_effect (h : takeReadNotices p b s = .answered reply t) : Effect s t := by
  simp only [takeReadNotices] at h
  repeat' split at h
  all_goals cases h
  all_goals first
    | exact .same

theorem takeAckNotices_effect (h : takeAckNotices p b s = .answered reply t) : Effect s t := by
  simp only [takeAckNotices] at h
  repeat' split at h
  all_goals cases h
  all_goals first
    | exact .same
    | exact .notices _ _

theorem takeSetNoticeEnable_effect (h : takeSetNoticeEnable p b s = .answered reply t) : Effect s t := by
  simp only [takeSetNoticeEnable] at h
  repeat' split at h
  all_goals cases h
  all_goals first
    | exact .same
    | exact .notices _ _

theorem takeReadFaultDetail_effect (h : takeReadFaultDetail p b s = .answered reply t) : Effect s t := by
  simp only [takeReadFaultDetail] at h
  repeat' split at h
  all_goals cases h
  all_goals first
    | exact .same
    | exact .readFault _

theorem takeIdentify_effect (h : takeIdentify p b s = .answered reply t) : Effect s t := by
  simp only [takeIdentify] at h
  repeat' split at h
  all_goals cases h
  all_goals first
    | exact .same

end

/-- What a taking that answers has done. -/
theorem takeKind_effect {k : RequestKind} {p : Port} {b : List Byte} {s t : State} {reply : Reply}
    (h : takeKind k p b s = .answered reply t) : Effect s t := by
  cases k with
  | readChannel => exact takeReadChannel_effect (p := p) h
  | configureChannel => exact takeConfigureChannel_effect (p := p) h
  | enableChannel => exact takeEnableChannel_effect (p := p) h
  | disableChannel => exact takeDisableChannel_effect (p := p) h
  | recoverChannel => exact takeRecoverChannel_effect (p := p) h
  | readStillness => exact takeReadStillness_effect (p := p) h
  | setCompensation => exact takeSetCompensation_effect (p := p) h
  | pinCompensation => exact takePinCompensation_effect (p := p) h
  | unpinCompensation => exact takeUnpinCompensation_effect (p := p) h
  | readCompensation => exact takeReadCompensation_effect (p := p) h
  | setOrigin => exact takeSetOrigin_effect (p := p) h
  | clearOrigin => exact takeClearOrigin_effect (p := p) h
  | readPosition => exact takeReadPosition_effect (p := p) h
  | readCounters => exact takeReadCounters_effect (p := p) h
  | configureInput => exact takeConfigureInput_effect (p := p) h
  | captureNow => exact takeCaptureNow_effect (p := p) h
  | armSettle => exact takeArmSettle_effect (p := p) h
  | cancelSettle => exact takeCancelSettle_effect (p := p) h
  | readCaptureStatus => exact takeReadCaptureStatus_effect (p := p) h
  | startRing => exact takeStartRing_effect (p := p) h
  | stopRing => exact takeStopRing_effect (p := p) h
  | clearRing => exact takeClearRing_effect (p := p) h
  | setRingPolicy => exact takeSetRingPolicy_effect (p := p) h
  | setSubscription => exact takeSetSubscription_effect (p := p) h
  | takeRecords => exact takeTakeRecords_effect (p := p) h
  | peekRecords => exact takePeekRecords_effect (p := p) h
  | readRingStatus => exact takeReadRingStatus_effect (p := p) h
  | claimSequencer => exact takeClaimSequencer_effect (p := p) h
  | releaseSequencer => exact takeReleaseSequencer_effect (p := p) h
  | forceRelease => exact takeForceRelease_effect (p := p) h
  | loadLines => exact takeLoadLines_effect (p := p) h
  | clearLines => exact takeClearLines_effect (p := p) h
  | startScan => exact takeStartScan_effect (p := p) h
  | stopScan => exact takeStopScan_effect (p := p) h
  | readSequencer => exact takeReadSequencer_effect (p := p) h
  | addPoint => exact takeAddPoint_effect (p := p) h
  | removePoint => exact takeRemovePoint_effect (p := p) h
  | clearPoints => exact takeClearPoints_effect (p := p) h
  | readPoints => exact takeReadPoints_effect (p := p) h
  | readNotices => exact takeReadNotices_effect (p := p) h
  | ackNotices => exact takeAckNotices_effect (p := p) h
  | setNoticeEnable => exact takeSetNoticeEnable_effect (p := p) h
  | readFaultDetail => exact takeReadFaultDetail_effect (p := p) h
  | identify => exact takeIdentify_effect (p := p) h
  | portReset =>
    simp only [takeKind, takePortReset] at h
    split at h <;> cases h
    exact .same

/-- What a taking that goes on has done: step 1 of a port reset. -/
theorem takeKind_goesOn {k : RequestKind} {p : Port} {b : List Byte} {s t : State} (h : takeKind k p b s = .goesOn t) :
    t = setProgress p (firstProgress s p) (resetCaptures p s) := by
  cases k with
  | portReset =>
    simp only [takeKind, takePortReset] at h
    split at h <;> cases h
    rfl
  | startScan =>
    simp only [takeKind, takeStartScan] at h
    repeat' split at h
    all_goals first
      | cases h
      | (unfold checkAndStart at h
         repeat' split at h
         all_goals first
           | cases h
           | (dsimp only at h; split at h <;> cases h))
  | _ =>
    simp only [takeKind, withChannel, withMask,
      takeReadChannel, takeConfigureChannel, takeEnableChannel, takeDisableChannel, takeRecoverChannel,
      takeReadStillness, takeSetCompensation, takePinCompensation, takeUnpinCompensation, takeReadCompensation,
      takeSetOrigin, takeClearOrigin, takeReadPosition, takeReadCounters, takeConfigureInput, takeCaptureNow,
      takeArmSettle, takeCancelSettle, takeReadCaptureStatus, takeStartRing, takeStopRing, takeClearRing,
      takeSetRingPolicy, takeSetSubscription, takeTakeRecords, takePeekRecords, takeReadRingStatus,
      takeClaimSequencer, takeReleaseSequencer, takeForceRelease, takeLoadLines, takeClearLines, takeStopScan,
      takeReadSequencer, takeAddPoint, takeRemovePoint, takeClearPoints, takeReadPoints, takeReadNotices,
      takeAckNotices, takeSetNoticeEnable, takeReadFaultDetail, takeIdentify] at h
    repeat' split at h
    all_goals cases h

/-! ## Every command -/

/-- A command has had an effect on the blocks, and whatever it had on the client ports; the queue stays. -/
def Acts (s t : State) : Prop :=
  ∃ L u L', Effect (s.withBoundary L s.pending) u ∧ t = u.withBoundary L' s.pending

/-- An operation that ignores the boundary leaves the client ports and the queue. -/
theorem boundary_kept {f : State → State} (h : ∀ L P s, f (s.withBoundary L P) = (f s).withBoundary L P) (s : State) :
    (f s).links = s.links ∧ (f s).pending = s.pending := by
  have h1 := h s.links s.pending s
  rw [show s.withBoundary s.links s.pending = s from rfl] at h1
  rw [h1]; exact ⟨rfl, rfl⟩

/-- A state whose blocks have had an effect and whose queue stands. -/
theorem Effect.acts {s t : State} (h : Effect s t) (hp : t.pending = s.pending) : Acts s t :=
  ⟨s.links, t, t.links, h, by rw [← hp]; rfl⟩

/-- An operation that is an effect and ignores the boundary. -/
theorem acts_of {f : State → State} (hb : ∀ L P s, f (s.withBoundary L P) = (f s).withBoundary L P) {s : State}
    (h : Effect s (f s)) : Acts s (f s) := h.acts (boundary_kept hb s).2

/-- A change of the client ports alone. -/
theorem acts_links (s : State) (L : PerPort Link) : Acts s { s with links := L } := ⟨s.links, s, L, .same, rfl⟩

/-- The taking of a request by its kind. -/
theorem acts_takeKind (k : RequestKind) (p : Port) (tag : Byte) (b : List Byte) (s : State) (L : PerPort Link) :
    Acts s (finishTaken p tag (takeKind k p b (s.withBoundary L s.pending))) := by
  cases h : takeKind k p b (s.withBoundary L s.pending) with
  | answered reply t =>
    have hp : t.pending = s.pending := by
      by_cases hk : k = .portReset
      · subst hk
        simp only [takeKind, takePortReset] at h
        split at h <;> cases h
        rfl
      · exact (taking_keeps_links (takeKind_ignoresBoundary k hk) h).2
    refine ⟨L, t, (t.links.modify p (Link.finish tag reply)), takeKind_effect h, ?_⟩
    rw [← hp]; rfl
  | goesOn t =>
    refine ⟨L, resetCaptures p (s.withBoundary L s.pending), t.links, .resetCaptures p, ?_⟩
    rw [takeKind_goesOn h]; rfl

/-- The taking of a request by its code. -/
theorem acts_takeCode (code : Byte) (p : Port) (tag : Byte) (b : List Byte) (s : State) (L : PerPort Link) :
    Acts s (finishTaken p tag (takeCode code p b (s.withBoundary L s.pending))) := by
  unfold takeCode
  cases RequestKind.ofCode code with
  | some k => exact acts_takeKind k p tag b s L
  | none => exact ⟨L, s.withBoundary L s.pending, L.modify p (Link.finish tag ⟨.badRequest, []⟩), .same, rfl⟩

/-- A request at its port. -/
theorem acts_requestStep (code : Byte) (take : Port → List Byte → State → Taken) (r : Req) (s : State)
    (h : ∀ L, Acts s (finishTaken r.port r.tag (take r.port r.payload (s.withBoundary L s.pending)))) :
    Acts s (requestStep code take r s) := by
  have same : Acts s s := Effect.same.acts rfl
  unfold requestStep
  dsimp only
  split
  · split
    · exact h s.links
    · exact same
  · split
    · split
      · exact acts_links s _
      · split
        · exact h _
        · exact acts_links s _
      · exact acts_links s _
    · exact same

/-- A step of a port reset. -/
theorem acts_atResetStep (p : Port) (step : ResetStep) (g : ResetProgress → State → ResetProgress)
    (f : State → State) (s : State) (hb : ∀ L P s, f (s.withBoundary L P) = (f s).withBoundary L P)
    (h : Effect s (f s)) : Acts s (atResetStep p step (fun x t => setProgress p (g x t) (f t)) s) := by
  have same : Acts s s := Effect.same.acts rfl
  unfold atResetStep
  split
  · split
    · exact ⟨s.links, f s, _, h, by rw [← (boundary_kept hb s).2]; rfl⟩
    · exact same
  · exact same

/-- Every command answers a next state: its effect on the blocks and what it does at the client ports, or a device
reset. The queue stays. -/
theorem exec_acts (i : Instr) (s : State) :
    ∃ t, exec i s = .next t ∧ (Acts s t ∨ t = { State.reset with turn := s.turn, pending := s.pending }) := by
  have same : Acts s s := Effect.same.acts rfl
  have req : ∀ (k : RequestKind) (r : Req), ∃ t, performed (requestStep k.code (takeKind k) r s) = .next t ∧
      (Acts s t ∨ t = { State.reset with turn := s.turn, pending := s.pending }) :=
    fun k r => ⟨_, rfl, .inl (acts_requestStep _ _ r s (acts_takeKind k r.port r.tag r.payload s))⟩
  have cod : ∀ (c : Byte) (r : Req), Acts s (requestStep c (takeCode c) r s) :=
    fun c r => acts_requestStep _ _ r s (acts_takeCode c r.port r.tag r.payload s)
  cases i with
  | sampleFrame c bytes =>
    refine ⟨_, rfl, .inl ?_⟩
    cases h : sampleOf bytes with
    | none => exact (Effect.badSample c).acts rfl
    | some f => exact acts_of (fun L P => goodFrame_withBoundary L P c f) (.frame c f)
  | edge j e =>
    refine ⟨_, rfl, .inl ?_⟩
    cases h : (s.inputs.get j).sees e
    · simpa using same
    · simpa using acts_of (fun L P => takeEdge_withBoundary L P j) (.edge j)
  | holdOffExpiry j =>
    refine ⟨_, rfl, .inl ?_⟩
    split
    · exact (Effect.holdOff j).acts rfl
    · exact same
  | stillnessExpiry c =>
    refine ⟨_, rfl, .inl ?_⟩
    split
    · rename_i h
      exact (Effect.settled c h).acts (boundary_kept (fun L P => settleEntered_withBoundary L P c) _).2
    · exact same
  | pinHoldExpiry c p =>
    refine ⟨_, rfl, .inl ?_⟩
    split
    · rename_i h
      exact (Effect.pinExpired c p h).acts (boundary_kept (fun L P => expirePin_withBoundary L P c p) _).2
    · exact same
  | completionEnd =>
    refine ⟨_, rfl, .inl ?_⟩
    split
    · rename_i he hq
      exact (Effect.completion _ _ _ he hq).acts (boundary_kept (fun L P => endCompletion_withBoundary L P _ _) _).2
    · rename_i he hq
      exact (Effect.emptyCompletion hq).acts rfl
    · exact same
  | syncPulseEnd =>
    refine ⟨_, rfl, .inl ?_⟩
    split
    · exact Effect.syncEnd.acts rfl
    · exact same
  | deviceReset => exact ⟨_, rfl, .inr rfl⟩
  | endOfStartUp => exact ⟨_, rfl, .inl (acts_links s _)⟩
  | badFrame p bytes =>
    refine ⟨_, rfl, .inl ?_⟩
    cases requestOf bytes with
    | none =>
      simp only [badRequestFrame]
      split
      · exact acts_links s _
      · exact same
    | some q => exact cod _ _
  | badRequest code r => exact ⟨_, rfl, .inl (cod _ _)⟩
  | responseReadOut p => exact ⟨_, rfl, .inl (acts_links s _)⟩
  | portResetSequencerStep p =>
    exact ⟨_, rfl, .inl (acts_atResetStep p _ _ _ s (fun L P => resetClaim_withBoundary L P p) (.resetClaim p))⟩
  | portResetCompensationStep p =>
    exact ⟨_, rfl, .inl (acts_atResetStep p _ _ _ s (fun L P => resetPins_withBoundary L P p) (.resetPins p))⟩
  | portResetCompareStep p =>
    exact ⟨_, rfl, .inl (acts_atResetStep p _ _ _ s (fun _ _ _ => rfl) (.resetPoints p))⟩
  | portResetContextStep p =>
    exact ⟨_, rfl, .inl (acts_atResetStep p _ _ _ s (fun L P => resetContext_withBoundary L P p) (.resetContext p))⟩
  | peerReset p =>
    refine ⟨_, rfl, .inl ?_⟩
    unfold atResetStep
    split
    · split
      · exact ⟨s.links, postOthers .peerReset p s, _, .peers p, rfl⟩
      · exact same
    · exact same
  | busyAnswer p tag code payload => exact ⟨_, rfl, .inl (cod _ _)⟩
  | startingAnswer p tag code payload => exact ⟨_, rfl, .inl (cod _ _)⟩
  | readChannel r => exact req .readChannel r
  | configureChannel r => exact req .configureChannel r
  | enableChannel r => exact req .enableChannel r
  | disableChannel r => exact req .disableChannel r
  | recoverChannel r => exact req .recoverChannel r
  | readStillness r => exact req .readStillness r
  | setCompensation r => exact req .setCompensation r
  | pinCompensation r => exact req .pinCompensation r
  | unpinCompensation r => exact req .unpinCompensation r
  | readCompensation r => exact req .readCompensation r
  | setOrigin r => exact req .setOrigin r
  | clearOrigin r => exact req .clearOrigin r
  | readPosition r => exact req .readPosition r
  | readCounters r => exact req .readCounters r
  | configureInput r => exact req .configureInput r
  | captureNow r => exact req .captureNow r
  | armSettle r => exact req .armSettle r
  | cancelSettle r => exact req .cancelSettle r
  | readCaptureStatus r => exact req .readCaptureStatus r
  | startRing r => exact req .startRing r
  | stopRing r => exact req .stopRing r
  | clearRing r => exact req .clearRing r
  | setRingPolicy r => exact req .setRingPolicy r
  | setSubscription r => exact req .setSubscription r
  | takeRecords r => exact req .takeRecords r
  | peekRecords r => exact req .peekRecords r
  | readRingStatus r => exact req .readRingStatus r
  | claimSequencer r => exact req .claimSequencer r
  | releaseSequencer r => exact req .releaseSequencer r
  | forceRelease r => exact req .forceRelease r
  | loadLines r => exact req .loadLines r
  | clearLines r => exact req .clearLines r
  | startScan r => exact req .startScan r
  | stopScan r => exact req .stopScan r
  | readSequencer r => exact req .readSequencer r
  | addPoint r => exact req .addPoint r
  | removePoint r => exact req .removePoint r
  | clearPoints r => exact req .clearPoints r
  | readPoints r => exact req .readPoints r
  | readNotices r => exact req .readNotices r
  | ackNotices r => exact req .ackNotices r
  | setNoticeEnable r => exact req .setNoticeEnable r
  | readFaultDetail r => exact req .readFaultDetail r
  | identify r => exact req .identify r
  | portReset r => exact req .portReset r

/-- How a property of the blocks is kept by every step: it does not look at the client ports or the queue, every effect
and the tick keep it, and it holds right after a device reset. -/
theorem step_keeps {I : State → Prop} (hb : ∀ s L P, I s → I (s.withBoundary L P))
    (he : ∀ s t, Effect s t → I s → I t) (ht : ∀ s, I s → I (tick s)) (hr : I State.reset)
    (hn : ∀ s n, I s → I { s with turn := n }) {s t : State} (hs : I s) (h : step s = .next t) : I t := by
  unfold step at h
  split at h
  · rename_i c rest _
    obtain ⟨u, hu, hk⟩ := exec_acts c { s with pending := rest }
    rw [hu] at h
    cases h
    rcases hk with ⟨L, v, L', hv, rfl⟩ | rfl
    · exact hb _ _ _ (he _ _ hv (hb _ _ _ (hb s s.links rest hs)))
    · exact hb { State.reset with turn := s.turn } State.reset.links rest (hn _ _ hr)
  · cases h
    unfold idleStep
    split
    · exact ht s hs
    · exact hb s s.links _ hs

end Sys2Proof.Machine
end

