-- ==== Sys2Proof/Laws/Scene.lean ====
section
/-! SUPPORT. Laws/Scene.lean: what the shared operations leave alone. `SceneKept` lists the blocks that no trigger, halt,
window evaluation or point evaluation touches; `Hands` says that the trigger queue moves only by handing triggers. -/

namespace Sys2Proof.Machine

/-- The blocks that the capture engine, the sequencer and the compare table only read. -/
structure SceneKept (s t : State) : Prop where
  time : t.time = s.time
  chans : t.chans = s.chans
  still : t.still = s.still
  origins : t.origins = s.origins
  baselines : t.baselines = s.baselines
  inputs : t.inputs = s.inputs
  rings : t.rings = s.rings
  subs : t.subs = s.subs
  latches : t.latches = s.latches
  chanTotals : t.totals.chans = s.totals.chans
  inputTotals : t.totals.inputs = s.totals.inputs

theorem SceneKept.refl (s : State) : SceneKept s s := ⟨rfl, rfl, rfl, rfl, rfl, rfl, rfl, rfl, rfl, rfl, rfl⟩

theorem SceneKept.trans {s t u : State} (h : SceneKept s t) (k : SceneKept t u) : SceneKept s u :=
  ⟨k.time.trans h.time, k.chans.trans h.chans, k.still.trans h.still, k.origins.trans h.origins,
   k.baselines.trans h.baselines, k.inputs.trans h.inputs, k.rings.trans h.rings, k.subs.trans h.subs,
   k.latches.trans h.latches, k.chanTotals.trans h.chanTotals, k.inputTotals.trans h.inputTotals⟩

/-- A fold of steps that keep the scene keeps it. -/
theorem SceneKept.foldl {α : Type} (f : State → α → State) (h : ∀ s a, SceneKept s (f s a)) (l : List α) :
    ∀ s, SceneKept s (l.foldl f s) := by
  induction l with
  | nil => exact SceneKept.refl
  | cons a l ih => intro s; exact (h s a).trans (ih _)

/-- The trigger queue as a whole: its entries, the next number, the engine state and the capture totals. -/
structure QueueKept (s t : State) : Prop where
  queue : t.queue = s.queue
  nextNumber : t.nextNumber = s.nextNumber
  engine : t.engine = s.engine
  totals : t.totals.capture = s.totals.capture

/-- The trigger queue moves only by handing triggers to the capture engine. -/
inductive Hands : State → State → Prop
  | kept {s t : State} (h : QueueKept s t) (hr : t.rings = s.rings) : Hands s t
  | hand (src : Source) (s : State) : Hands s (Machine.hand src s)
  | trans {s t u : State} (h : Hands s t) (k : Hands t u) : Hands s u

theorem Hands.same {s t : State} (hq : t.queue = s.queue) (hn : t.nextNumber = s.nextNumber)
    (he : t.engine = s.engine) (ht : t.totals.capture = s.totals.capture) (hr : t.rings = s.rings) : Hands s t :=
  .kept ⟨hq, hn, he, ht⟩ hr

theorem Hands.refl (s : State) : Hands s s := .same rfl rfl rfl rfl rfl

theorem Hands.foldl {α : Type} (f : State → α → State) (h : ∀ s a, Hands s (f s a)) (l : List α) :
    ∀ s, Hands s (l.foldl f s) := by
  induction l with
  | nil => exact Hands.refl
  | cons a l ih => intro s; exact (h s a).trans (ih _)

/-! ## Handing a trigger -/

theorem hand_scene (src : Source) (s : State) : SceneKept s (hand src s) := by
  unfold hand
  cases outcomeOf src s with
  | overrun => cases src <;> constructor <;> rfl
  | _ => constructor <;> rfl

@[simp] theorem hand_comp (src : Source) (s : State) : (hand src s).comp = s.comp := by
  unfold hand; cases outcomeOf src s <;> cases src <;> rfl
@[simp] theorem hand_points (src : Source) (s : State) : (hand src s).points = s.points := by
  unfold hand; cases outcomeOf src s <;> cases src <;> rfl
@[simp] theorem hand_sync (src : Source) (s : State) : (hand src s).sync = s.sync := by
  unfold hand; cases outcomeOf src s <;> cases src <;> rfl
@[simp] theorem hand_arms (src : Source) (s : State) : (hand src s).arms = s.arms := by
  unfold hand; cases outcomeOf src s <;> cases src <;> rfl
@[simp] theorem hand_turn (src : Source) (s : State) : (hand src s).turn = s.turn := by
  unfold hand; cases outcomeOf src s <;> cases src <;> rfl

/-- At the sequencer a handed trigger changes at most the lost count (R143). -/
theorem hand_seq (src : Source) (s : State) : ∃ n, (hand src s).seq = { s.seq with lost := n } := by
  unfold hand
  cases outcomeOf src s with
  | overrun => cases src <;> first | exact ⟨s.seq.lost, rfl⟩ | exact ⟨satInc 65535 s.seq.lost, rfl⟩
  | _ => exact ⟨s.seq.lost, rfl⟩

/-- A trigger of another source than the sequencer leaves the sequencer. -/
theorem hand_seq_other {src : Source} (h : src.isSequence = false) (s : State) : (hand src s).seq = s.seq := by
  unfold hand
  cases outcomeOf src s with
  | overrun => cases src <;> first | rfl | cases h
  | _ => rfl

/-! ## The compensation store -/

/-- What the acts of the compensation store touch: the entries, the points and the notices. -/
structure StoreOnly (s t : State) : Prop where
  scene : SceneKept s t
  hands : Hands s t
  seq : t.seq = s.seq
  sync : t.sync = s.sync
  arms : t.arms = s.arms
  turn : t.turn = s.turn

theorem StoreOnly.refl (s : State) : StoreOnly s s := ⟨.refl s, .refl s, rfl, rfl, rfl, rfl⟩

theorem StoreOnly.trans {s t u : State} (h : StoreOnly s t) (k : StoreOnly t u) : StoreOnly s u :=
  ⟨h.scene.trans k.scene, h.hands.trans k.hands, k.seq.trans h.seq, k.sync.trans h.sync, k.arms.trans h.arms,
   k.turn.trans h.turn⟩

theorem onComp_storeOnly (c : Chan) (f : CompEntry → CompEntry) (s : State) : StoreOnly s (s.onComp c f) :=
  ⟨by constructor <;> rfl, .same rfl rfl rfl rfl rfl, rfl, rfl, rfl, rfl⟩

theorem onComps_storeOnly (f : Chan → CompEntry → CompEntry) (cs : List Chan) :
    ∀ s, StoreOnly s (cs.foldl (fun t c => t.onComp c (f c)) s) := by
  induction cs with
  | nil => exact StoreOnly.refl
  | cons c cs ih => intro s; exact (onComp_storeOnly c (f c) s).trans (ih _)

theorem announceApplied_storeOnly (cs : List Chan) (s : State) : StoreOnly s (announceApplied cs s) := by
  unfold announceApplied
  split
  · exact .refl s
  · dsimp only
    split <;> exact ⟨by constructor <;> rfl, .same rfl rfl rfl rfl rfl, rfl, rfl, rfl, rfl⟩

@[simp] theorem announceApplied_comp (cs : List Chan) (s : State) : (announceApplied cs s).comp = s.comp := by
  unfold announceApplied; split
  · rfl
  · dsimp only; split <;> rfl

theorem applyDueSlots_storeOnly (cs : List Chan) (s : State) : StoreOnly s (applyDueSlots cs s) :=
  (onComps_storeOnly (fun _ => CompEntry.applySlot) _ s).trans (announceApplied_storeOnly _ _)

theorem removePins_storeOnly (p : Port) (cs : List Chan) (s : State) : StoreOnly s (removePins p cs s) :=
  (onComps_storeOnly (fun _ => CompEntry.setPin p .none) _ s).trans (applyDueSlots_storeOnly _ _)

theorem writeComp_storeOnly (p : Port) (cs : List Chan) (w o : BitVec 32) (s : State) :
    StoreOnly s (writeComp p cs w o s) := by
  refine ((onComps_storeOnly (fun _ => CompEntry.write p w o) cs s).trans ?_).trans (announceApplied_storeOnly _ _)
  exact ⟨by constructor <;> rfl, .same rfl rfl rfl rfl rfl, rfl, rfl, rfl, rfl⟩

theorem expirePin_storeOnly (c : Chan) (p : Port) (s : State) : StoreOnly s (expirePin c p s) :=
  StoreOnly.trans (t := post .pinExpired p (s.onComp c (CompEntry.setPin p .none)))
    ⟨by constructor <;> rfl, .same rfl rfl rfl rfl rfl, rfl, rfl, rfl, rfl⟩ (applyDueSlots_storeOnly _ _)

/-! ## The line sequencer -/

theorem halt_scene (cause : HaltCause) (s : State) : SceneKept s (halt cause s) := by
  unfold halt
  cases s.seq.claimant with
  | none => exact .refl s
  | some p =>
    have h := (removePins_storeOnly p [.ch0, .ch1] s).scene.trans
      (hand_scene (haltSource cause p (removePins p [.ch0, .ch1] s).seq) _)
    dsimp only
    generalize hand _ _ = u at h ⊢
    split <;> exact h.trans (by constructor <;> rfl)

theorem halt_hands (cause : HaltCause) (s : State) : Hands s (halt cause s) := by
  unfold halt
  cases s.seq.claimant with
  | none => exact .refl s
  | some p =>
    have h := (removePins_storeOnly p [.ch0, .ch1] s).hands.trans
      (.hand (haltSource cause p (removePins p [.ch0, .ch1] s).seq) _)
    dsimp only
    generalize Machine.hand _ _ = u at h ⊢
    split <;> exact h.trans (.same rfl rfl rfl rfl rfl)

/-- A halt stores its cause and leaves the scan HALTED; of the counts only the lost one may still move (R144). -/
theorem halt_seq {cause : HaltCause} {s : State} {p : Port} (h : s.seq.claimant = some p) :
    ∃ n, (halt cause s).seq = { s.seq with state := .halted, cause := cause, lost := n } := by
  obtain ⟨n, hn⟩ := hand_seq (haltSource cause p (removePins p [.ch0, .ch1] s).seq) (removePins p [.ch0, .ch1] s)
  rw [(removePins_storeOnly p [.ch0, .ch1] s).seq] at hn
  refine ⟨n, ?_⟩
  unfold halt
  rw [h]
  dsimp only
  split <;> simp only [onSeqTotals_seq, onSeq_seq, postWhere_seq] <;>
    rw [(removePins_storeOnly p [.ch0, .ch1] s).seq, hn]

/-- What a halt does to the compensation entries: the claimant's pins on CH0 and CH1 go. -/
theorem halt_comp {cause : HaltCause} {s : State} {p : Port} (h : s.seq.claimant = some p) :
    (halt cause s).comp = (removePins p [.ch0, .ch1] s).comp := by
  unfold halt
  rw [h]
  dsimp only
  split <;> simp

theorem halt_points {cause : HaltCause} {s : State} {p : Port} (h : s.seq.claimant = some p) :
    (halt cause s).points = (removePins p [.ch0, .ch1] s).points := by
  unfold halt
  rw [h]
  dsimp only
  split <;> simp

theorem passEntry_scene (p : Port) (e : EntryRef) (s : State) : SceneKept s (passEntry p e s) := by
  unfold passEntry
  split
  · exact SceneKept.trans (t := (s.onSeq _).onSeqTotals _) (by constructor <;> rfl) (hand_scene _ _)
  · exact .refl s

theorem passEntry_hands (p : Port) (e : EntryRef) (s : State) : Hands s (passEntry p e s) := by
  unfold passEntry
  split
  · exact Hands.trans (t := (s.onSeq _).onSeqTotals _) (.same rfl rfl rfl rfl rfl) (.hand _ _)
  · exact .refl s

@[simp] theorem passEntry_comp (p : Port) (e : EntryRef) (s : State) : (passEntry p e s).comp = s.comp := by
  unfold passEntry missedDecision; split <;> simp
@[simp] theorem passEntry_points (p : Port) (e : EntryRef) (s : State) : (passEntry p e s).points = s.points := by
  unfold passEntry missedDecision; split <;> simp

/-- A passed entry counts as missed unless it has taken a pulse (R136). -/
theorem passEntry_seq (p : Port) (e : EntryRef) (s : State) :
    ∃ n, (passEntry p e s).seq =
      { s.seq with missed := if s.seq.pulses = 0 then s.seq.missed + 1 else s.seq.missed, lost := n } := by
  unfold passEntry missedDecision
  split
  · obtain ⟨n, hn⟩ := hand_seq (.sequence p (some p) (.missed e))
      ((s.onSeq (fun q => { q with missed := q.missed + 1 })).onSeqTotals (fun t => { t with missed := t.missed + 1 }))
    exact ⟨n, by rw [hn]; rfl⟩
  · exact ⟨s.seq.lost, rfl⟩

theorem evalWindow_scene (p : Port) (n : Nat) (x : Int) : ∀ s, SceneKept s (evalWindow p n x s) := by
  induction n with
  | zero => exact SceneKept.refl
  | succ n ih =>
    intro s
    unfold evalWindow
    cases s.seq.lines[s.seq.current]? with
    | none => exact .refl s
    | some e =>
      dsimp only
      split
      · cases s.seq.nextIndex with
        | none => exact (passEntry_scene p _ s).trans (halt_scene _ _)
        | some j =>
          have h := passEntry_scene p ⟨s.seq.current, e.tag, e.nominal⟩ s
          dsimp only
          generalize passEntry _ _ _ = u at h ⊢
          exact (h.trans (by constructor <;> rfl)).trans (ih _)
      · split <;> constructor <;> rfl

theorem evalWindow_hands (p : Port) (n : Nat) (x : Int) : ∀ s, Hands s (evalWindow p n x s) := by
  induction n with
  | zero => exact Hands.refl
  | succ n ih =>
    intro s
    unfold evalWindow
    cases s.seq.lines[s.seq.current]? with
    | none => exact .refl s
    | some e =>
      dsimp only
      split
      · cases s.seq.nextIndex with
        | none => exact (passEntry_hands p _ s).trans (halt_hands _ _)
        | some j =>
          have h := passEntry_hands p ⟨s.seq.current, e.tag, e.nominal⟩ s
          dsimp only
          generalize passEntry _ _ _ = u at h ⊢
          have k : Hands u (u.onSeq (fun q => { q with current := j, pulses := 0 })) := .same rfl rfl rfl rfl rfl
          exact (h.trans k).trans (ih _)
      · split <;> exact .same rfl rfl rfl rfl rfl

theorem sequencerUpdate_scene (s : State) : SceneKept s (sequencerUpdate s) := by
  unfold sequencerUpdate
  split
  · cases s.seq.claimant with
    | none => exact .refl s
    | some p =>
      dsimp only
      cases s.line p with
      | none => exact .refl s
      | some l => exact evalWindow_scene p _ _ s
  · exact .refl s

theorem sequencerUpdate_hands (s : State) : Hands s (sequencerUpdate s) := by
  unfold sequencerUpdate
  split
  · cases s.seq.claimant with
    | none => exact .refl s
    | some p =>
      dsimp only
      cases s.line p with
      | none => exact .refl s
      | some l => exact evalWindow_hands p _ _ s
  · exact .refl s

theorem sequencerEdge_scene (s : State) : SceneKept s (sequencerEdge s) := by
  unfold sequencerEdge
  split
  · split
    · exact SceneKept.trans (t := (s.onSeq _).onSeqTotals _) (by constructor <;> rfl) (hand_scene _ _)
    · unfold strayPulse
      dsimp only
      split
      · exact SceneKept.trans (t := (s.onSeq _).onSeqTotals _) (by constructor <;> rfl) (hand_scene _ _)
      · constructor <;> rfl
  · exact .refl s

theorem sequencerEdge_hands (s : State) : Hands s (sequencerEdge s) := by
  unfold sequencerEdge
  split
  · split
    · exact Hands.trans (t := (s.onSeq _).onSeqTotals _) (.same rfl rfl rfl rfl rfl) (.hand _ _)
    · unfold strayPulse
      dsimp only
      split
      · exact Hands.trans (t := (s.onSeq _).onSeqTotals _) (.same rfl rfl rfl rfl rfl) (.hand _ _)
      · exact .same rfl rfl rfl rfl rfl
  · exact .refl s

@[simp] theorem sequencerEdge_comp (s : State) : (sequencerEdge s).comp = s.comp := by
  unfold sequencerEdge linePulse strayPulse
  split
  · split
    · simp
    · dsimp only; split <;> simp
  · rfl

@[simp] theorem sequencerEdge_points (s : State) : (sequencerEdge s).points = s.points := by
  unfold sequencerEdge linePulse strayPulse
  split
  · split
    · simp
    · dsimp only; split <;> simp
  · rfl

theorem sequencerDeparture_scene (c : Chan) (s : State) : SceneKept s (sequencerDeparture c s) := by
  unfold sequencerDeparture
  split
  · exact halt_scene _ s
  · exact .refl s

theorem sequencerDeparture_hands (c : Chan) (s : State) : Hands s (sequencerDeparture c s) := by
  unfold sequencerDeparture
  split
  · exact halt_hands _ s
  · exact .refl s

/-! ## The compare table -/

/-- What the evaluations of points touch: the table, the notices, SYNC and the trigger queue. -/
structure PointsOnly (s t : State) : Prop where
  scene : SceneKept s t
  hands : Hands s t
  seq : t.seq = s.seq
  comp : t.comp = s.comp
  arms : t.arms = s.arms
  turn : t.turn = s.turn

theorem PointsOnly.refl (s : State) : PointsOnly s s := ⟨.refl s, .refl s, rfl, rfl, rfl, rfl⟩

theorem PointsOnly.trans {s t u : State} (h : PointsOnly s t) (k : PointsOnly t u) : PointsOnly s u :=
  ⟨h.scene.trans k.scene, h.hands.trans k.hands, k.seq.trans h.seq, k.comp.trans h.comp, k.arms.trans h.arms,
   k.turn.trans h.turn⟩

theorem fireActions_pointsOnly (pt : Point) (s : State) : PointsOnly s (fireActions pt s) := by
  have h1 : ∀ t, t = (if pt.actions.notice then
      postWhere .pointFired (fun q => pt.shared || q == pt.owner) s else s) → PointsOnly s t := by
    intro t ht
    subst ht
    split
    · exact ⟨by constructor <;> rfl, .same rfl rfl rfl rfl rfl, rfl, rfl, rfl, rfl⟩
    · exact .refl s
  have h2 : ∀ t : State, PointsOnly t (if pt.actions.sync then { t with sync := some t.time } else t) := by
    intro t
    split
    · exact ⟨by constructor <;> rfl, .same rfl rfl rfl rfl rfl, rfl, rfl, rfl, rfl⟩
    · exact .refl t
  have h3 : ∀ t : State, PointsOnly t
      (if pt.actions.capture then hand (.compare pt.slot pt.owner pt.shared) t else t) := by
    intro t
    split
    · exact ⟨hand_scene _ _, .hand _ _, hand_seq_other (src := .compare pt.slot pt.owner pt.shared) rfl _,
        hand_comp _ _, hand_arms _ _, hand_turn _ _⟩
    · exact .refl _
  unfold fireActions
  dsimp only
  exact ((h1 _ rfl).trans (h2 _)).trans (h3 _)

@[simp] theorem fireActions_points (pt : Point) (s : State) : (fireActions pt s).points = s.points := by
  unfold fireActions
  dsimp only
  split <;> split <;> split <;> simp

theorem evalSlot_pointsOnly (c : Chan) (s : State) (k : Nat) : PointsOnly s (evalSlot c s k) := by
  unfold evalSlot
  cases s.pointAt k with
  | none => exact .refl s
  | some pt =>
    dsimp only
    split
    · cases s.subjectValue pt with
      | none => exact .refl s
      | some v =>
        dsimp only
        have h : PointsOnly s (s.putPoint (pt.evaluated v)) := ⟨by constructor <;> rfl, .same rfl rfl rfl rfl rfl, rfl, rfl, rfl, rfl⟩
        split
        · exact h.trans (fireActions_pointsOnly _ _)
        · exact h
    · exact .refl s

theorem evalSlots_pointsOnly (c : Chan) (ks : List Nat) : ∀ s, PointsOnly s (evalSlots c ks s) := by
  unfold evalSlots
  induction ks with
  | nil => exact PointsOnly.refl
  | cons k ks ih => intro s; exact (evalSlot_pointsOnly c s k).trans (ih _)

/-- What an update of a channel does beyond its unit and timer, as a chain: slots, the sequencer, slots (R83, R156). -/
theorem updateBlocks_chain (c : Chan) (s : State) :
    (∃ ks ks' n, updateBlocks c s = { evalSlots c ks' (sequencerUpdate (evalSlots c ks s)) with turn := n } ∧
      c.feedsLine = true) ∨ ∃ ks, updateBlocks c s = evalSlots c ks s := by
  unfold updateBlocks
  split
  · rename_i h
    have hc : c.feedsLine = true := by simp only [Bool.and_eq_true] at h; exact h.1
    left
    split
    · exact ⟨[], [], (sequencerUpdate s).turn, rfl, hc⟩
    · exact ⟨_, _, _, rfl, hc⟩
  · exact .inr ⟨_, rfl⟩

theorem updateBlocks_scene (c : Chan) (s : State) : SceneKept s (updateBlocks c s) := by
  rcases updateBlocks_chain c s with ⟨ks, ks', n, h, -⟩ | ⟨ks, h⟩ <;> rw [h]
  · exact (((evalSlots_pointsOnly c ks s).scene.trans (sequencerUpdate_scene _)).trans
      (evalSlots_pointsOnly c ks' _).scene).trans (by constructor <;> rfl)
  · exact (evalSlots_pointsOnly c ks s).scene

theorem updateBlocks_hands (c : Chan) (s : State) : Hands s (updateBlocks c s) := by
  rcases updateBlocks_chain c s with ⟨ks, ks', n, h, -⟩ | ⟨ks, h⟩ <;> rw [h]
  · exact (((evalSlots_pointsOnly c ks s).hands.trans (sequencerUpdate_hands _)).trans
      (evalSlots_pointsOnly c ks' _).hands).trans (.same rfl rfl rfl rfl rfl)
  · exact (evalSlots_pointsOnly c ks s).hands

/-! ## Settle arms -/

theorem fireArm_scene (p : Port) (m : ChanMask) (s : State) : SceneKept s (fireArm p m s) :=
  (hand_scene (.settle p m) s).trans (by constructor <;> rfl)

theorem fireArm_hands (p : Port) (m : ChanMask) (s : State) : Hands s (fireArm p m s) :=
  (Hands.hand (.settle p m) s).trans (.same rfl rfl rfl rfl rfl)

@[simp] theorem fireArm_comp (p : Port) (m : ChanMask) (s : State) : (fireArm p m s).comp = s.comp :=
  hand_comp (.settle p m) s
@[simp] theorem fireArm_points (p : Port) (m : ChanMask) (s : State) : (fireArm p m s).points = s.points :=
  hand_points (.settle p m) s
@[simp] theorem fireArm_seq (p : Port) (m : ChanMask) (s : State) : (fireArm p m s).seq = s.seq :=
  hand_seq_other (src := .settle p m) rfl s

/-- What an entry into SETTLED touches: the settle arms, the notices and the trigger queue. -/
structure ArmsOnly (s t : State) : Prop where
  scene : SceneKept s t
  hands : Hands s t
  seq : t.seq = s.seq
  comp : t.comp = s.comp
  points : t.points = s.points

theorem ArmsOnly.refl (s : State) : ArmsOnly s s := ⟨.refl s, .refl s, rfl, rfl, rfl⟩

theorem ArmsOnly.trans {s t u : State} (h : ArmsOnly s t) (k : ArmsOnly t u) : ArmsOnly s u :=
  ⟨h.scene.trans k.scene, h.hands.trans k.hands, k.seq.trans h.seq, k.comp.trans h.comp, k.points.trans h.points⟩

theorem evalArm_armsOnly (c : Chan) (s : State) (p : Port) : ArmsOnly s (evalArm c s p) := by
  unfold evalArm
  cases s.arms.get p with
  | none => exact .refl s
  | some m =>
    dsimp only
    split
    · exact ⟨fireArm_scene p m s, fireArm_hands p m s, fireArm_seq p m s, fireArm_comp p m s, fireArm_points p m s⟩
    · exact .refl s

theorem settleEntered_armsOnly (c : Chan) (s : State) : ArmsOnly s (settleEntered c s) :=
  ((evalArm_armsOnly c s .p0).trans (evalArm_armsOnly c _ .p1)).trans (evalArm_armsOnly c _ .p2)

/-- A saturating count stays within its limit. -/
theorem satInc_le (n : Nat) (h : n ≤ 65535) : satInc 65535 n ≤ 65535 := by
  unfold satInc; split <;> omega

/-! ## Whole effects at the trigger queue -/

theorem Hands.since {s t u : State} (k : Hands t u) (hq : t.queue = s.queue) (hn : t.nextNumber = s.nextNumber)
    (he : t.engine = s.engine) (ht : t.totals.capture = s.totals.capture) (hr : t.rings = s.rings) : Hands s u :=
  (Hands.same hq hn he ht hr).trans k

theorem haltIfScanning_hands (c : HaltCause) (s : State) : Hands s (haltIfScanning c s) := by
  unfold haltIfScanning; split
  · exact halt_hands _ _
  · exact .refl s

theorem departure_hands (c : Chan) (s : State) : Hands s (departure c s) :=
  Hands.trans (t := cancelArms c (pointsOnChannel c s)) (.same rfl rfl rfl rfl rfl) (sequencerDeparture_hands c _)

theorem lossOf_hands (c : Chan) (d : LossDetail) (l : Byte) (s : State) : Hands s (lossOf c d l s) := by
  unfold lossOf
  exact (departure_hands c _).since rfl rfl rfl rfl rfl

theorem disableChannel_hands (c : Chan) (s : State) : Hands s (disableChannel c s) := by
  unfold disableChannel
  dsimp only
  split
  · exact (departure_hands c _).since rfl rfl rfl rfl rfl
  · exact .same rfl rfl rfl rfl rfl

theorem acquisition_hands (c : Chan) (f : Sample) (s : State) : Hands s (acquisition c f s) := by
  unfold acquisition
  split <;> exact .same rfl rfl rfl rfl rfl

/-- A good frame in ACQUIRING sets the run length or completes the acquisition (R6). -/
theorem judgeAcquiring_cases (c : Chan) (f : Sample) (g : Bool) (s : State) :
    (∃ r, judgeAcquiring c f g s = s.onChan c (fun u => { u with run := r })) ∨
      judgeAcquiring c f g s = acquisition c f s := by
  unfold judgeAcquiring
  dsimp only
  generalize (if g then 0 else (s.chans.get c).run) = r
  split
  · exact .inl ⟨0, rfl⟩
  · split
    · exact .inr rfl
    · exact .inl ⟨r + 1, rfl⟩

theorem goodFrame_hands (c : Chan) (f : Sample) (s : State) : Hands s (goodFrame c f s) := by
  have k : Hands s (noteFrame c f s) := .same rfl rfl rfl rfl rfl
  unfold goodFrame
  dsimp only
  split
  · split
    · exact k.trans (lossOf_hands _ _ _ _)
    · refine k.trans ?_
      unfold judgeTracking
      dsimp only
      split
      · exact lossOf_hands _ _ _ _
      · split
        · exact lossOf_hands _ _ _ _
        · unfold acceptSample
          exact (updateBlocks_hands _ _).since rfl rfl rfl rfl rfl
  · refine k.trans ?_
    rcases judgeAcquiring_cases c f ((s.chans.get c).gap f) (noteFrame c f s) with ⟨r, h⟩ | h <;> rw [h]
    · exact .same rfl rfl rfl rfl rfl
    · exact acquisition_hands _ _ _
  · exact k
  · exact k

theorem announceChange_hands (ch : Bool) (p : Port) (s : State) : Hands s (announceChange ch p s) := by
  cases ch <;> exact .same rfl rfl rfl rfl rfl

theorem takeEdge_hands (i : Input) (s : State) : Hands s (takeEdge i s) := by
  unfold takeEdge handEdge
  split
  · split
    · exact Hands.trans (t := (s.onInput i (TrigInput.acceptEdge s.time)).onInputTotals i
        (fun t => { t with accepted := t.accepted + 1 })) (.same rfl rfl rfl rfl rfl) (sequencerEdge_hands _)
    · exact Hands.trans (t := (s.onInput i (TrigInput.acceptEdge s.time)).onInputTotals i
        (fun t => { t with accepted := t.accepted + 1 })) (.same rfl rfl rfl rfl rfl) (.hand _ _)
  · exact .same rfl rfl rfl rfl rfl

theorem resetClaim_hands (p : Port) (s : State) : Hands s (resetClaim p s) := by
  unfold resetClaim; split
  · have k := haltIfScanning_hands .claimLost s
    generalize haltIfScanning .claimLost s = u at k ⊢
    exact k.trans (.same rfl rfl rfl rfl rfl)
  · exact .refl s


/-- What an effect does to the rings and to the entries of the trigger queue beside handing triggers. -/
inductive RingAct (s : State) : State → Prop
  | completion (e : QueueEntry) (rest : List QueueEntry) (since : Time) (he : s.engine = .completing since)
      (hq : s.queue = e :: rest) : RingAct s (endCompletion e rest s)
  | emptyCompletion (hq : s.queue = []) : RingAct s { s with engine := .idle }
  | startRing (p : Port) : RingAct s (s.onRing p (fun r => { r with state := .active }))
  | stopRing (p : Port) :
      RingAct s (s.onRing p (fun r => { r with state := stoppedState (s.routedEntries p) (s.rings.get p).state }))
  | clearRing (p : Port) : RingAct s (s.onRing p (fun r => { r with records := [], drops := 0, overwrites := 0 }))
  | ringPolicy (p : Port) (pol : RingPolicy) (n : Nat) (h : 1 ≤ n ∧ n ≤ 64) :
      RingAct s (s.onRing p (fun r => { r with policy := pol, threshold := n }))
  | takeRecords (p : Port) (n : Nat) : RingAct s (s.onRing p (fun r => { r with records := r.records.drop n }))
  | resetCaptures (p : Port) : RingAct s (resetCaptures p s)

/-- Every effect moves the trigger queue only by handing triggers, or is an act on the rings. -/
theorem Effect.hands {s t : State} (h : Effect s t) : Hands s t ∨ RingAct s t := by
  cases h with
  | same => exact .inl (.refl s)
  | frame c f => exact .inl (goodFrame_hands c f s)
  | edge i => exact .inl (takeEdge_hands i s)
  | settled c h =>
    exact .inl ((settleEntered_armsOnly c (s.onStill c (StillTimer.expire s.time))).hands.since rfl rfl rfl rfl rfl)
  | pinExpired c p h => exact .inl (expirePin_storeOnly c p s).hands
  | completion e rest since he hq => exact .inr (.completion e rest since he hq)
  | emptyCompletion hq => exact .inr (.emptyCompletion hq)
  | disable c p h => exact .inl ((disableChannel_hands c s).trans (announceChange_hands _ _ _))
  | write p m w o => exact .inl (writeComp_storeOnly p _ w o s).hands
  | pin p m hold => exact .inl (onComps_storeOnly (fun _ => CompEntry.pin p s.time hold) _ s).hands
  | unpin p m => exact .inl (removePins_storeOnly _ _ s).hands
  | capture p => exact .inl (.hand _ s)
  | armFires p m =>
    exact .inl ((fireArm_hands p m { s with arms := s.arms.set p (some m) }).since rfl rfl rfl rfl rfl)
  | startRing p => exact .inr (.startRing p)
  | stopRing p => exact .inr (.stopRing p)
  | clearRing p => exact .inr (.clearRing p)
  | ringPolicy p pol n h => exact .inr (.ringPolicy p pol n h)
  | takeRecords p n => exact .inr (.takeRecords p n)
  | release p h =>
    have k := haltIfScanning_hands .stopped s
    generalize haltIfScanning .stopped s = u at k ⊢
    exact .inl (k.trans (.same rfl rfl rfl rfl rfl))
  | force p h =>
    have k := haltIfScanning_hands .forced s
    generalize haltIfScanning .forced s = u at k ⊢
    exact .inl (k.trans (.same rfl rfl rfl rfl rfl))
  | stop p h ht => exact .inl (halt_hands _ s)
  | clearPoints p all ch =>
    exact .inl ((Hands.same rfl rfl rfl rfl rfl : Hands s (removePoints (clearedBy p all) s)).trans
      (announceChange_hands ch p _))
  | configure c g ch p h =>
    exact .inl ((Hands.same rfl rfl rfl rfl rfl : Hands s (s.onChan c _)).trans (announceChange_hands ch p _))
  | input i en e h ch p =>
    exact .inl ((Hands.same rfl rfl rfl rfl rfl : Hands s (s.onInput i _)).trans (announceChange_hands ch p _))
  | resetClaim p => exact .inl (resetClaim_hands p s)
  | resetPins p => exact .inl (removePins_storeOnly _ _ s).hands
  | resetCaptures p => exact .inr (.resetCaptures p)
  | _ => exact .inl (.same rfl rfl rfl rfl rfl)

end Sys2Proof.Machine
end

