-- ==== Sys2Proof/Laws/OtherPorts.lean ====
section
/-! SUPPORT. Laws/OtherPorts.lean: what a request's taking leaves of the other ports' contexts. `Gains` says that a port's
pending set only gains kinds, `Spares` that its context stands but for that. -/

namespace Sys2Proof.Machine

/-! ## Pending sets -/

/-- The notice items of a port between two states: the mask stands, the pending set can only gain kinds. -/
def Gains (s t : State) (q : Port) : Prop :=
  (t.notices.get q).enable = (s.notices.get q).enable ∧
  ∀ n, (s.notices.get q).pending.getLsbD n = true → (t.notices.get q).pending.getLsbD n = true

theorem Gains.same {s t : State} {q : Port} (h : t.notices.get q = s.notices.get q) : Gains s t q := by
  unfold Gains; rw [h]; exact ⟨rfl, fun _ h => h⟩

theorem Gains.refl (s : State) (q : Port) : Gains s s q := .same rfl

theorem Gains.trans {s t u : State} {q : Port} (h : Gains s t q) (k : Gains t u q) : Gains s u q :=
  ⟨k.1.trans h.1, fun n hn => k.2 n (h.2 n hn)⟩

theorem postWhere_gains (k : Notice) (f : Port → Bool) (s : State) (q : Port) : Gains s (postWhere k f s) q := by
  unfold Gains postWhere
  simp only [PerPort.get_ofFn]
  split
  · exact ⟨rfl, fun n hn => by simp [Notices.add, hn]⟩
  · exact ⟨rfl, fun _ h => h⟩

theorem hand_gains (src : Source) (s : State) (q : Port) : Gains s (hand src s) q := by
  unfold hand
  cases outcomeOf src s with
  | overrun =>
    dsimp only [loseTrigger]
    split
    · exact (postWhere_gains .triggerOverrun _ (s.onCaptureTotals _) q)
    · exact (postWhere_gains .triggerOverrun _ (s.onCaptureTotals _) q)
  | _ => exact .same rfl

theorem announceApplied_gains (cs : List Chan) (s : State) (q : Port) : Gains s (announceApplied cs s) q := by
  unfold announceApplied
  split
  · exact .refl _ _
  · dsimp only; split
    · exact postWhere_gains .compApplied _ s q
    · exact postWhere_gains .compApplied _ s q

theorem foldComp_notices (f : Chan → CompEntry → CompEntry) (cs : List Chan) :
    ∀ s : State, (cs.foldl (fun t c => t.onComp c (f c)) s).notices = s.notices := by
  induction cs with
  | nil => exact fun _ => rfl
  | cons a l ih => exact fun s => ih _

theorem applyDueSlots_gains (cs : List Chan) (s : State) (q : Port) : Gains s (applyDueSlots cs s) q := by
  unfold applyDueSlots
  dsimp only
  refine Gains.trans (.same ?_) (announceApplied_gains _ _ q)
  rw [foldComp_notices (fun _ => CompEntry.applySlot)]

theorem removePins_gains (p : Port) (cs : List Chan) (s : State) (q : Port) : Gains s (removePins p cs s) q := by
  unfold removePins
  refine Gains.trans (.same ?_) (applyDueSlots_gains _ _ q)
  rw [foldComp_notices (fun _ => CompEntry.setPin p .none)]

theorem writeComp_gains (p : Port) (cs : List Chan) (w o : BitVec 32) (s : State) (q : Port) :
    Gains s (writeComp p cs w o s) q := by
  unfold writeComp
  dsimp only
  refine Gains.trans (.same ?_) ((postWhere_gains .compSuperseded _ _ q).trans (announceApplied_gains _ _ q))
  rw [foldComp_notices (fun _ => CompEntry.write p w o)]

theorem halt_gains (cause : HaltCause) (s : State) (q : Port) : Gains s (halt cause s) q := by
  unfold halt
  cases s.seq.claimant with
  | none => exact .refl _ _
  | some p =>
    have h := (removePins_gains p [.ch0, .ch1] s q).trans
      (hand_gains (haltSource cause p (removePins p [.ch0, .ch1] s).seq) _ q)
    dsimp only
    generalize hand _ _ = u at h ⊢
    split <;> exact h.trans (postWhere_gains .scanHalted _ u q)

/-! ## Contexts -/

/-- What a taking for one port leaves of another port's context, its arm apart. -/
structure SparesBut (q : Port) (s t : State) : Prop where
  origins : t.origins.get q = s.origins.get q
  baselines : t.baselines.get q = s.baselines.get q
  subs : t.subs.get q = s.subs.get q
  rings : t.rings.get q = s.rings.get q
  latches : t.latches.get q = s.latches.get q
  gains : Gains s t q

theorem SparesBut.trans {q : Port} {s t u : State} (h : SparesBut q s t) (k : SparesBut q t u) : SparesBut q s u :=
  ⟨k.origins.trans h.origins, k.baselines.trans h.baselines, k.subs.trans h.subs, k.rings.trans h.rings,
   k.latches.trans h.latches, h.gains.trans k.gains⟩

/-- What a taking for one port leaves of another port's context, its arm included. -/
structure Spares (q : Port) (s t : State) : Prop extends SparesBut q s t where
  arms : t.arms.get q = s.arms.get q

theorem Spares.refl (q : Port) (s : State) : Spares q s s := ⟨⟨rfl, rfl, rfl, rfl, rfl, .refl _ _⟩, rfl⟩

theorem Spares.trans {q : Port} {s t u : State} (h : Spares q s t) (k : Spares q t u) : Spares q s u :=
  ⟨h.toSparesBut.trans k.toSparesBut, k.arms.trans h.arms⟩

theorem Spares.of {q : Port} {s t : State} (h : SceneKept s t) (g : Gains s t q) (a : t.arms = s.arms) :
    Spares q s t :=
  ⟨⟨by rw [h.origins], by rw [h.baselines], by rw [h.subs], by rw [h.rings], by rw [h.latches], g⟩, by rw [a]⟩

/-- A change of blocks that hold no port's context. -/
theorem Spares.plain {q : Port} {s t : State} (h1 : t.origins = s.origins) (h2 : t.baselines = s.baselines)
    (h3 : t.subs = s.subs) (h4 : t.rings = s.rings) (h5 : t.latches = s.latches) (h6 : t.notices = s.notices)
    (h7 : t.arms = s.arms) : Spares q s t :=
  ⟨⟨by rw [h1], by rw [h2], by rw [h3], by rw [h4], by rw [h5], .same (by rw [h6])⟩, by rw [h7]⟩

theorem hand_spares (src : Source) (s : State) (q : Port) : Spares q s (hand src s) :=
  .of (hand_scene _ _) (hand_gains _ _ _) (by simp)

theorem postWhere_spares (k : Notice) (f : Port → Bool) (s : State) (q : Port) : Spares q s (postWhere k f s) :=
  ⟨⟨rfl, rfl, rfl, rfl, rfl, postWhere_gains _ _ _ _⟩, rfl⟩

theorem postOthers_spares (k : Notice) (p : Port) (s : State) (q : Port) : Spares q s (postOthers k p s) :=
  postWhere_spares _ _ _ _

theorem announceChange_spares (b : Bool) (p : Port) (s : State) (q : Port) : Spares q s (announceChange b p s) := by
  unfold announceChange; split
  · exact postOthers_spares _ _ _ _
  · exact .refl _ _

theorem store_spares {q : Port} {s t : State} (h : StoreOnly s t) (g : Gains s t q) : Spares q s t :=
  .of h.scene g h.arms

theorem onChan_spares (c : Chan) (f : ChannelUnit → ChannelUnit) (s : State) (q : Port) : Spares q s (s.onChan c f) :=
  .plain rfl rfl rfl rfl rfl rfl rfl

theorem onInput_spares (i : Input) (f : TrigInput → TrigInput) (s : State) (q : Port) : Spares q s (s.onInput i f) :=
  .plain rfl rfl rfl rfl rfl rfl rfl

theorem onSeq_spares (f : Sequencer → Sequencer) (s : State) (q : Port) : Spares q s (s.onSeq f) :=
  .plain rfl rfl rfl rfl rfl rfl rfl

theorem points_spares (ps : List Point) (s : State) (q : Port) : Spares q s { s with points := ps } :=
  .plain rfl rfl rfl rfl rfl rfl rfl

theorem onRing_spares {p q : Port} (hq : q ≠ p) (f : Ring → Ring) (s : State) : Spares q s (s.onRing p f) :=
  ⟨⟨rfl, rfl, rfl, s.rings.get_modify_ne f hq, rfl, .refl _ _⟩, rfl⟩

theorem setArm_spares {p q : Port} (hq : q ≠ p) (a : Option ChanMask) (s : State) :
    Spares q s { s with arms := s.arms.set p a } :=
  ⟨⟨rfl, rfl, rfl, rfl, rfl, .refl _ _⟩, s.arms.get_set_ne a hq⟩

theorem setNotices_spares {p q : Port} (hq : q ≠ p) (n : Notices) (s : State) :
    Spares q s { s with notices := s.notices.set p n } :=
  ⟨⟨rfl, rfl, rfl, rfl, rfl, .same (s.notices.get_set_ne n hq)⟩, rfl⟩

theorem bindOrigins_spares {p q : Port} (hq : q ≠ p) (cs : List Chan) (v : Int) (s : State) :
    Spares q s (bindOrigins p cs v s) :=
  ⟨⟨s.origins.get_modify_ne _ hq, rfl, rfl, rfl, rfl, .refl _ _⟩, rfl⟩

theorem freeOrigins_spares {p q : Port} (hq : q ≠ p) (cs : List Chan) (s : State) : Spares q s (freeOrigins p cs s) :=
  ⟨⟨s.origins.get_modify_ne _ hq, rfl, rfl, rfl, rfl, .refl _ _⟩, rfl⟩

theorem halt_arms (c : HaltCause) (s : State) : (halt c s).arms = s.arms := by
  unfold halt
  cases s.seq.claimant with
  | none => rfl
  | some p =>
    have : (removePins p [.ch0, .ch1] s).arms = s.arms := (removePins_storeOnly p [.ch0, .ch1] s).arms
    dsimp only
    split <;> simp [this]

theorem halt_spares (c : HaltCause) (s : State) (q : Port) : Spares q s (halt c s) :=
  .of (halt_scene _ _) (halt_gains _ _ _) (halt_arms _ _)

theorem haltIf_spares (c : HaltCause) (s : State) (q : Port) : Spares q s (haltIfScanning c s) := by
  unfold haltIfScanning; split
  · exact halt_spares _ _ _
  · exact .refl _ _

theorem release_spares (c : HaltCause) (s : State) (q : Port) : Spares q s (endClaim (haltIfScanning c s)) :=
  (haltIf_spares c s q).trans (onSeq_spares _ _ q)

theorem force_spares (p : Port) (s : State) (q : Port) :
    Spares q s (postAll .scanHalted (post .claimLost p (endClaim (haltIfScanning .forced s)))) :=
  (release_spares .forced s q).trans ((postWhere_spares _ _ _ q).trans (postWhere_spares _ _ _ q))

theorem startScan_spares (p : Port) (dir : ScanDir) (first : Nat) (strays : Bool) (w : WindowStatus) (s : State)
    (q : Port) : Spares q s (startScan p dir first strays w s) :=
  Spares.trans (t := (placeRunPins p (s.onSeq (fun x => { x.start dir first strays with window := w }))).onSeqTotals
    (fun t => { t with started := t.started + 1 })) (.plain rfl rfl rfl rfl rfl rfl rfl) (postOthers_spares _ _ _ q)

theorem pins_spares (p : Port) (hold : BitVec 16) (cs : List Chan) (s : State) (q : Port) :
    Spares q s (cs.foldl (fun t c => t.onComp c (CompEntry.pin p s.time hold)) s) :=
  store_spares (onComps_storeOnly (fun _ => CompEntry.pin p s.time hold) _ _)
    (.same (by rw [foldComp_notices (fun _ => CompEntry.pin p s.time hold)]))

theorem addPointTo_spares (pt : Point) (kept : List Point) (s : State) (q : Port) : Spares q s (addPointTo pt kept s) :=
  (points_spares (kept ++ [{ pt with state := pt.initialState s }]) s q).trans (postOthers_spares _ _ _ q)

theorem fireArm_spares {p q : Port} (hq : q ≠ p) (m : ChanMask) (s : State) : Spares q s (fireArm p m s) :=
  ((hand_spares (.settle p m) s q).trans (postWhere_spares .settleFired (fun x => x == p) _ q)).trans <| by
    refine ⟨⟨rfl, rfl, rfl, rfl, rfl, .refl _ _⟩, ?_⟩
    have : (fireArm p m s).arms = s.arms.set p none := rfl
    rw [this, PerPort.get_set_ne _ _ hq]
    show s.arms.get q = (hand _ s).arms.get q
    rw [hand_arms]

/-- A kind posted to a port is pending there. -/
theorem postWhere_has (k : Notice) (f : Port → Bool) (s : State) (q : Port) (h : f q = true) :
    ((postWhere k f s).notices.get q).pending.getLsbD k.num = true := by
  unfold postWhere
  simp only [PerPort.get_ofFn]
  rw [if_pos h]
  cases k <;> simp [Notices.add, Notice.mask, Notice.num]

theorem departure_arms (c : Chan) (s : State) : (departure c s).arms = (cancelArms c s).arms := by
  unfold departure sequencerDeparture
  split
  · rw [halt_arms]; rfl
  · rfl

theorem departure_sparesBut (c : Chan) (s : State) (q : Port) :
    SparesBut q (cancelArms c (pointsOnChannel c s)) (departure c s) := by
  unfold departure sequencerDeparture
  split
  · exact (halt_spares _ _ _).toSparesBut
  · exact (Spares.refl _ _).toSparesBut

/-- A DISABLE CHANNEL can cancel another port's arm, and leaves the rest of its context. -/
theorem disable_spares (c : Chan) (p q : Port) (s t : State) (ht : t = announceChange true p (disableChannel c s)) :
    SparesBut q s t ∧ (t.arms.get q = s.arms.get q ∨
      ∃ m, (s.chans.get c).state = .tracking ∧ s.arms.get q = some m ∧ maskHas m c = true ∧ t.arms.get q = none ∧
        (t.notices.get q).has .settleCancelled = true) := by
  subst ht
  unfold disableChannel
  dsimp only
  split
  · rename_i htr
    generalize hs1 : (s.onChan c ChannelUnit.disable).onStill c StillTimer.leave = s1
    have b1 : SparesBut q s s1 := by subst hs1; exact ⟨rfl, rfl, rfl, rfl, rfl, .refl _ _⟩
    have b2 : SparesBut q s1 (cancelArms c (pointsOnChannel c s1)) :=
      ⟨rfl, rfl, rfl, rfl, rfl, postWhere_gains .settleCancelled _ (pointsOnChannel c s1) q⟩
    have b3 := departure_sparesBut c s1 q
    have b4 := announceChange_spares true p (departure c s1) q
    refine ⟨b1.trans (b2.trans (b3.trans b4.toSparesBut)), ?_⟩
    rw [b4.arms, departure_arms]
    have ha : s1.arms = s.arms := by subst hs1; rfl
    have hget : (cancelArms c s1).arms.get q = if s1.armNames c q then none else s1.arms.get q := by
      unfold cancelArms; simp only [PerPort.get_ofFn]
    rw [hget]
    unfold State.armNames
    cases hm : s1.arms.get q with
    | none => left; rw [ha] at hm; simp [hm]
    | some m =>
      dsimp only
      by_cases hh : maskHas m c = true
      · refine .inr ⟨m, htr, by rw [← ha]; exact hm, hh, by rw [if_pos hh], ?_⟩
        apply b4.gains.2
        apply b3.gains.2
        have hn : (pointsOnChannel c s1).armNames c q = true := by
          show s1.armNames c q = true
          unfold State.armNames; rw [hm]; exact hh
        exact postWhere_has .settleCancelled _ (pointsOnChannel c s1) q hn
      · left; rw [ha] at hm; rw [if_neg hh, hm]
  · have h := (onChan_spares c ChannelUnit.disable s q).trans (announceChange_spares true p _ q)
    exact ⟨h.toSparesBut, .inl h.arms⟩

/-- Step 1 of a PORT RESET leaves the other ports' rings where the rings hold together. -/
theorem resetCaptures_spares {p q : Port} (hq : q ≠ p) {s : State} (hr : RingsHold s) :
    Spares q s (resetCaptures p s) := by
  refine ⟨⟨rfl, rfl, s.subs.get_set_ne _ hq, ?_, rfl, .refl _ _⟩, s.arms.get_set_ne _ hq⟩
  have h1 : (unroute p s).routedEntries q = s.routedEntries q := by
    simp only [unroute, State.routedEntries, List.filter_map, List.length_map]
    congr 2; funext x; simp [PerPort.get_set, hq]
  have h2 : (s.rings.set p Ring.reset).get q = s.rings.get q := s.rings.get_set_ne _ hq
  unfold resetCaptures reportRouting
  simp only [PerPort.get_ofFn, h2]
  exact if_neg (fun h => (hr q).2.2.2.2.2.2 h.1 (h1 ▸ h.2))

/-- A request's taking leaves the contexts of the other ports; DISABLE CHANNEL apart, their arms too. -/
theorem takeKind_spares {k : RequestKind} {p q : Port} {b : List Byte} {s t : State} {reply : Reply} (hq : q ≠ p)
    (hd : k ≠ .disableChannel) (h : takeKind k p b s = .answered reply t) : Spares q s t := by
  cases k with
  | disableChannel => exact absurd rfl hd
  | startScan =>
    simp only [takeKind, takeStartScan] at h
    repeat' split at h
    all_goals first
      | (cases h; exact .refl _ _)
      | (unfold checkAndStart at h
         repeat' split at h
         all_goals first
           | (cases h; exact .refl _ _)
           | (dsimp only at h
              split at h
              · cases h; exact .refl _ _
              · cases h; exact startScan_spares _ _ _ _ _ _ _))
    | readChannel | readStillness | readCompensation | readPosition | readCaptureStatus | peekRecords |
    readRingStatus | readSequencer | readPoints | readNotices | identify | portReset =>
    simp only [takeKind, withChannel, withMask, takeReadChannel, takeReadStillness, takeReadCompensation,
      takeReadPosition, takeReadCaptureStatus, takePeekRecords, takeReadRingStatus, takeReadSequencer,
      takeReadPoints, takeReadNotices, takeIdentify, takePortReset] at h
    repeat' split at h
    all_goals cases h
    all_goals exact .refl _ _
    | configureChannel | enableChannel | recoverChannel =>
    simp only [takeKind, withChannel, takeConfigureChannel, takeEnableChannel, takeRecoverChannel] at h
    repeat' split at h
    all_goals cases h
    all_goals first
      | exact .refl _ _
      | exact (onChan_spares _ _ _ _).trans (announceChange_spares _ _ _ _)
    | setCompensation =>
    simp only [takeKind, withMask, takeSetCompensation] at h
    repeat' split at h
    all_goals cases h
    all_goals first
      | exact .refl _ _
      | exact store_spares (writeComp_storeOnly _ _ _ _ _) (writeComp_gains _ _ _ _ _ _)
    | pinCompensation =>
    simp only [takeKind, withMask, takePinCompensation] at h
    repeat' split at h
    all_goals cases h
    all_goals first
      | exact .refl _ _
      | exact pins_spares _ _ _ _ _
    | unpinCompensation =>
    simp only [takeKind, withMask, takeUnpinCompensation] at h
    repeat' split at h
    all_goals cases h
    all_goals first
      | exact .refl _ _
      | exact store_spares (removePins_storeOnly _ _ _) (removePins_gains _ _ _ _)
    | setOrigin =>
    simp only [takeKind, withMask, takeSetOrigin] at h
    repeat' split at h
    all_goals cases h
    all_goals first
      | exact .refl _ _
      | exact bindOrigins_spares hq _ _ _
    | clearOrigin =>
    simp only [takeKind, withMask, takeClearOrigin] at h
    repeat' split at h
    all_goals cases h
    all_goals first
      | exact .refl _ _
      | exact freeOrigins_spares hq _ _
    | readCounters =>
    simp only [takeKind, takeReadCounters] at h
    repeat' split at h
    all_goals cases h
    all_goals first
      | exact .refl _ _
      | exact ⟨⟨rfl, s.baselines.get_modify_ne _ hq, rfl, rfl, rfl, .refl _ _⟩, rfl⟩
    | configureInput =>
    simp only [takeKind, takeConfigureInput] at h
    repeat' split at h
    all_goals cases h
    all_goals first
      | exact .refl _ _
      | exact (onInput_spares _ _ _ _).trans (announceChange_spares _ _ _ _)
    | captureNow =>
    simp only [takeKind, takeCaptureNow] at h
    repeat' split at h
    all_goals cases h
    all_goals first
      | exact .refl _ _
      | exact hand_spares _ _ _
    | armSettle =>
    simp only [takeKind, withMask, takeArmSettle] at h
    repeat' split at h
    all_goals cases h
    all_goals first
      | exact .refl _ _
      | exact setArm_spares hq _ _
      | exact (setArm_spares hq _ _).trans (fireArm_spares hq _ _)
    | cancelSettle =>
    simp only [takeKind, takeCancelSettle] at h
    repeat' split at h
    all_goals cases h
    all_goals first
      | exact .refl _ _
      | exact setArm_spares hq _ _
    | startRing | stopRing | clearRing | setRingPolicy | takeRecords =>
    simp only [takeKind, takeStartRing, takeStopRing, takeClearRing, takeSetRingPolicy, takeTakeRecords] at h
    repeat' split at h
    all_goals cases h
    all_goals first
      | exact .refl _ _
      | exact onRing_spares hq _ _
    | setSubscription =>
    simp only [takeKind, takeSetSubscription] at h
    repeat' split at h
    all_goals cases h
    all_goals first
      | exact .refl _ _
      | exact ⟨⟨rfl, rfl, s.subs.get_set_ne _ hq, rfl, rfl, .refl _ _⟩, rfl⟩
    | claimSequencer | loadLines | clearLines =>
    simp only [takeKind, takeClaimSequencer, takeLoadLines, takeClearLines] at h
    repeat' split at h
    all_goals cases h
    all_goals first
      | exact .refl _ _
      | exact (onSeq_spares _ _ _).trans (postOthers_spares _ _ _ _)
    | releaseSequencer =>
    simp only [takeKind, takeReleaseSequencer] at h
    repeat' split at h
    all_goals cases h
    all_goals first
      | exact .refl _ _
      | exact (release_spares _ _ _).trans (postOthers_spares _ _ _ _)
    | forceRelease =>
    simp only [takeKind, takeForceRelease] at h
    repeat' split at h
    all_goals cases h
    all_goals first
      | exact .refl _ _
      | exact force_spares _ _ _
    | stopScan =>
    simp only [takeKind, takeStopScan] at h
    repeat' split at h
    all_goals cases h
    all_goals first
      | exact .refl _ _
      | exact halt_spares _ _ _
    | addPoint =>
    simp only [takeKind, takeAddPoint] at h
    repeat' split at h
    all_goals cases h
    all_goals first
      | exact .refl _ _
      | exact addPointTo_spares _ _ _ _
    | removePoint =>
    simp only [takeKind, takeRemovePoint] at h
    repeat' split at h
    all_goals cases h
    all_goals first
      | exact .refl _ _
      | exact (points_spares _ _ _).trans (postOthers_spares _ _ _ _)
    | clearPoints =>
    simp only [takeKind, takeClearPoints] at h
    repeat' split at h
    all_goals cases h
    all_goals first
      | exact .refl _ _
      | exact (points_spares _ _ _).trans (announceChange_spares _ _ _ _)
    | ackNotices | setNoticeEnable =>
    simp only [takeKind, takeAckNotices, takeSetNoticeEnable] at h
    repeat' split at h
    all_goals cases h
    all_goals first
      | exact .refl _ _
      | exact setNotices_spares hq _ _
    | readFaultDetail =>
    simp only [takeKind, takeReadFaultDetail] at h
    repeat' split at h
    all_goals cases h
    all_goals first
      | exact .refl _ _
      | exact ⟨⟨rfl, rfl, rfl, rfl, s.latches.get_set_ne _ hq, .refl _ _⟩, rfl⟩

end Sys2Proof.Machine
end

