-- ==== Sys2Proof/Laws/Payload.lean ====
section
/-! SUPPORT. Laws/Payload.lean: the fields of a payload that is spelled out are the numbers it was spelled from. -/

namespace Sys2Proof.Machine

@[simp] theorem leBytes_length (w n : Nat) : (leBytes w n).length = w := by
  induction w generalizing n with
  | zero => rfl
  | succ w ih => simp [leBytes, ih]

theorem leNat_leBytes (w n : Nat) : leNat (leBytes w n) = n % 256 ^ w := by
  induction w generalizing n with
  | zero => simp [leBytes, leNat, Nat.mod_one]
  | succ w ih =>
    have h : BitVec.toNat (BitVec.ofNat 8 n) = n % 256 := by simp
    rw [leBytes, leNat, ih, h, Nat.pow_succ, Nat.mul_comm (256 ^ w), Nat.mod_mul]

/-- The field at the start of a payload. -/
theorem numAt_here (w n : Nat) (rest : List Byte) : numAt (leBytes w n ++ rest) 0 w = n % 256 ^ w := by
  unfold numAt
  rw [List.drop_zero, List.take_append_of_le_length (by simp), List.take_of_length_le (by simp), leNat_leBytes]

/-- The field that is the whole payload. -/
theorem numAt_whole (w n : Nat) : numAt (leBytes w n) 0 w = n % 256 ^ w := by
  have := numAt_here w n []
  rwa [List.append_nil] at this

/-- A field further on, past a field of k bytes. -/
theorem numAt_past (k n : Nat) (rest : List Byte) (off w : Nat) (h : k ≤ off) :
    numAt (leBytes k n ++ rest) off w = numAt rest (off - k) w := by
  unfold numAt
  rw [List.drop_append, List.drop_of_length_le (by simpa using h), List.nil_append, leBytes_length]

/-- A field of one byte at the start. -/
@[simp] theorem numAt_byte (b : Byte) (rest : List Byte) : numAt (b :: rest) 0 1 = b.toNat := by
  simp [numAt, leNat]

/-- A field further on, past one byte. -/
@[simp] theorem numAt_pastByte (b : Byte) (rest : List Byte) (off w : Nat) :
    numAt (b :: rest) (off + 1) w = numAt rest off w := rfl

/-- The low bit of a byte is its parity. -/
theorem byte_parity (b : Byte) : (b.toNat % 2 == 1) = b.getLsbD 0 := by
  simp only [BitVec.getLsbD, Nat.testBit_zero]
  cases h : b.toNat % 2 == 1 <;> simp_all

/-- A number of w bytes stays itself. -/
theorem toNat_bytes {w k : Nat} (x : BitVec w) (h : w = 8 * k) : x.toNat % 256 ^ k = x.toNat := by
  apply Nat.mod_eq_of_lt
  have h1 := x.isLt
  have h2 : (2 : Nat) ^ w = 256 ^ k := by rw [h, Nat.pow_mul]
  omega

/-- The channel number of a channel names it. -/
@[simp] theorem chanOfNum_num (c : Chan) : Chan.ofNum c.num = some c := by cases c <;> rfl

theorem chanNum_lt (c : Chan) : c.num < 6 := by cases c <;> decide

/-- The channel that a payload names in its first byte. -/
theorem chanAt_here (c : Chan) (rest : List Byte) : chanAt (u8 c.num ++ rest) 0 = some c := by
  unfold chanAt u8
  rw [numAt_here]
  have h := chanNum_lt c
  rw [Nat.mod_eq_of_lt (by omega)]
  exact chanOfNum_num c

/-- The mask that a payload carries in its first byte. -/
theorem chanMaskAt_here {m : ChanMask} (hm : m ≠ 0) (rest : List Byte) :
    chanMaskAt (u8 m.toNat ++ rest) 0 = some m := by
  unfold chanMaskAt u8
  rw [numAt_here]
  have h := m.isLt
  have h0 : m.toNat ≠ 0 := by
    intro h0
    exact hm (BitVec.eq_of_toNat_eq (by simpa using h0))
  rw [Nat.mod_eq_of_lt (by omega)]
  simp only [h0, false_or]
  rw [if_neg (by omega)]
  simp

end Sys2Proof.Machine
end

