-- ==== Sys2Proof/Laws/QueueKeeps.lean ====
section
/-! SUPPORT. Laws/QueueKeeps.lean: that handing triggers keeps the trigger queue and the rings together, and
that every effect does. -/

namespace Sys2Proof.Machine

/-! queue -/

theorem QueueKept.holds {s t : State} (h : QueueKept s t) (hs : QueueHolds s) : QueueHolds t := by
  obtain ⟨h1, h2, h3, h4⟩ := h
  unfold QueueHolds at *
  rw [h1, h2, h3, h4]
  exact hs

theorem numbers_append (n : BitVec 32) (k : Nat) :
    (List.range k).map (fun i => n - BitVec.ofNat 32 k + BitVec.ofNat 32 i) ++ [n] =
    (List.range (k + 1)).map (fun i => n + 1 - BitVec.ofNat 32 (k + 1) + BitVec.ofNat 32 i) := by
  rw [List.range_succ, List.map_append]
  have e : ∀ i, n - BitVec.ofNat 32 k + BitVec.ofNat 32 i = n + 1 - BitVec.ofNat 32 (k + 1) + BitVec.ofNat 32 i := by
    intro i
    have : BitVec.ofNat 32 (k + 1) = BitVec.ofNat 32 k + 1#32 := by simp [BitVec.ofNat_add]
    rw [this]
    generalize BitVec.ofNat 32 k = a
    generalize BitVec.ofNat 32 i = b
    bv_omega
  congr 1
  · exact List.map_congr_left (fun i _ => e i)
  · have := e k
    simp only [List.map_cons, List.map_nil, ← this]
    congr 1
    generalize BitVec.ofNat 32 k = a
    bv_omega

theorem hand_queueHolds (src : Source) (s : State) (hs : QueueHolds s) : QueueHolds (hand src s) := by
  unfold hand
  cases ho : outcomeOf src s with
  | discarded => exact QueueKept.holds ⟨rfl, rfl, rfl, rfl⟩ hs
  | overrun =>
    cases src <;> exact QueueKept.holds ⟨rfl, rfl, rfl, rfl⟩ hs
  | admitted n =>
    have hlt : s.queue.length < 4 := by
      unfold outcomeOf at ho
      split at ho
      · cases ho
      · split at ho
        · assumption
        · cases ho
    obtain ⟨h1, h2, h3, h4, h5⟩ := hs
    simp only [admitTrigger]
    refine ⟨?_, ?_, ?_, ?_, ?_⟩
    · simp; omega
    · simp only [onCaptureTotals_engine, onCaptureTotals_queue]
      cases s.engine <;> simp [EngineState.begin]
    · simp only [onCaptureTotals_totals, onCaptureTotals_queue, List.length_append, List.length_singleton]
      rw [BitVec.ofNat_add, ← h3]; simp only [BitVec.ofNat_eq_ofNat]; bv_omega
    · simp only [onCaptureTotals_totals, onCaptureTotals_nextNumber, h4]
    · simp only [onCaptureTotals_queue, onCaptureTotals_nextNumber, List.map_append, List.length_append,
        List.length_singleton, h5]
      exact numbers_append _ _

theorem Hands.queueHolds {s t : State} (h : Hands s t) (hs : QueueHolds s) : QueueHolds t := by
  induction h with
  | kept h _ => exact h.holds hs
  | hand src s => exact hand_queueHolds src s hs
  | trans _ _ ih1 ih2 => exact ih2 (ih1 hs)

theorem hand_ringsHold (src : Source) (s : State) (hs : RingsHold s) : RingsHold (hand src s) := by
  intro p
  have hp := hs p
  have hr : (hand src s).rings = s.rings := (hand_scene src s).rings
  rw [hr]
  have hq : (hand src s).routedEntries p = s.routedEntries p ∨
      ((hand src s).routedEntries p = s.routedEntries p + 1 ∧ (s.rings.get p).state = .active) := by
    unfold hand
    cases ho : outcomeOf src s with
    | discarded => exact .inl rfl
    | overrun => cases src <;> exact .inl rfl
    | admitted n =>
      simp only [admitTrigger, State.routedEntries, onCaptureTotals_queue, List.filter_append, List.length_append]
      cases hro : (newEntry src (routing s src) s).route.get p with
      | false => left; simp [hro]
      | true =>
        right
        refine ⟨by simp [hro], ?_⟩
        simp only [newEntry, routing, PerPort.get_ofFn, routed, Bool.and_eq_true, beq_iff_eq] at hro
        exact hro.1
  obtain ⟨a, b, c, d, e, f, g⟩ := hp
  rcases hq with h | ⟨h, h'⟩ <;> rw [h]
  · exact ⟨a, b, c, d, e, f, g⟩
  · refine ⟨a, b, c, d, e, ?_, ?_⟩
    · intro x; rw [h'] at x; cases x
    · intro x; omega

theorem Hands.ringsHold {s t : State} (h : Hands s t) (hs : RingsHold s) : RingsHold t := by
  induction h with
  | kept h hr =>
    intro p
    have := hs p
    unfold State.routedEntries at *
    rw [h.queue, hr]; exact this
  | hand src s => exact hand_ringsHold src s hs
  | trans _ _ ih1 ih2 => exact ih2 (ih1 hs)

theorem onRing_holds {s : State} {p : Port} {f : Ring → Ring} (hs : RingsHold s)
    (hf : (s.rings.get p).Holds (s.routedEntries p) → (f (s.rings.get p)).Holds (s.routedEntries p)) :
    RingsHold (s.onRing p f) := by
  intro q
  show ((s.rings.modify p f).get q).Holds (s.routedEntries q)
  rw [PerPort.get_modify]
  split
  · rename_i h; subst h; exact hf (hs q)
  · exact hs q

theorem reportRouting_holds {s : State} (hs : ∀ p, ((s.rings.get p).records.length ≤ 64 ∧ 1 ≤ (s.rings.get p).threshold ∧ (s.rings.get p).threshold ≤ 64 ∧ (s.rings.get p).drops ≤ 65535 ∧ (s.rings.get p).overwrites ≤ 65535 ∧
  ((s.rings.get p).state = .stopped → s.routedEntries p = 0))) : RingsHold (reportRouting s) := by
  intro p
  obtain ⟨a, b, c, d, e, f⟩ := hs p
  simp only [reportRouting, PerPort.get_ofFn]
  show Ring.Holds (s.routedEntries p) _
  split
  · rename_i h
    exact ⟨a, b, c, d, e, fun _ => h.2, fun h => by cases h⟩
  · rename_i h
    exact ⟨a, b, c, d, e, f, fun h' h'' => h ⟨h', h''⟩⟩

theorem deliver_small (e : QueueEntry) (s : State) (hs : RingsHold s) (p : Port) :
  (((deliver e s).rings.get p).records.length ≤ 64 ∧ 1 ≤ ((deliver e s).rings.get p).threshold ∧ ((deliver e s).rings.get p).threshold ≤ 64 ∧ ((deliver e s).rings.get p).drops ≤ 65535 ∧ ((deliver e s).rings.get p).overwrites ≤ 65535 ∧
  ((deliver e s).rings.get p).state = (s.rings.get p).state) := by
  obtain ⟨a, b, c, d, e', f, g⟩ := hs p
  show _ ∧ _
  have : (deliver e s).rings.get p = if e.route.get p then (s.rings.get p).deliver (buildRecord e p) else s.rings.get p := by
    simp only [deliver, postWhere_rings, PerPort.get_ofFn]
  rw [this]
  split
  · unfold Ring.deliver
    split
    · rename_i h
      simp [Config.ringRoom] at h
      simp; omega
    · split
      · have := satInc_le _ d
        simp; omega
      · have := satInc_le _ e'
        simp; omega
  · simp; omega

theorem effect_keeps_rings (s t : State) (h : Effect s t) (hs : RingsHold s) : RingsHold t := by
  rcases h.hands with k | k
  · exact k.ringsHold hs
  cases k with
  | completion e rest since he hq =>
    apply reportRouting_holds
    intro p
    obtain ⟨a, b, c, d, e', f⟩ := deliver_small e s hs p
    refine ⟨a, b, c, d, e', ?_⟩
    intro hst
    have hst : ((deliver e s).rings.get p).state = .stopped := hst
    rw [f] at hst
    have h0 := (hs p).2.2.2.2.2.1 hst
    unfold State.routedEntries at *
    rw [hq] at h0
    show (rest.filter _).length = 0
    rw [List.filter_cons] at h0
    split at h0
    · simp at h0
    · exact h0
  | emptyCompletion hq => exact fun p => hs p
  | startRing p =>
    refine onRing_holds hs (fun h => ?_)
    obtain ⟨a, b, c, d, e', f, g⟩ := h
    exact ⟨a, b, c, d, e', by simp, by simp⟩
  | stopRing p =>
    refine onRing_holds hs (fun h => ?_)
    obtain ⟨a, b, c, d, e', f, g⟩ := h
    refine ⟨a, b, c, d, e', ?_, ?_⟩
    · intro h
      dsimp only at h
      cases hst : (s.rings.get p).state with
      | stopped => exact f hst
      | active => rw [hst] at h; simp only [stoppedState] at h; split at h <;> first | assumption | cases h
      | draining => rw [hst] at h; cases h
    · intro h
      dsimp only at h
      cases hst : (s.rings.get p).state with
      | stopped => rw [hst] at h; cases h
      | active => rw [hst] at h; simp only [stoppedState] at h; split at h <;> first | assumption | cases h
      | draining => exact g hst
  | clearRing p =>
    refine onRing_holds hs (fun h => ?_)
    obtain ⟨a, b, c, d, e', f, g⟩ := h
    exact ⟨by simp, b, c, by simp, by simp, f, g⟩
  | ringPolicy p pol n h0 =>
    refine onRing_holds hs (fun hh => ?_)
    obtain ⟨a, b, c, d, e', f, g⟩ := hh
    exact ⟨a, h0.1, h0.2, d, e', f, g⟩
  | takeRecords p n =>
    refine onRing_holds hs (fun h => ?_)
    obtain ⟨a, b, c, d, e', f, g⟩ := h
    exact ⟨by simp; omega, b, c, d, e', f, g⟩
  | resetCaptures p =>
    apply reportRouting_holds
    intro q
    show ((s.rings.set p Ring.reset).get q).records.length ≤ 64 ∧ 1 ≤ ((s.rings.set p Ring.reset).get q).threshold ∧ ((s.rings.set p Ring.reset).get q).threshold ≤ 64 ∧ ((s.rings.set p Ring.reset).get q).drops ≤ 65535 ∧ ((s.rings.set p Ring.reset).get q).overwrites ≤ 65535 ∧
      (((s.rings.set p Ring.reset).get q).state = .stopped → (unroute p s).routedEntries q = 0)
    obtain ⟨a, b, c, d, e', f, g⟩ := hs q
    have hr : (unroute p s).routedEntries q = if q = p then 0 else s.routedEntries q := by
      simp only [unroute, State.routedEntries, List.filter_map, List.length_map]
      split
      · rename_i h; subst h
        simp [Function.comp_def]
      · rename_i h
        congr 2; funext x; simp [PerPort.get_set, h]
    rw [PerPort.get_set, hr]
    split
    · exact ⟨by simp [Ring.reset], by simp [Ring.reset], by simp [Ring.reset], by simp [Ring.reset], by simp [Ring.reset], fun _ => rfl⟩
    · exact ⟨a, b, c, d, e', f⟩

theorem effect_keeps_queue (s t : State) (h : Effect s t) (hs : QueueHolds s) : QueueHolds t := by
  rcases h.hands with k | k
  · exact k.queueHolds hs
  cases k with
  | completion e rest since he hq =>
    obtain ⟨h1, h2, h3, h4, h5⟩ := hs
    rw [hq] at h1 h3 h5
    have hlen : (e :: rest).length = rest.length + 1 := rfl
    have hb : BitVec.ofNat 32 (rest.length + 1) = BitVec.ofNat 32 rest.length + 1 := by simp [BitVec.ofNat_add]
    refine ⟨?_, ?_, ?_, h4, ?_⟩
    · show rest.length ≤ 4
      simp at h1; omega
    · show (if rest.isEmpty then EngineState.idle else .completing s.time) = .idle ↔ rest = []
      cases rest <;> simp
    · show s.totals.capture.admitted - (s.totals.capture.completed + 1) = BitVec.ofNat 32 rest.length
      rw [hlen, hb] at h3
      have : s.totals.capture.admitted - (s.totals.capture.completed + 1) = s.totals.capture.admitted - s.totals.capture.completed - 1 := by bv_omega
      rw [this, h3]; generalize BitVec.ofNat 32 rest.length = a; bv_omega
    · show rest.map QueueEntry.number = _
      rw [hlen, List.range_succ_eq_map, List.map_cons, List.map_cons, List.map_map] at h5
      have := (List.cons.inj h5).2
      rw [this]
      apply List.map_congr_left
      intro i _
      show s.nextNumber - BitVec.ofNat 32 (rest.length + 1) + BitVec.ofNat 32 (i + 1) = s.nextNumber - BitVec.ofNat 32 rest.length + BitVec.ofNat 32 i
      rw [hb, BitVec.ofNat_add]
      show s.nextNumber - (BitVec.ofNat 32 rest.length + 1#32) + (BitVec.ofNat 32 i + 1#32) = _
      generalize BitVec.ofNat 32 rest.length = a
      generalize BitVec.ofNat 32 i = b
      bv_omega
  | emptyCompletion hq =>
    obtain ⟨h1, h2, h3, h4, h5⟩ := hs
    exact ⟨h1, ⟨fun _ => hq, fun _ => rfl⟩, h3, h4, h5⟩
  | resetCaptures p =>
    obtain ⟨h1, h2, h3, h4, h5⟩ := hs
    refine ⟨?_, ?_, ?_, h4, ?_⟩
    · show (s.queue.map _).length ≤ 4
      simpa using h1
    · show _ ↔ s.queue.map _ = []
      rw [List.map_eq_nil_iff]; exact h2
    · show s.totals.capture.admitted - s.totals.capture.completed = BitVec.ofNat 32 (s.queue.map _).length
      rw [List.length_map]; exact h3
    · show (s.queue.map _).map QueueEntry.number = _
      rw [List.map_map]
      show s.queue.map QueueEntry.number = (List.range (s.queue.map _).length).map _
      rw [List.length_map, h5]
      show _ = (List.range s.queue.length).map (fun i => s.nextNumber - BitVec.ofNat 32 (s.queue.map _).length + BitVec.ofNat 32 i)
      rw [List.length_map]
  | _ => exact QueueKept.holds ⟨rfl, rfl, rfl, rfl⟩ hs

end Sys2Proof.Machine
end

