-- ==== Sys2Proof/Laws/RecordWords.lean ====
section
/-! SUPPORT. Laws/RecordWords.lean: the presence mask of a record bit by bit, and its 64-bit fields and words as words and
bytes (R192). -/

namespace Sys2Proof.Machine

/-- The bits from a position on are those from 0 on, scaled. -/
theorem presentBits_scale (bs : List Bool) (k : Nat) : presentBits k bs = 2 ^ k * presentBits 0 bs := by
  induction bs generalizing k with
  | nil => simp [presentBits]
  | cons b bs ih =>
    simp only [presentBits]
    rw [ih (k + 1), ih (0 + 1), Nat.pow_succ]; ring

theorem presentBits_append (as bs : List Bool) (k : Nat) :
    presentBits k (as ++ bs) = presentBits k as + presentBits (k + as.length) bs := by
  induction as generalizing k with
  | nil => simp [presentBits]
  | cons a as ih =>
    simp only [presentBits, List.cons_append, List.length_cons]
    rw [ih (k + 1), show k + 1 + as.length = k + (as.length + 1) by omega]; omega

/-- Bit n of the packed bits is element n of the list. -/
theorem presentBits_testBit (bs : List Bool) (n : Nat) : (presentBits 0 bs).testBit n = bs.getD n false := by
  induction bs generalizing n with
  | nil => simp [presentBits]
  | cons b bs ih =>
    have : presentBits 0 (b :: bs) = b.toNat + 2 * presentBits 0 bs := by
      simp only [presentBits]; rw [presentBits_scale bs (0 + 1)]; simp
    rw [this]
    cases n with
    | zero => cases b <;> simp
    | succ n =>
      have half : (b.toNat + 2 * presentBits 0 bs) / 2 = presentBits 0 bs := by have := b.toNat_le; omega
      rw [Nat.testBit_succ, half, ih]
      simp

/-- The two words of a value: its low half and its high half. -/
theorem twoWords_eq (x : Int) : twoWords x = [BitVec.ofInt 32 x, BitVec.ofInt 32 (x / 2 ^ 32)] := by
  unfold twoWords
  congr 1
  · apply BitVec.eq_of_toNat_eq; simp [BitVec.toNat_ofInt]; omega
  · congr 1
    apply BitVec.eq_of_toNat_eq; simp [BitVec.toNat_ofInt, Nat.shiftRight_eq_div_pow]; omega

/-- The four bytes of a word. -/
theorem leBytes_word (w : BitVec 32) :
    leBytes 4 w.toNat =
      [w.extractLsb' 0 8, w.extractLsb' 8 8, w.extractLsb' 16 8, w.extractLsb' 24 8] := by
  simp only [leBytes, List.cons.injEq, and_true]
  refine ⟨?_, ?_, ?_, ?_⟩ <;> apply BitVec.eq_of_toNat_eq <;> simp [Nat.shiftRight_eq_div_pow] <;> omega

/-- The flags of a record's presence mask, bit 0 first. -/
def Record.flags (r : Record) : List Bool :=
  r.blocks.map (fun b => b.age.isSome) ++ (r.blocks.map (fun b => b.view.isSome) ++
    (r.blocks.map (fun b => b.comp.isSome) ++ [r.lineYaw.isSome, r.source.entry.isSome, r.source.ordinal.isSome, r.deviation.isSome,
      !r.source.haltWords.isEmpty]))

theorem Record.mask_flags (r : Record) : r.mask = presentBits 0 r.flags := by
  unfold Record.mask Record.flags
  simp only [presentBits_append, List.length_map]
  have : r.blocks.length = 6 := rfl
  rw [this, Nat.add_assoc, Nat.add_assoc]

/-- Bit n of the presence mask. -/
theorem Record.mask_bit (r : Record) (n : Nat) (h : n < 32) : (word r.mask).getLsbD n = r.flags.getD n false := by
  unfold word
  rw [BitVec.getLsbD_ofNat, Record.mask_flags, presentBits_testBit]
  simp [h]

/-- A record is its fixed part and its optional words. -/
theorem Record.words_length (r : Record) : r.words.length = 17 + r.optionalWords.length := by
  unfold Record.words
  dsimp only
  simp only [List.length_append, List.length_cons, List.length_nil]
  have : (r.blocks.flatMap RecordChan.words).length = 12 := rfl
  omega

end Sys2Proof.Machine
end

