-- ==== Sys2Proof/Laws/TimerKeeps.lean ====
section
/-! SUPPORT. Laws/TimerKeeps.lean: what the effects do to the channel units and their timers, and that they keep the
timers and the pending values together. -/

namespace Sys2Proof.Machine

/-- What an effect does to the channel units and their timers. -/
inductive ChanAct (s : State) : State → Prop
  | frame (c : Chan) (f : Sample) : ChanAct s (goodFrame c f s)
  | settled (c : Chan) (h : (s.still.get c).due s.time = true) :
      ChanAct s (settleEntered c (s.onStill c (StillTimer.expire s.time)))
  | configure (c : Chan) (g : ChanConfig) (ch : Bool) (p : Port) (h : (s.chans.get c).state = .disabled) :
      ChanAct s (announceChange ch p (s.onChan c (fun u => { u with config := g })))
  | enable (c : Chan) (p : Port) (h : (s.chans.get c).state = .disabled) :
      ChanAct s (announceChange true p (s.onChan c ChannelUnit.enable))
  | disable (c : Chan) (p : Port) (h : (s.chans.get c).state ≠ .disabled) :
      ChanAct s (announceChange true p (disableChannel c s))
  | recover (c : Chan) (m : RecoveryMode) (p : Port) (h : (s.chans.get c).state = .lost) :
      ChanAct s (announceChange true p (s.onChan c (ChannelUnit.recover m)))

/-- The channel units and their timers. -/
structure ChansKept (s t : State) : Prop where
  chans : t.chans = s.chans
  still : t.still = s.still

theorem SceneKept.chansKept {s t : State} (h : SceneKept s t) : ChansKept s t := ⟨h.chans, h.still⟩

theorem ChansKept.trans {s t u : State} (h : ChansKept s t) (k : ChansKept t u) : ChansKept s u :=
  ⟨k.chans.trans h.chans, k.still.trans h.still⟩

theorem haltIfScanning_scene (c : HaltCause) (s : State) : SceneKept s (haltIfScanning c s) := by
  unfold haltIfScanning; split
  · exact halt_scene _ s
  · exact .refl s

theorem resetClaim_scene (p : Port) (s : State) : SceneKept s (resetClaim p s) := by
  unfold resetClaim; split
  · have k := haltIfScanning_scene .claimLost s
    generalize haltIfScanning .claimLost s = u at k ⊢
    exact k.trans (by constructor <;> rfl)
  · exact .refl s

theorem announceChange_chans (ch : Bool) (p : Port) (s : State) : ChansKept s (announceChange ch p s) := by
  cases ch <;> exact ⟨rfl, rfl⟩

theorem Effect.chans {s t : State} (h : Effect s t) : ChansKept s t ∨ ChanAct s t := by
  cases h with
  | same => exact .inl ⟨rfl, rfl⟩
  | frame c f => exact .inr (.frame c f)
  | settled c h => exact .inr (.settled c h)
  | configure c g ch p h => exact .inr (.configure c g ch p h)
  | enable c p h => exact .inr (.enable c p h)
  | disable c p h => exact .inr (.disable c p h)
  | recover c m p h => exact .inr (.recover c m p h)
  | edge i =>
    left
    unfold takeEdge handEdge
    split
    · split
      · have k := sequencerEdge_scene ((s.onInput i (TrigInput.acceptEdge s.time)).onInputTotals i
          (fun t => { t with accepted := t.accepted + 1 }))
        exact ⟨k.chans, k.still⟩
      · have k := hand_scene (.input i) ((s.onInput i (TrigInput.acceptEdge s.time)).onInputTotals i
          (fun t => { t with accepted := t.accepted + 1 }))
        exact ⟨k.chans, k.still⟩
    · exact ⟨rfl, rfl⟩
  | pinExpired c p h => exact .inl (expirePin_storeOnly c p s).scene.chansKept
  | write p m w o => exact .inl (writeComp_storeOnly p _ w o s).scene.chansKept
  | pin p m hold => exact .inl (onComps_storeOnly (fun _ => CompEntry.pin p s.time hold) _ s).scene.chansKept
  | unpin p m => exact .inl (removePins_storeOnly _ _ s).scene.chansKept
  | capture p => exact .inl (hand_scene _ s).chansKept
  | armFires p m =>
    have k := fireArm_scene p m { s with arms := s.arms.set p (some m) }
    exact .inl ⟨k.chans, k.still⟩
  | release p h =>
    have k := haltIfScanning_scene .stopped s
    generalize haltIfScanning .stopped s = u at k ⊢
    exact .inl ⟨k.chans, k.still⟩
  | force p h =>
    have k := haltIfScanning_scene .forced s
    generalize haltIfScanning .forced s = u at k ⊢
    exact .inl ⟨k.chans, k.still⟩
  | stop p h ht => exact .inl (halt_scene _ s).chansKept
  | clearPoints p all ch => exact .inl ⟨(announceChange_chans ch p _).chans, (announceChange_chans ch p _).still⟩
  | input i en e h ch p => exact .inl ⟨(announceChange_chans ch p _).chans, (announceChange_chans ch p _).still⟩
  | resetClaim p => exact .inl (resetClaim_scene p s).chansKept
  | resetPins p => exact .inl (removePins_storeOnly _ _ s).scene.chansKept
  | _ => exact .inl ⟨rfl, rfl⟩

theorem ChansKept.stillHolds {s t : State} (h : ChansKept s t) (hs : StillHolds s) : StillHolds t := by
  unfold StillHolds; rw [h.1, h.2]; exact hs

/-! what a departure, a loss, ... does -/
theorem cancelArms_scene (c : Chan) (s : State) : SceneKept s (cancelArms c s) := by constructor <;> rfl

theorem departure_scene (c : Chan) (s : State) : SceneKept s (departure c s) :=
  SceneKept.trans (t := cancelArms c (pointsOnChannel c s)) (by constructor <;> rfl) (sequencerDeparture_scene c _)

theorem lossOf_chans (c : Chan) (d : LossDetail) (l : Byte) (s : State) :
    (lossOf c d l s).chans = s.chans.modify c (ChannelUnit.lose d ((s.still.get c).state == .settled)) ∧
    (lossOf c d l s).still = s.still.modify c StillTimer.leave := by
  unfold lossOf
  dsimp only
  have k := fun u => departure_scene c u
  exact ⟨(k _).chans, (k _).still⟩

theorem StillHolds.at {s t : State} {c : Chan} (hs : StillHolds s)
    (hc : ∀ d, d ≠ c → (t.chans.get d).state = (s.chans.get d).state) (ht : ∀ d, d ≠ c → t.still.get d = s.still.get d)
    (h : (t.still.get c).Agrees (t.chans.get c).state) : StillHolds t := by
  intro d
  by_cases hd : d = c
  · subst hd; exact h
  · rw [hc d hd, ht d hd]; exact hs d

theorem leave_agrees (t : StillTimer) {st : ChanState} (h : st ≠ .tracking) : t.leave.Agrees st := by
  refine ⟨⟨fun _ => h, fun _ => rfl⟩, ?_, ?_⟩ <;> simp [StillTimer.leave]

theorem StillTimer.Agrees.off {t : StillTimer} {st st' : ChanState} (h : t.Agrees st) (h1 : st ≠ .tracking) (h2 : st' ≠ .tracking) : t.Agrees st' := by
  obtain ⟨a, b, c⟩ := h
  exact ⟨⟨fun _ => h2, fun _ => a.2 h1⟩, b, c⟩

theorem noteFrame_scene (c : Chan) (f : Sample) (s : State) : (noteFrame c f s).still = s.still ∧
  (noteFrame c f s).chans = s.chans.modify c (fun u => { u with expected := some (f.seq + 1) }) := ⟨rfl, rfl⟩

theorem still_loss (c : Chan) (d : LossDetail) (l : Byte) (s : State) (hs : StillHolds s) : StillHolds (lossOf c d l s) := by
  obtain ⟨h1, h2⟩ := lossOf_chans c d l s
  refine hs.at (c := c) ?_ ?_ ?_
  · intro e he; rw [h1, PerChan.get_modify, if_neg he]
  · intro e he; rw [h2, PerChan.get_modify, if_neg he]
  · rw [h1, h2, PerChan.get_modify_self, PerChan.get_modify_self]
    exact leave_agrees _ (by simp [ChannelUnit.lose])

theorem still_frame (c : Chan) (f : Sample) (s : State) (hs : StillHolds s) : StillHolds (goodFrame c f s) := by
  have hn : StillHolds (noteFrame c f s) := by
    refine hs.at (c := c) ?_ (fun _ _ => rfl) ?_
    · intro e he; rw [(noteFrame_scene c f s).2, PerChan.get_modify, if_neg he]
    · rw [(noteFrame_scene c f s).2, PerChan.get_modify_self]; exact hs c
  have hst : ((noteFrame c f s).chans.get c).state = (s.chans.get c).state := by
    rw [(noteFrame_scene c f s).2, PerChan.get_modify_self]
  generalize hu : noteFrame c f s = u at hn hst
  unfold goodFrame
  dsimp only
  rw [hu]
  split
  · rename_i htr
    split
    · exact still_loss _ _ _ _ hn
    · unfold judgeTracking
      dsimp only
      split
      · exact still_loss _ _ _ _ hn
      · split
        · exact still_loss _ _ _ _ hn
        · unfold acceptSample
          dsimp only
          have k := fun v => updateBlocks_scene c v
          refine ChansKept.stillHolds (s := State.onStill _ c _) ⟨(k _).chans, (k _).still⟩ ?_
          refine hn.at (c := c) ?_ ?_ ?_
          · intro e he; simp [PerChan.get_modify, he]
          · intro e he; simp [PerChan.get_modify, he]
          · have hc := hn c
            rw [hst, htr] at hc
            simp [PerChan.get_modify]
            have : (ChannelUnit.accept f u.time (u.chans.get c)).state = .tracking := by
              simp [ChannelUnit.accept, hst, htr]
            rw [this]
            unfold StillTimer.accepted
            split
            · exact hc
            · split
              · exact hc
              · simp [StillTimer.load, StillTimer.Agrees]
  · rename_i hac
    rcases judgeAcquiring_cases c f ((s.chans.get c).gap f) u with ⟨r, h⟩ | h <;> rw [h]
    · refine hn.at (c := c) ?_ (fun _ _ => rfl) ?_
      · intro e he; simp [PerChan.get_modify, he]
      · simp [PerChan.get_modify]; exact hn c
    · unfold acquisition
      split
      · unfold continueAcquisition
        refine hn.at (c := c) ?_ ?_ ?_
        · intro e he
          show ((u.chans.modify c _).get e).state = _
          rw [PerChan.get_modify, if_neg he]
        · intro e he
          show ((u.still.modify c _).get e) = _
          rw [PerChan.get_modify, if_neg he]
        · show StillTimer.Agrees ((u.chans.modify c _).get c).state ((u.still.modify c _).get c)
          rw [PerChan.get_modify_self, PerChan.get_modify_self]
          simp [StillTimer.Agrees, StillTimer.load, ChannelUnit.acquireContinue, ChannelUnit.acquireCommon]
      · unfold restartAcquisition
        refine hn.at (c := c) ?_ ?_ ?_
        · intro e he
          show ((u.chans.modify c _).get e).state = _
          rw [PerChan.get_modify, if_neg he]
        · intro e he
          show ((u.still.modify c _).get e) = _
          rw [PerChan.get_modify, if_neg he]
        · show StillTimer.Agrees ((u.chans.modify c _).get c).state ((u.still.modify c _).get c)
          rw [PerChan.get_modify_self, PerChan.get_modify_self]
          simp [StillTimer.Agrees, StillTimer.load, ChannelUnit.acquireRestart, ChannelUnit.acquireCommon]
  · exact hn
  · exact hn

theorem effect_keeps_stillness (s t : State) (h : Effect s t) (hs : StillHolds s) : StillHolds t := by
  rcases h.chans with k | k
  · exact k.stillHolds hs
  cases k with
  | frame c f => exact still_frame c f s hs
  | settled c h0 =>
    refine ChansKept.stillHolds (s := s.onStill c (StillTimer.expire s.time)) (settleEntered_armsOnly c _).scene.chansKept ?_
    refine hs.at (c := c) (fun _ _ => rfl) ?_ ?_
    · intro e he; simp [PerChan.get_modify, he]
    · have hc := hs c
      simp only [StillTimer.due, Bool.and_eq_true, beq_iff_eq] at h0
      have : (s.chans.get c).state = .tracking := by
        by_contra hne
        have := hc.1.2 hne
        rw [h0.1] at this; cases this
      simp [StillTimer.expire, StillTimer.Agrees, this]
  | configure c g ch p h =>
    refine (announceChange_chans ch p _).stillHolds ?_
    refine hs.at (c := c) ?_ (fun _ _ => rfl) ?_
    · intro e he; simp [PerChan.get_modify, he]
    · simpa using hs c
  | enable c p h0 =>
    refine (announceChange_chans true p _).stillHolds ?_
    refine hs.at (c := c) ?_ (fun _ _ => rfl) ?_
    · intro e he; simp [PerChan.get_modify, he]
    · simpa using (hs c).off (by simp [h0]) (by simp [ChannelUnit.enable])
  | disable c p h =>
    refine (announceChange_chans true p _).stillHolds ?_
    unfold disableChannel
    dsimp only
    split
    · have k := departure_scene c ((s.onChan c ChannelUnit.disable).onStill c StillTimer.leave)
      refine k.chansKept.stillHolds ?_
      refine hs.at (c := c) ?_ ?_ ?_
      · intro e he; simp [PerChan.get_modify, he]
      · intro e he; simp [PerChan.get_modify, he]
      · simpa using leave_agrees _ (by simp [ChannelUnit.disable])
    · rename_i hnt
      refine hs.at (c := c) ?_ (fun _ _ => rfl) ?_
      · intro e he; simp [PerChan.get_modify, he]
      · simpa using (hs c).off hnt (by simp [ChannelUnit.disable])
  | recover c m p h0 =>
    refine (announceChange_chans true p _).stillHolds ?_
    refine hs.at (c := c) ?_ (fun _ _ => rfl) ?_
    · intro e he; simp [PerChan.get_modify, he]
    · simpa using (hs c).off (by simp [h0]) (by simp [ChannelUnit.recover])

/-! store -/
theorem onComp_store {s : State} {c : Chan} {f : CompEntry → CompEntry} (hs : StoreHolds s)
    (hf : ((s.comp.get c).slot.isSome = true → (s.comp.get c).unpinned = false) → (f (s.comp.get c)).slot.isSome = true → (f (s.comp.get c)).unpinned = false) : StoreHolds (s.onComp c f) := by
  intro d
  simp only [onComp_comp, PerChan.get_modify]
  split
  · rename_i h; subst h; exact hf (hs d)
  · exact hs d

theorem onComps_store (f : Chan → CompEntry → CompEntry) (hf : ∀ c e, (e.slot.isSome = true → e.unpinned = false) → (f c e).slot.isSome = true → (f c e).unpinned = false) (cs : List Chan) :
    ∀ s, StoreHolds s → StoreHolds (cs.foldl (fun t c => t.onComp c (f c)) s) := by
  induction cs with
  | nil => exact fun _ h => h
  | cons c cs ih => intro s h; exact ih _ (onComp_store h (hf c _))

/-- Entries changed by a fold over distinct... value at each. -/
theorem onComps_get (f : Chan → CompEntry → CompEntry) (cs : List Chan) (hn : cs.Nodup) (s : State) (c : Chan) :
    (cs.foldl (fun t c => t.onComp c (f c)) s).comp.get c = if c ∈ cs then f c (s.comp.get c) else s.comp.get c := by
  induction cs generalizing s with
  | nil => simp
  | cons d cs ih =>
    rw [List.foldl_cons, ih (List.nodup_cons.mp hn).2]
    have := (List.nodup_cons.mp hn).1
    simp only [onComp_comp, PerChan.get_modify, List.mem_cons]
    by_cases hc : c = d
    · subst hc; simp [this]
    · simp [hc]

theorem applySlot_slot (e : CompEntry) : e.applySlot.slot = none := by
  unfold CompEntry.applySlot; split <;> simp_all

theorem applySlot_pins (e : CompEntry) : e.applySlot.pins = e.pins := by
  unfold CompEntry.applySlot; split <;> rfl

theorem removePins_store (p : Port) (cs : List Chan) (hn : cs.Nodup) (s : State) (hs : StoreHolds s) : StoreHolds (removePins p cs s) := by
  intro c
  unfold removePins applyDueSlots
  dsimp only
  rw [announceApplied_comp]
  rw [onComps_get (fun _ => CompEntry.applySlot) _ (hn.filter _)]
  split
  · intro h; rw [applySlot_slot] at h; cases h
  · rename_i h
    rw [onComps_get (fun _ => CompEntry.setPin p .none) cs hn] at *
    simp only [List.mem_filter, not_and] at h
    by_cases hc : c ∈ cs
    · have := h hc
      simp only [State.slotDue] at this
      rw [onComps_get (fun _ => CompEntry.setPin p .none) cs hn] at this
      simp only [hc, if_true] at this ⊢
      intro h1
      rw [h1] at this
      simpa using this
    · simp only [hc, if_false]
      exact hs c

theorem maskChans_nodup (m : ChanMask) : (maskChans m).Nodup := by
  unfold maskChans
  exact List.Nodup.filter _ (by decide)

theorem store_keep {s t : State} (h : t.comp = s.comp) (hs : StoreHolds s) : StoreHolds t := by
  unfold StoreHolds; rw [h]; exact hs

theorem halt_store (c : HaltCause) (s : State) (hs : StoreHolds s) : StoreHolds (halt c s) := by
  cases h : s.seq.claimant with
  | none => unfold halt; rw [h]; exact hs
  | some p => exact store_keep (halt_comp h) (removePins_store p _ (by decide) s hs)

theorem evalWindow_store (p : Port) (n : Nat) (x : Int) : ∀ s, StoreHolds s → StoreHolds (evalWindow p n x s) := by
  induction n with
  | zero => exact fun _ h => h
  | succ n ih =>
    intro s hs
    unfold evalWindow
    cases s.seq.lines[s.seq.current]? with
    | none => exact hs
    | some e =>
      dsimp only
      split
      · cases s.seq.nextIndex with
        | none => exact halt_store _ _ (store_keep (passEntry_comp ..) hs)
        | some j => exact ih _ (store_keep (by simp) hs)
      · split <;> exact hs

theorem sequencerUpdate_store (s : State) (hs : StoreHolds s) : StoreHolds (sequencerUpdate s) := by
  unfold sequencerUpdate
  split
  · cases s.seq.claimant with
    | none => exact hs
    | some p =>
      dsimp only
      cases s.line p with
      | none => exact hs
      | some l => exact evalWindow_store p _ _ s hs
  · exact hs

theorem updateBlocks_store (c : Chan) (s : State) (hs : StoreHolds s) : StoreHolds (updateBlocks c s) := by
  rcases updateBlocks_chain c s with ⟨ks, ks', n, h, -⟩ | ⟨ks, h⟩ <;> rw [h]
  · exact store_keep (evalSlots_pointsOnly c ks' _).comp (sequencerUpdate_store _ (store_keep (evalSlots_pointsOnly c ks s).comp hs))
  · exact store_keep (evalSlots_pointsOnly c ks s).comp hs

theorem departure_store (c : Chan) (s : State) (hs : StoreHolds s) : StoreHolds (departure c s) := by
  unfold departure sequencerDeparture
  split
  · exact halt_store _ _ hs
  · exact hs

end Sys2Proof.Machine
end

