-- ==== Sys2Proof/Laws/StoreKeeps.lean ====
section
/-! SUPPORT. Laws/StoreKeeps.lean: how an effect moves the sequencer, and that the effects keep the pending values and
the decisions of a scan together. -/

namespace Sys2Proof.Machine

theorem effect_keeps_store (s t : State) (h : Effect s t) (hs : StoreHolds s) : StoreHolds t := by
  cases h with
  | same => exact hs
  | frame c f =>
    unfold goodFrame
    dsimp only
    split
    · split
      · exact departure_store c _ hs
      · unfold judgeTracking
        dsimp only
        split
        · exact departure_store c _ hs
        · split
          · exact departure_store c _ hs
          · exact updateBlocks_store c _ hs
    · rcases judgeAcquiring_cases c f ((s.chans.get c).gap f) (noteFrame c f s) with ⟨r, h⟩ | h <;> rw [h]
      · exact hs
      · unfold acquisition
        split <;> exact hs
    · exact hs
    · exact hs
  | edge i =>
    unfold takeEdge handEdge
    split
    · split
      · exact store_keep (sequencerEdge_comp _) hs
      · exact store_keep (hand_comp _ _) hs
    · exact hs
  | settled c h => exact store_keep (settleEntered_armsOnly c _).comp hs
  | pinExpired c p h =>
    have : expirePin c p s = applyDueSlots [c] (post .pinExpired p (s.onComp c (CompEntry.setPin p .none))) := rfl
    have h2 := removePins_store p [c] (by simp) s hs
    have : (expirePin c p s).comp = (removePins p [c] s).comp := by
      unfold expirePin removePins applyDueSlots
      dsimp only
      rw [announceApplied_comp, announceApplied_comp]
      simp only [List.foldl_cons, List.foldl_nil]
      have : (post Notice.pinExpired p (s.onComp c (CompEntry.setPin p Pin.none))).slotDue = (s.onComp c (CompEntry.setPin p Pin.none)).slotDue := rfl
      rw [this]
      simp only [List.filter_cons, List.filter_nil]
      split <;> rfl
    exact store_keep this h2
  | completion e rest since he hq => exact hs
  | disable c p h =>
    have : StoreHolds (disableChannel c s) := by
      unfold disableChannel; dsimp only
      split
      · exact departure_store c _ hs
      · exact hs
    exact this
  | write p m w o =>
    unfold writeComp
    dsimp only
    refine store_keep (announceApplied_comp _ _) ?_
    refine store_keep (s := List.foldl (fun t c => t.onComp c (CompEntry.write p w o)) s (maskChans m)) rfl ?_
    refine onComps_store (fun _ => CompEntry.write p w o) ?_ _ s hs
    intro c e he
    unfold CompEntry.write
    split
    · rename_i hu
      intro hsl
      have := he hsl
      rw [hu] at this; cases this
    · rename_i hu
      intro _
      simpa [CompEntry.unpinned] using hu
  | pin p m hold =>
    refine onComps_store (fun _ => CompEntry.pin p s.time hold) ?_ _ s hs
    intro c e he hsl
    unfold CompEntry.pin at *
    have hset : ∀ x, x ≠ Pin.none → (e.setPin p x).unpinned = false := by
      intro x hx
      simp only [CompEntry.setPin, CompEntry.unpinned, List.all_eq_false]
      exact ⟨p, by simp, by simpa using hx⟩
    cases hp : e.pins.get p with
    | none => exact hset _ (by simp)
    | timed a b => exact hset _ (by simp)
    | run => rw [hp] at hsl; exact he hsl
  | unpin p m => exact removePins_store p _ ((maskChans_nodup m).filter _) s hs
  | capture p => exact store_keep (hand_comp _ _) hs
  | armFires p m => exact store_keep (fireArm_comp _ _ _) hs
  | release p h =>
    have : StoreHolds (haltIfScanning .stopped s) := by
      unfold haltIfScanning; split
      · exact halt_store _ _ hs
      · exact hs
    exact this
  | force p h =>
    have : StoreHolds (haltIfScanning .forced s) := by
      unfold haltIfScanning; split
      · exact halt_store _ _ hs
      · exact hs
    exact this
  | start p dir first strays w h ht hf hss =>
    have : (startScan p dir first strays w s).comp = ((s.onComp .ch0 (CompEntry.setPin p .run)).onComp .ch1 (CompEntry.setPin p .run)).comp := rfl
    refine store_keep this ?_
    have hset : ∀ e : CompEntry, (e.setPin p .run).unpinned = false := by
      intro x
      simp only [CompEntry.setPin, CompEntry.unpinned, List.all_eq_false]
      exact ⟨p, by simp, by simp⟩
    exact onComp_store (onComp_store hs (fun _ _ => hset _)) (fun _ _ => hset _)
  | stop p h ht => exact halt_store _ _ hs
  | clearPoints p all ch => cases ch <;> exact hs
  | configure c g ch p h => cases ch <;> exact hs
  | input i en e h ch p => cases ch <;> exact hs
  | resetClaim p =>
    unfold resetClaim
    split
    · have : StoreHolds (haltIfScanning .claimLost s) := by
        unfold haltIfScanning; split
        · exact halt_store _ _ hs
        · exact hs
      exact this
    · exact hs
  | resetPins p => exact removePins_store p _ (List.Nodup.filter _ (by decide)) s hs
  | _ => exact hs

/-! sequencer -/

inductive SeqMove : Sequencer → Sequencer → Prop
  | counts (q : Sequencer) (lost stray : Nat) : SeqMove q { q with lost := lost, stray := stray }
  | window (q : Sequencer) (w : WindowStatus) : SeqMove q { q with window := w }
  | advance (q : Sequencer) (j n : Nat) (h : q.nextIndex = some j) :
      SeqMove q { q with current := j, pulses := 0, missed := if q.pulses = 0 then q.missed + 1 else q.missed, lost := n }
  | pulse (q : Sequencer) (n : Nat) :
      SeqMove q { q with pulses := satInc 65535 q.pulses, found := if q.pulses = 0 then q.found + 1 else q.found, lost := n }
  | halted (q : Sequencer) (cause : HaltCause) (missed lost : Nat) (h : q.claimant ≠ none) :
      SeqMove q { q with state := .halted, cause := cause, missed := missed, lost := lost }
  | trans {q r u : Sequencer} (h : SeqMove q r) (k : SeqMove r u) : SeqMove q u

def lossBefore (c : Chan) (d : LossDetail) (level : Byte) (s : State) : State :=
  handReport ⟨c, d, s.time, (s.chans.get c).raw, (s.chans.get c).lastPhase, level⟩
    (postAll .channelLost (((s.onChan c (ChannelUnit.lose d ((s.still.get c).state == .settled))).onChanTotals c
      (countLoss d)).onStill c StillTimer.leave))

theorem lossOf_eq (c : Chan) (d : LossDetail) (level : Byte) (s : State) :
    lossOf c d level s = departure c (lossBefore c d level s) := rfl

def acceptBefore (c : Chan) (f : Sample) (s : State) : State :=
  ((s.onChan c (ChannelUnit.accept f s.time)).onChanTotals c (fun t => { t with accepted := t.accepted + 1 })).onStill c
    (StillTimer.accepted ((s.chans.get c).accept f s.time).config ((s.chans.get c).accept f s.time).raw s.time)

theorem acceptSample_eq (c : Chan) (f : Sample) (s : State) :
    acceptSample c f s = updateBlocks c (acceptBefore c f s) := by
  unfold acceptSample acceptBefore
  simp

/-- A good frame in TRACKING is a loss or an accepted sample. -/
theorem goodFrame_cases (c : Chan) (f : Sample) (s : State) :
    (s.chans.get c).state = .tracking ∧ ((∃ d, goodFrame c f s = departure c (lossBefore c d f.handled (noteFrame c f s))) ∨
      goodFrame c f s = updateBlocks c (acceptBefore c f (noteFrame c f s))) ∨
    (s.chans.get c).state = .acquiring ∧ ((∃ r, goodFrame c f s = (noteFrame c f s).onChan c (fun u => { u with run := r })) ∨
      goodFrame c f s = acquisition c f (noteFrame c f s)) ∨
    (s.chans.get c).state ≠ .tracking ∧ (s.chans.get c).state ≠ .acquiring ∧ goodFrame c f s = noteFrame c f s := by
  unfold goodFrame
  dsimp only
  cases h : (s.chans.get c).state with
  | tracking =>
    refine .inl ⟨rfl, ?_⟩
    dsimp only
    split
    · exact .inl ⟨_, rfl⟩
    · unfold judgeTracking
      dsimp only
      split
      · exact .inl ⟨_, rfl⟩
      · split
        · exact .inl ⟨_, rfl⟩
        · exact .inr (acceptSample_eq _ _ _)
  | acquiring =>
    refine .inr (.inl ⟨rfl, ?_⟩)
    dsimp only
    exact judgeAcquiring_cases c f _ _
  | disabled => exact .inr (.inr ⟨by simp, by simp, rfl⟩)
  | lost => exact .inr (.inr ⟨by simp, by simp, rfl⟩)

theorem SeqMove.refl (q : Sequencer) : SeqMove q q := .counts q q.lost q.stray

theorem hand_seqMove (src : Source) (s : State) : SeqMove s.seq (hand src s).seq := by
  obtain ⟨n, h⟩ := hand_seq src s
  rw [h]; exact .counts _ n _

theorem halt_seqMove (c : HaltCause) (s : State) : SeqMove s.seq (halt c s).seq := by
  cases h : s.seq.claimant with
  | none => unfold halt; rw [h]; exact .refl _
  | some p =>
    obtain ⟨n, hn⟩ := halt_seq (cause := c) h
    rw [hn]; exact .halted _ _ _ _ (by simp [h])

theorem evalWindow_seqMove (p : Port) (n : Nat) (x : Int) : ∀ s : State, s.seq.claimant ≠ none → SeqMove s.seq (evalWindow p n x s).seq := by
  induction n with
  | zero => exact fun s _ => .refl _
  | succ n ih =>
    intro s hc
    unfold evalWindow
    cases s.seq.lines[s.seq.current]? with
    | none => exact .refl _
    | some e =>
      dsimp only
      split
      · obtain ⟨m, hm⟩ := passEntry_seq p ⟨s.seq.current, e.tag, e.nominal⟩ s
        cases hj : s.seq.nextIndex with
        | none =>
          dsimp only
          cases hcl : s.seq.claimant with
          | none => exact absurd hcl hc
          | some q =>
            generalize passEntry p ⟨s.seq.current, e.tag, e.nominal⟩ s = u at hm ⊢
            obtain ⟨k, hk⟩ := halt_seq (cause := .ended) (s := u) (p := q) (by rw [hm]; exact hcl)
            rw [hk, hm]
            exact .halted s.seq _ _ _ hc
        | some j =>
          dsimp only
          generalize passEntry p ⟨s.seq.current, e.tag, e.nominal⟩ s = u at hm ⊢
          have he : (u.onSeq (fun q => { q with current := j, pulses := 0 })).seq =
            { s.seq with current := j, pulses := 0, missed := if s.seq.pulses = 0 then s.seq.missed + 1 else s.seq.missed, lost := m } := by
            rw [onSeq_seq, hm]
          generalize hv : u.onSeq (fun q => { q with current := j, pulses := 0 }) = v at he
          refine SeqMove.trans ?_ (ih v (by rw [he]; exact hc))
          rw [he]
          exact SeqMove.advance s.seq j m hj
      · split <;> exact .window _ _

theorem sequencerUpdate_seqMove (s : State) : SeqMove s.seq (sequencerUpdate s).seq := by
  unfold sequencerUpdate
  split
  · cases h : s.seq.claimant with
    | none => exact .refl _
    | some p =>
      dsimp only
      cases s.line p with
      | none => exact .refl _
      | some l => exact evalWindow_seqMove p _ _ s (by simp [h])
  · exact .refl _

theorem updateBlocks_seqMove (c : Chan) (s : State) : SeqMove s.seq (updateBlocks c s).seq := by
  rcases updateBlocks_chain c s with ⟨ks, ks', n, h, -⟩ | ⟨ks, h⟩ <;> rw [h]
  · show SeqMove s.seq (evalSlots c ks' (sequencerUpdate (evalSlots c ks s))).seq
    rw [(evalSlots_pointsOnly c ks' _).seq]
    have := sequencerUpdate_seqMove (evalSlots c ks s)
    rw [(evalSlots_pointsOnly c ks s).seq] at this
    exact this
  · rw [(evalSlots_pointsOnly c ks s).seq]; exact .refl _

theorem sequencerEdge_seqMove (s : State) : SeqMove s.seq (sequencerEdge s).seq := by
  unfold sequencerEdge
  split
  · split
    · unfold linePulse
      dsimp only
      generalize hu : State.onSeqTotals (s.onSeq _) _ = u
      have he : u.seq = { s.seq with
        pulses := satInc 65535 s.seq.pulses, found := if s.seq.pulses = 0 then s.seq.found + 1 else s.seq.found } := by
        rw [← hu]; rfl
      generalize Source.sequence _ _ _ = src
      obtain ⟨n, hn⟩ := hand_seq src u
      rw [hn, he]
      exact .pulse s.seq n
    · unfold strayPulse
      dsimp only
      generalize hu : State.onSeqTotals (s.onSeq _) _ = u
      have he : u.seq = { s.seq with stray := satInc 65535 s.seq.stray } := by
        rw [← hu]; rfl
      have k : SeqMove s.seq u.seq := by rw [he]; exact .counts s.seq s.seq.lost _
      split
      · exact k.trans (hand_seqMove _ _)
      · exact k
  · exact .refl _

theorem departure_seqMove (c : Chan) (s : State) : SeqMove s.seq (departure c s).seq := by
  unfold departure sequencerDeparture
  split
  · exact halt_seqMove .fault (cancelArms c (pointsOnChannel c s))
  · exact .refl _

def Sequencer.DecisionsAdd (q : Sequencer) : Prop :=
  q.state = .tracking →
    q.current < q.lines.length ∧ q.first < q.lines.length ∧
    (match q.dir with
      | .forward => q.first ≤ q.current
      | .reverse => q.current ≤ q.first) ∧
    q.found + q.missed = q.advanced + (if q.pulses = 0 then 0 else 1)

theorem SeqMove.decisionsAdd {q r : Sequencer} (h : SeqMove q r) (hq : Sequencer.DecisionsAdd q) : Sequencer.DecisionsAdd r := by
  induction h with
  | counts q lost stray => exact hq
  | window q w => exact hq
  | advance q j n h =>
    intro ht
    obtain ⟨a, b, c, d⟩ := hq ht
    unfold Sequencer.nextIndex at h
    unfold Sequencer.advanced at d
    unfold Sequencer.DecisionsAdd Sequencer.advanced at *
    dsimp only at *
    cases hd : q.dir <;> rw [hd] at h c d <;> dsimp only at h c d ⊢ <;> split at h <;> cases h <;> split at d <;> simp_all <;> omega
  | pulse q n =>
    intro ht
    obtain ⟨a, b, c, d⟩ := hq ht
    refine ⟨a, b, c, ?_⟩
    have : satInc 65535 q.pulses ≠ 0 := by unfold satInc; split <;> omega
    show (if q.pulses = 0 then q.found + 1 else q.found) + q.missed = q.advanced + if satInc 65535 q.pulses = 0 then 0 else 1
    rw [if_neg this]
    split at d <;> simp_all
    omega
  | halted => intro ht; cases ht
  | trans _ _ ih1 ih2 => exact ih2 (ih1 hq)

/-- Within one scan a move keeps the claimant, the direction, the first index and the list, and moves the current index in
the scan direction alone. -/
theorem SeqMove.sameScan {q r : Sequencer} (h : SeqMove q r) :
    r.claimant = q.claimant ∧ r.dir = q.dir ∧ r.first = q.first ∧ r.lines = q.lines ∧
    (q.dir = .forward → q.current ≤ r.current) ∧ (q.dir = .reverse → r.current ≤ q.current) := by
  induction h with
  | advance q j n h =>
    refine ⟨rfl, rfl, rfl, rfl, ?_, ?_⟩ <;> intro hd <;> unfold Sequencer.nextIndex at h <;> rw [hd] at h <;>
      dsimp only at h <;> split at h <;> cases h <;> dsimp only <;> omega
  | trans h k ih1 ih2 =>
    obtain ⟨a, b, c, d, e, f⟩ := ih1
    obtain ⟨a', b', c', d', e', f'⟩ := ih2
    exact ⟨a'.trans a, b'.trans b, c'.trans c, d'.trans d, fun h => (e h).trans (e' (b.trans h)),
      fun h => (f' (b.trans h)).trans (f h)⟩
  | _ => exact ⟨rfl, rfl, rfl, rfl, fun _ => Nat.le_refl _, fun _ => Nat.le_refl _⟩

/-- How an effect moves the sequencer. -/
inductive SeqAct (s t : State) : Prop
  | moves (h : SeqMove s.seq t.seq)
  | claim (p : Port) (h : s.seq.claimant = none) (e : t.seq = { s.seq with state := .loading, claimant := some p })
  | ended (q : Sequencer) (h : SeqMove s.seq q) (e : t.seq = { q with state := .unclaimed, claimant := none, lines := [] })
  | load (p : Port) (es : List LineEntry) (h : s.seq.claimant = some p) (ht : s.seq.state ≠ .tracking)
      (hl : s.seq.lines.length + es.length ≤ 512) (e : t.seq = { s.seq with lines := s.seq.lines ++ es, state := .loading })
  | clear (p : Port) (h : s.seq.claimant = some p) (ht : s.seq.state ≠ .tracking) (e : t.seq = { s.seq with lines := [], state := .loading })
  | start (p : Port) (dir : ScanDir) (first : Nat) (strays : Bool) (w : WindowStatus)
      (h : s.seq.claimant = some p) (ht : s.seq.state ≠ .tracking) (hf : first < s.seq.lines.length)
      (e : t.seq = { s.seq.start dir first strays with window := w })

theorem haltIf_seqMove (c : HaltCause) (s : State) : SeqMove s.seq (haltIfScanning c s).seq := by
  unfold haltIfScanning; split
  · exact halt_seqMove _ _
  · exact .refl _

theorem lossOf_seqMove (c : Chan) (d : LossDetail) (l : Byte) (s : State) : SeqMove s.seq (lossOf c d l s).seq := by
  exact departure_seqMove c (lossBefore c d l s)

theorem Effect.seqAct {s t : State} (h : Effect s t) : SeqAct s t := by
  have same : ∀ t : State, t.seq = s.seq → SeqAct s t := fun t h => .moves (by rw [h]; exact .refl _)
  cases h with
  | same => exact same _ rfl
  | frame c f =>
    refine .moves ?_
    rcases goodFrame_cases c f s with ⟨-, ⟨d, h⟩ | h⟩ | ⟨-, ⟨r, h⟩ | h⟩ | ⟨-, -, h⟩ <;> rw [h]
    · exact departure_seqMove c (lossBefore c d f.handled (noteFrame c f s))
    · exact updateBlocks_seqMove c (acceptBefore c f (noteFrame c f s))
    · exact .refl _
    · unfold acquisition
      split <;> exact .refl _
    · exact .refl _
  | edge i =>
    refine .moves ?_
    unfold takeEdge handEdge
    split
    · split
      · exact sequencerEdge_seqMove ((s.onInput i (TrigInput.acceptEdge s.time)).onInputTotals i _)
      · exact hand_seqMove _ ((s.onInput i (TrigInput.acceptEdge s.time)).onInputTotals i _)
    · exact .refl _
  | settled c h => exact same _ (settleEntered_armsOnly c _).seq
  | pinExpired c p h => exact same _ (expirePin_storeOnly c p s).seq
  | disable c p h =>
    refine .moves ?_
    have : SeqMove s.seq (disableChannel c s).seq := by
      unfold disableChannel; dsimp only
      split
      · exact departure_seqMove c ((s.onChan c ChannelUnit.disable).onStill c StillTimer.leave)
      · exact .refl _
    exact this
  | write p m w o => exact same _ (writeComp_storeOnly p _ w o s).seq
  | pin p m hold => exact same _ (onComps_storeOnly (fun _ => CompEntry.pin p s.time hold) _ s).seq
  | unpin p m => exact same _ (removePins_storeOnly _ _ s).seq
  | capture p => exact .moves (hand_seqMove _ _)
  | armFires p m => exact same _ (fireArm_seq p m _)
  | claim p h => exact .claim p h rfl
  | release p h => exact .ended _ (haltIf_seqMove .stopped s) rfl
  | force p h => exact .ended _ (haltIf_seqMove .forced s) rfl
  | load p es h ht hl => exact .load p es h ht hl rfl
  | clearLines p h ht => exact .clear p h ht rfl
  | start p dir first strays w h ht hf hss => exact .start p dir first strays w h ht hf rfl
  | stop p h ht => exact .moves (halt_seqMove _ _)
  | clearPoints p all ch => cases ch <;> exact same _ rfl
  | configure c g ch p h => cases ch <;> exact same _ rfl
  | input i en e h ch p => cases ch <;> exact same _ rfl
  | resetClaim p =>
    unfold Machine.resetClaim
    split
    · exact .ended _ (haltIf_seqMove .claimLost s) rfl
    · exact same _ rfl
  | resetPins p => exact same _ (removePins_storeOnly _ _ s).seq
  | _ => exact same _ rfl

theorem effect_keeps_decisions (s t : State) (h : Effect s t) (hs : DecisionsHold s) : DecisionsHold t := by
  show Sequencer.DecisionsAdd t.seq
  have hs : Sequencer.DecisionsAdd s.seq := hs
  cases h.seqAct with
  | moves h => exact h.decisionsAdd hs
  | claim p h e => rw [e]; intro h; cases h
  | ended q h e => rw [e]; intro h; cases h
  | load p es h ht hl e => rw [e]; intro h; cases h
  | clear p h ht e => rw [e]; intro h; cases h
  | start p dir first strays w h ht hf e =>
    rw [e]; intro _
    refine ⟨hf, hf, ?_, ?_⟩
    · cases dir <;> exact Nat.le_refl _
    · cases dir <;> simp [Sequencer.start, Sequencer.advanced]

end Sys2Proof.Machine
end

