-- ==== Sys2Proof/Laws/ScanKeeps.lean ====
section
/-! SUPPORT. Laws/ScanKeeps.lean: that every effect keeps the claim, the RUN pins and the frame of a scan together. -/

namespace Sys2Proof.Machine

def Sequencer.ClaimHolds (q : Sequencer) : Prop :=
  (q.claimant = none ↔ q.state = .unclaimed) ∧ (q.claimant = none → q.lines = []) ∧
  (q.state = .tracking → q.current < q.lines.length) ∧ q.lines.length ≤ 512

theorem SeqMove.claimHolds {q r : Sequencer} (h : SeqMove q r) (hq : Sequencer.ClaimHolds q) : Sequencer.ClaimHolds r := by
  induction h with
  | counts q lost stray => exact hq
  | window q w => exact hq
  | advance q j n h =>
    obtain ⟨a, b, c, d⟩ := hq
    refine ⟨a, b, ?_, d⟩
    intro ht
    have := c ht
    unfold Sequencer.nextIndex at h
    dsimp only at *
    cases hd : q.dir <;> rw [hd] at h <;> dsimp only at h <;> split at h <;> cases h <;> omega
  | pulse q n => exact hq
  | halted q cs m l h =>
    obtain ⟨a, b, c, d⟩ := hq
    exact ⟨⟨fun x => absurd x h, by simp⟩, b, by simp, d⟩
  | trans _ _ ih1 ih2 => exact ih2 (ih1 hq)

theorem effect_keeps_claim (s t : State) (h : Effect s t) (hs : Sequencer.ClaimHolds s.seq) : Sequencer.ClaimHolds t.seq := by
  obtain ⟨a, b, c, d⟩ := hs
  cases h.seqAct with
  | moves h => exact h.claimHolds ⟨a, b, c, d⟩
  | claim p h e => rw [e]; exact ⟨by simp, by simp, by simp, d⟩
  | ended q h e => rw [e]; exact ⟨by simp, by simp, by simp, by simp⟩
  | load p es h ht hl e => rw [e]; exact ⟨by simp [h], by simp [h], by simp, by simpa using hl⟩
  | clear p h ht e => rw [e]; exact ⟨by simp [h], by simp, by simp, by simp⟩
  | start p dir first strays w h ht hf e =>
    rw [e]; exact ⟨by simp [h, Sequencer.start], by simp [h, Sequencer.start], fun _ => hf, d⟩

def RunPinsHold (s : State) : Prop := ∀ c p, (s.comp.get c).pins.get p = .run ↔
    s.seq.state = .tracking ∧ s.seq.claimant = some p ∧ c.feedsLine = true
def ScanFrameStands (s : State) : Prop := s.seq.state = .tracking → ∀ p, s.seq.claimant = some p → FrameStands s p
def PinsAndFrame (s : State) : Prop := RunPinsHold s ∧ ScanFrameStands s

theorem PinsAndFrame.keep {s t : State} (h : PinsAndFrame s) (h1 : t.seq.state = s.seq.state) (h2 : t.seq.claimant = s.seq.claimant)
    (h3 : t.comp = s.comp) (h4 : ∀ c, (t.chans.get c).state = (s.chans.get c).state) (h5 : t.origins = s.origins) : PinsAndFrame t := by
  unfold PinsAndFrame RunPinsHold ScanFrameStands FrameStands at *
  rw [h1, h2, h3, h5]
  simp only [h4]
  exact h

theorem PinsAndFrame.scene {s t : State} (h : PinsAndFrame s) (h1 : t.seq.state = s.seq.state) (h2 : t.seq.claimant = s.seq.claimant)
    (h3 : t.comp = s.comp) (k : SceneKept s t) : PinsAndFrame t :=
  h.keep h1 h2 h3 (fun c => by rw [k.chans]) k.origins

def NoRunPins (s : State) : Prop := ∀ c p, (s.comp.get c).pins.get p ≠ .run

theorem PinsAndFrame.off {s : State} (h : s.seq.state ≠ .tracking) (hn : NoRunPins s) : PinsAndFrame s :=
  ⟨fun c p => ⟨fun x => absurd x (hn c p), fun x => absurd x.1 h⟩, fun x => absurd x h⟩

theorem PinsAndFrame.noRun {s : State} (h : PinsAndFrame s) (hn : s.seq.state ≠ .tracking) : NoRunPins s :=
  fun c p x => hn ((h.1 c p).1 x).1

theorem removePins_pins (p : Port) (cs : List Chan) (hn : cs.Nodup) (s : State) (c : Chan) :
    ((removePins p cs s).comp.get c).pins = if c ∈ cs then (s.comp.get c).pins.set p .none else (s.comp.get c).pins := by
  unfold removePins applyDueSlots
  dsimp only
  rw [announceApplied_comp, onComps_get (fun _ => CompEntry.applySlot) _ (hn.filter _),
    onComps_get (fun _ => CompEntry.setPin p .none) cs hn]
  split <;> (try simp only [applySlot_pins]) <;> split <;> simp [CompEntry.setPin]

theorem hand_cd (src : Source) (s : State) (h : PinsAndFrame s) : PinsAndFrame (hand src s) := by
  obtain ⟨n, hn⟩ := hand_seq src s
  exact h.scene (by rw [hn]) (by rw [hn]) (hand_comp _ _) (hand_scene _ _)

theorem halt_noRun {cause : HaltCause} {s : State} (hs : RunPinsHold s) {p : Port} (h : s.seq.claimant = some p) :
    NoRunPins (halt cause s) := by
  intro c q hx
  rw [halt_comp h, removePins_pins p _ (by decide)] at hx
  split at hx
  · rw [PerPort.get_set] at hx
    split at hx
    · cases hx
    · rename_i hq
      have := (hs c q).1 hx
      rw [h] at this
      exact hq (by simpa using this.2.1.symm)
  · rename_i hc
    have := ((hs c q).1 hx).2.2
    cases c <;> first | (exact absurd this (by decide)) | exact hc (by decide)

theorem halt_cd (cause : HaltCause) (s : State) (h : RunPinsHold s) (hc : s.seq.claimant ≠ none) : PinsAndFrame (halt cause s) := by
  cases hp : s.seq.claimant with
  | none => exact absurd hp hc
  | some p =>
    refine PinsAndFrame.off ?_ (halt_noRun h hp)
    obtain ⟨n, hn⟩ := halt_seq (cause := cause) hp
    rw [hn]; simp

theorem passEntry_cd (p : Port) (e : EntryRef) (s : State) (h : PinsAndFrame s) : PinsAndFrame (passEntry p e s) := by
  obtain ⟨m, hm⟩ := passEntry_seq p e s
  exact h.scene (by rw [hm]) (by rw [hm]) (passEntry_comp _ _ _) (passEntry_scene _ _ _)

theorem evalWindow_cd (p : Port) (n : Nat) (x : Int) : ∀ s : State, PinsAndFrame s → s.seq.claimant ≠ none → PinsAndFrame (evalWindow p n x s) := by
  induction n with
  | zero => exact fun _ h _ => h
  | succ n ih =>
    intro s h hc
    unfold evalWindow
    cases s.seq.lines[s.seq.current]? with
    | none => exact h
    | some e =>
      dsimp only
      split
      · have k := passEntry_cd p ⟨s.seq.current, e.tag, e.nominal⟩ s h
        obtain ⟨m, hm⟩ := passEntry_seq p ⟨s.seq.current, e.tag, e.nominal⟩ s
        have hcc : (passEntry p ⟨s.seq.current, e.tag, e.nominal⟩ s).seq.claimant ≠ none := by rw [hm]; exact hc
        generalize passEntry p ⟨s.seq.current, e.tag, e.nominal⟩ s = u at k hcc ⊢
        cases s.seq.nextIndex with
        | none => exact halt_cd _ _ k.1 hcc
        | some j => exact ih (u.onSeq _) (k.keep rfl rfl rfl (fun _ => rfl) rfl) hcc
      · split <;> exact h.keep rfl rfl rfl (fun _ => rfl) rfl

theorem sequencerUpdate_cd (s : State) (h : PinsAndFrame s) : PinsAndFrame (sequencerUpdate s) := by
  unfold sequencerUpdate
  split
  · cases hp : s.seq.claimant with
    | none => exact h
    | some p =>
      dsimp only
      cases s.line p with
      | none => exact h
      | some l => exact evalWindow_cd p _ _ s h (by simp [hp])
  · exact h

theorem PointsOnly.cd {s t : State} (k : PointsOnly s t) (h : PinsAndFrame s) : PinsAndFrame t :=
  h.scene (by rw [k.seq]) (by rw [k.seq]) k.comp k.scene

theorem updateBlocks_cd (c : Chan) (s : State) (hs : PinsAndFrame s) : PinsAndFrame (updateBlocks c s) := by
  rcases updateBlocks_chain c s with ⟨ks, ks', n, h, -⟩ | ⟨ks, h⟩ <;> rw [h]
  · have k := sequencerUpdate_cd _ ((evalSlots_pointsOnly c ks s).cd hs)
    have k2 := (evalSlots_pointsOnly c ks' _).cd k
    exact k2.keep rfl rfl rfl (fun _ => rfl) rfl
  · exact (evalSlots_pointsOnly c ks s).cd hs

theorem sequencerEdge_cd (s : State) (h : PinsAndFrame s) : PinsAndFrame (sequencerEdge s) := by
  unfold sequencerEdge
  split
  · split
    · unfold linePulse
      dsimp only
      generalize hu : State.onSeqTotals (s.onSeq _) _ = u
      exact hand_cd _ u (by rw [← hu]; exact h.keep rfl rfl rfl (fun _ => rfl) rfl)
    · unfold strayPulse
      dsimp only
      generalize hu : State.onSeqTotals (s.onSeq _) _ = u
      have k : PinsAndFrame u := by rw [← hu]; exact h.keep rfl rfl rfl (fun _ => rfl) rfl
      split
      · exact hand_cd _ u k
      · exact k
  · exact h

/-- a departure from TRACKING: everything but channel c's state as before -/
theorem departure_cd (c : Chan) (s u : State) (h : PinsAndFrame s) (hq : Sequencer.ClaimHolds s.seq) (h1 : u.seq = s.seq) (h2 : u.comp = s.comp)
    (h3 : ∀ d, d ≠ c → (u.chans.get d).state = (s.chans.get d).state) (h4 : u.origins = s.origins) : PinsAndFrame (departure c u) := by
  unfold departure sequencerDeparture
  generalize hv : cancelArms c (pointsOnChannel c u) = v
  have e1 : v.seq = u.seq := by rw [← hv]; rfl
  have e2 : v.comp = u.comp := by rw [← hv]; rfl
  have e3 : v.chans = u.chans := by rw [← hv]; rfl
  have e4 : v.origins = u.origins := by rw [← hv]; rfl
  have hr : RunPinsHold v := by
    unfold RunPinsHold; rw [e1, e2, h1, h2]; exact h.1
  split
  · rename_i hc
    simp only [Bool.and_eq_true, beq_iff_eq] at hc
    refine halt_cd _ _ hr ?_
    rw [e1, h1]
    intro hx
    have := hq.1.1 hx
    rw [e1, h1, this] at hc
    exact absurd hc.2 (by simp)
  · rename_i hc
    refine ⟨hr, ?_⟩
    intro ht p hp d hd
    rw [e1, h1] at ht hp
    have hne : d ≠ c := by
      intro hx; subst hx
      apply hc
      rw [e1, h1, ht, hd]; rfl
    have := h.2 ht p hp d hd
    rw [e3, e2, e4, h3 d hne, h2, h4]
    exact this

theorem cd_comp {s t : State} (h : PinsAndFrame s) (h1 : t.seq = s.seq) (k1 : t.chans = s.chans) (k2 : t.origins = s.origins)
    (hr : ∀ c p, (t.comp.get c).pins.get p = .run ↔ (s.comp.get c).pins.get p = .run)
    (hw : ∀ c p, (s.comp.get c).pins.get p = .run → (t.comp.get c).weight = (s.comp.get c).weight) : PinsAndFrame t := by
  refine ⟨?_, ?_⟩
  · intro c p; rw [hr, h1]; exact h.1 c p
  · intro ht p hp c hc
    rw [h1] at ht hp
    rw [k1, k2, hw c p ((h.1 c p).2 ⟨ht, hp, hc⟩)]
    exact h.2 ht p hp c hc

theorem unpinned_of_run {e : CompEntry} {p : Port} (h : e.pins.get p = .run) : e.unpinned = false := by
  simp only [CompEntry.unpinned, List.all_eq_false]
  exact ⟨p, by simp, by simp [h]⟩

theorem removeTimed_cd (p : Port) (cs : List Chan) (hn : cs.Nodup) (s : State) (ht : ∀ c ∈ cs, (s.comp.get c).timedBy p = true)
    (h : PinsAndFrame s) : PinsAndFrame (removePins p cs s) := by
  have k := removePins_storeOnly p cs s
  have hne : ∀ c ∈ cs, (s.comp.get c).pins.get p ≠ .run := by
    intro c hc hx
    have := ht c hc
    simp [CompEntry.timedBy, hx] at this
  refine cd_comp h k.seq k.scene.chans k.scene.origins ?_ ?_
  · intro c q
    rw [removePins_pins p cs hn]
    split
    · rename_i hc
      rw [PerPort.get_set]
      split
      · rename_i hq; subst hq
        exact ⟨by simp, fun x => absurd x (hne c hc)⟩
      · exact Iff.rfl
    · exact Iff.rfl
  · intro c q hx
    unfold removePins applyDueSlots
    dsimp only
    rw [announceApplied_comp, onComps_get (fun _ => CompEntry.applySlot) _ (hn.filter _)]
    have hu : ((cs.foldl (fun t c => t.onComp c (CompEntry.setPin p .none)) s).comp.get c).unpinned = false ∧
      ((cs.foldl (fun t c => t.onComp c (CompEntry.setPin p .none)) s).comp.get c).weight = (s.comp.get c).weight := by
      rw [onComps_get (fun _ => CompEntry.setPin p .none) cs hn]
      split
      · rename_i hc
        refine ⟨?_, rfl⟩
        apply unpinned_of_run (p := q)
        simp only [CompEntry.setPin, PerPort.get_set]
        split
        · rename_i hq; subst hq; exact absurd hx (hne c hc)
        · exact hx
      · exact ⟨unpinned_of_run hx, rfl⟩
    rw [if_neg]
    · exact hu.2
    · simp only [List.mem_filter, State.slotDue, hu.1]
      simp

theorem timedPins_nodup (s : State) (p : Port) (m : List Chan) (h : m.Nodup) : (s.timedPins p m).Nodup := h.filter _

theorem timedPins_timed (s : State) (p : Port) (m : List Chan) : ∀ c ∈ s.timedPins p m, (s.comp.get c).timedBy p = true := by
  intro c hc; exact (List.mem_filter.mp hc).2

theorem haltIf_cd (cause : HaltCause) (s : State) (h : PinsAndFrame s) (hq : Sequencer.ClaimHolds s.seq) : PinsAndFrame (haltIfScanning cause s) ∧ (haltIfScanning cause s).seq.state ≠ .tracking := by
  unfold haltIfScanning State.scanning
  split
  · rename_i ht
    have ht : s.seq.state = .tracking := by simpa using ht
    have hc : s.seq.claimant ≠ none := by
      intro hx
      have := hq.1.1 hx
      rw [ht] at this; cases this
    refine ⟨halt_cd _ _ h.1 hc, ?_⟩
    cases hp : s.seq.claimant with
    | none => exact absurd hp hc
    | some p =>
      obtain ⟨n, hn⟩ := halt_seq (cause := cause) hp
      rw [hn]; simp
  · rename_i ht
    exact ⟨h, by simpa using ht⟩

theorem endClaim_cd (cause : HaltCause) (s : State) (h : PinsAndFrame s) (hq : Sequencer.ClaimHolds s.seq) : PinsAndFrame (endClaim (haltIfScanning cause s)) := by
  obtain ⟨a, b⟩ := haltIf_cd cause s h hq
  have := a.noRun b
  exact PinsAndFrame.off (by simp [endClaim]) this

theorem acquisition_facts (c : Chan) (f : Sample) (s : State) :
    (acquisition c f s).seq = s.seq ∧ (acquisition c f s).comp = s.comp ∧
    (∀ d, d ≠ c → ((acquisition c f s).chans.get d) = (s.chans.get d)) ∧
    (∀ d, d ≠ c → ∀ p, (((acquisition c f s).origins.get p).get d) = ((s.origins.get p).get d)) := by
  unfold acquisition
  split
  · refine ⟨rfl, rfl, ?_, fun _ _ _ => rfl⟩
    intro d hd
    show (s.chans.modify c _).get d = _
    rw [PerChan.get_modify, if_neg hd]
  · refine ⟨rfl, rfl, ?_, ?_⟩
    · intro d hd
      show (s.chans.modify c _).get d = _
      rw [PerChan.get_modify, if_neg hd]
    · intro d hd p
      show ((PerPort.ofFn (fun p => (s.origins.get p).modify c _)).get p).get d = _
      rw [PerPort.get_ofFn, PerChan.get_modify, if_neg hd]

theorem cd_frame (c : Chan) (f : Sample) (s : State) (h : PinsAndFrame s) (hq : Sequencer.ClaimHolds s.seq) : PinsAndFrame (goodFrame c f s) := by
  have hn : PinsAndFrame (noteFrame c f s) := h.keep rfl rfl rfl (fun d => by
    simp only [noteFrame, onChanTotals_chans, onChan_chans, PerChan.get_modify]; split <;> rfl) rfl
  have hst : ∀ d, ((noteFrame c f s).chans.get d).state = (s.chans.get d).state := fun d => by
    simp only [noteFrame, onChanTotals_chans, onChan_chans, PerChan.get_modify]; split <;> rfl
  rcases goodFrame_cases c f s with ⟨-, ⟨d, k⟩ | k⟩ | ⟨ha, ⟨r, k⟩ | k⟩ | ⟨-, -, k⟩ <;> rw [k]
  · exact departure_cd c (noteFrame c f s) _ hn hq rfl rfl (fun e he => by
      show (((noteFrame c f s).chans.modify c _).get e).state = _
      rw [PerChan.get_modify, if_neg he]) rfl
  · exact updateBlocks_cd c _ (hn.keep rfl rfl rfl (fun e => by
      show (((noteFrame c f s).chans.modify c _).get e).state = _
      rw [PerChan.get_modify]; split <;> rfl) rfl)
  · exact hn.keep rfl rfl rfl (fun e => by
      show (((noteFrame c f s).chans.modify c _).get e).state = _
      rw [PerChan.get_modify]; split <;> rfl) rfl
  · obtain ⟨a1, a2, a3, a4⟩ := acquisition_facts c f (noteFrame c f s)
    generalize noteFrame c f s = u at *
    refine ⟨?_, ?_⟩
    · unfold RunPinsHold; rw [a1, a2]; exact hn.1
    · intro ht p hp d hd
      rw [a1] at ht hp
      have := hn.2 ht p hp d hd
      have hdc : d ≠ c := by
        intro hx; subst hx
        rw [hst, ha] at this
        exact absurd this.1 (by simp)
      rw [a2, a3 d hdc, a4 d hdc]
      exact this
  · exact hn

theorem cd_origins {s t : State} (h : PinsAndFrame s) (h1 : t.seq = s.seq) (k1 : t.chans = s.chans) (k2 : t.comp = s.comp)
    (ho : ∀ p c, ((t.origins.get p).get c).status ≠ .stale ∨ (t.origins.get p).get c = (s.origins.get p).get c) : PinsAndFrame t := by
  refine ⟨?_, ?_⟩
  · unfold RunPinsHold; rw [h1, k2]; exact h.1
  · intro ht p hp c hc
    rw [h1] at ht hp
    obtain ⟨a, b, d⟩ := h.2 ht p hp c hc
    rw [k1, k2]
    refine ⟨a, b, ?_⟩
    rcases ho p c with x | x
    · exact x
    · rw [x]; exact d

theorem foldl_set_status (f : Chan → Origin) (hf : ∀ c, (f c).status ≠ .stale) (cs : List Chan) (os : PerChan Origin) (c : Chan) :
    ((cs.foldl (fun os c => os.set c (f c)) os).get c).status ≠ .stale ∨ (cs.foldl (fun os c => os.set c (f c)) os).get c = os.get c := by
  induction cs generalizing os with
  | nil => exact .inr rfl
  | cons d cs ih =>
    rw [List.foldl_cons]
    rcases ih (os.set d (f d)) with h | h
    · exact .inl h
    · rw [h, PerChan.get_set]
      split
      · exact .inl (hf d)
      · exact .inr rfl

theorem effect_keeps_pinsAndFrame (s t : State) (h : Effect s t) (hs : PinsAndFrame s) (hq : Sequencer.ClaimHolds s.seq) : PinsAndFrame t := by
  cases h with
  | same => exact hs
  | frame c f => exact cd_frame c f s hs hq
  | edge i =>
    unfold takeEdge handEdge
    split
    · have k : PinsAndFrame ((s.onInput i (TrigInput.acceptEdge s.time)).onInputTotals i (fun t => { t with accepted := t.accepted + 1 })) :=
        hs.keep rfl rfl rfl (fun _ => rfl) rfl
      split
      · exact sequencerEdge_cd _ k
      · exact hand_cd _ _ k
    · exact hs.keep rfl rfl rfl (fun _ => rfl) rfl
  | settled c h =>
    have k := settleEntered_armsOnly c (s.onStill c (StillTimer.expire s.time))
    exact hs.keep (by rw [k.seq]; rfl) (by rw [k.seq]; rfl) k.comp (fun _ => by rw [k.scene.chans]; rfl) k.scene.origins
  | pinExpired c p h =>
    have ht : (s.comp.get c).timedBy p = true := by
      unfold State.pinDue at h
      unfold CompEntry.timedBy
      split at h
      · rfl
      · cases h
    have h2 := removeTimed_cd p [c] (by simp) s (by simpa using ht) hs
    have hc : (expirePin c p s).comp = (removePins p [c] s).comp := by
      unfold expirePin removePins applyDueSlots
      dsimp only
      rw [announceApplied_comp, announceApplied_comp]
      simp only [List.foldl_cons, List.foldl_nil]
      have : (post Notice.pinExpired p (s.onComp c (CompEntry.setPin p Pin.none))).slotDue = (s.onComp c (CompEntry.setPin p Pin.none)).slotDue := rfl
      rw [this]
      simp only [List.filter_cons, List.filter_nil]
      split <;> rfl
    have k1 := expirePin_storeOnly c p s
    have k2 := removePins_storeOnly p [c] s
    exact h2.keep (by rw [k1.seq, k2.seq]) (by rw [k1.seq, k2.seq]) hc (fun _ => by rw [k1.scene.chans, k2.scene.chans]) (by rw [k1.scene.origins, k2.scene.origins])
  | disable c p h =>
    have : PinsAndFrame (disableChannel c s) := by
      unfold disableChannel; dsimp only
      split
      · exact departure_cd c s _ hs hq rfl rfl (fun e he => by
          show ((s.chans.modify c _).get e).state = _
          rw [PerChan.get_modify, if_neg he]) rfl
      · rename_i hnt
        refine ⟨hs.1, ?_⟩
        intro ht p hp d hd
        have := hs.2 ht p hp d hd
        have hdc : d ≠ c := by
          intro hx; subst hx; exact hnt this.1
        show ((s.chans.modify c _).get d).state = _ ∧ _
        rw [PerChan.get_modify, if_neg hdc]; exact this
    exact this.keep rfl rfl rfl (fun _ => rfl) rfl
  | write p m w o =>
    have k := writeComp_storeOnly p (maskChans m) w o s
    have hc : ∀ c, (writeComp p (maskChans m) w o s).comp.get c = if c ∈ maskChans m then (s.comp.get c).write p w o else s.comp.get c := by
      intro c
      unfold writeComp
      dsimp only
      rw [announceApplied_comp]
      exact onComps_get (fun _ => CompEntry.write p w o) _ (maskChans_nodup m) s c
    refine cd_comp hs k.seq k.scene.chans k.scene.origins ?_ ?_
    · intro c q; rw [hc]; split
      · unfold CompEntry.write; split <;> exact Iff.rfl
      · exact Iff.rfl
    · intro c q hx; rw [hc]; split
      · unfold CompEntry.write; rw [unpinned_of_run hx]; rfl
      · rfl
  | pin p m hold =>
    have k := onComps_storeOnly (fun _ => CompEntry.pin p s.time hold) (maskChans m) s
    have hc := onComps_get (fun _ => CompEntry.pin p s.time hold) _ (maskChans_nodup m) s
    have hp : ∀ (e : CompEntry) q, ((e.pin p s.time hold).pins.get q = .run ↔ e.pins.get q = .run) ∧ (e.pin p s.time hold).weight = e.weight := by
      intro e q
      unfold CompEntry.pin
      cases he : e.pins.get p with
      | run => exact ⟨Iff.rfl, rfl⟩
      | none =>
        refine ⟨?_, rfl⟩
        simp only [CompEntry.setPin, PerPort.get_set]
        split
        · rename_i hx; subst hx; rw [he]; simp
        · exact Iff.rfl
      | timed a b =>
        refine ⟨?_, rfl⟩
        simp only [CompEntry.setPin, PerPort.get_set]
        split
        · rename_i hx; subst hx; rw [he]; simp
        · exact Iff.rfl
    refine cd_comp hs k.seq k.scene.chans k.scene.origins ?_ ?_
    · intro c q; rw [hc]; split
      · exact (hp _ q).1
      · exact Iff.rfl
    · intro c q hx; rw [hc]; split
      · exact (hp _ q).2
      · rfl
  | unpin p m => exact removeTimed_cd p _ (timedPins_nodup s p _ (maskChans_nodup m)) s (timedPins_timed s p _) hs
  | bind p m v hm ht =>
    refine cd_origins hs rfl rfl rfl ?_
    intro q c
    show (((s.origins.modify p _).get q).get c).status ≠ .stale ∨ ((s.origins.modify p _).get q).get c = _
    rw [PerPort.get_modify]
    split
    · exact foldl_set_status (fun c => boundOrigin (s.chans.get c) v) (fun c => by simp [boundOrigin]) (maskChans m) _ c
    · exact .inr rfl
  | free p m hm =>
    refine cd_origins hs rfl rfl rfl ?_
    intro q c
    show (((s.origins.modify p _).get q).get c).status ≠ .stale ∨ ((s.origins.modify p _).get q).get c = _
    rw [PerPort.get_modify]
    split
    · exact foldl_set_status (fun c => Origin.free) (fun c => by simp [Origin.free]) (maskChans m) _ c
    · exact .inr rfl
  | capture p => exact hand_cd _ _ hs
  | armFires p m =>
    have k := fireArm_scene p m { s with arms := s.arms.set p (some m) }
    exact hs.keep (by rw [fireArm_seq]) (by rw [fireArm_seq]) (fireArm_comp _ _ _) (fun _ => by rw [k.chans]) k.origins
  | claim p h =>
    have : s.seq.state ≠ .tracking := by
      rw [hq.1.1 h]; simp
    exact PinsAndFrame.off (by simp [postOthers]) (hs.noRun this)
  | release p h => exact (endClaim_cd .stopped s hs hq).keep rfl rfl rfl (fun _ => rfl) rfl
  | force p h => exact (endClaim_cd .forced s hs hq).keep rfl rfl rfl (fun _ => rfl) rfl
  | load p es h ht hl => exact PinsAndFrame.off (by simp [postOthers]) (hs.noRun ht)
  | clearLines p h ht => exact PinsAndFrame.off (by simp [postOthers]) (hs.noRun ht)
  | start p dir first strays w h ht hf hss =>
    have hnr := hs.noRun ht
    have hc : (startScan p dir first strays w s).comp = ((s.onComp .ch0 (CompEntry.setPin p .run)).onComp .ch1 (CompEntry.setPin p .run)).comp := rfl
    have hsq : (startScan p dir first strays w s).seq = { s.seq.start dir first strays with window := w } := rfl
    have hcg : ∀ c, (startScan p dir first strays w s).comp.get c = if c.feedsLine then (s.comp.get c).setPin p .run else s.comp.get c := by
      intro c; rw [hc]; cases c <;> rfl
    refine ⟨?_, ?_⟩
    · intro c q
      rw [hcg, hsq]
      show _ ↔ SeqState.tracking = .tracking ∧ s.seq.claimant = some q ∧ _
      rw [h]
      split
      · rename_i hf
        simp only [CompEntry.setPin, PerPort.get_set]
        split
        · rename_i hx; subst hx; simp [hf]
        · rename_i hx
          constructor
          · intro y; exact absurd y (hnr c q)
          · intro y; exact absurd (by simpa using y.2.1.symm) hx
      · rename_i hf
        constructor
        · intro y; exact absurd y (hnr c q)
        · intro y; exact absurd y.2.2 hf
    · intro _ q hp c hcf
      have hp : s.seq.claimant = some q := hp
      rw [h] at hp; cases hp
      obtain ⟨a, b, d⟩ := hss c hcf
      refine ⟨a, ?_, d⟩
      rw [hcg, if_pos hcf]; exact b
  | stop p h ht => exact halt_cd _ _ hs.1 (by simp [h])
  | clearPoints p all ch => cases ch <;> exact hs.keep rfl rfl rfl (fun _ => rfl) rfl
  | configure c g ch p h =>
    cases ch <;> exact hs.keep rfl rfl rfl (fun e => by
      show ((s.chans.modify c _).get e).state = _
      rw [PerChan.get_modify]; split <;> rfl) rfl
  | enable c p h =>
    refine ⟨hs.1, ?_⟩
    intro ht p hp d hd
    have := hs.2 ht p hp d hd
    have hdc : d ≠ c := by
      intro hx; subst hx; rw [h] at this; exact absurd this.1 (by simp)
    show ((s.chans.modify c _).get d).state = _ ∧ _
    rw [PerChan.get_modify, if_neg hdc]; exact this
  | recover c m p h =>
    refine ⟨hs.1, ?_⟩
    intro ht p hp d hd
    have := hs.2 ht p hp d hd
    have hdc : d ≠ c := by
      intro hx; subst hx; rw [h] at this; exact absurd this.1 (by simp)
    show ((s.chans.modify c _).get d).state = _ ∧ _
    rw [PerChan.get_modify, if_neg hdc]; exact this
  | input i en e h ch p => cases ch <;> exact hs.keep rfl rfl rfl (fun _ => rfl) rfl
  | resetClaim p =>
    unfold Machine.resetClaim
    split
    · exact endClaim_cd .claimLost s hs hq
    · exact hs
  | resetPins p => exact removeTimed_cd p _ (timedPins_nodup s p _ (by decide)) s (timedPins_timed s p _) hs
  | resetContext p =>
    refine cd_origins hs rfl rfl rfl ?_
    intro q c
    show (((s.origins.set p _).get q).get c).status ≠ .stale ∨ ((s.origins.set p _).get q).get c = _
    rw [PerPort.get_set]
    split
    · left; simp [Origin.free]
    · exact .inr rfl
  | _ => exact hs.keep rfl rfl rfl (fun _ => rfl) rfl

theorem scanHolds_iff (s : State) : ScanHolds s ↔ Sequencer.ClaimHolds s.seq ∧ PinsAndFrame s := by
  unfold ScanHolds Sequencer.ClaimHolds PinsAndFrame RunPinsHold ScanFrameStands
  tauto

/-- Every effect keeps the claim and the scan together (R125, R129, R133, R134). -/
theorem effect_keeps_scan (s t : State) (h : Effect s t) (hs : ScanHolds s) : ScanHolds t := by
  rw [scanHolds_iff] at hs ⊢
  exact ⟨effect_keeps_claim s t h hs.1, effect_keeps_pinsAndFrame s t h hs.2 hs.1⟩

end Sys2Proof.Machine
end

