-- ==== Sys2Proof/Laws/Spelled.lean ====
section
/-! SUPPORT. Laws/Spelled.lean: what the checks, reads and small operations of the requests give on operands that are
spelled out: one lemma for each, for the proofs to cite. -/

namespace Sys2Proof.Machine

/-- The step of R7, as the statements form it, is the step the unit takes. -/
theorem phaseStep_formed {cfg : ChanConfig} {a b : BitVec 10} {st : Int} (h : StepFormed cfg.sense b a st) :
    phaseStep cfg a b = st := by
  obtain ⟨w, h1, h2, h3, h4⟩ := h
  have : (a - b).toInt = w := by
    rw [BitVec.toInt_sub]
    simp only [Int.bmod, BitVec.toInt_eq_toNat_cond]
    have := a.isLt; have := b.isLt
    split <;> split <;> omega
  unfold phaseStep
  rw [this]; subst h4; cases cfg.sense <;> rfl

/-- A frame is in sequence exactly where the unit finds no gap (R4). -/
theorem inSequence_iff {u : ChannelUnit} {f : Sample} : InSequence u f ↔ u.gap f = false := by
  unfold InSequence ChannelUnit.gap
  cases u.expected <;> simp

/-- The level a frame is handled with is the level it is judged by (R3). -/
theorem handled_judged (f : Sample) : f.handled.toNat = f.judged := by
  unfold Sample.handled Sample.judged; split <;> rfl

/-- What every good frame does first (R3, R4). -/
theorem noteFrame_noted (c : Chan) (f : Sample) (s : State) : noteFrame c f s = noted c f s := by
  unfold noteFrame noted; congr 1; funext t; split <;> simp_all

/-- The unit of a noted frame. -/
@[simp] theorem noted_chan (c f s) : (noted c f s).chans.get c = { s.chans.get c with expected := some (f.seq + 1)
    } := by
  unfold noted; simp

/-- A noted frame leaves the stillness timers. -/
@[simp] theorem noted_still (c f s) : (noted c f s).still = s.still := rfl

/-- A noted frame leaves the time base. -/
@[simp] theorem noted_time (c f s) : (noted c f s).time = s.time := rfl

/-- A request that its port takes at once leaves what its taking leaves, with the reply at its port. -/
theorem exec_answers {k : RequestKind} (hk : k ≠ .portReset) {r : Req} {s t : State} {st : Status} {b : List Byte}
    (hr : Ready r s) (h : takeKind k r.port r.payload s = .answered ⟨st, b⟩ t) :
    exec (k.command r) s = .next (replied r st b t) := by
  have := requestStep_kind hk hr h
  rw [← this]
  cases k <;> rfl

/-- When a stillness expiry is due (R30). -/
theorem stillness_due_iff (s : State) (c : Chan) : (s.still.get c).due s.time = true ↔ ∃ n, (s.still.get c).state
    = .moving ∧ (s.still.get c).timer = some n ∧ 1000 * n.toNat ≤ (s.time - (s.still.get c).loadTime).toNat := by
  unfold StillTimer.due elapsed Config.settleUnit
  cases (s.still.get c).timer <;> simp <;> intros <;> omega

/-- The channels of a mask. -/
theorem mem_maskChans (m : ChanMask) (c : Chan) : c ∈ maskChans m ↔ maskHas m c = true := by
  unfold maskChans; rw [List.mem_filter]; cases c <;> simp [Chan.all]

/-- A request whose payload begins with a channel number. -/
theorem withChannel_here {n : Nat} {b : List Byte} {c : Chan} {rest : List Byte} {s : State} {k : Chan → Taken} (h
    : b = u8 c.num ++ rest) (hn : rest.length + 1 = n) : withChannel n b s k = k c := by
  subst h
  unfold withChannel
  rw [if_pos (by simp [u8, leBytes]; omega), chanAt_here]

/-- A request whose payload is a channel number. -/
theorem withChannel_alone {b : List Byte} {c : Chan} {s : State} {k : Chan → Taken} (h : b = u8 c.num) :
    withChannel 1 b s k = k c := withChannel_here (rest := []) (by simpa using h) (by simp)

/-- A request whose payload begins with a channel mask. -/
theorem withMask_here {n : Nat} {b : List Byte} {m : ChanMask} {rest : List Byte} {s : State} {k : ChanMask →
    Taken} (hm : m ≠ 0) (h : b = u8 m.toNat ++ rest) (hn : rest.length + 1 = n) : withMask n b s k = k m := by
  subst h
  unfold withMask
  rw [if_pos (by simp [u8, leBytes]; omega), chanMaskAt_here hm]

/-- A request whose payload is a channel mask. -/
theorem withMask_alone {b : List Byte} {m : ChanMask} {s : State} {k : ChanMask → Taken} (hm : m ≠ 0) (h : b = u8
    m.toNat) : withMask 1 b s k = k m := withMask_here (rest := []) hm (by simpa using h) (by simp)

/-- The configuration that a spelled payload carries, or none where R20 refuses it. -/
theorem configAt_spelled (c : Chan) (g : ChanConfig) :
  configAt (u8 c.num ++ u8 g.acquire.toNat ++ u8 g.loss.toNat ++ u16 g.qualify.toNat ++ u16 g.stepLimit.toNat ++
      u16 g.stillBand.toNat ++ u16 g.settle.toNat ++ u8 g.sense.code) = if 1 ≤ g.loss.toNat ∧ g.loss.toNat ≤
          g.acquire.toNat ∧ 1 ≤ g.qualify.toNat ∧ 1 ≤ g.stepLimit.toNat ∧
        g.stepLimit.toNat ≤ 511 ∧ 1 ≤ g.settle.toNat then some g else none := by
  have hs : countSenseOf (g.sense.code % 256 ^ 1) = some g.sense := by cases g.sense <;> rfl
  unfold configAt
  simp only [u8, u16, List.append_assoc]
  simp only [numAt_past 1 _ _ _ _ (show 1 ≤ 1 by decide), numAt_past 1 _ _ _ _ (show 1 ≤ 2 by decide),numAt_past 1
      _ _ _ _ (show 1 ≤ 3 by decide),numAt_past 1 _ _ _ _ (show 1 ≤ 4 by decide),numAt_past 1 _ _ _ _ (show 1 ≤ 5 by
      decide),numAt_past 1 _ _ _ _ (show 1 ≤ 6 by decide),numAt_past 1 _ _ _ _ (show 1 ≤ 7 by decide), numAt_past 1 _
      _ _ _ (show 1 ≤ 8 by decide), numAt_past 1 _ _ _ _ (show 1 ≤ 9 by decide), numAt_past 1 _ _ _ _ (show 1 ≤ 10 by
      decide), numAt_past 1 _ _ _ _ (show 1 ≤ 11 by decide), numAt_past 2 _ _ _ _ (show 2 ≤ 8 by decide),numAt_past 2
      _ _ _ _ (show 2 ≤ 7 by decide),numAt_past 2 _ _ _ _ (show 2 ≤ 6 by decide),numAt_past 2 _ _ _ _ (show 2 ≤ 5 by
      decide),numAt_past 2 _ _ _ _ (show 2 ≤ 4 by decide),numAt_past 2 _ _ _ _ (show 2 ≤ 3 by decide),numAt_past 2 _ _
      _ _ (show 2 ≤ 2 by decide), Nat.sub_self, Nat.reduceSub, numAt_here, numAt_whole, hs, toNat_bytes _ (show 8 = 8
      * 1 by rfl), toNat_bytes _ (show 16 = 8 * 2 by rfl)]
  simp

/-- R42 rounds to the nearest picometre, halves away from zero. -/
theorem roundPm_nearest (x : Int) : 2 * (1000 * roundPm x - x).natAbs ≤ 1000 ∧ (2 * (1000 * roundPm x - x).natAbs
    = 1000 → x.natAbs < (1000 * roundPm x).natAbs) := by
  unfold roundPm; split <;> constructor <;> omega

/-- A change of some compensation entries changes the entries alone. -/
theorem onComps_eq (f : Chan → CompEntry → CompEntry) (cs : List Chan) (s : State) :
    (cs.foldl (fun t c => t.onComp c (f c)) s) = { s with comp := (cs.foldl (fun t c => t.onComp c (f c)) s).comp
        } := by
  induction cs generalizing s with
  | nil => rfl
  | cons d ds ih => rw [List.foldl_cons, ih]; rfl

/-- A four-byte field read back. -/
theorem ofNat_u32 (w : BitVec 32) : BitVec.ofNat 32 (w.toNat % 256 ^ 4) = w := by
  rw [toNat_bytes w (by rfl)]; simp

/-- What an application tells: the notices and the points on L. -/
theorem announceApplied_eq (cs : List Chan) (s : State) : announceApplied cs s =
   { s with notices := (if cs.isEmpty then s else postAll .compApplied s).notices, points := (if cs.any
       Chan.feedsLine then pointsOnApplication s else s).points } := by
  unfold announceApplied
  cases cs with
  | nil => simp
  | cons d ds =>
    simp only [List.isEmpty_cons, Bool.false_eq_true, if_false]
    split <;> rfl

/-- When the removal of a port's pin leaves the set empty. -/
theorem setPin_none_unpinned (p : Port) (e : CompEntry) : (CompEntry.setPin p .none e).unpinned = Port.all.all
    (fun q => q == p || e.pins.get q == .none) := by
  unfold CompEntry.setPin CompEntry.unpinned
  cases p <;> rfl

/-- When a pin's expiry is due (R56). -/
theorem pinDue_iff (s : State) (c : Chan) (p : Port) : s.pinDue c p = true ↔ ∃ a b, (s.comp.get c).pins.get p =
    .timed a b ∧ 1000000 * b.toNat ≤ (s.time - a).toNat := by
  unfold State.pinDue elapsed Config.holdUnit
  cases (s.comp.get c).pins.get p <;> simp [Nat.mul_comm]

/-- When a request would move the frame of its own scan (R69, R71). -/
theorem movesFrame_iff (s : State) (p : Port) (m : ChanMask) : s.movesFrame p (maskChans m) = true ↔
    (s.seq.claimant = some p ∧ s.seq.state = .tracking ∧ (maskHas m .ch0 ∨ maskHas m .ch1)) := by
  unfold State.movesFrame
  simp only [Bool.and_eq_true, beq_iff_eq, List.any_eq_true, mem_maskChans, and_assoc]
  refine and_congr_right fun _ => and_congr_right fun _ => ?_
  constructor
  · rintro ⟨c, h1, h2⟩
    cases c <;> simp [Chan.feedsLine] at h2
    · exact .inl h1
    · exact .inr h1
  · rintro (h | h)
    · exact ⟨_, h, rfl⟩
    · exact ⟨_, h, rfl⟩

/-- No channel of a mask stands outside TRACKING. -/
theorem firstNotTracking_none (s : State) (m : ChanMask) (h : ∀ c, maskHas m c → (s.chans.get c).state =
    .tracking) : s.firstNotTracking (maskChans m) = none := by
  unfold State.firstNotTracking
  rw [List.find?_eq_none]
  intro c hc
  rw [mem_maskChans] at hc
  simp [h c hc]

/-- The lowest channel that a test picks. -/
theorem find_firstChan (g : Chan → Bool) (c : Chan) (hc : g c = true) (hf : ∀ d : Chan, d.num < c.num → g d =
    false) : Chan.all.find? g = some c := by
  cases c
  · simp only [Chan.all, List.find?_cons, hc]
  · simp only [Chan.all, List.find?_cons, hc, hf .ch0 (by decide)]
  · simp only [Chan.all, List.find?_cons, hc, hf .ch0 (by decide), hf .ch1 (by decide)]
  · simp only [Chan.all, List.find?_cons, hc, hf .ch0 (by decide), hf .ch1 (by decide), hf .ch2 (by decide)]
  · simp only [Chan.all, List.find?_cons, hc, hf .ch0 (by decide), hf .ch1 (by decide), hf .ch2 (by decide), hf
      .ch3 (by decide)]
  · simp only [Chan.all, List.find?_cons, hc, hf .ch0 (by decide), hf .ch1 (by decide), hf .ch2 (by decide), hf
      .ch3 (by decide), hf .ch4 (by decide)]

/-- The lowest channel of a mask outside TRACKING. -/
theorem firstNotTracking_some (s : State) (m : ChanMask) (c : Chan) (h1 : maskHas m c) (h2 : (s.chans.get c).state
    ≠ .tracking) (h3 : ∀ d : Chan, d.num < c.num → maskHas m d → (s.chans.get d).state = .tracking) :
    s.firstNotTracking (maskChans m) = some c := by
  unfold State.firstNotTracking maskChans
  rw [List.find?_filter]
  apply find_firstChan
  · simp [h1, h2]
  · intro d hd
    simp; exact h3 d hd

/-- The origins set on some channels, one after another. -/
theorem foldl_setOrigin (cs : List Chan) (hn : cs.Nodup) (f : Chan → Origin) (os : PerChan Origin) (c : Chan) :
  (cs.foldl (fun os c => os.set c (f c)) os).get c = if c ∈ cs then f c else os.get c := by
  induction cs generalizing os with
  | nil => simp
  | cons d ds ih =>
    rw [List.foldl_cons, ih hn.of_cons]
    have hd : d ∉ ds := (List.nodup_cons.1 hn).1
    by_cases h : c = d
    · subst h; simp [hd]
    · have : (os.set d (f d)).get c = os.get c := by cases c <;> cases d <;> first | exact absurd rfl h | rfl
      simp [this, h]

/-- The signed field of SET ORIGIN. -/
theorem intAt_field (x : Int) (pl : List Byte) (field : BitVec 64) (h : pl.drop 2 = u64 field.toNat) : intAt pl 2
    8 = field.toInt := by
  unfold intAt numAt
  rw [h]
  have := numAt_whole 8 field.toNat
  unfold numAt at this
  rw [List.drop_zero] at this
  unfold u64
  rw [this, toNat_bytes field (by rfl)]
  simp

/-- What becomes of a trigger that routes to one port alone. -/
theorem outcomeOf_own {src : Source} {s : State} {q : Port} (h : ∀ p, routed s src p = ((s.rings.get p).state ==
    .active && (q == p))) :
   outcomeOf src s = if (s.rings.get q).state ≠ .active then .discarded else if s.queue.length < 4 then .admitted
       s.nextNumber else .overrun := by
  unfold outcomeOf
  have : routeEmpty (routing s src) = decide ((s.rings.get q).state ≠ .active) := by
    unfold routeEmpty routing PerPort.ofFn
    simp only [h]
    have hb : ∀ x y : Port, (x == y) = decide (x = y) := fun x y => rfl
    have hc : ∀ x : RingState, (x == .active) = decide (x = .active) := fun x => by cases x <;> rfl
    simp only [hc]
    by_cases hx : (s.rings.get q).state = .active <;> cases q <;> simp only [PerPort.get] at hx <;> simp [hb,
        PerPort.get, hx]
  rw [this]
  by_cases h : (s.rings.get q).state = .active <;> simp [h, Config.queueRoom] <;> rfl

/-- A two-word field has two words. -/
theorem twoWords_length (v : Int) : (twoWords v).length = 2 := rfl

/-- Two words for each value. -/
theorem flatMap_twoWords_length (l : List Int) : (l.flatMap twoWords).length = 2 * l.length := by
  induction l with
  | nil => rfl
  | cons a l ih => rw [List.flatMap_cons, List.length_append, ih, twoWords_length, List.length_cons]; omega

/-- The edges of a window in the scan coordinate. -/
theorem windowEdges_eq {dir : ScanDir} {e : LineEntry} {near far : Int} (h : WindowEdges dir e near far) : e.near
    dir = near ∧ e.far dir = far := by
  unfold WindowEdges at h
  cases dir <;> simp only at h <;> rw [h.1, h.2] <;> exact ⟨rfl, rfl⟩

/-- The entries that a scan has still before it, the current one counted. -/
def Sequencer.left (q : Sequencer) : Nat :=
  match q.dir with
  | .forward => q.lines.length - q.current
  | .reverse => q.current + 1

/-- The bound on the passes of one evaluation does not matter once it covers the entries left. -/
theorem evalWindow_fuel (p : Port) (x : Int) : ∀ (n m : Nat) (u : State), u.seq.left ≤ n → u.seq.left ≤ m →
    u.seq.current < u.seq.lines.length → evalWindow p n x u = evalWindow p m x u := by
  intro n
  induction n with
  | zero =>
    intro m u h1 h2 h3
    exfalso; unfold Sequencer.left at h1; cases hd : u.seq.dir <;> rw [hd] at h1 <;> simp at h1 <;> omega
  | succ n ih =>
    intro m u h1 h2 h3
    cases m with
    | zero => exfalso; unfold Sequencer.left at h2; cases hd : u.seq.dir <;> rw [hd] at h2 <;> simp at h2 <;> omega
    | succ m =>
      unfold evalWindow
      cases hl : u.seq.lines[u.seq.current]? with
      | none => rfl
      | some e =>
        dsimp only
        split
        · obtain ⟨k, hk⟩ := passEntry_seq p ⟨u.seq.current, e.tag, e.nominal⟩ u
          cases hn : u.seq.nextIndex with
          | none => rfl
          | some j =>
            dsimp only
            unfold Sequencer.left at h1 h2
            unfold Sequencer.nextIndex at hn
            apply ih
            · unfold Sequencer.left; simp only [onSeq_seq, hk]
              cases hd : u.seq.dir <;> rw [hd] at h1 h2 hn <;> simp at h1 h2 hn ⊢ <;> omega
            · unfold Sequencer.left; simp only [onSeq_seq, hk]
              cases hd : u.seq.dir <;> rw [hd] at h1 h2 hn <;> simp at h1 h2 hn ⊢ <;> omega
            · simp only [onSeq_seq, hk]
              cases hd : u.seq.dir <;> rw [hd] at h1 h2 hn <;> simp at h1 h2 hn ⊢ <;> omega
        · rfl

/-- A line entry has 11 bytes (R191). -/
theorem lineEntry_length (e : LineEntry) : e.bytes.length = 11 := by unfold LineEntry.bytes; simp [u16]

/-- The bytes of a list of line entries. -/
theorem lineEntries_length (es : List LineEntry) : (es.flatMap LineEntry.bytes).length = 11 * es.length := by
  induction es with
  | nil => rfl
  | cons e es ih => rw [List.flatMap_cons, List.length_append, ih, lineEntry_length, List.length_cons]; omega

/-- A field past a stretch of bytes. -/
theorem numAt_skip (xs rest : List Byte) (off w : Nat) : numAt (xs ++ rest) (xs.length + off) w = numAt rest off w
    := by
  unfold numAt; rw [List.drop_append, List.drop_of_length_le (by omega)]; simp

/-- A line entry read where it was spelled. -/
theorem lineEntryAt_spelled (e : LineEntry) (pre post : List Byte) : lineEntryAt (pre ++ (e.bytes ++ post))
    pre.length = e := by
  unfold lineEntryAt
  have h0 := numAt_skip pre (e.bytes ++ post) 0 2
  rw [Nat.add_zero] at h0
  rw [h0, numAt_skip, numAt_skip]
  unfold LineEntry.bytes
  simp only [List.append_assoc, u16]
  rw [numAt_here, numAt_past 2 _ _ 2 6 (by decide), numAt_here, numAt_past 2 _ _ 8 3 (by decide), numAt_past 6 _ _
      (8-2) 3 (by decide), numAt_here,
    toNat_bytes e.tag (by rfl), toNat_bytes e.nominal (by rfl), toNat_bytes e.halfWidth (by rfl)]
  simp

/-- The entries of a LOAD LINES payload. -/
theorem entriesAt_spelled (es : List LineEntry) : entriesAt (u8 es.length ++ es.flatMap LineEntry.bytes) es.length
    = es := by
  unfold entriesAt
  apply List.ext_getElem?
  intro i
  rw [List.getElem?_map]
  by_cases h : i < es.length
  · rw [List.getElem?_range h, List.getElem?_eq_getElem h]
    simp only [Option.map_some]
    have hsplit : es = es.take i ++ (es[i] :: es.drop (i+1)) := by
      rw [List.cons_getElem_drop_succ, List.take_append_drop]
    have : u8 es.length ++ es.flatMap LineEntry.bytes = (u8 es.length ++ (es.take i).flatMap LineEntry.bytes) ++
        (es[i].bytes ++ (es.drop (i+1)).flatMap LineEntry.bytes) := by
      conv => lhs; rhs; rw [hsplit]
      rw [List.flatMap_append, List.flatMap_cons, List.append_assoc]
    rw [this]
    have hl : (u8 es.length ++ (es.take i).flatMap LineEntry.bytes).length = 1 + 11 * i := by
      rw [List.length_append, lineEntries_length, List.length_take, Nat.min_eq_left (by omega)]; rfl
    rw [← hl, lineEntryAt_spelled]
  · rw [List.getElem?_eq_none (by simpa using h), List.getElem?_eq_none (by simpa using h)]; rfl

/-- No entry has a half-width of 0. -/
theorem firstEmptyWindow_none (es : List LineEntry) (h : ∀ e ∈ es, e.halfWidth ≠ 0) : firstEmptyWindow es = none := by
  unfold firstEmptyWindow
  rw [List.findIdx?_eq_none_iff]
  intro e he; simpa using h e he

/-- The first entry with a half-width of 0. -/
theorem firstEmptyWindow_some (es : List LineEntry) (i : Nat) (e : LineEntry) (h1 : es[i]? = some e) (h2 :
    e.halfWidth = 0) (h3 : ∀ (j : Nat) (d : LineEntry), j < i → es[j]? = some d → d.halfWidth ≠ 0) : firstEmptyWindow
    es = some i := by
  unfold firstEmptyWindow
  obtain ⟨hi, he⟩ := List.getElem?_eq_some_iff.1 h1
  rw [List.findIdx?_eq_some_iff_getElem]
  refine ⟨hi, by rw [he]; simp [h2], fun j hj => ?_⟩
  have := h3 j es[j] hj (List.getElem?_eq_getElem (by omega))
  simpa using this

/-- The order check, one pair at a time. -/
theorem orderFault_cons (a b : LineEntry) (rest : List LineEntry) : orderFault (a :: b :: rest) = if b.low ≤
    a.high then some 0 else (orderFault (b :: rest)).map (· + 1) := rfl

/-- No pair to separate. -/
theorem separated_zero (l : List LineEntry) : SeparatedUpTo 0 l := by intro k a b h; omega

/-- The separation of a list, one pair at a time. -/
theorem separated_cons (n : Nat) (a b : LineEntry) (rest : List LineEntry) : SeparatedUpTo (n+1) (a :: b :: rest)
    ↔ a.nominal.toInt + a.halfWidth.toNat < b.nominal.toInt - b.halfWidth.toNat ∧ SeparatedUpTo n (b :: rest) := by
  constructor
  · intro h
    refine ⟨h 0 a b (by omega) rfl rfl, fun k x y hk h1 h2 => ?_⟩
    exact h (k+1) x y (by omega) (by simpa using h1) (by simpa using h2)
  · rintro ⟨h1, h2⟩ k x y hk h3 h4
    cases k with
    | zero => simp at h3 h4; subst h3; subst h4; exact h1
    | succ k => exact h2 k x y (by omega) (by simpa using h3) (by simpa using h4)

/-- A separated list has no order fault. -/
theorem orderFault_none (l : List LineEntry) : SeparatedUpTo l.length l → orderFault l = none := by
  induction l with
  | nil => intro _; rfl
  | cons a l ih =>
    cases l with
    | nil => intro _; rfl
    | cons b rest =>
      intro h
      rw [orderFault_cons]
      have := (separated_cons _ _ _ _).1 h
      rw [if_neg (by unfold LineEntry.low LineEntry.high; omega), ih this.2]; rfl

/-- The first pair that is not separated. -/
theorem orderFault_some (l : List LineEntry) : ∀ k, SeparatedUpTo k l → ¬ SeparatedUpTo (k+1) l → orderFault l =
    some k := by
  induction l with
  | nil => intro k _ h; exfalso; apply h; intro j a b _ h1; simp at h1
  | cons a l ih =>
    cases l with
    | nil => intro k _ h; exfalso; apply h; intro j x y _ _ h2; simp at h2
    | cons b rest =>
      intro k h1 h2
      rw [orderFault_cons]
      cases k with
      | zero =>
        rw [separated_cons] at h2
        rw [if_pos]
        unfold LineEntry.low LineEntry.high
        by_contra hc
        exact h2 ⟨by omega, separated_zero _⟩
      | succ k =>
        rw [separated_cons] at h1 h2
        rw [if_neg (by unfold LineEntry.low LineEntry.high; omega), ih k h1.2 (fun h => h2 ⟨h1.1, h⟩)]; rfl

/-- The lower of CH0 and CH1 that a check fails on. -/
theorem lowerFailing_some (fails : Chan → Bool) (c : Chan) (h : c = .ch0 ∨ c = .ch1 ∧ fails .ch0 = false) (hc :
    fails c = true) : lowerFailing (fun c => !fails c) = some c := by
  unfold lowerFailing
  rcases h with rfl | ⟨rfl, h⟩
  · simp [hc]
  · simp [h, hc]

/-- Where L exists, no check of START SCAN on CH0 and CH1 fails. -/
theorem line_some {s : State} {p : Port} {l : Int} (h : s.line p = some l) :
  lowerFailing (fun c => (s.chans.get c).state == .tracking) = none ∧ lowerFailing (fun c => ((s.origins.get
      p).get c).status != .stale) = none ∧
   lowerFailing (fun c => (s.comp.get c).weight != 0) = none := by
  have hc : ∀ c x, s.compValue p c = some x → (s.chans.get c).state = .tracking ∧ ((s.origins.get p).get c).status
      ≠ .stale ∧ (s.comp.get c).weight ≠ 0 := by
    intro c x hx
    unfold State.compValue compOf State.view viewOf at hx
    split at hx
    · simp at hx
    · rename_i hw
      refine ⟨?_, ?_, hw⟩
      · by_contra hn; cases hs : (s.chans.get c).state <;> simp_all
      · intro hn; rw [hn] at hx; cases hs : (s.chans.get c).state <;> simp_all
  unfold State.line bothOf at h
  cases h0 : s.compValue p .ch0 with
  | none => rw [h0] at h; simp at h
  | some a =>
    cases h1 : s.compValue p .ch1 with
    | none => rw [h0, h1] at h; simp at h
    | some b =>
      obtain ⟨x1, x2, x3⟩ := hc _ _ h0
      obtain ⟨y1, y2, y3⟩ := hc _ _ h1
      unfold lowerFailing
      refine ⟨?_, ?_, ?_⟩
      · simp [x1, y1]
      · simp [x2, y2]
      · have e0 : ((s.comp.get .ch0).weight != 0) = true := by simpa using x3
        have e1 : ((s.comp.get .ch1).weight != 0) = true := by simpa using y3
        simp only [List.find?, e0, e1, Bool.not_true]

/-- The channels a subject depends on. -/
theorem uses_iff (sub : Subject) (c : Chan) : sub.uses c = true ↔ (sub = .chan c ∨ sub = .line ∧ (c = .ch0 ∨ c =
    .ch1)) := by
  cases sub with
  | chan d => simp [Subject.uses]
  | line => cases c <;> simp [Subject.uses, Chan.feedsLine]

/-- The channels that feed L. -/
theorem feedsLine_iff (c : Chan) : c.feedsLine = true ↔ (c = .ch0 ∨ c = .ch1) := by cases c <;> simp [Chan.feedsLine]

/-- The fields of an ADD POINT payload. -/
theorem addPoint_fields {kept shared replace subj dir mode acts : Byte} {T : BitVec 64} {h : BitVec 16} {b : List
    Byte}
   (hb : b = [kept, shared, replace, subj] ++ u64 T.toNat ++ [dir, mode] ++ u16 h.toNat ++ [acts]) :
   b.length = 17 ∧ flagAt b 0 = kept.getLsbD 0 ∧ flagAt b 1 = shared.getLsbD 0 ∧ flagAt b 2 = replace.getLsbD 0 ∧
       numAt b 3 1 = subj.toNat ∧ numAt b 4 8 = T.toNat ∧ numAt b 12 1 = dir.toNat ∧ numAt b 13 1 = mode.toNat ∧ numAt
       b 14 2 = h.toNat ∧ numAt b 16 1 = acts.toNat := by
  simp only [List.append_assoc, List.cons_append, List.nil_append] at hb
  subst hb
  refine ⟨by simp [u64, u16], ?_, ?_, ?_, ?_, ?_, ?_, ?_, ?_, ?_⟩
  · unfold flagAt; rw [← byte_parity]; simp
  · unfold flagAt; rw [← byte_parity]; simp [numAt_pastByte _ _ 0]
  · unfold flagAt; rw [← byte_parity]; simp [numAt_pastByte _ _ 0, numAt_pastByte _ _ 1]
  · simp [numAt_pastByte _ _ 0, numAt_pastByte _ _ 1, numAt_pastByte _ _ 2]
  · rw [numAt_pastByte _ _ 3, numAt_pastByte _ _ 2, numAt_pastByte _ _ 1, numAt_pastByte _ _ 0, u64, numAt_here,
      toNat_bytes T (by rfl)]
  · rw [numAt_pastByte _ _ 11, numAt_pastByte _ _ 10, numAt_pastByte _ _ 9, numAt_pastByte _ _ 8, u64, numAt_past
      8 _ _ _ _ (by decide)]; simp
  · rw [numAt_pastByte _ _ 12, numAt_pastByte _ _ 11, numAt_pastByte _ _ 10, numAt_pastByte _ _ 9, u64, numAt_past
      8 _ _ _ _ (by decide), numAt_pastByte _ _ 0]; simp
  · rw [numAt_pastByte _ _ 13, numAt_pastByte _ _ 12, numAt_pastByte _ _ 11, numAt_pastByte _ _ 10, u64,
      numAt_past 8 _ _ _ _ (by decide), numAt_pastByte _ _ 1, numAt_pastByte _ _ 0, u16, numAt_here, toNat_bytes h (by
      rfl)]
  · rw [numAt_pastByte _ _ 15, numAt_pastByte _ _ 14, numAt_pastByte _ _ 13, numAt_pastByte _ _ 12, u64,
      numAt_past 8 _ _ _ _ (by decide), numAt_pastByte _ _ 3, numAt_pastByte _ _ 2, u16, numAt_past 2 _ _ _ _ (by
      decide)]; simp

/-- A slot is free where no point stands in it. -/
theorem pointAt_none_iff (s : State) (k : Fin 32) : s.pointAt k.val = none ↔ ∀ pt ∈ s.points, pt.slot ≠ k := by
  unfold State.pointAt
  rw [List.find?_eq_none]
  simp [Fin.ext_iff]

/-- The lowest free slot. -/
theorem freeSlot_eq (s : State) (k : Fin 32) (h1 : ∀ pt ∈ s.points, pt.slot ≠ k) (h2 : ∀ j : Fin 32, j < k → ∃ pt
    ∈ s.points, pt.slot = j) : s.freeSlot = some k := by
  unfold State.freeSlot slotList
  rw [List.find?_eq_some_iff_getElem]
  refine ⟨by rw [Option.isNone_iff_eq_none]; exact (pointAt_none_iff s k).2 h1, k.val, by simp, by simp, ?_⟩
  intro j hj
  have : j < 32 := by omega
  obtain ⟨pt, h3, h4⟩ := h2 ⟨j, this⟩ (by exact hj)
  simp only [List.getElem_finRange, Fin.cast_mk]
  rw [Bool.not_eq_true', Bool.eq_false_iff, Ne, Option.isNone_iff_eq_none]
  intro hc
  exact (pointAt_none_iff s ⟨j, this⟩).1 hc pt h3 h4

/-- There are sixteen kinds. -/
theorem notice_num_lt (k : Notice) : k.num < 16 := by cases k <;> decide

/-- The mask of a kind holds that kind alone. -/
theorem notice_mask_bit (k : Notice) (j : Nat) : k.mask.getLsbD j = decide (j = k.num) := by
  unfold Notice.mask
  have := notice_num_lt k
  rw [BitVec.getLsbD_twoPow]
  simp [this]; exact eq_comm

/-- A table read at a port. -/
theorem perPort_get_ofFn {α} (f : Port → α) (p : Port) : (PerPort.ofFn f).get p = f p := by cases p <;> rfl

/-- A request's command is its exchange at its port. -/
theorem exec_command (k : RequestKind) (r : Req) (s : State) : exec (k.command r) s = .next (requestStep k.code
    (takeKind k) r s) := by
  cases k <;> rfl

/-- The immediate exec_answers STARTING and BUSY (R180). -/
theorem requestStep_atOnce (code : Byte) (take) (p : Port) (tag : Byte) (payload : List Byte) (s : State) (st :
    Stage) (hst : st ≠ .taking)
    (hm : (s.links.get p).mayReceive = true) :
    ((s.links.get p).state = .starting → requestStep code take ⟨p, tag, payload, st⟩ s = answeredAtOnce p tag
        .starting s) ∧
    ((s.links.get p).state = .performing ∨ (s.links.get p).state = .resetting → requestStep code take ⟨p, tag,
        payload, st⟩ s = answeredAtOnce p tag .busy s) := by
  have h0 : ∀ status, s.onLink p (Link.immediate tag status) = answeredAtOnce p tag status s := by
    intro status
    unfold answeredAtOnce Link.immediate Link.openReceipt Link.push
    congr 1; funext l
    simp [Config.linkRoom]
  unfold requestStep
  cases st with
  | taking => exact absurd rfl hst
  | whole => 
    simp only [hm, if_true]
    refine ⟨fun h => ?_, fun h => ?_⟩
    · rw [h]; exact h0 _
    · rcases h with h | h <;> rw [h] <;> exact h0 _
  | arrival =>
    simp only [hm, if_true]
    refine ⟨fun h => ?_, fun h => ?_⟩
    · rw [h]; exact h0 _
    · rcases h with h | h <;> rw [h] <;> exact h0 _

/-- A code that names no request. -/
theorem ofCode_none {code : Byte} (h : ∀ k : RequestKind, k.code ≠ code) : RequestKind.ofCode code = none := by
  unfold RequestKind.ofCode
  rw [List.find?_eq_none]
  intro k _; simp; exact h k

/-- A table set at a port, read there. -/
theorem perPort_set_get {α} (v : PerPort α) (p : Port) (a : α) : (v.set p a).get p = a := by cases p <;> rfl

/-- A table set at a port, read at another. -/
theorem perPort_set_ne {α} (v : PerPort α) (p q : Port) (a : α) (h : q ≠ p) : (v.set p a).get q = v.get q := by
    cases p <;> cases q <;> simp_all <;> rfl

/-- A reset step that is not the next one does not take place. -/
theorem atResetStep_elsewhere (p : Port) (st : ResetStep) (f) (s : State) (h : ∀ g, (s.links.get p).state =
    .resetting → (s.links.get p).reset = some g → g.next ≠ st) : atResetStep p st f s = s := by
  unfold atResetStep
  split
  · rename_i g h1 h2
    rw [if_neg (h g h1 h2)]
  · rfl

/-- The next step of a port reset takes place. -/
theorem atResetStep_next (p : Port) (st : ResetStep) (f) (s : State) (g : ResetProgress) (h1 : (s.links.get
    p).state = .resetting) (h2 : (s.links.get p).reset = some g) (h3 : g.next = st) : atResetStep p st f s = f g s :=
    by
  unfold atResetStep
  rw [h1, h2]; dsimp only; rw [if_pos h3]

/-- The progress of a port already RESETTING. -/
theorem setProgress_eq (p : Port) (h : ResetProgress) (u : State) (hu : (u.links.get p).state = .resetting) :
    setProgress p h u = u.onLink p (fun l => { l with reset := some h }) := by
  unfold setProgress State.onLink
  congr 1
  unfold PerPort.modify
  simp only [hu]

/-- A removal of pins leaves the client ports. -/
theorem removePins_links (p : Port) (cs : List Chan) (s : State) : (removePins p cs s).links = s.links := by
  have := removePins_withBoundary s.links s.pending p cs s
  have h2 : s.withBoundary s.links s.pending = s := rfl
  rw [h2] at this
  rw [this]; rfl

/-- A halt leaves the client ports. -/
theorem halt_links (c : HaltCause) (s : State) : (halt c s).links = s.links := by
  have := halt_withBoundary s.links s.pending c s
  have h2 : s.withBoundary s.links s.pending = s := rfl
  rw [h2] at this
  rw [this]; rfl

/-- The mask of a list holds its channels. -/
theorem maskOf_has (cs : List Chan) (c : Chan) : maskHas (maskOf cs) c = decide (c ∈ cs) := by
  suffices h : ∀ m, maskHas (cs.foldl (fun m c => m ||| BitVec.twoPow 6 c.num) m) c = (maskHas m c || decide (c ∈
      cs)) by
    have := h 0
    unfold maskOf; rw [this]; simp [maskHas]
  induction cs with
  | nil => intro m; simp
  | cons d cs ih =>
    intro m
    rw [List.foldl_cons, ih]
    have : maskHas (m ||| BitVec.twoPow 6 d.num) c = (maskHas m c || decide (c = d)) := by
      unfold maskHas
      rw [BitVec.getLsbD_or, BitVec.getLsbD_twoPow]
      congr 1
      cases c <;> cases d <;> decide
    rw [this]
    by_cases h : c = d <;> simp [h]

/-- Masks with the same channels are the same. -/
theorem mask_ext {m n : ChanMask} (h : ∀ c, maskHas m c = maskHas n c) : m = n := by
  apply BitVec.eq_of_getLsbD_eq
  intro i hi
  have : ∃ c : Chan, c.num = i := by
    match i, hi with
    | 0, _ => exact ⟨.ch0, rfl⟩
    | 1, _ => exact ⟨.ch1, rfl⟩
    | 2, _ => exact ⟨.ch2, rfl⟩
    | 3, _ => exact ⟨.ch3, rfl⟩
    | 4, _ => exact ⟨.ch4, rfl⟩
    | 5, _ => exact ⟨.ch5, rfl⟩
    | n+6, h => omega
  obtain ⟨c, hc⟩ := this
  have := h c
  unfold maskHas at this
  rwa [hc] at this

end Sys2Proof.Machine
end

