-- ==== Sys2Proof/Laws/TableKeeps.lean ====
section
/-! SUPPORT. Laws/TableKeeps.lean: that every effect keeps the compare table together: its room, and every point in
agreement with its subject. -/

namespace Sys2Proof.Machine

def PointsFit (pts : List Point) : Prop :=
  pts.length ≤ 32 ∧ (∀ p, (pts.filter (fun pt => pt.owner == p)).length ≤ 16) ∧ (pts.map Point.slot).Nodup

theorem tableHolds_iff (s : State) : TableHolds s ↔ PointsFit s.points ∧ ∀ pt ∈ s.points, pt.Agrees s := by
  unfold TableHolds PointsFit State.owned; tauto

theorem PointsFit.map {pts : List Point} (h : PointsFit pts) (f : Point → Point) (hs : ∀ pt ∈ pts, (f pt).slot = pt.slot) (ho : ∀ pt ∈ pts, (f pt).owner = pt.owner) :
    PointsFit (pts.map f) := by
  obtain ⟨a, b, c⟩ := h
  refine ⟨by simpa using a, ?_, ?_⟩
  · intro p
    rw [List.filter_map, List.length_map]
    have : (pts.filter ((fun pt => pt.owner == p) ∘ f)) = pts.filter (fun pt => pt.owner == p) := by
      apply List.filter_congr
      intro x hx
      simp [ho x hx]
    rw [this]; exact b p
  · rw [List.map_map]
    have : pts.map (Point.slot ∘ f) = pts.map Point.slot := List.map_congr_left (fun x hx => hs x hx)
    rw [this]; exact c

theorem PointsFit.sub {pts pts' : List Point} (h : PointsFit pts) (k : pts'.Sublist pts) : PointsFit pts' := by
  obtain ⟨a, b, c⟩ := h
  exact ⟨k.length_le.trans a, fun p => ((k.filter _).length_le).trans (b p), c.sublist (k.map _)⟩

def Point.WellShaped (pt : Point) : Prop :=
  (pt.away = true → pt.lastSide = none) ∧ (pt.rearmDir.isSome = true ↔ pt.state = .rearming) ∧ pt.firings ≤ 65535

theorem Point.Agrees.shape {s : State} {pt : Point} (h : pt.Agrees s) : Point.WellShaped pt := ⟨h.2.2.1, h.2.2.2.1, h.2.2.2.2⟩

theorem agrees_congr {s t : State} {pt : Point} (h : availability t pt.owner pt.subject = availability s pt.owner pt.subject)
    (k : pt.Agrees s) : pt.Agrees t := by
  unfold Point.Agrees at *; rw [h]; exact k

theorem judge_slot (s : State) (pt : Point) : (judge s pt).slot = pt.slot ∧ (judge s pt).owner = pt.owner ∧ (judge s pt).subject = pt.subject := by
  unfold judge; split
  · exact ⟨rfl, rfl, rfl⟩
  · exact ⟨rfl, rfl, rfl⟩
  · split <;> exact ⟨rfl, rfl, rfl⟩

theorem judge_agrees (s : State) (pt : Point) (h : Point.WellShaped pt) : (judge s pt).Agrees s := by
  obtain ⟨a, b, c⟩ := h
  obtain ⟨h1, h2, h3⟩ := judge_slot s pt
  unfold Point.Agrees
  rw [h2, h3]
  unfold judge
  cases ha : availability s pt.owner pt.subject with
  | inactive => dsimp only; exact ⟨by simp, by simp, fun _ => rfl, by simp, c⟩
  | suspended => dsimp only; exact ⟨by simp, by simp, fun _ => rfl, by simp, c⟩
  | available =>
    dsimp only
    split
    · rename_i haw
      have hret : pt.returnState = .armed ∨ pt.returnState = .fired := by
        unfold Point.returnState; split
        · split <;> simp
        · simp
      have hnr : pt.state ≠ .rearming := by
        intro hx; simp [Point.away, hx] at haw
      have hd : pt.rearmDir.isSome = false := by
        cases hx : pt.rearmDir.isSome with
        | false => rfl
        | true => exact absurd (b.1 hx) hnr
      refine ⟨?_, ?_, fun _ => rfl, ?_, c⟩
      · rcases hret with x | x <;> simp [x]
      · rcases hret with x | x <;> simp [x]
      · rcases hret with x | x <;> simp [x, hd]
    · rename_i haw
      refine ⟨?_, ?_, a, b, c⟩
      · constructor
        · intro hx; simp [Point.away, hx] at haw
        · intro hx; cases hx
      · constructor
        · intro hx; simp [Point.away, hx] at haw
        · intro hx; cases hx

def SameAvailability (s t : State) : Prop := ∀ p sub, availability t p sub = availability s p sub

theorem table_keep {s t : State} (h : TableHolds s) (h1 : t.points = s.points) (h2 : SameAvailability s t) : TableHolds t := by
  rw [tableHolds_iff] at *
  rw [h1]
  exact ⟨h.1, fun pt hp => agrees_congr (h2 _ _) (h.2 pt hp)⟩

theorem sameView_of {s t : State} (h1 : ∀ c, (t.chans.get c).state = (s.chans.get c).state) (h2 : t.origins = s.origins)
    (h3 : ∀ c : Chan, c.feedsLine = true → (t.comp.get c).weight = (s.comp.get c).weight) : SameAvailability s t := by
  intro p sub
  have a0 := h1 .ch0; have a1 := h1 .ch1
  have w0 := h3 .ch0 rfl; have w1 := h3 .ch1 rfl
  simp only [PerChan.get] at a0 a1 w0 w1
  cases sub with
  | chan c => simp only [availability, h1, h2]
  | line => simp only [availability, a0, a1, w0, w1, h2]

theorem rejudge_table {s u : State} {which : Point → Bool} (h : TableHolds s) (hp : u.points = s.points)
    (hv : ∀ pt ∈ s.points, which pt = false → availability u pt.owner pt.subject = availability s pt.owner pt.subject) :
    TableHolds (rejudge which u) := by
  rw [tableHolds_iff] at *
  obtain ⟨a, b⟩ := h
  unfold rejudge
  dsimp only
  rw [hp]
  refine ⟨a.map _ ?_ ?_, ?_⟩
  · intro pt _; split
    · exact (judge_slot u pt).1
    · rfl
  · intro pt _; split
    · exact (judge_slot u pt).2.1
    · rfl
  · intro pt hpt
    obtain ⟨x, hx, rfl⟩ := List.mem_map.mp hpt
    cases hw : which x with
    | true => exact judge_agrees u x (b x hx).shape
    | false => exact agrees_congr (s := s) (hv x hx hw) (b x hx)

theorem breakView_table {s u : State} {which : Point → Bool} (h : TableHolds s) (hp : u.points = s.points)
    (hv : ∀ pt ∈ s.points, which pt = false → availability u pt.owner pt.subject = availability s pt.owner pt.subject) :
    TableHolds (breakView which u) := by
  rw [tableHolds_iff] at *
  obtain ⟨a, b⟩ := h
  unfold breakView
  dsimp only
  rw [hp]
  refine ⟨a.map _ ?_ ?_, ?_⟩
  · intro pt _; split
    · exact (judge_slot u _).1
    · rfl
  · intro pt _; split
    · exact (judge_slot u _).2.1
    · rfl
  · intro pt hpt
    obtain ⟨x, hx, rfl⟩ := List.mem_map.mp hpt
    cases hw : which x with
    | true =>
      have := (b x hx).shape
      exact judge_agrees u { x with lastSide := none } ⟨fun _ => rfl, this.2.1, this.2.2⟩
    | false => exact agrees_congr (s := s) (hv x hx hw) (b x hx)

theorem announce_table {s u : State} {cs : List Chan} (h : TableHolds s) (hp : u.points = s.points)
    (h1 : u.chans = s.chans) (h2 : u.origins = s.origins) (h3 : ∀ c, c ∉ cs → (u.comp.get c).weight = (s.comp.get c).weight) :
    TableHolds (announceApplied cs u) := by
  unfold announceApplied
  split
  · rename_i he
    have he : cs = [] := by simpa using he
    subst he
    exact table_keep h hp (sameView_of (fun _ => by rw [h1]) h2 (fun c _ => h3 c (by simp)))
  · dsimp only
    split
    · refine breakView_table (s := s) h hp ?_
      intro pt _ hw
      cases hsub : pt.subject with
      | line => rw [hsub] at hw; cases hw
      | chan c =>
        show (availability u pt.owner (.chan c)) = _
        simp only [availability, h1, h2]
    · rename_i hn
      refine table_keep (s := s) h hp (sameView_of (fun _ => by rw [← h1]; rfl) h2 (fun c hc => h3 c ?_))
      intro hx
      apply hn
      exact List.any_eq_true.mpr ⟨c, hx, hc⟩

theorem applySlot_weight (e : CompEntry) (h : e.slot = none) : e.applySlot = e := by
  unfold CompEntry.applySlot; rw [h]

theorem removePins_table {s : State} (p : Port) (cs : List Chan) (hn : cs.Nodup) (h : TableHolds s) : TableHolds (removePins p cs s) := by
  unfold removePins applyDueSlots
  dsimp only
  have k1 := onComps_storeOnly (fun _ => CompEntry.setPin p .none) cs s
  have hpt : ∀ (f : Chan → CompEntry → CompEntry) (l : List Chan) (s : State), (l.foldl (fun t c => t.onComp c (f c)) s).points = s.points := by
    intro f l
    induction l with
    | nil => intro s; rfl
    | cons d l ih => intro s; rw [List.foldl_cons, ih]; rfl
  have hw : ∀ c, ((cs.foldl (fun t c => t.onComp c (CompEntry.setPin p .none)) s).comp.get c).weight = (s.comp.get c).weight := by
    intro c; rw [onComps_get (fun _ => CompEntry.setPin p .none) cs hn]; split <;> rfl
  generalize hu : cs.foldl (fun t c => t.onComp c (CompEntry.setPin p .none)) s = u at k1 hw ⊢
  have hup : u.points = s.points := by rw [← hu]; exact hpt _ _ _
  have k2 := onComps_storeOnly (fun _ => CompEntry.applySlot) (cs.filter u.slotDue) u
  refine announce_table (s := s) h ?_ ?_ ?_ ?_
  · rw [hpt (fun _ => CompEntry.applySlot)]; exact hup
  · rw [k2.scene.chans, k1.scene.chans]
  · rw [k2.scene.origins, k1.scene.origins]
  · intro c hc
    rw [onComps_get (fun _ => CompEntry.applySlot) _ (hn.filter _), if_neg hc]
    exact hw c

theorem sameView_scene {s t : State} (k : SceneKept s t) (h : t.comp = s.comp) : SameAvailability s t :=
  sameView_of (fun _ => by rw [k.chans]) k.origins (fun _ _ => by rw [h])

theorem hand_table (src : Source) (s : State) (h : TableHolds s) : TableHolds (hand src s) :=
  table_keep h (hand_points _ _) (sameView_scene (hand_scene _ _) (hand_comp _ _))

theorem halt_table (cause : HaltCause) (s : State) (h : TableHolds s) : TableHolds (halt cause s) := by
  cases hp : s.seq.claimant with
  | none => unfold halt; rw [hp]; exact h
  | some p =>
    have k := removePins_table p [.ch0, .ch1] (by decide) h
    have k1 := (removePins_storeOnly p [.ch0, .ch1] s).scene
    have k2 := halt_scene cause s
    refine table_keep k (halt_points hp) (sameView_of (fun c => by rw [k2.chans, k1.chans]) (by rw [k2.origins, k1.origins]) (fun c _ => by rw [halt_comp hp]))

theorem passEntry_table (p : Port) (e : EntryRef) (s : State) (h : TableHolds s) : TableHolds (passEntry p e s) :=
  table_keep h (passEntry_points _ _ _) (sameView_scene (passEntry_scene _ _ _) (passEntry_comp _ _ _))

theorem evalWindow_table (p : Port) (n : Nat) (x : Int) : ∀ s : State, TableHolds s → TableHolds (evalWindow p n x s) := by
  induction n with
  | zero => exact fun _ h => h
  | succ n ih =>
    intro s h
    unfold evalWindow
    cases s.seq.lines[s.seq.current]? with
    | none => exact h
    | some e =>
      dsimp only
      split
      · have k := passEntry_table p ⟨s.seq.current, e.tag, e.nominal⟩ s h
        generalize passEntry p ⟨s.seq.current, e.tag, e.nominal⟩ s = u at k ⊢
        cases s.seq.nextIndex with
        | none => exact halt_table _ _ k
        | some j => exact ih (u.onSeq _) (table_keep k rfl (fun _ _ => rfl))
      · split <;> exact table_keep h rfl (fun _ _ => rfl)

theorem sequencerUpdate_table (s : State) (h : TableHolds s) : TableHolds (sequencerUpdate s) := by
  unfold sequencerUpdate
  split
  · cases hp : s.seq.claimant with
    | none => exact h
    | some p =>
      dsimp only
      cases s.line p with
      | none => exact h
      | some l => exact evalWindow_table p _ _ s h
  · exact h

theorem evaluated_same (v : Int) (pt : Point) : (pt.evaluated v).slot = pt.slot ∧ (pt.evaluated v).owner = pt.owner ∧ (pt.evaluated v).subject = pt.subject := by
  unfold Point.evaluated
  dsimp only
  split
  · split <;> exact ⟨rfl, rfl, rfl⟩
  · split <;> exact ⟨rfl, rfl, rfl⟩
  · exact ⟨rfl, rfl, rfl⟩
  · exact ⟨rfl, rfl, rfl⟩
  · exact ⟨rfl, rfl, rfl⟩

theorem evaluated_agrees (s : State) (v : Int) (pt : Point) (h : pt.Agrees s) (ha : pt.away = false) : (pt.evaluated v).Agrees s := by
  obtain ⟨e1, e2, e3⟩ := evaluated_same v pt
  unfold Point.Agrees at *
  rw [e2, e3]
  obtain ⟨a, b, c, d, e⟩ := h
  have h1 : pt.state ≠ .inactive := by intro hx; simp [Point.away, hx] at ha
  have h2 : pt.state ≠ .suspended := by intro hx; simp [Point.away, hx] at ha
  have n1 : availability s pt.owner pt.subject ≠ .inactive := fun x => h1 (a.2 x)
  have n2 : availability s pt.owner pt.subject ≠ .suspended := fun x => h2 (b.2 x)
  have hsat := satInc_le _ e
  have key : ∀ q : Point, q.state ≠ .inactive → q.state ≠ .suspended → (q.rearmDir.isSome = true ↔ q.state = .rearming) → q.firings ≤ 65535 →
     (q.state = .inactive ↔ availability s pt.owner pt.subject = .inactive) ∧
  (q.state = .suspended ↔ availability s pt.owner pt.subject = .suspended) ∧
  (q.away = true → q.lastSide = none) ∧ (q.rearmDir.isSome = true ↔ q.state = .rearming) ∧
  q.firings ≤ 65535 := by
    intro q q1 q2 q3 q4
    refine ⟨⟨fun x => absurd x q1, fun x => absurd x n1⟩, ⟨fun x => absurd x q2, fun x => absurd x n2⟩, ?_, q3, q4⟩
    intro x; simp [Point.away, q1, q2] at x
  unfold Point.evaluated
  dsimp only
  cases hst : pt.state with
  | armed =>
    dsimp only
    have d' : pt.rearmDir.isSome = false := by
      cases hx : pt.rearmDir.isSome with
      | false => rfl
      | true => have := d.1 hx; rw [hst] at this; cases this
    split
    · apply key
      · unfold Point.afterFiring; dsimp only; split <;> simp
      · unfold Point.afterFiring; dsimp only; split <;> simp
      · unfold Point.afterFiring; dsimp only; split <;> simp
      · exact hsat
    · apply key <;> simp [hst, d', e]
  | rearming =>
    dsimp only
    have d' : pt.rearmDir.isSome = true := d.2 hst
    split
    · apply key <;> simp [e]
    · apply key <;> simp [hst, d', e]
  | fired =>
    dsimp only
    have d' : pt.rearmDir.isSome = false := by
      cases hx : pt.rearmDir.isSome with
      | false => rfl
      | true => have := d.1 hx; rw [hst] at this; cases this
    exact key { pt with state := .fired, lastSide := some (sideOf v pt.level) } (by simp) (by simp) (by simp [d']) e
  | suspended => exact absurd hst h2
  | inactive => exact absurd hst h1

theorem putPoint_table {s : State} {pt pt' : Point} (h : TableHolds s) (hm : pt ∈ s.points) (h1 : pt'.slot = pt.slot) (h2 : pt'.owner = pt.owner)
    (h3 : pt'.Agrees s) : TableHolds (s.putPoint pt') := by
  rw [tableHolds_iff] at *
  obtain ⟨a, b⟩ := h
  have huniq : ∀ x ∈ s.points, x.slot = pt.slot → x = pt := by
    intro x hx he
    exact List.inj_on_of_nodup_map a.2.2 hx hm he
  unfold State.putPoint
  dsimp only
  refine ⟨a.map _ ?_ ?_, ?_⟩
  · intro x hx; split
    · rename_i he; rw [beq_iff_eq] at he; exact he.symm
    · rfl
  · intro x hx; split
    · rename_i he
      rw [beq_iff_eq, h1] at he
      rw [h2, huniq x hx he]
    · rfl
  · intro y hy
    obtain ⟨x, hx, rfl⟩ := List.mem_map.mp hy
    split
    · exact h3
    · exact b x hx

theorem evalSlot_table (c : Chan) (s : State) (k : Nat) (h : TableHolds s) : TableHolds (evalSlot c s k) := by
  unfold evalSlot
  cases hp : s.pointAt k with
  | none => exact h
  | some pt =>
    dsimp only
    split
    · rename_i hc
      cases s.subjectValue pt with
      | none => exact h
      | some v =>
        dsimp only
        have hm : pt ∈ s.points := List.mem_of_find?_eq_some hp
        have ha := ((tableHolds_iff s).1 h).2 pt hm
        simp only [Bool.and_eq_true, Bool.not_eq_true'] at hc
        have k := putPoint_table h hm (evaluated_same v pt).1 (evaluated_same v pt).2.1 (evaluated_agrees s v pt ha hc.2)
        split
        · have k2 := fireActions_pointsOnly pt (s.putPoint (pt.evaluated v))
          exact table_keep k (fireActions_points _ _) (sameView_scene k2.scene k2.comp)
        · exact k
    · exact h

theorem evalSlots_table (c : Chan) (ks : List Nat) : ∀ s, TableHolds s → TableHolds (evalSlots c ks s) := by
  unfold evalSlots
  induction ks with
  | nil => exact fun _ h => h
  | cons k ks ih => intro s h; exact ih _ (evalSlot_table c s k h)

theorem updateBlocks_table (c : Chan) (s : State) (hs : TableHolds s) : TableHolds (updateBlocks c s) := by
  rcases updateBlocks_chain c s with ⟨ks, ks', n, h, -⟩ | ⟨ks, h⟩ <;> rw [h]
  · have k := evalSlots_table c ks' _ (sequencerUpdate_table _ (evalSlots_table c ks s hs))
    exact table_keep k rfl (fun _ _ => rfl)
  · exact evalSlots_table c ks s hs

theorem uses_false {sub : Subject} {c : Chan} (h : sub.uses c = false) : (sub = .line ∧ c.feedsLine = false) ∨ ∃ d, sub = .chan d ∧ d ≠ c := by
  cases sub with
  | line => exact .inl ⟨rfl, h⟩
  | chan d => exact .inr ⟨d, rfl, by simpa [Subject.uses] using h⟩

theorem avail_off {s u : State} {c : Chan} {pt : Point} (hw : pt.subject.uses c = false)
    (h3 : ∀ d, d ≠ c → (u.chans.get d).state = (s.chans.get d).state) (h4 : ∀ d, d ≠ c → ∀ p, (u.origins.get p).get d = (s.origins.get p).get d) (h2 : u.comp = s.comp) :
    availability u pt.owner pt.subject = availability s pt.owner pt.subject := by
  rcases uses_false hw with ⟨h, hc⟩ | ⟨d, h, hd⟩ <;> rw [h]
  · have n0 : Chan.ch0 ≠ c := by intro x; subst x; cases hc
    have n1 : Chan.ch1 ≠ c := by intro x; subst x; cases hc
    have a0 := h3 _ n0; have a1 := h3 _ n1
    have o0 := h4 _ n0 pt.owner; have o1 := h4 _ n1 pt.owner
    simp only [PerChan.get] at a0 a1 o0 o1
    simp only [availability, a0, a1, o0, o1, h2]
  · simp only [availability, h3 d hd, h4 d hd]

theorem pointsOnChannel_table {s u : State} {c : Chan} (h : TableHolds s) (hp : u.points = s.points) (h2 : u.comp = s.comp)
    (h3 : ∀ d, d ≠ c → (u.chans.get d).state = (s.chans.get d).state) (h4 : ∀ d, d ≠ c → ∀ p, (u.origins.get p).get d = (s.origins.get p).get d) :
    TableHolds (pointsOnChannel c u) :=
  rejudge_table h hp (fun _ _ hw => avail_off hw h3 h4 h2)

theorem departure_table (c : Chan) (s u : State) (h : TableHolds s) (h1 : u.points = s.points) (h2 : u.comp = s.comp)
    (h3 : ∀ d, d ≠ c → (u.chans.get d).state = (s.chans.get d).state) (h4 : u.origins = s.origins) : TableHolds (departure c u) := by
  have k : TableHolds (cancelArms c (pointsOnChannel c u)) :=
    table_keep (pointsOnChannel_table h h1 h2 h3 (fun _ _ _ => by rw [h4])) rfl (fun _ _ => rfl)
  unfold departure sequencerDeparture
  split
  · exact halt_table _ _ k
  · exact k

theorem pointsOnOrigins_table {s u : State} {p : Port} {cs : List Chan} (h : TableHolds s) (hp : u.points = s.points) (h1 : u.chans = s.chans) (h2 : u.comp = s.comp)
    (ho : ∀ q, q ≠ p → u.origins.get q = s.origins.get q) (hc : ∀ c, c ∉ cs → (u.origins.get p).get c = (s.origins.get p).get c) :
    TableHolds (pointsOnOrigins p cs u) := by
  refine breakView_table h hp ?_
  intro pt _ hw
  simp only [Bool.and_eq_false_iff, beq_eq_false_iff_ne] at hw
  rcases hw with hw | hw
  · have := ho _ hw
    cases hsub : pt.subject <;> simp only [availability, this, h1, h2]
  · by_cases hpo : pt.owner = p
    · rw [hpo]
      rw [List.any_eq_false] at hw
      cases hsub : pt.subject with
      | chan c =>
        have : c ∉ cs := by
          intro hx; have := hw c hx; rw [hsub] at this; simp [Subject.uses] at this
        simp only [availability, hc c this, h1]
      | line =>
        have n0 : Chan.ch0 ∉ cs := by
          intro hx; have := hw _ hx; rw [hsub] at this; exact this rfl
        have n1 : Chan.ch1 ∉ cs := by
          intro hx; have := hw _ hx; rw [hsub] at this; exact this rfl
        have o0 := hc _ n0; have o1 := hc _ n1
        simp only [PerChan.get] at o0 o1
        simp only [availability, o0, o1, h1, h2]
    · have := ho _ hpo
      cases hsub : pt.subject <;> simp only [availability, this, h1, h2]

theorem foldl_set_other (f : Chan → Origin) (cs : List Chan) (os : PerChan Origin) (c : Chan) (h : c ∉ cs) :
    (cs.foldl (fun os c => os.set c (f c)) os).get c = os.get c := by
  induction cs generalizing os with
  | nil => rfl
  | cons d cs ih =>
    rw [List.foldl_cons, ih _ (by simp_all), PerChan.get_set, if_neg (by simp_all)]

theorem table_sub {s t : State} (h : TableHolds s) (hp : t.points.Sublist s.points) (hv : SameAvailability s t) : TableHolds t := by
  rw [tableHolds_iff] at *
  exact ⟨h.1.sub hp, fun pt hm => agrees_congr (hv _ _) (h.2 pt (hp.subset hm))⟩

theorem haltIf_table (cause : HaltCause) (s : State) (h : TableHolds s) : TableHolds (haltIfScanning cause s) := by
  unfold haltIfScanning; split
  · exact halt_table _ _ h
  · exact h

theorem add_table {s : State} {pt : Point} {kept : List Point} (h : TableHolds s) (hk : kept.Sublist s.points) (hn : pt.lastSide = none ∧ pt.rearmDir = none ∧ pt.firings = 0)
    (hl : kept.length < 32) (ho : (kept.filter (fun x => x.owner == pt.owner)).length < 16) (hs : pt.slot ∉ kept.map Point.slot) : TableHolds (addPointTo pt kept s) := by
  rw [tableHolds_iff] at *
  obtain ⟨a, b⟩ := h
  obtain ⟨a1, a2, a3⟩ := a.sub hk
  unfold addPointTo
  show PointsFit (kept ++ [_]) ∧ ∀ x ∈ kept ++ [_], _
  refine ⟨⟨?_, ?_, ?_⟩, ?_⟩
  · simp; omega
  · intro p
    rw [List.filter_append, List.length_append]
    by_cases hp : pt.owner = p
    · subst hp; simp; omega
    · have := a2 p
      simp [hp]; omega
  · rw [List.map_append, List.nodup_append]
    refine ⟨a3, by simp, ?_⟩
    intro x hx y hy
    simp only [List.map_cons, List.map_nil, List.mem_singleton] at hy
    subst hy
    intro he; subst he; exact hs hx
  · intro x hx
    rw [List.mem_append, List.mem_singleton] at hx
    rcases hx with hx | rfl
    · exact b x (hk.subset hx)
    · unfold Point.initialState
      have key : ∀ (st : PointState) (u : State), (st = .inactive ↔ availability u pt.owner pt.subject = .inactive) →
          (st = .suspended ↔ availability u pt.owner pt.subject = .suspended) → st ≠ .rearming → Point.Agrees u { pt with state := st } := by
        intro st u h1 h2 h3
        exact ⟨h1, h2, fun _ => hn.1, by simp [hn.2.1, h3], by simp [hn.2.2]⟩
      cases ha : availability s pt.owner pt.subject with
      | inactive => 
        refine key _ _ ?_ ?_ (by simp)
        · exact ⟨fun _ => ha, fun _ => rfl⟩
        · refine ⟨by simp, ?_⟩
          intro x
          have x : availability s pt.owner pt.subject = .suspended := x
          rw [ha] at x; cases x
      | suspended =>
        refine key _ _ ?_ ?_ (by simp)
        · refine ⟨by simp, ?_⟩
          intro x
          have x : availability s pt.owner pt.subject = .inactive := x
          rw [ha] at x; cases x
        · exact ⟨fun _ => ha, fun _ => rfl⟩
      | available =>
        refine key _ _ ?_ ?_ (by simp)
        · refine ⟨by simp, ?_⟩
          intro x
          have x : availability s pt.owner pt.subject = .inactive := x
          rw [ha] at x; cases x
        · refine ⟨by simp, ?_⟩
          intro x
          have x : availability s pt.owner pt.subject = .suspended := x
          rw [ha] at x; cases x

theorem effect_keeps_table (s t : State) (h : Effect s t) (hs : TableHolds s) : TableHolds t := by
  cases h with
  | same => exact hs
  | frame c f =>
    have hst : ∀ d, ((noteFrame c f s).chans.get d).state = (s.chans.get d).state := fun d => by
      simp only [noteFrame, onChanTotals_chans, onChan_chans, PerChan.get_modify]; split <;> rfl
    have hn : TableHolds (noteFrame c f s) := table_keep hs rfl (sameView_of hst rfl (fun _ _ => rfl))
    rcases goodFrame_cases c f s with ⟨-, ⟨d, k⟩ | k⟩ | ⟨ha, ⟨r, k⟩ | k⟩ | ⟨-, -, k⟩ <;> rw [k]
    · exact departure_table c (noteFrame c f s) _ hn rfl rfl (fun e he => by
        show (((noteFrame c f s).chans.modify c _).get e).state = _
        rw [PerChan.get_modify, if_neg he]) rfl
    · exact updateBlocks_table c _ (table_keep hn rfl (sameView_of (fun e => by
        show (((noteFrame c f s).chans.modify c _).get e).state = _
        rw [PerChan.get_modify]; split <;> rfl) rfl (fun _ _ => rfl)))
    · exact table_keep hn rfl (sameView_of (fun e => by
        show (((noteFrame c f s).chans.modify c _).get e).state = _
        rw [PerChan.get_modify]; split <;> rfl) rfl (fun _ _ => rfl))
    · unfold acquisition
      split
      · exact pointsOnChannel_table hn rfl rfl (fun e he => by
          show (((noteFrame c f s).chans.modify c _).get e).state = _
          rw [PerChan.get_modify, if_neg he]) (fun _ _ _ => rfl)
      · exact pointsOnChannel_table hn rfl rfl (fun e he => by
          show (((noteFrame c f s).chans.modify c _).get e).state = _
          rw [PerChan.get_modify, if_neg he]) (fun e he p => by
          show ((PerPort.ofFn (fun p => (s.origins.get p).modify c _)).get p).get e = _
          rw [PerPort.get_ofFn, PerChan.get_modify, if_neg he]; rfl)
    · exact hn
  | edge i =>
    unfold takeEdge handEdge
    split
    · have k : TableHolds ((s.onInput i (TrigInput.acceptEdge s.time)).onInputTotals i (fun t => { t with accepted := t.accepted + 1 })) :=
        table_keep hs rfl (fun _ _ => rfl)
      split
      · exact table_keep k (sequencerEdge_points _) (sameView_scene (sequencerEdge_scene _) (sequencerEdge_comp _))
      · exact hand_table _ _ k
    · exact table_keep hs rfl (fun _ _ => rfl)
  | settled c h =>
    have k := settleEntered_armsOnly c (s.onStill c (StillTimer.expire s.time))
    exact table_keep (s := s.onStill c (StillTimer.expire s.time)) (table_keep hs rfl (fun _ _ => rfl)) k.points (sameView_scene k.scene k.comp)
  | pinExpired c p h =>
    have h2 := removePins_table p [c] (by simp) hs
    have hc : (expirePin c p s).comp = (removePins p [c] s).comp ∧ (expirePin c p s).points = (removePins p [c] s).points := by
      have e : expirePin c p s = applyDueSlots [c] (post Notice.pinExpired p (s.onComp c (CompEntry.setPin p Pin.none))) := rfl
      unfold removePins
      rw [e]
      simp only [List.foldl_cons, List.foldl_nil]
      unfold applyDueSlots announceApplied
      have : (post Notice.pinExpired p (s.onComp c (CompEntry.setPin p Pin.none))).slotDue = (s.onComp c (CompEntry.setPin p Pin.none)).slotDue := rfl
      rw [this]
      simp only [List.filter_cons, List.filter_nil]
      split
      · simp only [List.foldl_cons, List.foldl_nil, List.isEmpty_cons]
        split
        · exact ⟨rfl, rfl⟩
        · split <;> exact ⟨rfl, rfl⟩
      · exact ⟨rfl, rfl⟩
    have k1 := (expirePin_storeOnly c p s).scene
    have k2 := (removePins_storeOnly p [c] s).scene
    exact table_keep h2 hc.2 (sameView_of (fun _ => by rw [k1.chans, k2.chans]) (by rw [k1.origins, k2.origins]) (fun _ _ => by rw [hc.1]))
  | disable c p h =>
    have : TableHolds (disableChannel c s) := by
      unfold disableChannel; dsimp only
      split
      · exact departure_table c s _ hs rfl rfl (fun e he => by
          show ((s.chans.modify c _).get e).state = _
          rw [PerChan.get_modify, if_neg he]) rfl
      · rename_i hnt
        refine table_keep hs rfl ?_
        intro p sub
        have hd : ∀ d, ((s.onChan c ChannelUnit.disable).chans.get d).state = .tracking ↔ (s.chans.get d).state = .tracking := by
          intro d
          simp only [onChan_chans, PerChan.get_modify]
          split
          · rename_i hx; subst hx; simp [ChannelUnit.disable, hnt]
          · rfl
        have a0 := hd .ch0; have a1 := hd .ch1
        simp only [PerChan.get] at a0 a1
        cases sub with
        | chan d => simp only [availability, ne_eq, hd d]; rfl
        | line => simp only [availability, ne_eq, a0, a1]; rfl
    exact table_keep this rfl (fun _ _ => rfl)
  | enable c p h =>
    refine table_keep hs rfl ?_
    intro p sub
    have hd : ∀ d, ((s.onChan c ChannelUnit.enable).chans.get d).state = .tracking ↔ (s.chans.get d).state = .tracking := by
      intro d
      simp only [onChan_chans, PerChan.get_modify]
      split
      · rename_i hx; subst hx; simp [ChannelUnit.enable, h]
      · rfl
    show availability (s.onChan c ChannelUnit.enable) p sub = _
    have a0 := hd .ch0; have a1 := hd .ch1
    simp only [PerChan.get] at a0 a1
    cases sub with
    | chan d => simp only [availability, ne_eq, hd d]; rfl
    | line => simp only [availability, ne_eq, a0, a1]; rfl
  | recover c m p h =>
    refine table_keep hs rfl ?_
    intro p sub
    have hd : ∀ d, ((s.onChan c (ChannelUnit.recover m)).chans.get d).state = .tracking ↔ (s.chans.get d).state = .tracking := by
      intro d
      simp only [onChan_chans, PerChan.get_modify]
      split
      · rename_i hx; subst hx; simp [ChannelUnit.recover, h]
      · rfl
    show availability (s.onChan c (ChannelUnit.recover m)) p sub = _
    have a0 := hd .ch0; have a1 := hd .ch1
    simp only [PerChan.get] at a0 a1
    cases sub with
    | chan d => simp only [availability, ne_eq, hd d]; rfl
    | line => simp only [availability, ne_eq, a0, a1]; rfl
  | configure c g ch p h =>
    have : TableHolds (s.onChan c (fun u => { u with config := g })) := table_keep hs rfl (sameView_of (fun e => by
        show ((s.chans.modify c _).get e).state = _
        rw [PerChan.get_modify]; split <;> rfl) rfl (fun _ _ => rfl))
    cases ch <;> exact table_keep this rfl (fun _ _ => rfl)
  | write p m w o =>
    unfold writeComp
    dsimp only
    have k := onComps_storeOnly (fun _ => CompEntry.write p w o) (maskChans m) s
    have hg := onComps_get (fun _ => CompEntry.write p w o) (maskChans m) (maskChans_nodup m) s
    have hpt : ((maskChans m).foldl (fun t c => t.onComp c (CompEntry.write p w o)) s).points = s.points := by
      generalize maskChans m = l
      clear hg k
      have : ∀ s : State, (l.foldl (fun t c => t.onComp c (CompEntry.write p w o)) s).points = s.points := by
        induction l with
        | nil => intro s; rfl
        | cons d l ih => intro s; rw [List.foldl_cons, ih]; rfl
      exact this s
    generalize (maskChans m).foldl (fun t c => t.onComp c (CompEntry.write p w o)) s = u at k hg hpt ⊢
    refine announce_table (s := s) hs hpt k.scene.chans k.scene.origins ?_
    intro c hc
    show (u.comp.get c).weight = _
    rw [hg]
    split
    · rename_i hm
      unfold CompEntry.write
      split
      · rename_i hu
        exact absurd (List.mem_filter.mpr ⟨hm, hu⟩) hc
      · rfl
    · rfl
  | pin p m hold =>
    have k := onComps_storeOnly (fun _ => CompEntry.pin p s.time hold) (maskChans m) s
    have hg := onComps_get (fun _ => CompEntry.pin p s.time hold) (maskChans m) (maskChans_nodup m) s
    refine table_keep hs ?_ (sameView_of (fun _ => by rw [k.scene.chans]) k.scene.origins (fun c _ => ?_))
    · generalize s.time = tm
      generalize maskChans m = l
      clear hg k hs
      have : ∀ s : State, (l.foldl (fun t c => t.onComp c (CompEntry.pin p tm hold)) s).points = s.points := by
        induction l with
        | nil => intro s; rfl
        | cons d l ih => intro s; rw [List.foldl_cons, ih]; rfl
      exact this s
    · rw [hg]; split
      · unfold CompEntry.pin; split <;> rfl
      · rfl
  | unpin p m => exact removePins_table p _ ((maskChans_nodup m).filter _) hs
  | bind p m v hm ht =>
    refine pointsOnOrigins_table hs rfl rfl rfl ?_ ?_
    · intro q hq
      show (s.origins.modify p _).get q = _
      rw [PerPort.get_modify, if_neg hq]
    · intro c hc
      show ((s.origins.modify p _).get p).get c = _
      rw [PerPort.get_modify_self]
      exact foldl_set_other (fun c => boundOrigin (s.chans.get c) v) _ _ _ hc
  | free p m hm =>
    refine pointsOnOrigins_table hs rfl rfl rfl ?_ ?_
    · intro q hq
      show (s.origins.modify p _).get q = _
      rw [PerPort.get_modify, if_neg hq]
    · intro c hc
      show ((s.origins.modify p _).get p).get c = _
      rw [PerPort.get_modify_self]
      exact foldl_set_other (fun _ => Origin.free) _ _ _ hc
  | resetContext p =>
    refine pointsOnOrigins_table hs rfl rfl rfl ?_ ?_
    · intro q hq
      show (s.origins.set p _).get q = _
      rw [PerPort.get_set, if_neg hq]
    · intro c hc; simp at hc
  | capture p => exact hand_table _ _ hs
  | armFires p m =>
    have k := fireArm_scene p m { s with arms := s.arms.set p (some m) }
    exact table_keep hs (fireArm_points _ _ _) (sameView_of (fun _ => by rw [k.chans]) k.origins (fun _ _ => by rw [fireArm_comp]))
  | release p h =>
    have k := haltIf_table .stopped s hs
    generalize haltIfScanning .stopped s = u at k ⊢
    exact table_keep k rfl (fun _ _ => rfl)
  | force p h =>
    have k := haltIf_table .forced s hs
    generalize haltIfScanning .forced s = u at k ⊢
    exact table_keep k rfl (fun _ _ => rfl)
  | start p dir first strays w h ht hf hss =>
    refine table_keep hs rfl (sameView_of (fun _ => rfl) rfl ?_)
    intro c _
    have hcg : (startScan p dir first strays w s).comp.get c = if c.feedsLine then (s.comp.get c).setPin p .run else s.comp.get c := by
      cases c <;> rfl
    rw [hcg]; split <;> rfl
  | stop p h ht => exact halt_table .stopped s hs
  | resetClaim p =>
    unfold Machine.resetClaim
    split
    · have k := haltIf_table .claimLost s hs
      generalize haltIfScanning .claimLost s = u at k ⊢
      exact table_keep k rfl (fun _ _ => rfl)
    · exact hs
  | resetPins p => exact removePins_table p _ (List.Nodup.filter _ (by decide)) hs
  | input i en e h ch p => cases ch <;> exact table_keep hs rfl (fun _ _ => rfl)
  | clearPoints p all ch =>
    have : TableHolds (removePoints (clearedBy p all) s) := table_sub hs List.filter_sublist (fun _ _ => rfl)
    cases ch <;> exact table_keep this rfl (fun _ _ => rfl)
  | resetPoints p => exact table_sub hs List.filter_sublist (fun _ _ => rfl)
  | removePoint p pt h => exact table_sub hs List.filter_sublist (fun _ _ => rfl)
  | addFree p pt k hp hn hk hr =>
    obtain ⟨b, hr⟩ := hr
    unfold State.roomFor at hr
    split at hr
    · rename_i hlt
      cases hf : s.freeSlot with
      | none => rw [hf] at hr; cases hr
      | some j =>
        rw [hf] at hr
        cases hr
        refine add_table hs (List.Sublist.refl _) hn hlt.2 (by rw [hp]; exact hlt.1) ?_
        rw [hk]
        intro hx
        obtain ⟨x, hx, he⟩ := List.mem_map.mp hx
        have := List.find?_some hf
        simp only [State.pointAt, Option.isNone_iff_eq_none, List.find?_eq_none] at this
        have := this x hx
        simp [he] at this
    · split at hr <;> cases hr
  | addReplacing p pt old hp hn hk hr =>
    obtain ⟨b, hr⟩ := hr
    have hold : old ∈ s.points ∧ old.owner = p := by
      unfold State.roomFor at hr
      split at hr
      · split at hr <;> cases hr
      · cases b with
        | false => simp at hr
        | true =>
          simp only [if_true] at hr
          cases ho : s.oldestUnkept p with
          | none => rw [ho] at hr; cases hr
          | some o =>
            rw [ho] at hr; cases hr
            refine ⟨List.mem_of_find?_eq_some ho, ?_⟩
            have := List.find?_some ho
            simp at this; exact this.1
    have hs0 := ((tableHolds_iff s).1 hs).1
    have hsub : (withoutSlot old.slot s.points).Sublist s.points := List.filter_sublist
    have hnot : old ∉ withoutSlot old.slot s.points := by
      intro hx
      have := (List.mem_filter.mp hx).2
      simp at this
    refine add_table hs hsub hn ?_ ?_ ?_
    · have : (withoutSlot old.slot s.points).length < s.points.length := by
        have := hsub.length_le
        rcases Nat.lt_or_ge (withoutSlot old.slot s.points).length s.points.length with h | h
        · exact h
        · have := hsub.eq_of_length_le h
          rw [this] at hnot
          exact absurd hold.1 hnot
      have := hs0.1; omega
    · rw [hp]
      have h1 := hsub.filter (fun x => x.owner == p)
      have : ((withoutSlot old.slot s.points).filter (fun x => x.owner == p)).length < (s.points.filter (fun x => x.owner == p)).length := by
        rcases Nat.lt_or_ge ((withoutSlot old.slot s.points).filter (fun x => x.owner == p)).length (s.points.filter (fun x => x.owner == p)).length with h | h
        · exact h
        · have e := h1.eq_of_length_le h
          have hm : old ∈ s.points.filter (fun x => x.owner == p) := List.mem_filter.mpr ⟨hold.1, by simp [hold.2]⟩
          rw [← e] at hm
          exact absurd (List.mem_filter.mp hm).1 hnot
      have := hs0.2.1 p; omega
    · rw [hk]
      intro hx
      obtain ⟨x, hx, he⟩ := List.mem_map.mp hx
      have := (List.mem_filter.mp hx).2
      simp [he] at this
  | _ => exact table_keep hs rfl (fun _ _ => rfl)

end Sys2Proof.Machine
end

