-- ==== Sys2Proof/Tests/Slice0.lean ====
section
/-! SUPPORT. Tests/Slice0.lean: checks of the model on fixed values: ill-formed commands that the check refuses, the
tables and worked figures of the manual, and for each statement of Certificates/Slice0/Obligations.lean a state and
operands that meet its hypotheses together, each clause at a value where its range ends. -/

namespace Sys2Proof.Tests

open Sys2Proof.Machine

set_option maxRecDepth 20000

/-! ## Small states -/

/-- The part after start-up. -/
def idle : State := { State.reset with links := PerPort.const { Link.afterReset with state := .idle } }

/-- A request at P0 that is taken at once. -/
def ask (payload : List Byte) : Req := ⟨.p0, 7, payload, .whole⟩

/-- Every channel TRACKING, MOVING and compensated. -/
def tracking : State :=
  { idle with
    chans := PerChan.const { ChannelUnit.reset with state := .tracking }
    still := PerChan.const ⟨.moving, 0, some 1, 0, none⟩
    comp := PerChan.const { CompEntry.reset with weight := 154450 } }

/-- Every channel in one channel state. -/
def inState (x : ChanState) : State := { idle with chans := PerChan.const { ChannelUnit.reset with state := x } }

/-- A good sample frame: sequence number, the two phase bytes, level. -/
def sample (seq hi lo level : Byte) : List Byte := [seq, hi, lo, level, crc8 [seq, hi, lo, level]]

/-- Two lines of the scale. -/
def twoLines : List LineEntry := [⟨1, 1000, 10⟩, ⟨2, 5000, 10⟩]

/-- P0 holds the claim with a list. -/
def claimed : State :=
  { tracking with seq := { Sequencer.reset with state := .loading, claimant := some .p0, lines := twoLines } }

/-- P0 runs a scan. -/
def scanning : State :=
  { claimed with
    seq := { claimed.seq with state := .tracking }
    comp := (claimed.comp.modify .ch0 (CompEntry.setPin .p0 .run)).modify .ch1 (CompEntry.setPin .p0 .run) }

/-- P0's ring ACTIVE. -/
def withRing : State := { tracking with rings := tracking.rings.set .p0 { Ring.reset with state := .active } }

/-- A queue entry routed to P0. -/
def entryOf (n : BitVec 32) : QueueEntry :=
  ⟨n, .request .p0, ⟨true, false, false⟩, snapshot tracking (.request .p0) ⟨true, false, false⟩⟩

/-- A point of P0 on CH0 that fires up at 10. -/
def point : Point := ⟨3, .p0, false, false, .chan .ch0, 10, .up, .repeating 5, ⟨true, true, true⟩, .armed, some .below, none, 0⟩

/-- That point in the table, at a raw count. -/
def watching (pt : Point) (raw : Count) : State :=
  { tracking with points := [pt], chans := tracking.chans.modify .ch0 (fun u => { u with raw := raw }) }

/-- P0 RESETTING, with a step to take. -/
def resetting (next : ResetStep) : State :=
  idle.onLink .p0 (fun l =>
    { l with state := .resetting, inProgress := some ⟨33, 0x61, []⟩
             reset := some { firstProgress idle .p0 with next := next } })

/-- What a command leaves, tested. -/
def after (i : Instr) (s : State) (test : State → Bool) : Bool :=
  match exec i s with
  | .next t => test t
  | .fault _ => false
  | .refused _ => false

/-- A request at an IDLE port is taken in this step. -/
theorem test_ready (b : List Byte) (s : State) (h : s.links = idle.links) : Ready (ask b) s := by
  refine ⟨rfl, ?_, ?_⟩ <;> rw [h] <;> rfl

/-! ## Ill-formed commands -/

theorem test_payloadBeyondAFrame (x : Byte) :
    (Instr.identify ⟨.p0, 0, List.replicate 4096 x, .whole⟩).wellFormed = false := by
  show decide ((List.replicate 4096 x).length ≤ 4095) = false
  rw [List.length_replicate]; rfl

theorem test_goodBytesAreNoBadFrame : (Instr.badFrame .p0 (frameBytes 1 0x60 [])).wellFormed = false := by decide

theorem test_aCodeThatNamesARequestIsNoBadRequest : (Instr.badRequest 0x60 (ask [])).wellFormed = false := by decide

theorem test_payloadBeyondABusyAnswer (x : Byte) :
    (Instr.busyAnswer .p0 0 0 (List.replicate 4096 x)).wellFormed = false ∧
    (Instr.startingAnswer .p0 0 0 (List.replicate 4096 x)).wellFormed = false := by
  have h : decide ((List.replicate 4096 x).length ≤ 4095) = false := by rw [List.length_replicate]; rfl
  exact ⟨h, h⟩

theorem test_wellFormedCommands :
    (Instr.identify (ask [])).wellFormed = true ∧ (Instr.badFrame .p0 []).wellFormed = true ∧
    (Instr.badRequest 0x62 (ask [])).wellFormed = true ∧ (Instr.busyAnswer .p0 0 0x60 []).wellFormed = true := by decide

/-! ## Tables and worked figures of the manual -/

/-- The table of R42. -/
theorem test_compensationTable :
    (compensate 1000 154450 0, compensate 3 154450 0, compensate (-3) 154450 0, compensate 1 1500 0,
      compensate (-1) 1500 0, compensate (-4) 154450 0) = (154450, 463, -463, 2, -2, -618) := by decide

/-- The table of R44. -/
theorem test_lineTable :
    compensate 1000010 154450 (BitVec.ofInt 32 (-121)) = 154451424 ∧
    (lineOf 154450463 154451424, yawOf 154450463 154451424) = (154450943, 961) ∧
    (lineOf (-463) (-618), yawOf (-463) (-618)) = (-541, -155) := by decide

/-- The table of three ports under R67. -/
theorem test_viewTable :
    (viewOf .tracking 5120310 ⟨5000000, 7, .bound⟩, compOf (viewOf .tracking 5120310 ⟨5000000, 7, .bound⟩) 154450 0) =
      (some 120310, some 18581880) ∧
    compOf (viewOf .tracking 5120310 .free) 154450 0 = some 790831880 ∧
    viewOf .tracking 5120310 ⟨5120000, 7, .stale⟩ = none ∧ viewOf .lost 5120310 .free = none := by decide

/-- The REPEAT point under R158: state and firings after each update of its table. -/
theorem test_hysteresisTable :
    let p0 : Point := { point with threshold := 10000, mode := .repeating 50 }
    let after := fun (p : Point) (v : Int) => p.evaluated v
    let p1 := after (after p0 9990) 10003
    let p2 := after (after (after p1 9998) 10001) 9950
    let p3 := after p2 10000
    (p1.state, p1.firings, p1.rearmDir) = (.rearming, 1, some .up) ∧ (p2.state, p2.firings) = (.armed, 1) ∧
    (p3.state, p3.firings, p3.lastSide) = (.rearming, 2, some .at) := by decide

/-- The LINE record 904 of 11-5: 35 words, kind 1, source 6, frame port 1, mask 3C30C3h, index and tag 2, ordinal 1. -/
theorem test_lineRecord904 :
    let on : ChanSnap := ⟨.tracking, 3, 12950000, some 5, 154450, 0, 13⟩
    let off : ChanSnap := ⟨.disabled, 0, 0, none, 0, 0, 0⟩
    let os : PerChan Origin := (PerChan.const Origin.free).set .ch0 ⟨7, 3, .bound⟩ |>.set .ch1 ⟨9, 3, .bound⟩
    let e : QueueEntry :=
      { number := 904, source := .sequence .p1 (some .p1) (.line ⟨2, 2, 2000000000⟩ 1), route := ⟨false, true, false⟩
        snap := { time := 0x123456789ABC, chans := ⟨on, on, off, off, off, off⟩, origins := ⟨none, some os, none⟩
                  frame := some (os.ch0, os.ch1) } }
    let w := (buildRecord e .p1).words
    w.length = 35 ∧ w.take 5 = [904, 0x00016123, 0x3C30C3, 0x56789ABC, 0x1234] ∧
    w[5]? = some 0x00060003 ∧ w[6]? = some 0x0005000D ∧ w[29]? = some 0x00020002 ∧ w[30]? = some 2000000000 ∧
    w[32]? = some 1 := by decide

/-- A frame of R190 with the CRC-16 of R179, high byte first: IDENTIFY with tag 1. -/
theorem test_identifyFrame :
    requestOf (frameBytes 1 0x60 []) = some ⟨1, 0x60, []⟩ ∧ (frameBytes 1 0x60 []).length = 6 ∧
    decodeFrame .p2 (frameBytes 1 0x60 []) = .identify ⟨.p2, 1, [], .whole⟩ ∧ requestOf [1, 0x60, 0, 0, 0, 0] = none ∧
    crc16 [0x31, 0x32, 0x33, 0x34, 0x35, 0x36, 0x37, 0x38, 0x39] = 0x29B1 ∧
    crc8 [0x31, 0x32, 0x33, 0x34, 0x35, 0x36, 0x37, 0x38, 0x39] = 0xF4 := by decide

/-! ## The hypotheses of the statements are met -/

theorem test_aCommandWaits : ({ idle with pending := [.completionEnd] } : State).pending = .completionEnd :: [] := rfl

theorem test_anIdlePart :
    dueEvents State.reset = [] ∧ dueEvents { State.reset with time := 9999 } = [] ∧
    dueEvents { State.reset with time := 10000 } = .endOfStartUp :: [] := by decide

/-- Every kind of due event at the period in which it is due, and none one period before. -/
theorem test_dueEventsInTheirOrder :
    let at_ := fun (now : Time) (s : State) => dueEvents { s with time := now }
    let s := { ((idle.onStill .ch2 (fun _ => ⟨.moving, 0, some 1, 0, none⟩)).onComp .ch4
      (CompEntry.setPin .p1 (.timed 0 1))).onInput .aux0 (fun t => { t with holdOffUntil := some 50 }) with
      sync := some 0, engine := .completing 0 }
    at_ 49 s = [] ∧ at_ 50 s = [.holdOffExpiry .aux0] ∧ at_ 99 s = [.holdOffExpiry .aux0] ∧
    at_ 100 s = [.holdOffExpiry .aux0, .syncPulseEnd] ∧ at_ 200 s = [.holdOffExpiry .aux0, .syncPulseEnd, .completionEnd] ∧
    at_ 999 s = [.holdOffExpiry .aux0, .syncPulseEnd, .completionEnd] ∧
    at_ 1000000 s = [.holdOffExpiry .aux0, .stillnessExpiry .ch2, .pinHoldExpiry .ch4 .p1, .syncPulseEnd,
      .completionEnd] := by decide

theorem test_aFullPayload : (ask (List.replicate 4095 0)).payload.length ≤ 4095 := by
  show (List.replicate 4095 (0 : Byte)).length ≤ 4095
  rw [List.length_replicate]

theorem test_portsQueueAndRingsHold : LinksHold idle ∧ QueueHolds idle ∧ RingsHold idle ∧ step idle = .next (tick idle) := by
  refine ⟨?_, ?_, ?_, rfl⟩
  · intro p; cases p <;> unfold Link.Holds <;> decide
  · unfold QueueHolds; decide
  · intro p; cases p <;> unfold Ring.Holds <;> decide

theorem test_stillnessAndStoreHold : StillHolds tracking ∧ StoreHolds tracking ∧ step tracking = .next (tick tracking) := by
  refine ⟨?_, ?_, rfl⟩
  · intro c; cases c <;> unfold StillTimer.Agrees <;> decide
  · intro c; cases c <;> decide

theorem test_aRunningScanHolds :
    ScanHolds scanning ∧ DecisionsHold scanning ∧ step scanning = .next (tick scanning) := by
  refine ⟨⟨by decide, by decide, ?_, ?_, by decide, by decide⟩, ?_, rfl⟩
  · intro c p; cases c <;> cases p <;> decide
  · intro _ p _ c _; cases c <;> cases p <;> decide
  · intro _; exact ⟨by decide, by decide, Nat.le_refl _, rfl⟩

theorem test_aWatchedPointHolds : TableHolds (watching point 0) ∧ step (watching point 0) = .next (tick (watching point 0)) := by
  refine ⟨⟨by decide, ?_, by decide, ?_⟩, rfl⟩
  · intro p; cases p <;> decide
  · intro pt h
    have h1 : pt = point := by simpa [watching] using h
    subst h1
    unfold Point.Agrees
    decide

theorem test_aSampleMovesTheCount :
    after (.sampleFrame .ch5 (sample 1 96 0 32)) tracking (fun t => (t.chans.get .ch5).raw == 384) = true ∧
    (tracking.chans.get .ch5).state = .tracking ∧
    after (.sampleFrame .ch5 (sample 1 96 0 32)) tracking (fun t => (t.chans.get .ch5).state == .tracking) = true := by
  decide

theorem test_anAcquisitionAdvancesTheEpoch :
    after (.sampleFrame .ch5 (sample 1 96 0 64))
      { inState .acquiring with chans := (inState .acquiring).chans.modify .ch5 (fun u => { u with run := 1023 }) }
      (fun t => (t.chans.get .ch5).epoch == 1) = true := by decide

theorem test_aPinnedWriteWaits :
    after (.setCompensation (ask (u8 1 ++ u32 9 ++ u32 0))) scanning
      (fun t => !(t.comp.get .ch0).unpinned && (t.comp.get .ch0).slot.isSome) = true ∧
    (scanning.comp.get .ch0).unpinned = false := by decide

/-- Another port's context at a PORT RESET and at a DISABLE CHANNEL that cancels its arm. -/
theorem test_anotherPortsContext :
    RingsHold idle ∧ after (.portReset (ask [])) idle (fun _ => true) = true ∧ Port.p1 ≠ (ask []).port ∧
    RequestKind.command .disableChannel (ask (u8 Chan.ch5.num)) = .disableChannel (ask (u8 Chan.ch5.num)) ∧
    (tracking.chans.get .ch5).state = .tracking ∧ maskHas 32 .ch5 = true ∧
    after (.disableChannel (ask (u8 Chan.ch5.num))) { tracking with arms := tracking.arms.set .p1 (some 32) }
      (fun t => t.arms.get .p1 == none && (t.notices.get .p1).has .settleCancelled) = true :=
  ⟨test_portsQueueAndRingsHold.2.2.1, by decide, by decide, rfl, by decide, by decide, by decide⟩

theorem test_aRefusedPortReset : Ready (ask [1]) idle ∧ (ask [1]).payload ≠ [] := ⟨test_ready _ _ rfl, by decide⟩

theorem test_sampleFrames :
    sampleOf (sample 1 96 0 32) = some ⟨1, 384, false, false, 32⟩ ∧ sampleOf [1, 96, 0, 32, 0] = none ∧
    [1, 96, 0, (32 : Byte)].length ≠ 5 := by decide

theorem test_untrackedFrames :
    sampleOf (sample 1 96 0 32) = some ⟨1, 384, false, false, 32⟩ ∧ (idle.chans.get .ch0).state = .disabled ∧
    ((inState .lost).chans.get .ch0).state = .lost := by decide

/-- A step at the limit and a level at the loss threshold. -/
theorem test_aFrameWithinItsLimits :
    sampleOf (sample 1 96 0 32) = some ⟨1, 384, false, false, 32⟩ ∧ (tracking.chans.get .ch0).state = .tracking ∧
    InSequence (tracking.chans.get .ch0) ⟨1, 384, false, false, 32⟩ ∧
    (tracking.chans.get .ch0).config.loss.toNat ≤ Sample.judged ⟨1, 384, false, false, 32⟩ ∧
    StepFormed (tracking.chans.get .ch0).config.sense (tracking.chans.get .ch0).lastPhase 384 384 ∧
    (384 : Int).natAbs ≤ (tracking.chans.get .ch0).config.stepLimit.toNat := by
  exact ⟨by decide, by decide, .inl rfl, by decide, ⟨384, by decide, by decide, by decide, rfl⟩, by decide⟩

/-- A gap, a level below the threshold and a step beyond the limit, each by one. -/
theorem test_losses :
    (sampleOf (sample 1 96 0 32) = some ⟨1, 384, false, false, 32⟩ ∧
      { tracking.chans.get .ch0 with expected := some 2 }.expected = some 2 ∧ (2 : Byte) ≠ 1) ∧
    (sampleOf (sample 1 96 0 31) = some ⟨1, 384, false, false, 31⟩ ∧
      Sample.judged ⟨1, 384, false, false, 31⟩ < (tracking.chans.get .ch0).config.loss.toNat) ∧
    (sampleOf (sample 1 96 64 32) = some ⟨1, 385, false, false, 32⟩ ∧
      InSequence (tracking.chans.get .ch0) ⟨1, 385, false, false, 32⟩ ∧
      StepFormed (tracking.chans.get .ch0).config.sense (tracking.chans.get .ch0).lastPhase 385 385 ∧
      (tracking.chans.get .ch0).config.stepLimit.toNat < (385 : Int).natAbs) := by
  refine ⟨by decide, by decide, by decide, .inl rfl, ⟨385, by decide, by decide, by decide, rfl⟩, by decide⟩

theorem test_qualifyingFrames :
    let u := (inState .acquiring).chans.get .ch0
    u.state = .acquiring ∧ sampleOf (sample 1 96 0 63) = some ⟨1, 384, false, false, 63⟩ ∧
    sampleOf (sample 1 96 0 64) = some ⟨1, 384, false, false, 64⟩ ∧
    Sample.judged ⟨1, 384, false, false, 63⟩ < u.config.acquire.toNat ∧
    u.config.acquire.toNat ≤ Sample.judged ⟨1, 384, false, false, 64⟩ ∧ 1022 + 1 < u.config.qualify.toNat ∧
    u.config.qualify.toNat ≤ 1023 + 1 := by decide

/-- A continuation difference at the still band and beyond it. -/
theorem test_continuations :
    InSequence ((inState .acquiring).chans.get .ch0) ⟨1, 64, false, false, 64⟩ ∧
    StepFormed .normal 0 64 64 ∧ (64 : Int).natAbs ≤ min ChanConfig.reset.stillBand.toNat 511 ∧
    StepFormed .inverted 0 65 (-65) ∧ ¬ (-65 : Int).natAbs ≤ min ChanConfig.reset.stillBand.toNat 511 := by
  exact ⟨.inl rfl, ⟨64, by decide, by decide, by decide, rfl⟩, by decide, ⟨65, by decide, by decide, by decide, rfl⟩,
    by decide⟩

theorem test_stillnessExpiries :
    let t := { tracking with time := 1000 }
    (t.still.get .ch0).state = .moving ∧ (t.still.get .ch0).timer = some 1 ∧
    1000 * (1 : BitVec 16).toNat ≤ (t.time - (t.still.get .ch0).loadTime).toNat ∧
    ((999 : Time) - (t.still.get .ch0).loadTime).toNat < 1000 * (1 : BitVec 16).toNat ∧
    maskHas 1 .ch0 = true ∧ maskHas 2 .ch0 = false := by decide

theorem test_channelRequests :
    Ready (ask (u8 Chan.ch5.num)) idle ∧ Ready (ask (u8 63)) idle ∧ (63 : ChanMask) ≠ 0 ∧
    (idle.chans.get .ch5).state = .disabled ∧ ((inState .lost).chans.get .ch5).state = .lost ∧
    ((inState .acquiring).chans.get .ch5).state = .acquiring ∧ (tracking.chans.get .ch5).state = .tracking :=
  ⟨test_ready _ _ rfl, test_ready _ _ rfl, by decide, by decide, by decide, by decide, by decide⟩

theorem test_viewsAndLengths :
    tracking.view .p0 .ch0 = some 0 ∧ (tracking.comp.get .ch0).weight ≠ 0 ∧ idle.view .p0 .ch0 = none ∧
    tracking.compValue .p0 .ch0 = some 0 ∧ tracking.compValue .p0 .ch1 = some 0 ∧
    idle.compValue .p0 .ch1 = none := by decide

theorem test_storeRequests :
    Ready (ask (u8 63 ++ u32 1 ++ u32 2)) tracking ∧ Ready (ask (u8 63 ++ u16 0)) tracking ∧
    Ready (ask (u8 63 ++ u16 65535)) tracking ∧ [Chan.ch0, .ch1].Nodup :=
  ⟨test_ready _ _ rfl, test_ready _ _ rfl, test_ready _ _ rfl, by decide⟩

theorem test_pinExpiries :
    let s := tracking.onComp .ch0 (CompEntry.setPin .p1 (.timed 0 1))
    (s.comp.get .ch0).pins.get .p1 = .timed 0 1 ∧ 1000000 * (1 : BitVec 16).toNat ≤ ((1000000 : Time) - 0).toNat ∧
    ((999999 : Time) - 0).toNat < 1000000 * (1 : BitVec 16).toNat := by decide

/-- A value at each end of its range, a scan of the port's own, and a channel that is not TRACKING. -/
theorem test_originRequests :
    Ready (ask (u8 3 ++ [1] ++ u64 (BitVec.ofInt 64 (-(2 ^ 47))).toNat)) tracking ∧ Ready (ask (u8 3)) scanning ∧
    -(2 ^ 47) ≤ (BitVec.ofInt 64 (-(2 ^ 47))).toInt ∧ (BitVec.ofInt 64 (2 ^ 47 - 1)).toInt < 2 ^ 47 ∧
    ¬ (BitVec.ofInt 64 (2 ^ 47)).toInt < 2 ^ 47 ∧ scanning.seq.claimant = some (ask []).port ∧
    scanning.seq.state = .tracking ∧ maskHas 3 .ch0 = true ∧ (idle.chans.get .ch0).state ≠ .tracking :=
  ⟨test_ready _ _ rfl, test_ready _ _ rfl, by decide, by decide, by decide, by decide, by decide, by decide, by decide⟩

theorem test_counterGroups :
    Ready (ask (u8 5)) tracking ∧ Ready (ask (u8 8)) tracking ∧ Ready (ask [9]) tracking ∧ 9 ≤ (9 : Byte).toNat :=
  ⟨test_ready _ _ rfl, test_ready _ _ rfl, test_ready _ _ rfl, by decide⟩

/-- A trigger with no ring ACTIVE, one with room for it, and one that finds 4 entries. -/
theorem test_triggers :
    (idle.rings.get .p0).state ≠ .active ∧ (withRing.rings.get .p0).state = .active ∧ withRing.queue.length < 4 ∧
    after (.captureNow (ask [])) withRing (fun t => t.queue.length == 1) = true ∧
    4 ≤ ({ withRing with queue := [entryOf 0, entryOf 1, entryOf 2, entryOf 3] } : State).queue.length := by decide

theorem test_edges :
    let s := idle.onInput .det (fun t => { t with enabled := true })
    (idle.inputs.get .det).enabled = false ∧ (s.inputs.get .det).enabled = true ∧ (s.inputs.get .det).edge = .rising ∧
    (s.inputs.get .det).edgeSeen = false ∧ (s.inputs.get .det).holdOffUntil = none ∧ scanning.seq.state = .tracking ∧
    ((s.onInput .det (fun t => { t with holdOffUntil := some 5 })).inputs.get .det).holdOffUntil ≠ none := by decide

theorem test_inputAndSyncExpiries :
    ((5 : Time) - 5).toNat < 2 ^ 47 ∧ 2 ^ 47 ≤ ((4 : Time) - 5).toNat ∧ 100 ≤ ((100 : Time) - 0).toNat ∧
    ((99 : Time) - 0).toNat < 100 ∧ ({ idle with sync := some 0 } : State).sync = some 0 ∧
    Ready (ask (u8 2 ++ [1] ++ u8 1 ++ u16 65535)) idle ∧ Ready (ask [3, 0, 2, 0, 0]) idle :=
  ⟨by decide, by decide, by decide, by decide, rfl, test_ready _ _ rfl, test_ready _ _ rfl⟩

theorem test_settleArms :
    Ready (ask []) withRing ∧ Ready (ask (u8 63)) withRing ∧ (withRing.chans.get .ch5).state = .tracking ∧
    (withRing.still.get .ch5).state ≠ .settled ∧
    ((PerChan.const (⟨.settled, 0, none, 0, some 0⟩ : StillTimer)).get .ch5).state = .settled :=
  ⟨test_ready _ _ rfl, test_ready _ _ rfl, by decide, by decide, by decide⟩

theorem test_completions :
    let s := { withRing with queue := [entryOf 0], engine := .completing 0 }
    s.engine = .completing 0 ∧ s.queue = entryOf 0 :: [] ∧ idle.engine = .idle ∧
    (entryOf 0).snap.origins.get .p0 = some (tracking.origins.get .p0) := by decide

/-- Counts and policies at the ends of their ranges. -/
theorem test_ringRequests :
    Ready (ask []) withRing ∧ Ready (ask (u8 RingPolicy.keepNew.code ++ [64])) withRing ∧ Ready (ask [2, 1]) withRing ∧
    Ready (ask [31]) withRing ∧ Ready (ask [8]) withRing ∧ Ready (ask [63, 8]) withRing ∧
    ¬ (1 ≤ (65 : Byte).toNat ∧ (65 : Byte).toNat ≤ 64) ∧ 32 ≤ (32 : Byte).toNat ∧
    ¬ (1 ≤ (9 : Byte).toNat ∧ (9 : Byte).toNat ≤ 8) ∧ 2 ≤ (2 : Byte).toNat :=
  ⟨test_ready _ _ rfl, test_ready _ _ rfl, test_ready _ _ rfl, test_ready _ _ rfl, test_ready _ _ rfl,
    test_ready _ _ rfl, by decide, by decide, by decide, by decide⟩

/-- A scan in its OPEN window and before it, and the edges of its windows. -/
theorem test_scans :
    scanning.seq.claimant = some .p0 ∧ scanning.seq.lines[scanning.seq.current]? = some ⟨1, 1000, 10⟩ ∧
    scanning.seq.window = .before ∧ (scanning.onSeq (fun q => { q with window := .opened })).seq.window = .opened ∧
    scanning.line .p0 = some 0 ∧ WindowEdges .forward ⟨1, 1000, 10⟩ 990 1010 ∧
    WindowEdges .reverse ⟨1, 1000, 10⟩ (-1010) (-990) ∧ HaltCause.forced ≠ .none ∧
    (inState .lost).seq.state ≠ .tracking ∧ ((inState .lost).chans.get .ch0).state ≠ .tracking := by
  refine ⟨by decide, by decide, by decide, by decide, by decide, ⟨by decide, by decide⟩, ⟨by decide, by decide⟩,
    by decide, by decide, by decide⟩

theorem test_claims :
    Ready (ask []) idle ∧ Ready (ask []) claimed ∧ idle.seq.claimant = none ∧ claimed.seq.claimant = some (ask []).port ∧
    claimed.seq.state ≠ .tracking ∧ scanning.seq.state = .tracking ∧
    (claimed.onSeq (fun q => { q with claimant := some .p2 })).seq.claimant = some .p2 ∧ Port.p2 ≠ (ask []).port :=
  ⟨test_ready _ _ rfl, test_ready _ _ rfl, by decide, by decide, by decide, by decide, by decide, by decide⟩

theorem test_lineLists :
    Ready (ask (u8 twoLines.length ++ twoLines.flatMap LineEntry.bytes)) claimed ∧ twoLines.length < 256 ∧
    (∀ e ∈ twoLines, e.halfWidth ≠ 0) ∧ claimed.seq.lines.length + twoLines.length ≤ 512 ∧
    (ask [1]).payload.length ≠ 1 + 11 * ((ask [1]).payload.headD 0).toNat ∧
    ([⟨1, 0, 0⟩] : List LineEntry)[0]? = some ⟨1, 0, 0⟩ :=
  ⟨test_ready _ _ rfl, by decide, by decide, by decide, by decide, rfl⟩

/-- A list in order, one whose first pair touches, an L at the first window's far edge, and one beyond it. -/
theorem test_scanStarts :
    Ready (ask ([0] ++ u16 0 ++ [1])) claimed ∧ Ready (ask (u8 ScanDir.reverse.code ++ u16 1 ++ [0])) claimed ∧
    SeparatedUpTo twoLines.length twoLines ∧ ¬ SeparatedUpTo 1 [⟨1, 0, 5⟩, ⟨2, 10, 5⟩] ∧
    claimed.line .p0 = some 0 ∧ (0 : Int) ≤ 1010 ∧ WindowEdges .forward ⟨1, -20, 10⟩ (-30) (-10) ∧ (-10 : Int) < 0 ∧
    claimed.seq.lines[(1 : BitVec 16).toNat]? = some ⟨2, 5000, 10⟩ := by
  refine ⟨test_ready _ _ rfl, test_ready _ _ rfl, ?_, ?_, by decide, by decide, ⟨by decide, by decide⟩, by decide,
    by decide⟩
  · intro k a b hk ha hb
    match k, hk with
    | 0, _ => simp [twoLines] at ha hb; subst ha; subst hb; decide
    | 1, _ => simp [twoLines] at hb
  · intro h
    exact absurd (h 0 ⟨1, 0, 5⟩ ⟨2, 10, 5⟩ (by decide) rfl rfl) (by decide)

theorem test_scanReads :
    Ready (ask (u16 511 ++ [16])) scanning ∧ (511 : BitVec 16).toNat ≤ 511 ∧ (16 : Byte).toNat ≤ 16 ∧
    ¬ ((512 : BitVec 16).toNat ≤ 511 ∧ (16 : Byte).toNat ≤ 16) ∧ Ready (ask []) scanning :=
  ⟨test_ready _ _ rfl, by decide, by decide, by decide, test_ready _ _ rfl⟩

/-- A scan whose claimant has no L, and an update that passes an entry of a running scan. -/
theorem test_scansWithoutLAndOnward :
    let lost := scanning.onChan .ch0 (fun u => { u with state := .lost })
    lost.seq.state = .tracking ∧ lost.seq.claimant = some .p0 ∧ lost.line .p0 = none ∧
    (let far := scanning.onChan .ch0 (fun u => { u with raw := 1 })
     let t := sequencerUpdate far
     far.line .p0 = some 77 ∧ t.seq.state = .tracking) ∧
    (let far := (scanning.onSeq (fun q => { q with lines := [⟨1, -20, 10⟩, ⟨2, 5000, 10⟩] }))
     let t := sequencerUpdate far
     t.seq.state = .tracking ∧ far.seq.current = 0 ∧ t.seq.current = 1 ∧ t.seq.missed = 1) := by decide

/-- A point whose subject rises onto its threshold, one that falls to its hysteresis bound, and one that is away. -/
theorem test_pointEvaluations :
    (watching point 10).pointAt 3 = some point ∧ (watching point 10).view .p0 .ch0 = some 10 ∧
    point.lastSide = some .below ∧ point.dir ≠ .down ∧
    after (.sampleFrame .ch0 (sample 1 2 128 200)) (watching point 0)
      (fun t => t.points.map Point.state == [.rearming] && t.sync == some 0) = true ∧
    (Point.evaluated 5 { point with state := .rearming, rearmDir := some .up }).state = .armed ∧
    (Point.evaluated 6 { point with state := .rearming, rearmDir := some .up }).state = .rearming ∧
    (watching { point with state := .inactive } 0).pointAt 3 = some { point with state := .inactive } := by decide

theorem test_updates :
    (watching point 0).points ≠ [] ∧ scanning.points = [] ∧ scanning.seq.state = .tracking ∧
    (watching point 0).seq.state ≠ .tracking := by decide

/-- A subject, a threshold and actions at the ends of their ranges; room for a point; a full port with a point to
replace. -/
theorem test_pointAdditions :
    Ready (ask ([0, 0, 1, 5] ++ u64 (2 ^ 47 - 1) ++ [2, 1] ++ u16 65535 ++ [7])) tracking ∧
    (5 : Byte).toNat = (Subject.chan .ch5).code ∧ (BitVec.ofNat 64 (2 ^ 47 - 1)).toInt < 2 ^ 47 ∧
    (BitVec.ofNat 64 (2 ^ 47)).toInt ≥ 2 ^ 47 ∧ (2 : Byte).toNat = PointDir.either.code ∧ (7 : Byte).toNat < 8 ∧
    tracking.owned .p0 < 16 ∧ tracking.points.length < 32 ∧
    (let full := { tracking with points := List.replicate 16 point }
     ¬ (full.owned .p0 < 16 ∧ full.points.length < 32) ∧ full.points[0]? = some point ∧ point.kept = false ∧
     (1 : Byte).getLsbD 0 = true) := by
  refine ⟨test_ready _ _ rfl, ?_⟩
  decide

theorem test_pointRequests :
    Ready (ask [31]) (watching point 0) ∧ Ready (ask [3]) (watching point 0) ∧ Ready (ask [1]) (watching point 0) ∧
    Ready (ask []) (watching point 0) ∧ (watching point 0).pointAt 31 = none ∧
    (watching point 0).pointAt 3 = some point ∧ point.owner = (ask []).port ∧ 32 ≤ (32 : Byte).toNat :=
  ⟨test_ready _ _ rfl, test_ready _ _ rfl, test_ready _ _ rfl, test_ready _ _ rfl, by decide, by decide, by decide,
    by decide⟩

theorem test_noticeRequests :
    Ready (ask []) idle ∧ Ready (ask (u16 0xFFFF)) idle ∧ idle.latches.get .p0 = none ∧
    ((idle.latches.set .p0 (some ⟨⟨.ch2, .skip 431, 0, 0, 0, 0⟩, 0⟩)).get .p0).isSome = true ∧
    (Notices.note ⟨0x8000, 0x8000⟩, Notices.note ⟨0x8000, 0x7FFF⟩) = (true, false) :=
  ⟨test_ready _ _ rfl, test_ready _ _ rfl, by decide, by decide, by decide⟩

/-- Ports in each state that judges a frame, with 7 responses waiting and with 8. -/
theorem test_portStates :
    requestOf [] = none ∧ (idle.links.get .p0).mayReceive = true ∧ (State.reset.links.get .p0).state = .starting ∧
    (State.reset.links.get .p0).mayReceive = true ∧ ((resetting .peers).links.get .p0).state = .resetting ∧
    ((resetting .peers).links.get .p0).mayReceive = true ∧ RequestKind.ofCode 0x62 = none ∧
    (let l := { Link.afterReset with outgoing := List.replicate 7 ⟨0, .done, []⟩ }
     l.openReceipt.mayReceive = true ∧ (Link.immediate 0 .busy l).mayReceive = false) := by decide

/-- A payload one byte short, a channel number just above 5, and masks just outside their range. -/
theorem test_unfitPayloads :
    Ready (ask []) idle ∧ (ask []).payload.length ≠ 1 ∧ Ready (ask [6]) idle ∧ (ask [6]).payload.length = 1 ∧
    6 ≤ (6 : Byte).toNat ∧ Ready (ask [0]) idle ∧ Ready (ask [64]) idle ∧ 64 ≤ (64 : Byte).toNat :=
  ⟨test_ready _ _ rfl, by decide, test_ready _ _ rfl, rfl, by decide, test_ready _ _ rfl, test_ready _ _ rfl, by decide⟩

/-- The steps of a port reset in their order, and a step out of it. -/
theorem test_portResetSteps :
    after (.portReset (ask [])) idle (fun t => (t.links.get .p0).state == .resetting) = true ∧
    after (.portResetSequencerStep .p0) (resetting .sequencer)
      (fun t => (t.links.get .p0).reset.map ResetProgress.next == some .compensation) = true ∧
    after (.portResetCompensationStep .p0) (resetting .compensation)
      (fun t => (t.links.get .p0).reset.map ResetProgress.next == some .compare) = true ∧
    after (.portResetCompareStep .p0) (resetting .compare)
      (fun t => (t.links.get .p0).reset.map ResetProgress.next == some .context) = true ∧
    after (.portResetContextStep .p0) (resetting .context)
      (fun t => (t.links.get .p0).reset.map ResetProgress.next == some .peers) = true ∧
    after (.peerReset .p0) (resetting .peers)
      (fun t => (t.links.get .p0).state == .idle && (t.links.get .p0).outgoing.map Response.tag == [33]) = true ∧
    after (.peerReset .p0) (resetting .context) (fun t => t == resetting .context) = true := by decide

end Sys2Proof.Tests
end

section
/-! PROOFS. Sample frames (Chapter 1): what a good frame does in each channel state, said once for each branch of R3 to
R7, and the statements about frames that follow. -/

namespace Sys2Proof.Machine

/-! ## Changes of one block that agree where they are applied -/

theorem onChan_congr {s : State} {c : Chan} {f g : ChannelUnit → ChannelUnit}
    (h : f (s.chans.get c) = g (s.chans.get c)) : s.onChan c f = s.onChan c g := by
  simp only [State.onChan, PerChan.modify, h]

theorem onStill_congr {s : State} {c : Chan} {f g : StillTimer → StillTimer}
    (h : f (s.still.get c) = g (s.still.get c)) : s.onStill c f = s.onStill c g := by
  simp only [State.onStill, PerChan.modify, h]

/-! ## The branches of a good frame (R3 to R7) -/

theorem exec_goodSample {bytes : List Byte} {f : Sample} (h : sampleOf bytes = some f) (c : Chan) (s : State) :
    exec (.sampleFrame c bytes) s = .next (goodFrame c f s) := by
  simp only [exec, execSampleFrame, h, performed]

theorem exec_badSample {bytes : List Byte} (h : sampleOf bytes = none) (c : Chan) (s : State) :
    exec (.sampleFrame c bytes) s = .next (s.onChanTotals c (fun t => { t with crc := t.crc + 1 })) := by
  simp only [exec, execSampleFrame, h, performed]

section
variable {c : Chan} {f : Sample} {s : State}

theorem goodFrame_untracked (h : (s.chans.get c).state = .disabled ∨ (s.chans.get c).state = .lost) :
    goodFrame c f s = noted c f s := by
  unfold goodFrame
  rw [noteFrame_noted]
  rcases h with h | h <;> simp only [h]

theorem goodFrame_gap {e : Byte} (h : (s.chans.get c).state = .tracking)
    (he : (s.chans.get c).expected = some e) (hne : e ≠ f.seq) :
    goodFrame c f s = lossOf c (.gap f.seq e) f.handled (noted c f s) := by
  have hg : (s.chans.get c).gap f = true := by simpa [ChannelUnit.gap, he] using hne
  simp only [goodFrame, noteFrame_noted, h, hg, he, if_true, Option.getD_some]

theorem goodFrame_inSequence (h : (s.chans.get c).state = .tracking) (hq : InSequence (s.chans.get c) f) :
    goodFrame c f s = judgeTracking c f (noted c f s) := by
  simp [goodFrame, noteFrame_noted, h, inSequence_iff.1 hq]

theorem goodFrame_acquiring (h : (s.chans.get c).state = .acquiring) :
    goodFrame c f s = judgeAcquiring c f ((s.chans.get c).gap f) (noted c f s) := by
  simp only [goodFrame, noteFrame_noted, h]

/-- A level below the loss threshold is a LEVEL loss (R8). -/
theorem judgeTracking_level (h : f.judged < (s.chans.get c).config.loss.toNat) :
    judgeTracking c f (noted c f s) = lossOf c .level f.handled (noted c f s) := by
  simp [judgeTracking, handled_judged, h]

/-- A step beyond the limit is a SKIP loss (R8). -/
theorem judgeTracking_skip {step : Int} (hl : (s.chans.get c).config.loss.toNat ≤ f.judged)
    (hs : StepFormed (s.chans.get c).config.sense (s.chans.get c).lastPhase f.phase step)
    (h : (s.chans.get c).config.stepLimit.toNat < step.natAbs) :
    judgeTracking c f (noted c f s) = lossOf c (.skip step) f.handled (noted c f s) := by
  simp [judgeTracking, handled_judged, Nat.not_lt.2 hl, phaseStep_formed hs, h]

/-- A frame within its limits is accepted (R7). -/
theorem judgeTracking_accept {step : Int} (hl : (s.chans.get c).config.loss.toNat ≤ f.judged)
    (hs : StepFormed (s.chans.get c).config.sense (s.chans.get c).lastPhase f.phase step)
    (h : step.natAbs ≤ (s.chans.get c).config.stepLimit.toNat) :
    judgeTracking c f (noted c f s) = updateBlocks c (acceptBefore c f (noted c f s)) := by
  rw [← acceptSample_eq]
  simp [judgeTracking, handled_judged, Nat.not_lt.2 hl, phaseStep_formed hs, Nat.not_lt.2 h]

/-- The run that a frame in ACQUIRING extends: a gap restarts it (R4, R6). -/
theorem run_of_sequence {run : Nat} {u : ChannelUnit}
    (h : InSequence u f ∧ run = u.run ∨ ¬ InSequence u f ∧ run = 0) :
    (if u.gap f then 0 else u.run) = run := by
  rcases h with ⟨hq, rfl⟩ | ⟨hq, rfl⟩
  · rw [inSequence_iff.1 hq]; rfl
  · rw [inSequence_iff, Bool.not_eq_false] at hq; rw [hq]; rfl

/-- A frame below the acquire threshold sets the run to 0 (R6). -/
theorem judgeAcquiring_below (g : Bool) (h : f.judged < (s.chans.get c).config.acquire.toNat) :
    judgeAcquiring c f g (noted c f s) = (noted c f s).onChan c (fun u => { u with run := 0 }) := by
  simp [judgeAcquiring, handled_judged, h]

/-- A frame at or above the acquire threshold extends the run, short of the qualify count (R6). -/
theorem judgeAcquiring_extends {g : Bool} {run : Nat} (hr : (if g then 0 else (s.chans.get c).run) = run)
    (ha : (s.chans.get c).config.acquire.toNat ≤ f.judged) (h : run + 1 < (s.chans.get c).config.qualify.toNat) :
    judgeAcquiring c f g (noted c f s) = (noted c f s).onChan c (fun u => { u with run := run + 1 }) := by
  simp [judgeAcquiring, handled_judged, Nat.not_lt.2 ha, hr, Nat.not_le.2 h]

/-- The frame that brings the run to the qualify count is the qualifying sample (R6). -/
theorem judgeAcquiring_qualifies {g : Bool} {run : Nat} (hr : (if g then 0 else (s.chans.get c).run) = run)
    (ha : (s.chans.get c).config.acquire.toNat ≤ f.judged) (h : (s.chans.get c).config.qualify.toNat ≤ run + 1) :
    judgeAcquiring c f g (noted c f s) = acquisition c f (noted c f s) := by
  simp [judgeAcquiring, handled_judged, Nat.not_lt.2 ha, hr, h]

end

/-! ## The frame check -/

/-- The ten phase bits of a frame: byte 1 above the two high bits of byte 2 (11-2). -/
theorem phase_bits (b1 b2 : Byte) :
    b1 ++ b2.extractLsb' 6 2 = BitVec.ofNat 10 (b1.toNat * 4 + b2.toNat / 64) := by
  apply BitVec.eq_of_toNat_eq
  have h1 := b1.isLt
  have h2 := b2.isLt
  rw [BitVec.toNat_append, BitVec.toNat_ofNat, BitVec.extractLsb'_toNat, Nat.shiftRight_eq_div_pow,
    ← Nat.shiftLeft_add_eq_or_of_lt (Nat.mod_lt _ (by decide)), Nat.shiftLeft_eq]
  omega

theorem sampleOf_length {bytes : List Byte} (h : bytes.length ≠ 5) : sampleOf bytes = none := by
  unfold sampleOf
  split
  · exact absurd rfl h
  · rfl

/-- Settles O15: the layout is the definition's but for the phase bits. -/
theorem sampleFramesAreJudgedByLengthAndCrc8 : Obligations.SampleFramesAreJudgedByLengthAndCrc8 := by
  refine ⟨⟨fun b0 b1 b2 b3 b4 => ?_, fun _ => sampleOf_length⟩, fun c _ s h => exec_badSample h c s⟩
  rw [← phase_bits]
  rfl

/-- Settles O16: in DISABLED and LOST a good frame is noted and nothing else. -/
theorem anUntrackedFrameOnlySetsTheExpectedSequence : Obligations.AnUntrackedFrameOnlySetsTheExpectedSequence := by
  intro c bytes f s hf hst
  rw [exec_goodSample hf, goodFrame_untracked hst]
  rfl

/-- Settles O19: the branches of R6 short of the qualifying sample. -/
theorem acquiringFramesCountTheRun : Obligations.AcquiringFramesCountTheRun := by
  intro c bytes f s run hf hst hrun
  rw [exec_goodSample hf, goodFrame_acquiring hst]
  exact ⟨fun hl => by rw [judgeAcquiring_below _ hl],
    fun hl hq => by rw [judgeAcquiring_extends (run_of_sequence hrun) hl hq]⟩

/-! ## Accepted samples (R7, R29, R31) -/

/-- Settles O17: the frame passes the three judgements, and the accepted unit and timer are those of the statement. -/
theorem aTrackedFrameWithinLimitsStepsTheCount : Obligations.ATrackedFrameWithinLimitsStepsTheCount := by
  intro c bytes f s step raw hf hst hseq hlevel hstep hlimit hraw
  have hunit : (noted c f s).onChan c (ChannelUnit.accept f s.time) = (noted c f s).onChan c (fun u =>
      { u with raw := raw, lastPhase := f.phase, lastLevel := f.level, lastTime := s.time }) := by
    apply onChan_congr
    simp [ChannelUnit.accept, phaseStep_formed hstep, hraw]
  have hcount : (((noted c f s).chans.get c).accept f s.time).raw = raw := by
    simp [ChannelUnit.accept, phaseStep_formed hstep, hraw]
  rw [exec_goodSample hf, goodFrame_inSequence hst hseq, judgeTracking_accept hlevel hstep hlimit]
  unfold acceptBefore
  rw [noted_time, hcount, hunit]
  congr 2
  apply onStill_congr
  simp [StillTimer.accepted, StillTimer.within, StillTimer.excursion, StillTimer.load, ChannelUnit.accept]

/-! ## Losses (R8, R10 to R12) -/

/-- What a loss leaves before the departure, written out in the state before the frame. -/
theorem lossBefore_noted (c : Chan) (d : LossDetail) (f : Sample) (s : State) :
    lossBefore c d f.handled (noted c f s) =
      { ((((noted c f s).onChan c (fun u =>
          { u with state := .lost, frozenCount := u.raw, frozenPhase := u.lastPhase,
                   mark := (s.still.get c).state == .settled, lastCause := d.cause, run := 0 })).onChanTotals c
            (countLoss d)).onStill c (fun t => { t with state := .none, timer := none, settledTime := none })) with
        notices := (postAll .channelLost s).notices
        latches := PerPort.ofFn (fun p => takeReport
          ⟨c, d, s.time, (s.chans.get c).raw, (s.chans.get c).lastPhase, f.handled⟩ (s.latches.get p)) } := by
  unfold lossBefore
  rw [noted_chan]
  rfl

/-- Settles O18: the three losses, each by its branch of R8. -/
theorem lossesFreezeTheCountAndReportIt : Obligations.LossesFreezeTheCountAndReportIt := by
  intro c bytes f s d cause bump hf hst hloss
  have hframe : goodFrame c f s = lossOf c d f.handled (noted c f s) ∧ cause = d.cause ∧ bump = countLoss d := by
    rcases hloss with ⟨e, he, hne, rfl, rfl, rfl⟩ | ⟨hseq, hlevel, rfl, rfl, rfl⟩ |
      ⟨hseq, hlevel, step, hstep, hlimit, rfl, rfl, rfl⟩
    · exact ⟨goodFrame_gap hst he hne, rfl, rfl⟩
    · exact ⟨by rw [goodFrame_inSequence hst hseq, judgeTracking_level hlevel], rfl, rfl⟩
    · exact ⟨by rw [goodFrame_inSequence hst hseq, judgeTracking_skip hlevel hstep hlimit], rfl, rfl⟩
  obtain ⟨hframe, rfl, rfl⟩ := hframe
  rw [exec_goodSample hf, hframe, lossOf_eq, lossBefore_noted]
  rfl

/-! ## Acquisitions (R13 to R17, R65) -/

theorem continues_iff {u : ChannelUnit} {f : Sample} {diff : Int}
    (h : StepFormed u.config.sense u.frozenPhase f.phase diff) :
    u.continues f.phase = true ↔
      u.recovery = .resume ∧ u.mark = true ∧ diff.natAbs ≤ min u.config.stillBand.toNat 511 := by
  simp only [ChannelUnit.continues, phaseStep_formed h, Bool.and_eq_true, beq_iff_eq, decide_eq_true_eq, and_assoc]

/-- A noted frame leaves what a continuation is judged by. -/
theorem noted_continues (c : Chan) (f : Sample) (s : State) :
    ((noted c f s).chans.get c).continues f.phase = (s.chans.get c).continues f.phase := by
  rw [noted_chan]; rfl

/-- A channel that enters TRACKING has its timer loaded at its new count (R31). -/
theorem enterTracking_onChan (c : Chan) (g : ChannelUnit → ChannelUnit) (s : State) :
    enterTracking c (s.onChan c g) = (s.onChan c g).onStill c (fun _ =>
      ⟨.moving, (g (s.chans.get c)).raw, some (g (s.chans.get c)).config.settle, s.time, none⟩) := by
  unfold enterTracking
  rw [onChan_chans, PerChan.get_modify_self]
  rfl

/-- A continuation from the frozen count (R13, R15). -/
theorem continueAcquisition_noted {c : Chan} {f : Sample} {s : State} {diff : Int}
    (h : StepFormed (s.chans.get c).config.sense (s.chans.get c).frozenPhase f.phase diff) :
    continueAcquisition c f (noted c f s) = pointsOnChannel c (postAll .channelTracking
      (((noted c f s).onChan c (fun u =>
        { u with state := .tracking, raw := u.frozenCount + BitVec.ofInt 48 diff, outcome := .continued,
                 lastPhase := f.phase, lastLevel := f.level, lastTime := s.time, run := 0, mark := false,
                 recovery := .restart })).onStill c (fun _ =>
          ⟨.moving, (s.chans.get c).frozenCount + BitVec.ofInt 48 diff, some (s.chans.get c).config.settle, s.time,
            none⟩))) := by
  have hunit : (noted c f s).onChan c (ChannelUnit.acquireContinue f s.time) = (noted c f s).onChan c (fun u =>
      { u with state := .tracking, raw := u.frozenCount + BitVec.ofInt 48 diff, outcome := .continued,
               lastPhase := f.phase, lastLevel := f.level, lastTime := s.time, run := 0, mark := false,
               recovery := .restart }) := by
    apply onChan_congr
    simp [ChannelUnit.acquireContinue, ChannelUnit.acquireCommon, phaseStep_formed h]
  rw [continueAcquisition, noted_time, hunit, enterTracking_onChan, noted_chan, noted_time]

/-- A restart at count 0 in a new epoch (R13, R14, R65). -/
theorem restartAcquisition_noted (c : Chan) (f : Sample) (s : State) :
    restartAcquisition c f (noted c f s) = pointsOnChannel c (postAll .channelTracking (postAll .epochChanged
      (examineOrigins c ((s.chans.get c).epoch + 1)
        (((noted c f s).onChan c (ChannelUnit.acquireRestart f s.time)).onStill c (fun _ =>
          ⟨.moving, 0, some (s.chans.get c).config.settle, s.time, none⟩))))) := by
  have hunit : (((noted c f s).chans.get c).acquireRestart f s.time).raw = 0 ∧
      (((noted c f s).chans.get c).acquireRestart f s.time).epoch = (s.chans.get c).epoch + 1 ∧
      (((noted c f s).chans.get c).acquireRestart f s.time).config = (s.chans.get c).config := by
    rw [noted_chan]; exact ⟨rfl, rfl, rfl⟩
  obtain ⟨hraw, hepoch, hconfig⟩ := hunit
  rw [restartAcquisition, noted_time, enterTracking_onChan, noted_time, onStill_chans, onChan_chans,
    PerChan.get_modify_self, hraw, hepoch, hconfig]

/-- Settles O20: the qualifying sample continues the frozen count or restarts it. -/
theorem acquisitionsStartTheCount : Obligations.AcquisitionsStartTheCount := by
  intro c bytes f s run diff u hf hu hst hrun hlevel hqual hdiff
  subst hu
  have hframe : goodFrame c f s = acquisition c f (noted c f s) := by
    rw [goodFrame_acquiring hst, judgeAcquiring_qualifies (run_of_sequence hrun) hlevel hqual]
  rw [exec_goodSample hf, hframe, ← continues_iff hdiff, acquisition, noted_continues]
  refine ⟨fun hcont => ?_, fun hcont => ?_⟩
  · rw [if_pos hcont, continueAcquisition_noted hdiff]
  · rw [if_neg hcont, restartAcquisition_noted]
    rfl

end Sys2Proof.Machine
end

section
/-! PROOFS. Channel reads, device reset and departures from TRACKING (Chapters 1, 2, 5, 8 and 10). -/

namespace Sys2Proof.Machine

/-! ## Reads (R18, R38) -/

theorem optional_excursion (t : StillTimer) (raw : Count) :
    optional 8 i64 (if t.state = .none then none else some (t.excursion raw)) =
      (match t.state with
        | .none => u8 0 ++ u64 0
        | _ => u8 1 ++ i64 (raw - t.anchor).toInt) := by
  cases t.state <;> rfl

theorem optional_settledTime (at_ : Option Time) :
    optional 8 (fun n : Time => u64 n.toNat) at_ =
      (match at_ with
        | none => u8 0 ++ u64 0
        | some n => u8 1 ++ u64 n.toNat) := by
  cases at_ <;> rfl

theorem remaining_eq (t : StillTimer) (now : Time) :
    t.remaining now =
      (match t.state, t.timer with
        | .moving, some n => max 1 ((1000 * n.toNat - (now - t.loadTime).toNat + 999) / 1000)
        | _, _ => 0) := by
  unfold StillTimer.remaining elapsed Config.settleUnit
  cases t.state <;> cases t.timer <;> simp only [Nat.mul_comm]

/-- Settles O22: each read is taken at once, and its block is the definition's up to the grouping of its fields. -/
theorem channelReadsReturnTheirFields : Obligations.ChannelReadsReturnTheirFields := by
  constructor
  · intro r s c u hr hp hu
    subst hu
    have htaken : takeKind .readChannel r.port r.payload s = .answered ⟨.done, (s.chans.get c).bytes⟩ s := by
      simp only [takeKind, takeReadChannel, withChannel_alone hp, done]
    refine (exec_answers (by decide) hr htaken).trans ?_
    simp only [ChannelUnit.bytes, ChanConfig.bytes, List.append_assoc]
    rfl
  · intro r s m hr hp hm
    have htaken : takeKind .readStillness r.port r.payload s =
        .answered ⟨.done, (maskChans m).flatMap (stillBlock s)⟩ s := by
      simp only [takeKind, takeReadStillness, withMask_alone hm hp, done]
    refine (exec_answers (by decide) hr htaken).trans ?_
    congr 3
    funext c
    dsimp only [stillBlock]
    rw [optional_excursion, optional_settledTime, remaining_eq] <;> rfl

/-! ## Device reset (R183) -/

theorem totals_zero {u : Totals} (h : u = Totals.zero) :
    (∀ c, u.chans.get c = ⟨0, 0, 0, 0, 0, 0⟩) ∧ (∀ i, u.inputs.get i = ⟨0, 0⟩) ∧ u.capture = ⟨0, 0, 0, 0⟩ ∧
      u.seq = ⟨0, 0, 0, 0, 0, 0⟩ := by
  subst h
  exact ⟨PerChan.get_const _, PerInput.get_const _, rfl, rfl⟩

/-- Settles O60: every table of the reset state is one value at every place. -/
theorem deviceResetSetsEveryValue : Obligations.DeviceResetSetsEveryValue := by
  refine ⟨fun s => ⟨_, rfl, rfl, rfl, rfl, PerChan.get_const _, PerChan.get_const _, fun c => ?comp, fun p c => ?origins,
    fun u hu => totals_zero ?totals, fun i => ?inputs, rfl, rfl, rfl, rfl, PerPort.get_const _, PerPort.get_const _,
    PerPort.get_const _, rfl, rfl, fun p => ?notices, PerPort.get_const _, fun p => ?links⟩,
    fun s => ⟨_, rfl, PerPort.get_ofFn _⟩⟩
  case comp =>
    dsimp only [State.reset]
    rw [PerChan.get_const]
    exact ⟨rfl, rfl, rfl, PerPort.get_const _, rfl⟩
  case origins =>
    dsimp only [State.reset]
    rw [PerPort.get_const, PerChan.get_const]
    rfl
  case totals =>
    rcases hu with rfl | ⟨p, rfl⟩
    · rfl
    · exact PerPort.get_const _ p
  case inputs => cases i <;> exact ⟨rfl, rfl, rfl, rfl⟩
  case notices =>
    dsimp only [State.reset]
    rw [PerPort.get_const]
    exact ⟨rfl, by decide⟩
  case links => cases p <;> exact ⟨rfl, rfl, rfl, rfl⟩

/-! ## Departures from TRACKING (R12, R95, R154) -/

theorem availability_inactive {c : Chan} {s : State} {sub : Subject} (h : (s.chans.get c).state ≠ .tracking)
    (hu : sub = .chan c ∨ sub = .line ∧ (c = .ch0 ∨ c = .ch1)) (p : Port) : availability s p sub = .inactive := by
  rcases hu with rfl | ⟨rfl, rfl | rfl⟩
  · exact if_pos h
  · exact if_pos (.inl h)
  · exact if_pos (.inr (.inl h))

/-- A departure makes the points that depend on the channel INACTIVE, without a last side (R154). -/
theorem pointsOnChannel_departed {c : Chan} {s : State} (h : (s.chans.get c).state ≠ .tracking) :
    pointsOnChannel c s = { s with
      points := s.points.map (fun pt =>
        if pt.subject = .chan c ∨ pt.subject = .line ∧ (c = .ch0 ∨ c = .ch1) then
          { pt with state := .inactive, lastSide := none, rearmDir := none }
        else pt) } := by
  unfold pointsOnChannel rejudge
  congr 1
  apply List.map_congr_left
  intro pt _
  by_cases hu : pt.subject = .chan c ∨ pt.subject = .line ∧ (c = .ch0 ∨ c = .ch1)
  · rw [if_pos hu, if_pos ((uses_iff _ _).2 hu), judge, availability_inactive h hu]
  · rw [if_neg hu, if_neg (fun k => hu ((uses_iff _ _).1 k))]

/-- Settles O43: points, arms and scan, in the order in which the departure reaches them. -/
theorem departuresReachTheReaders : Obligations.DeparturesReachTheReaders := by
  intro c s named hst hnamed
  have harms : s.armNames c = named := by
    funext p
    rw [hnamed, State.armNames]
    cases s.arms.get p <;> rfl
  have hreaders : cancelArms c (pointsOnChannel c s) = { s with
      points := s.points.map (fun pt =>
        if pt.subject = .chan c ∨ pt.subject = .line ∧ (c = .ch0 ∨ c = .ch1) then
          { pt with state := .inactive, lastSide := none, rearmDir := none }
        else pt)
      arms := PerPort.ofFn (fun p => if named p then none else s.arms.get p)
      notices := (postWhere .settleCancelled named s).notices } := by
    rw [pointsOnChannel_departed hst, ← harms]
    rfl
  have hscan : (c.feedsLine && s.seq.state == .tracking) = true ↔ (c = .ch0 ∨ c = .ch1) ∧ s.seq.state = .tracking := by
    rw [Bool.and_eq_true, feedsLine_iff, beq_iff_eq]
  refine ⟨_, rfl, fun h => ?_, fun h => ?_⟩
  · rw [departure, hreaders]
    exact if_pos (hscan.2 h)
  · rw [departure, hreaders]
    exact if_neg (fun k => h (hscan.1 k))

end Sys2Proof.Machine
end

section
/-! PROOFS. CONFIGURE, ENABLE, DISABLE and RECOVER CHANNEL (R19 to R23): the taking of each, case by case, and the
statement about the four. -/

namespace Sys2Proof.Machine

theorem onChan_fixed {s : State} {c : Chan} {f : ChannelUnit → ChannelUnit}
    (h : f (s.chans.get c) = s.chans.get c) : s.onChan c f = s := by
  simp only [State.onChan, PerChan.modify, h, PerChan.set_get]

/-! ## Fields of the payloads -/

/-- A field of one byte is the byte of its place, 0 past the payload's end. -/
theorem numAt_getD (b : List Byte) (off : Nat) : numAt b off 1 = (b.getD off 0).toNat := by
  unfold numAt
  rcases Nat.lt_or_ge off b.length with h | h
  · rw [List.drop_eq_getElem_cons h, List.getD_eq_getElem _ _ h]
    exact Nat.add_zero _
  · rw [List.drop_of_length_le h, List.getD_eq_default _ _ h]
    rfl

theorem countSenseOf_none {n : Nat} (h : 2 ≤ n) : countSenseOf n = none := by
  obtain ⟨k, rfl⟩ := Nat.exists_eq_add_of_le' h
  rfl

theorem recoveryModeOf_none {n : Nat} (h : 2 ≤ n) : recoveryModeOf n = none := by
  obtain ⟨k, rfl⟩ := Nat.exists_eq_add_of_le' h
  rfl

theorem recoveryModeOf_some {b : Byte} (h : b.toNat < 2) :
    recoveryModeOf b.toNat = some (if b = 0 then .restart else .resume) := by
  have hb : b = 0 ∨ b = 1 := by bv_omega
  rcases hb with rfl | rfl <;> rfl

/-- A count sense outside the enumeration is refused, whatever the other fields (R20). -/
theorem configAt_sense {b : List Byte} (h : 2 ≤ numAt b 11 1) : configAt b = none := by
  simp only [configAt, countSenseOf_none h]

/-! ## The takings -/

section
variable {p : Port} {s : State} {c : Chan} {b fields : List Byte}

theorem takeConfigureChannel_accepts {g : ChanConfig} (hb : b = u8 c.num ++ fields) (hn : fields.length = 11)
    (hst : (s.chans.get c).state = .disabled) (hg : configAt b = some g) :
    takeConfigureChannel p b s = done []
      (announceChange ((s.chans.get c).config != g) p (s.onChan c (fun u => { u with config := g }))) := by
  simp only [takeConfigureChannel, withChannel_here hb (show fields.length + 1 = 12 by omega), if_pos hst, hg]

theorem takeConfigureChannel_badValue (hb : b = u8 c.num ++ fields) (hn : fields.length = 11)
    (hst : (s.chans.get c).state = .disabled) (hg : configAt b = none) :
    takeConfigureChannel p b s = badValue s := by
  simp only [takeConfigureChannel, withChannel_here hb (show fields.length + 1 = 12 by omega), if_pos hst, hg]

theorem takeConfigureChannel_state (hb : b = u8 c.num ++ fields) (hn : fields.length = 11)
    (hst : (s.chans.get c).state ≠ .disabled) : takeConfigureChannel p b s = refuse .state [] s := by
  simp only [takeConfigureChannel, withChannel_here hb (show fields.length + 1 = 12 by omega), if_neg hst]

theorem takeEnableChannel_accepts (hb : b = u8 c.num) (hst : (s.chans.get c).state = .disabled) :
    takeEnableChannel p b s = done [] (tellOthers p (s.onChan c ChannelUnit.enable)) := by
  simp only [takeEnableChannel, withChannel_alone hb, if_pos hst]
  rfl

theorem takeEnableChannel_state (hb : b = u8 c.num) (hst : (s.chans.get c).state ≠ .disabled) :
    takeEnableChannel p b s = refuse .state [] s := by
  simp only [takeEnableChannel, withChannel_alone hb, if_neg hst]

theorem takeDisableChannel_disabled (hb : b = u8 c.num) (hst : (s.chans.get c).state = .disabled) :
    takeDisableChannel p b s = done [] s := by
  simp only [takeDisableChannel, withChannel_alone hb, if_pos hst]

theorem takeDisableChannel_accepts (hb : b = u8 c.num) (hst : (s.chans.get c).state ≠ .disabled) :
    takeDisableChannel p b s = done [] (tellOthers p (disableChannel c s)) := by
  simp only [takeDisableChannel, withChannel_alone hb, if_neg hst]
  rfl

theorem takeRecoverChannel_accepts {m : RecoveryMode} {x : Byte} (hb : b = u8 c.num ++ [x])
    (hst : (s.chans.get c).state = .lost) (hm : recoveryModeOf x.toNat = some m) :
    takeRecoverChannel p b s = done [] (tellOthers p (s.onChan c (ChannelUnit.recover m))) := by
  have hx : numAt b 1 1 = x.toNat := by rw [hb, numAt_getD]; rfl
  simp only [takeRecoverChannel, withChannel_here hb (show [x].length + 1 = 2 from rfl), if_pos hst, hx, hm]
  rfl

theorem takeRecoverChannel_badValue {x : Byte} (hb : b = u8 c.num ++ [x])
    (hst : (s.chans.get c).state = .lost) (hm : recoveryModeOf x.toNat = none) :
    takeRecoverChannel p b s = badValue s := by
  have hx : numAt b 1 1 = x.toNat := by rw [hb, numAt_getD]; rfl
  simp only [takeRecoverChannel, withChannel_here hb (show [x].length + 1 = 2 from rfl), if_pos hst, hx, hm]

theorem takeRecoverChannel_state {x : Byte} (hb : b = u8 c.num ++ [x]) (hst : (s.chans.get c).state ≠ .lost) :
    takeRecoverChannel p b s = refuse .state [] s := by
  simp only [takeRecoverChannel, withChannel_here hb (show [x].length + 1 = 2 from rfl), if_neg hst]

end

/-- A configuration that equals what stood changes nothing and tells nobody (assumption 19). -/
theorem announceChange_config (p : Port) (c : Chan) (g : ChanConfig) (s : State) :
    announceChange ((s.chans.get c).config != g) p (s.onChan c (fun u => { u with config := g })) =
      if (s.chans.get c).config = g then s else tellOthers p (s.onChan c (fun u => { u with config := g })) := by
  by_cases h : (s.chans.get c).config = g
  · subst h
    rw [bne_self_eq_false, if_pos rfl]
    exact onChan_fixed rfl
  · rw [bne_iff_ne.2 h, if_neg h]
    rfl

/-- The payload of a CONFIGURE CHANNEL is a channel number and eleven bytes of fields (R20). -/
theorem configure_fields (g : ChanConfig) :
    (u8 g.acquire.toNat ++ (u8 g.loss.toNat ++ (u16 g.qualify.toNat ++ (u16 g.stepLimit.toNat ++
      (u16 g.stillBand.toNat ++ (u16 g.settle.toNat ++ u8 g.sense.code)))))).length = 11 := by
  simp [u8, u16]

/-- Settles O23: each clause is a taking of its request, taken at once. -/
theorem channelRequestsMoveTheUnit : Obligations.ChannelRequestsMoveTheUnit := by
  refine ⟨fun r s c g hr hst hp => ?spelled, fun r s c fields hr hp hn => ?fields, fun r s c hr hp => ?alone,
    fun r s c b hr hp => ?recover⟩
  case spelled =>
    have hg := configAt_spelled c g
    rw [← hp] at hg
    have hb := hp
    simp only [List.append_assoc] at hb
    refine ⟨fun h => ?_, fun h => ?_⟩
    · rw [← announceChange_config]
      exact exec_answers (k := .configureChannel) (by decide) hr
        (takeConfigureChannel_accepts hb (configure_fields g) hst (hg.trans (if_pos h)))
    · exact exec_answers (k := .configureChannel) (by decide) hr
        (takeConfigureChannel_badValue hb (configure_fields g) hst (hg.trans (if_neg h)))
  case fields =>
    refine ⟨fun hst => ?_, fun hst h => ?_⟩
    · exact exec_answers (k := .configureChannel) (by decide) hr (takeConfigureChannel_state hp hn hst)
    · have hsense : 2 ≤ numAt r.payload 11 1 := by
        rw [hp, numAt_getD]
        exact h
      exact exec_answers (k := .configureChannel) (by decide) hr
        (takeConfigureChannel_badValue hp hn hst (configAt_sense hsense))
  case alone =>
    refine ⟨fun hst => ?_, fun hst => ?_, fun hst => ?_, fun hst => ?_, fun hst => ?_⟩
    · exact exec_answers (k := .enableChannel) (by decide) hr (takeEnableChannel_accepts hp hst)
    · exact exec_answers (k := .enableChannel) (by decide) hr (takeEnableChannel_state hp hst)
    · exact exec_answers (k := .disableChannel) (by decide) hr (takeDisableChannel_disabled hp hst)
    · have hd : (s.chans.get c).state ≠ .disabled ∧ (s.chans.get c).state ≠ .tracking := by
        rcases hst with h | h <;> simp [h]
      have htaken := takeDisableChannel_accepts (p := r.port) hp hd.1
      rw [disableChannel, if_neg hd.2] at htaken
      exact exec_answers (k := .disableChannel) (by decide) hr htaken
    · have hd : (s.chans.get c).state ≠ .disabled := by simp [hst]
      have htaken := takeDisableChannel_accepts (p := r.port) hp hd
      rw [disableChannel, if_pos hst] at htaken
      exact exec_answers (k := .disableChannel) (by decide) hr htaken
  case recover =>
    refine ⟨fun hst => ?_, fun hst h => ?_, fun hst h => ?_⟩
    · exact exec_answers (k := .recoverChannel) (by decide) hr (takeRecoverChannel_state hp hst)
    · exact exec_answers (k := .recoverChannel) (by decide) hr
        (takeRecoverChannel_badValue hp hst (recoveryModeOf_none h))
    · exact exec_answers (k := .recoverChannel) (by decide) hr
        (takeRecoverChannel_accepts hp hst (recoveryModeOf_some h))

end Sys2Proof.Machine
end

section
/-! PROOFS. What a command does to one channel unit: a device reset sets it, a good sample frame of the channel can step
or acquire it, and every other command keeps its raw count and its epoch. -/

namespace Sys2Proof.Machine

/-! ## What can become of a unit -/

/-- The raw count and the epoch stand, and the unit is in TRACKING only if it was, with its configuration. -/
structure UnitKept (u v : ChannelUnit) : Prop where
  raw : v.raw = u.raw
  epoch : v.epoch = u.epoch
  tracking : v.state = .tracking → u.state = .tracking ∧ v.config = u.config

/-- A sample accepted in TRACKING: the raw count moves by a step within the limit (R7, R8). -/
structure UnitStepped (u v : ChannelUnit) : Prop where
  before : u.state = .tracking
  after : v.state = .tracking
  config : v.config = u.config
  epoch : v.epoch = u.epoch
  raw : ∃ d : Int, d.natAbs ≤ u.config.stepLimit.toNat ∧ v.raw = u.raw + BitVec.ofInt 48 d

/-- An acquisition: the epoch stands, or advances by one at the count 0 (R13 to R15). -/
structure UnitAcquired (u v : ChannelUnit) : Prop where
  before : u.state = .acquiring
  after : v.state = .tracking
  epoch : v.epoch = u.epoch ∨
    v.raw = 0 ∧ v.epoch = u.epoch + 1 ∧ (v.outcome = .restarted ∨ v.outcome = .continuityRefused)

/-- Every unit keeps its raw count and its epoch. -/
def UnitsKept (s t : State) : Prop := ∀ d, UnitKept (s.chans.get d) (t.chans.get d)

theorem UnitKept.refl (u : ChannelUnit) : UnitKept u u := ⟨rfl, rfl, fun h => ⟨h, rfl⟩⟩

/-- A unit that leaves TRACKING, or stays outside it, with its count and epoch. -/
theorem UnitKept.off {u v : ChannelUnit} (hr : v.raw = u.raw) (he : v.epoch = u.epoch) (h : v.state ≠ .tracking) :
    UnitKept u v := ⟨hr, he, fun k => absurd k h⟩

theorem UnitsKept.of_chans {s t : State} (h : t.chans = s.chans) : UnitsKept s t := by
  intro d
  rw [h]
  exact .refl _

theorem UnitsKept.refl (s : State) : UnitsKept s s := .of_chans rfl

/-- One unit changed, to one that keeps its count and epoch. -/
theorem UnitsKept.of_modify {s t : State} {c : Chan} {f : ChannelUnit → ChannelUnit}
    (h : t.chans = s.chans.modify c f) (hf : UnitKept (s.chans.get c) (f (s.chans.get c))) : UnitsKept s t := by
  intro d
  rw [h, PerChan.get_modify]
  split
  · rename_i hd
    subst hd
    exact hf
  · exact .refl _

/-! ## Good sample frames -/

theorem acquisition_chans (c : Chan) (f : Sample) (s : State) :
    (acquisition c f s).chans = s.chans.modify c
      (if (s.chans.get c).continues f.phase then ChannelUnit.acquireContinue f s.time
        else ChannelUnit.acquireRestart f s.time) := by
  unfold acquisition
  split <;> rfl

theorem acceptBefore_chans (c : Chan) (f : Sample) (s : State) :
    (updateBlocks c (acceptBefore c f s)).chans = s.chans.modify c (ChannelUnit.accept f s.time) :=
  (updateBlocks_scene c _).chans

/-- A good frame changes the unit of its own channel alone. -/
theorem goodFrame_otherUnit {c d : Chan} (h : d ≠ c) (f : Sample) (s : State) :
    (goodFrame c f s).chans.get d = s.chans.get d := by
  have hn : (noteFrame c f s).chans.get d = s.chans.get d := by
    rw [(noteFrame_scene c f s).2, PerChan.get_modify, if_neg h]
  rcases goodFrame_cases c f s with ⟨-, ⟨l, k⟩ | k⟩ | ⟨-, ⟨r, k⟩ | k⟩ | ⟨-, -, k⟩ <;> rw [k]
  · rw [← lossOf_eq, (lossOf_chans c l f.handled _).1, PerChan.get_modify, if_neg h, hn]
  · rw [acceptBefore_chans, PerChan.get_modify, if_neg h, hn]
  · rw [onChan_chans, PerChan.get_modify, if_neg h, hn]
  · rw [acquisition_chans, PerChan.get_modify, if_neg h, hn]
  · exact hn

theorem lose_kept (c : Chan) (l : LossDetail) (level : Byte) (s : State) :
    UnitKept (s.chans.get c) ((lossOf c l level s).chans.get c) := by
  rw [(lossOf_chans c l level s).1, PerChan.get_modify_self]
  exact .off rfl rfl (by simp [ChannelUnit.lose])

/-- A frame in TRACKING is a loss or a step within the limit (R7, R8). -/
theorem judgeTracking_unit (c : Chan) (f : Sample) (s : State) (h : (s.chans.get c).state = .tracking) :
    UnitKept (s.chans.get c) ((judgeTracking c f s).chans.get c) ∨
      UnitStepped (s.chans.get c) ((judgeTracking c f s).chans.get c) := by
  unfold judgeTracking
  dsimp only
  split
  · exact .inl (lose_kept ..)
  · split
    · exact .inl (lose_kept ..)
    · rename_i hlimit
      right
      rw [acceptSample_eq, acceptBefore_chans, PerChan.get_modify_self]
      exact ⟨h, h, rfl, rfl, _, Nat.not_lt.1 hlimit, rfl⟩

theorem acquisition_unit (c : Chan) (f : Sample) (s : State) (h : (s.chans.get c).state = .acquiring) :
    UnitAcquired (s.chans.get c) ((acquisition c f s).chans.get c) := by
  rw [acquisition_chans, PerChan.get_modify_self]
  split
  · exact ⟨h, rfl, .inl rfl⟩
  · refine ⟨h, rfl, .inr ⟨rfl, rfl, ?_⟩⟩
    cases hr : (s.chans.get c).recovery <;> simp [ChannelUnit.acquireRestart, hr]

/-- A frame out of sequence shows a gap against an expected number (R4). -/
theorem not_inSequence {u : ChannelUnit} {f : Sample} (h : ¬ InSequence u f) :
    ∃ e, u.expected = some e ∧ e ≠ f.seq := by
  cases he : u.expected with
  | none => exact absurd (.inl he) h
  | some e => exact ⟨e, rfl, fun k => h (.inr (by rw [he, k]))⟩

/-- The expected sequence number is no part of what a unit keeps. -/
theorem noted_unitKept (c : Chan) (f : Sample) (s : State) :
    UnitKept (s.chans.get c) ((noted c f s).chans.get c) := by
  rw [noted_chan]
  exact ⟨rfl, rfl, fun h => ⟨h, rfl⟩⟩

theorem UnitKept.trans {u v w : ChannelUnit} (h : UnitKept u v) (k : UnitKept v w) : UnitKept u w :=
  ⟨k.raw.trans h.raw, k.epoch.trans h.epoch, fun hw =>
    ⟨(h.tracking (k.tracking hw).1).1, (k.tracking hw).2.trans (h.tracking (k.tracking hw).1).2⟩⟩

/-- What a good frame does to the unit of its channel. -/
theorem goodFrame_unit (c : Chan) (f : Sample) (s : State) :
    UnitKept (s.chans.get c) ((goodFrame c f s).chans.get c) ∨
      UnitStepped (s.chans.get c) ((goodFrame c f s).chans.get c) ∨
      UnitAcquired (s.chans.get c) ((goodFrame c f s).chans.get c) := by
  have hnote := noted_unitKept c f s
  cases hst : (s.chans.get c).state with
  | tracking =>
    by_cases hq : InSequence (s.chans.get c) f
    · rw [goodFrame_inSequence hst hq]
      rcases judgeTracking_unit c f (noted c f s) (by rw [noted_chan]; exact hst) with h | h
      · exact .inl (hnote.trans h)
      · rw [noted_chan] at h
        exact .inr (.inl ⟨h.before, h.after, h.config, h.epoch, h.raw⟩)
    · obtain ⟨e, he, hne⟩ := not_inSequence hq
      rw [goodFrame_gap hst he hne]
      exact .inl (hnote.trans (lose_kept ..))
  | acquiring =>
    rw [goodFrame_acquiring hst]
    rcases judgeAcquiring_cases c f ((s.chans.get c).gap f) (noted c f s) with ⟨r, h⟩ | h <;> rw [h]
    · rw [onChan_chans, PerChan.get_modify_self]
      exact .inl (hnote.trans ⟨rfl, rfl, fun h => ⟨h, rfl⟩⟩)
    · have ha := acquisition_unit c f (noted c f s) (by rw [noted_chan]; exact hst)
      rw [noted_chan] at ha
      exact .inr (.inr ⟨ha.before, ha.after, ha.epoch⟩)
  | disabled =>
    rw [goodFrame_untracked (.inl hst)]
    exact .inl hnote
  | lost =>
    rw [goodFrame_untracked (.inr hst)]
    exact .inl hnote

/-! ## The other commands -/

theorem announceChange_unitsKept {s t : State} (ch : Bool) (p : Port) (h : UnitsKept s t) :
    UnitsKept s (announceChange ch p t) := by
  intro d
  rw [(announceChange_chans ch p t).chans]
  exact h d

theorem disableChannel_unitsKept (c : Chan) (s : State) : UnitsKept s (disableChannel c s) := by
  have hoff : UnitKept (s.chans.get c) (s.chans.get c).disable := .off rfl rfl (by simp [ChannelUnit.disable])
  unfold disableChannel
  dsimp only
  split
  · exact .of_modify (departure_scene c _).chans hoff
  · exact .of_modify rfl hoff

theorem takeEdge_chans (i : Input) (s : State) : (takeEdge i s).chans = s.chans := by
  unfold takeEdge handEdge
  split
  · split
    · exact (sequencerEdge_scene _).chans
    · exact (hand_scene (.input i) _).chans
  · rfl

theorem haltIfScanning_endClaim_chans (cause : HaltCause) (s : State) :
    (endClaim (haltIfScanning cause s)).chans = s.chans := (haltIfScanning_scene cause s).chans

/-- A taking leaves every unit its raw count and its epoch, however it ends. -/
def Taken.KeepsUnits (s : State) : Taken → Prop
  | .answered _ t => UnitsKept s t
  | .goesOn t => UnitsKept s t

theorem done_keepsUnits {s t : State} (b : List Byte) (h : UnitsKept s t) : (done b t).KeepsUnits s := h

theorem done_keepsUnits_of_chans {s t : State} (b : List Byte) (h : t.chans = s.chans) : (done b t).KeepsUnits s :=
  UnitsKept.of_chans h

theorem refuse_keepsUnits {status : Status} {b : List Byte} (s : State) : (refuse status b s).KeepsUnits s :=
  UnitsKept.refl s

theorem badValue_keepsUnits (s : State) : (badValue s).KeepsUnits s := refuse_keepsUnits s

theorem withChannel_keepsUnits {n : Nat} {b : List Byte} {s : State} {k : Chan → Taken}
    (h : ∀ c, (k c).KeepsUnits s) : (withChannel n b s k).KeepsUnits s := by
  unfold withChannel
  split
  · cases chanAt b 0 with
    | some c => exact h c
    | none => exact badValue_keepsUnits s
  · exact badValue_keepsUnits s

theorem withMask_keepsUnits {n : Nat} {b : List Byte} {s : State} {k : ChanMask → Taken}
    (h : ∀ m, (k m).KeepsUnits s) : (withMask n b s k).KeepsUnits s := by
  unfold withMask
  split
  · cases chanMaskAt b 0 with
    | some m => exact h m
    | none => exact badValue_keepsUnits s
  · exact badValue_keepsUnits s

section
variable (p : Port) (b : List Byte) (s : State)

theorem takeConfigureChannel_keepsUnits : (takeConfigureChannel p b s).KeepsUnits s := by
  refine withChannel_keepsUnits fun c => ?_
  split
  · rename_i hst
    cases configAt b with
    | some g =>
      have hoff : UnitKept (s.chans.get c) { s.chans.get c with config := g } := .off rfl rfl (by simp [hst])
      exact done_keepsUnits _ (announceChange_unitsKept _ _
        (.of_modify (f := fun u => { u with config := g }) rfl hoff))
    | none => exact badValue_keepsUnits s
  · exact refuse_keepsUnits s

theorem takeEnableChannel_keepsUnits : (takeEnableChannel p b s).KeepsUnits s := by
  refine withChannel_keepsUnits fun c => ?_
  split
  · have hoff : UnitKept (s.chans.get c) (s.chans.get c).enable := .off rfl rfl (by simp [ChannelUnit.enable])
    exact done_keepsUnits _ (announceChange_unitsKept _ _ (.of_modify rfl hoff))
  · exact refuse_keepsUnits s

theorem takeDisableChannel_keepsUnits : (takeDisableChannel p b s).KeepsUnits s := by
  refine withChannel_keepsUnits fun c => ?_
  split
  · exact done_keepsUnits _ (.refl s)
  · exact done_keepsUnits _ (announceChange_unitsKept _ _ (disableChannel_unitsKept c s))

theorem takeRecoverChannel_keepsUnits : (takeRecoverChannel p b s).KeepsUnits s := by
  refine withChannel_keepsUnits fun c => ?_
  split
  · cases recoveryModeOf (numAt b 1 1) with
    | some m =>
      have hoff : UnitKept (s.chans.get c) ((s.chans.get c).recover m) := .off rfl rfl (by simp [ChannelUnit.recover])
      exact done_keepsUnits _ (announceChange_unitsKept _ _ (.of_modify rfl hoff))
    | none => exact badValue_keepsUnits s
  · exact refuse_keepsUnits s

theorem takePinCompensation_keepsUnits : (takePinCompensation p b s).KeepsUnits s := by
  refine withMask_keepsUnits fun m => ?_
  split
  · exact badValue_keepsUnits s
  · exact done_keepsUnits_of_chans _ (onComps_storeOnly (fun _ => CompEntry.pin p s.time _) _ s).scene.chans

theorem takeSetOrigin_keepsUnits : (takeSetOrigin p b s).KeepsUnits s := by
  refine withMask_keepsUnits fun m => ?_
  dsimp only
  repeat' split
  all_goals exact UnitsKept.of_chans rfl

theorem takeConfigureInput_keepsUnits : (takeConfigureInput p b s).KeepsUnits s := by
  unfold takeConfigureInput
  repeat' split
  · exact done_keepsUnits_of_chans _ (announceChange_chans _ p _).chans
  all_goals exact badValue_keepsUnits s

theorem takeArmSettle_keepsUnits : (takeArmSettle p b s).KeepsUnits s := by
  refine withMask_keepsUnits fun m => ?_
  dsimp only
  repeat' split
  · exact refuse_keepsUnits s
  · exact done_keepsUnits_of_chans _ (fireArm_scene p m _).chans
  · exact done_keepsUnits_of_chans _ rfl

theorem takeReleaseSequencer_keepsUnits : (takeReleaseSequencer p b s).KeepsUnits s := by
  unfold takeReleaseSequencer
  repeat' split
  · exact done_keepsUnits_of_chans _ (haltIfScanning_endClaim_chans .stopped s)
  · exact refuse_keepsUnits s
  · exact badValue_keepsUnits s

theorem takeForceRelease_keepsUnits : (takeForceRelease p b s).KeepsUnits s := by
  unfold takeForceRelease
  repeat' split
  · exact refuse_keepsUnits s
  · exact refuse_keepsUnits s
  · exact done_keepsUnits_of_chans _ (haltIfScanning_endClaim_chans .forced s)
  · exact badValue_keepsUnits s

theorem takeStopScan_keepsUnits : (takeStopScan p b s).KeepsUnits s := by
  unfold takeStopScan
  repeat' split
  · exact refuse_keepsUnits s
  · exact done_keepsUnits_of_chans _ (halt_scene .stopped s).chans
  · exact refuse_keepsUnits s
  · exact badValue_keepsUnits s

theorem takeStartScan_keepsUnits : (takeStartScan p b s).KeepsUnits s := by
  unfold takeStartScan checkAndStart
  dsimp only
  repeat' split
  all_goals exact UnitsKept.of_chans rfl

theorem takeClearPoints_keepsUnits : (takeClearPoints p b s).KeepsUnits s := by
  unfold takeClearPoints
  dsimp only
  repeat' split
  · exact badValue_keepsUnits s
  · exact done_keepsUnits_of_chans _ (announceChange_chans _ p _).chans
  · exact badValue_keepsUnits s

/-- The taking of a request leaves every unit its raw count and its epoch. -/
theorem takeKind_keepsUnits (k : RequestKind) : (takeKind k p b s).KeepsUnits s := by
  cases k with
  | configureChannel => exact takeConfigureChannel_keepsUnits p b s
  | enableChannel => exact takeEnableChannel_keepsUnits p b s
  | disableChannel => exact takeDisableChannel_keepsUnits p b s
  | recoverChannel => exact takeRecoverChannel_keepsUnits p b s
  | readChannel => exact withChannel_keepsUnits fun _ => done_keepsUnits _ (.refl s)
  | readStillness | readCompensation | readPosition =>
    exact withMask_keepsUnits fun _ => done_keepsUnits _ (.refl s)
  | setCompensation =>
    exact withMask_keepsUnits fun _ => done_keepsUnits_of_chans _ (writeComp_storeOnly ..).scene.chans
  | pinCompensation => exact takePinCompensation_keepsUnits p b s
  | unpinCompensation =>
    exact withMask_keepsUnits fun _ => done_keepsUnits_of_chans _ (removePins_storeOnly ..).scene.chans
  | setOrigin => exact takeSetOrigin_keepsUnits p b s
  | clearOrigin =>
    refine withMask_keepsUnits fun m => ?_
    dsimp only
    split
    · exact refuse_keepsUnits s
    · exact done_keepsUnits_of_chans _ rfl
  | configureInput => exact takeConfigureInput_keepsUnits p b s
  | captureNow =>
    show (takeCaptureNow p b s).KeepsUnits s
    unfold takeCaptureNow
    split
    · exact done_keepsUnits_of_chans _ (hand_scene _ s).chans
    · exact badValue_keepsUnits s
  | armSettle => exact takeArmSettle_keepsUnits p b s
  | releaseSequencer => exact takeReleaseSequencer_keepsUnits p b s
  | forceRelease => exact takeForceRelease_keepsUnits p b s
  | startScan => exact takeStartScan_keepsUnits p b s
  | stopScan => exact takeStopScan_keepsUnits p b s
  | clearPoints => exact takeClearPoints_keepsUnits p b s
  | _ =>
    simp only [takeKind, takeReadCounters, takeCancelSettle, takeReadCaptureStatus, takeStartRing, takeStopRing,
      takeClearRing, takeSetRingPolicy, takeSetSubscription, takeTakeRecords, takePeekRecords, takeReadRingStatus,
      takeClaimSequencer, takeLoadLines, takeClearLines, takeReadSequencer, takeAddPoint, takeRemovePoint,
      takeReadPoints, takeReadNotices, takeAckNotices, takeSetNoticeEnable, takeReadFaultDetail, takeIdentify,
      takePortReset]
    repeat' split
    all_goals exact UnitsKept.of_chans rfl

theorem takeCode_keepsUnits (code : Byte) : (takeCode code p b s).KeepsUnits s := by
  unfold takeCode
  cases RequestKind.ofCode code with
  | some k => exact takeKind_keepsUnits p b s k
  | none => exact refuse_keepsUnits s

end

/-! ## Every command -/

/-- A request at its port, whatever the port does with it. -/
theorem requestStep_unitsKept {take : Port → List Byte → State → Taken} (h : ∀ p b s, (take p b s).KeepsUnits s)
    (code : Byte) (r : Req) (s : State) : UnitsKept s (requestStep code take r s) := by
  have hfin : ∀ u : State, u.chans = s.chans → UnitsKept s (finishTaken r.port r.tag (take r.port r.payload u)) := by
    intro u hu d
    have hk := h r.port r.payload u
    rw [← hu]
    cases htake : take r.port r.payload u with
    | answered reply t => rw [htake] at hk; exact hk d
    | goesOn t => rw [htake] at hk; exact hk d
  unfold requestStep
  dsimp only
  split
  · split
    · exact hfin s rfl
    · exact .refl s
  · split
    · split
      · exact .of_chans rfl
      · split
        · exact hfin _ rfl
        · exact .of_chans rfl
      · exact .of_chans rfl
    · exact .refl s

/-- A step of a port reset, by what the step itself does. -/
theorem atResetStep_unitsKept {f : ResetProgress → State → State} {s : State} (p : Port) (step : ResetStep)
    (h : ∀ g, (f g s).chans = s.chans) : UnitsKept s (atResetStep p step f s) := by
  unfold atResetStep
  split
  · split
    · exact .of_chans (h _)
    · exact .refl s
  · exact .refl s

/-- What a command can do to the channel units. -/
inductive UnitsMove (i : Instr) (s : State) : State → Prop
  | reset (h : i = .deviceReset) : UnitsMove i s { State.reset with turn := s.turn, pending := s.pending }
  | frame (c : Chan) (bytes : List Byte) (f : Sample) (hi : i = .sampleFrame c bytes) (hf : sampleOf bytes = some f) :
      UnitsMove i s (goodFrame c f s)
  | kept {t : State} (h : UnitsKept s t) : UnitsMove i s t

/-- An event that changes no unit where it takes place, and nothing elsewhere. -/
theorem ite_chans {p : Prop} [Decidable p] {s t : State} (h : t.chans = s.chans) :
    (if p then t else s).chans = s.chans := by
  split
  · exact h
  · rfl

/-- Every command moves the channel units in one of these ways. -/
theorem exec_unitsMove (i : Instr) (s : State) : ∃ t, exec i s = .next t ∧ UnitsMove i s t := by
  have still : ∀ {j : Instr} {t : State}, exec j s = .next t → t.chans = s.chans →
      ∃ t, exec j s = .next t ∧ UnitsMove j s t := fun h hc => ⟨_, h, .kept (.of_chans hc)⟩
  have coded : ∀ {j : Instr} (c : Byte) (r : Req), exec j s = .next (requestStep c (takeCode c) r s) →
      ∃ t, exec j s = .next t ∧ UnitsMove j s t := fun c r h =>
    ⟨_, h, .kept (requestStep_unitsKept (fun p b s => takeCode_keepsUnits p b s c) c r s)⟩
  have request : ∀ k r, ∃ t, exec (RequestKind.command k r) s = .next t ∧ UnitsMove (k.command r) s t := fun k r =>
    ⟨_, exec_command k r s, .kept (requestStep_unitsKept (fun p b s => takeKind_keepsUnits p b s k) _ r s)⟩
  cases i with
  | deviceReset => exact ⟨_, rfl, .reset rfl⟩
  | sampleFrame c bytes =>
    cases h : sampleOf bytes with
    | some f => exact ⟨_, exec_goodSample h c s, .frame c bytes f rfl h⟩
    | none => exact still (exec_badSample h c s) rfl
  | edge j e => exact still rfl (ite_chans (takeEdge_chans j s))
  | holdOffExpiry j => exact still rfl (ite_chans rfl)
  | stillnessExpiry c => exact still rfl (ite_chans (settleEntered_armsOnly c _).scene.chans)
  | pinHoldExpiry c p => exact still rfl (ite_chans (expirePin_storeOnly c p s).scene.chans)
  | completionEnd =>
    refine still rfl ?_
    split <;> rfl
  | syncPulseEnd => exact still rfl (ite_chans rfl)
  | endOfStartUp => exact still rfl rfl
  | badFrame p bytes =>
    cases h : requestOf bytes with
    | none =>
      have hexec : exec (.badFrame p bytes) s = .next (badRequestFrame p bytes s) := by
        simp only [exec, execBadFrame, h, performed]
      exact still hexec (ite_chans rfl)
    | some q =>
      have hexec : exec (.badFrame p bytes) s = .next (goodRequestFrame p q s) := by
        simp only [exec, execBadFrame, h, performed]
      exact coded q.code ⟨p, q.tag, q.payload, .whole⟩ hexec
  | badRequest code r => exact coded code r rfl
  | responseReadOut p => exact still rfl rfl
  | portResetSequencerStep p =>
    exact ⟨_, rfl, .kept (atResetStep_unitsKept p _ fun _ => (resetClaim_scene p s).chans)⟩
  | portResetCompensationStep p =>
    exact ⟨_, rfl, .kept (atResetStep_unitsKept p _ fun _ => (removePins_storeOnly p _ s).scene.chans)⟩
  | portResetCompareStep p => exact ⟨_, rfl, .kept (atResetStep_unitsKept p _ fun _ => rfl)⟩
  | portResetContextStep p => exact ⟨_, rfl, .kept (atResetStep_unitsKept p _ fun _ => rfl)⟩
  | peerReset p => exact ⟨_, rfl, .kept (atResetStep_unitsKept p _ fun _ => rfl)⟩
  | busyAnswer p tag code payload => exact coded code ⟨p, tag, payload, .whole⟩ rfl
  | startingAnswer p tag code payload => exact coded code ⟨p, tag, payload, .whole⟩ rfl
  | readChannel r => exact request .readChannel r
  | configureChannel r => exact request .configureChannel r
  | enableChannel r => exact request .enableChannel r
  | disableChannel r => exact request .disableChannel r
  | recoverChannel r => exact request .recoverChannel r
  | readStillness r => exact request .readStillness r
  | setCompensation r => exact request .setCompensation r
  | pinCompensation r => exact request .pinCompensation r
  | unpinCompensation r => exact request .unpinCompensation r
  | readCompensation r => exact request .readCompensation r
  | setOrigin r => exact request .setOrigin r
  | clearOrigin r => exact request .clearOrigin r
  | readPosition r => exact request .readPosition r
  | readCounters r => exact request .readCounters r
  | configureInput r => exact request .configureInput r
  | captureNow r => exact request .captureNow r
  | armSettle r => exact request .armSettle r
  | cancelSettle r => exact request .cancelSettle r
  | readCaptureStatus r => exact request .readCaptureStatus r
  | startRing r => exact request .startRing r
  | stopRing r => exact request .stopRing r
  | clearRing r => exact request .clearRing r
  | setRingPolicy r => exact request .setRingPolicy r
  | setSubscription r => exact request .setSubscription r
  | takeRecords r => exact request .takeRecords r
  | peekRecords r => exact request .peekRecords r
  | readRingStatus r => exact request .readRingStatus r
  | claimSequencer r => exact request .claimSequencer r
  | releaseSequencer r => exact request .releaseSequencer r
  | forceRelease r => exact request .forceRelease r
  | loadLines r => exact request .loadLines r
  | clearLines r => exact request .clearLines r
  | startScan r => exact request .startScan r
  | stopScan r => exact request .stopScan r
  | readSequencer r => exact request .readSequencer r
  | addPoint r => exact request .addPoint r
  | removePoint r => exact request .removePoint r
  | clearPoints r => exact request .clearPoints r
  | readPoints r => exact request .readPoints r
  | readNotices r => exact request .readNotices r
  | ackNotices r => exact request .ackNotices r
  | setNoticeEnable r => exact request .setNoticeEnable r
  | readFaultDetail r => exact request .readFaultDetail r
  | identify r => exact request .identify r
  | portReset r => exact request .portReset r

/-- What one command leaves of one unit: reset, kept, or stepped or acquired by a good frame of its channel. -/
theorem exec_unit {i : Instr} {s t : State} (h : exec i s = .next t) (d : Chan) :
    (i = .deviceReset ∧ t.chans.get d = ChannelUnit.reset) ∨ UnitKept (s.chans.get d) (t.chans.get d) ∨
      ((∃ bytes f, i = .sampleFrame d bytes ∧ sampleOf bytes = some f) ∧
        (UnitStepped (s.chans.get d) (t.chans.get d) ∨ UnitAcquired (s.chans.get d) (t.chans.get d))) := by
  obtain ⟨u, hu, hmove⟩ := exec_unitsMove i s
  obtain rfl : t = u := by
    rw [hu] at h
    injection h with h
    exact h.symm
  cases hmove with
  | reset hi => exact .inl ⟨hi, PerChan.get_const _ d⟩
  | kept hk => exact .inr (.inl (hk d))
  | frame c bytes f hi hf =>
    right
    by_cases hd : d = c
    · subst hd
      rcases goodFrame_unit d f s with hk | hs
      · exact .inl hk
      · exact .inr ⟨⟨bytes, f, hi, hf⟩, hs⟩
    · rw [goodFrame_otherUnit hd]
      exact .inl (.refl _)

/-- Settles O10: a unit that is neither reset nor kept has stepped or been acquired, and a step is within the limit. -/
theorem aRawCountMovesOnlyBySteps : Obligations.ARawCountMovesOnlyBySteps := by
  refine ⟨fun i s t c h hraw => ?_, fun i s t c h hs ht => ?_⟩
  · rcases exec_unit h c with ⟨hi, -⟩ | hk | ⟨⟨bytes, f, hi, hf⟩, hm⟩
    · exact .inl hi
    · exact absurd hk.raw hraw
    · rcases hm with hm | hm
      · exact .inr ⟨.inl hm.before, hm.after, bytes, f, hi, hf⟩
      · exact .inr ⟨.inr hm.before, hm.after, bytes, f, hi, hf⟩
  · rcases exec_unit h c with ⟨-, hr⟩ | hk | ⟨-, hm | hm⟩
    · rw [hr] at ht
      exact absurd ht (by decide)
    · exact ⟨(hk.tracking ht).2, 0, Nat.zero_le _, by simp [hk.raw]⟩
    · exact ⟨hm.config, hm.raw⟩
    · exact absurd (hs.symm.trans hm.before) (by decide)

/-- Settles O11: a step keeps the epoch, and an acquisition moves it only at the count 0. -/
theorem anEpochAdvancesOnlyAtARestart : Obligations.AnEpochAdvancesOnlyAtARestart := by
  intro i s t c h hepoch
  rcases exec_unit h c with ⟨hi, hr⟩ | hk | ⟨-, hm | hm⟩
  · exact .inl ⟨hi, by rw [hr]; rfl⟩
  · exact absurd hk.epoch hepoch
  · exact absurd hm.epoch hepoch
  · rcases hm.epoch with he | ⟨hraw, he, hout⟩
    · exact absurd he hepoch
    · exact .inr ⟨hm.before, hm.after, hraw, he, hout⟩

end Sys2Proof.Machine
end

section
/-! PROOFS. The stillness timers (Chapter 2) and the pending values (3-4): the invariants that every step keeps, and the
expiry of a timer with the settle arms it reaches. -/

namespace Sys2Proof.Machine

/-! ## Invariants (R28, R33, R46) -/

theorem stillHolds_reset : StillHolds State.reset := by
  intro c
  dsimp only [State.reset]
  rw [PerChan.get_const, PerChan.get_const]
  exact ⟨by decide, by decide, by decide⟩

theorem storeHolds_reset : StoreHolds State.reset := by
  intro c h
  dsimp only [State.reset] at h
  rw [PerChan.get_const] at h
  exact absurd h (by decide)

/-- The stillness invariant reads the channel units and the timers alone. -/
theorem StillHolds.of_blocks {s t : State} (hs : StillHolds s) (hc : t.chans = s.chans) (ht : t.still = s.still) :
    StillHolds t := ChansKept.stillHolds ⟨hc, ht⟩ hs

theorem step_keeps_stillness {s t : State} (hs : StillHolds s) (h : step s = .next t) : StillHolds t :=
  step_keeps (I := StillHolds) (fun _ _ _ k => k.of_blocks rfl rfl) effect_keeps_stillness
    (fun _ k => k.of_blocks rfl rfl) stillHolds_reset (fun _ _ k => k.of_blocks rfl rfl) hs h

theorem step_keeps_store {s t : State} (hs : StoreHolds s) (h : step s = .next t) : StoreHolds t :=
  step_keeps (I := StoreHolds) (fun _ _ _ k => store_keep rfl k) effect_keeps_store
    (fun _ k => store_keep rfl k) storeHolds_reset (fun _ _ k => store_keep rfl k) hs h

/-- Settles O6: every effect of a command keeps each of the two, and so do the tick and a device reset. -/
theorem everyStepKeepsStillnessAndPendingValuesInStep :
    Obligations.EveryStepKeepsStillnessAndPendingValuesInStep :=
  ⟨fun _ _ => step_keeps_stillness, fun _ _ => step_keeps_store⟩

/-! ## Settle arms at an entry into SETTLED (R95) -/

theorem allSettled_iff (s : State) (m : ChanMask) :
    s.allSettled m = true ↔ ∀ d, maskHas m d = true → (s.still.get d).state = .settled := by
  simp only [State.allSettled, List.all_eq_true, mem_maskChans, beq_iff_eq]

section
variable {c : Chan} {s : State} {p : Port}

theorem evalArm_none (h : s.arms.get p = none) : evalArm c s p = s := by
  simp only [evalArm, h]

/-- A waiting arm fires where it names the channel and all its channels are SETTLED. -/
theorem evalArm_some {m : ChanMask} (h : s.arms.get p = some m) :
    evalArm c s p = if maskHas m c = true ∧ s.allSettled m = true then fireArm p m s else s := by
  simp only [evalArm, h, Bool.and_eq_true]

theorem evalArm_fires {m : ChanMask} (h : s.arms.get p = some m) (hc : maskHas m c = true)
    (hall : ∀ d, maskHas m d = true → (s.still.get d).state = .settled) : evalArm c s p = fireArm p m s := by
  rw [evalArm_some h, if_pos ⟨hc, (allSettled_iff s m).2 hall⟩]

theorem evalArm_stays (h : ∀ m, s.arms.get p = some m →
    maskHas m c = false ∨ ∃ d, maskHas m d = true ∧ (s.still.get d).state ≠ .settled) : evalArm c s p = s := by
  cases harm : s.arms.get p with
  | none => exact evalArm_none harm
  | some m =>
    rw [evalArm_some harm, if_neg]
    rintro ⟨hc, hall⟩
    rcases h m harm with hout | ⟨d, hd, hmoving⟩
    · exact absurd hc (by simp [hout])
    · exact hmoving ((allSettled_iff s m).1 hall d hd)

/-! ## The expiry (R30, R33) -/

theorem exec_stillnessExpiry_due (h : (s.still.get c).due s.time = true) :
    exec (.stillnessExpiry c) s = .next (settleEntered c (s.onStill c (StillTimer.expire s.time))) :=
  congrArg performed (if_pos h)

theorem exec_stillnessExpiry_notDue (h : ¬ (s.still.get c).due s.time = true) :
    exec (.stillnessExpiry c) s = .next s :=
  congrArg performed (if_neg h)

end

/-- Settles O21: a due expiry enters SETTLED, and each arm then fires or stays. -/
theorem aStillnessExpirySettlesAndEvaluatesTheArms : Obligations.AStillnessExpirySettlesAndEvaluatesTheArms := by
  refine ⟨fun c s n hmoving htimer hrun => ?due, fun c s hwaits => ?notDue, fun c s p m harm hc hall => ?fires,
    fun c s p h => evalArm_stays h⟩
  case due =>
    exact exec_stillnessExpiry_due ((stillness_due_iff s c).2 ⟨n, hmoving, htimer, hrun⟩)
  case notDue =>
    refine exec_stillnessExpiry_notDue fun hdue => ?_
    obtain ⟨n, hmoving, htimer, hrun⟩ := (stillness_due_iff s c).1 hdue
    exact Nat.not_lt.2 hrun (hwaits n hmoving htimer)
  case fires =>
    exact evalArm_fires harm hc hall

end Sys2Proof.Machine
end

section
/-! PROOFS. The compensation store (Chapter 3): what each of its acts leaves in one entry and tells the other blocks, and
that no command applies a value on a channel that stays pinned. -/

namespace Sys2Proof.Machine

/-! ## Entries after the acts of the store (R45, R48, R49, R57) -/

/-- An entry with a port's pin gone: a pin set that this empties gives way to the pending value (R57). -/
def CompEntry.release (p : Port) (e : CompEntry) : CompEntry :=
  if (e.setPin p .none).unpinned then (e.setPin p .none).applySlot else e.setPin p .none

/-- The removal of pins applies the slots that are due; a slot that is not occupied has nothing to apply. -/
theorem applyDueSlots_get {cs : List Chan} (hn : cs.Nodup) (s : State) (c : Chan) :
    (applyDueSlots cs s).comp.get c =
      if c ∈ cs ∧ (s.comp.get c).unpinned = true then (s.comp.get c).applySlot else s.comp.get c := by
  unfold applyDueSlots
  rw [announceApplied_comp, onComps_get (fun _ => CompEntry.applySlot) _ (hn.filter _)]
  simp only [List.mem_filter, State.slotDue, Bool.and_eq_true]
  cases hslot : (s.comp.get c).slot with
  | some v => simp only [Option.isSome_some, and_true]
  | none => simp only [applySlot_weight _ hslot, ite_self]

theorem removePins_get (p : Port) {cs : List Chan} (hn : cs.Nodup) (s : State) (c : Chan) :
    (removePins p cs s).comp.get c = if c ∈ cs then (s.comp.get c).release p else s.comp.get c := by
  unfold removePins
  rw [applyDueSlots_get hn, onComps_get (fun _ => CompEntry.setPin p .none) cs hn]
  by_cases hc : c ∈ cs
  · simp only [hc, if_true, true_and, CompEntry.release]
  · simp only [hc, if_false, false_and]

/-- An expiry posts its notice between the removal of the pin and the application; the two do not meet (R56). -/
theorem expirePin_eq (c : Chan) (p : Port) (s : State) :
    expirePin c p s = removePins p [c] (post .pinExpired p s) := rfl

theorem writeComp_get (p : Port) {cs : List Chan} (hn : cs.Nodup) (w o : BitVec 32) (s : State) (c : Chan) :
    (writeComp p cs w o s).comp.get c = if c ∈ cs then (s.comp.get c).write p w o else s.comp.get c := by
  unfold writeComp
  rw [announceApplied_comp]
  exact onComps_get (fun _ => CompEntry.write p w o) cs hn s c

/-! ## Entries that keep their applied value -/

/-- The applied weight, offset and version of an entry stand. -/
structure CompEntry.SameValue (e e' : CompEntry) : Prop where
  weight : e'.weight = e.weight
  offset : e'.offset = e.offset
  version : e'.version = e.version

theorem CompEntry.SameValue.refl (e : CompEntry) : e.SameValue e := ⟨rfl, rfl, rfl⟩

theorem CompEntry.SameValue.trans {e e' e'' : CompEntry} (h : e.SameValue e') (k : e'.SameValue e'') :
    e.SameValue e'' :=
  ⟨k.weight.trans h.weight, k.offset.trans h.offset, k.version.trans h.version⟩

/-- Pins only go, and the applied value changes only where none is left. -/
structure CompEntry.Loosened (e e' : CompEntry) : Prop where
  unpinned : e.unpinned = true → e'.unpinned = true
  value : e'.unpinned = true ∨ e.SameValue e'

theorem CompEntry.Loosened.refl (e : CompEntry) : e.Loosened e := ⟨id, .inr (.refl e)⟩

theorem CompEntry.Loosened.trans {e e' e'' : CompEntry} (h : e.Loosened e') (k : e'.Loosened e'') :
    e.Loosened e'' := by
  refine ⟨fun hu => k.unpinned (h.unpinned hu), ?_⟩
  rcases k.value with hu | hk
  · exact .inl hu
  · rcases h.value with hu | hh
    · exact .inl (k.unpinned hu)
    · exact .inr (hh.trans hk)

theorem CompEntry.setPin_none_loosened (p : Port) (e : CompEntry) : e.Loosened (e.setPin p .none) := by
  refine ⟨fun hu => ?_, .inr ⟨rfl, rfl, rfl⟩⟩
  rw [setPin_none_unpinned, List.all_eq_true]
  rw [CompEntry.unpinned, List.all_eq_true] at hu
  exact fun q hq => by rw [hu q hq, Bool.or_true]

theorem CompEntry.applySlot_loosened {e : CompEntry} (h : e.unpinned = true) : e.Loosened e.applySlot := by
  have hu : e.applySlot.unpinned = true := by rw [CompEntry.unpinned, applySlot_pins]; exact h
  exact ⟨fun _ => hu, .inl hu⟩

theorem CompEntry.release_loosened (p : Port) (e : CompEntry) : e.Loosened (e.release p) := by
  unfold CompEntry.release
  split
  · rename_i hu
    exact (setPin_none_loosened p e).trans (applySlot_loosened hu)
  · exact setPin_none_loosened p e

/-- What a command does to an entry that is pinned before it and after it. -/
def CompEntry.PinnedKept (e e' : CompEntry) : Prop :=
  e.unpinned = false → e'.unpinned = false → e.SameValue e'

theorem CompEntry.Loosened.pinnedKept {e e' : CompEntry} (h : e.Loosened e') : e.PinnedKept e' := by
  intro _ hpinned
  rcases h.value with hu | hv
  · rw [hpinned] at hu; cases hu
  · exact hv

theorem CompEntry.SameValue.pinnedKept {e e' : CompEntry} (h : e.SameValue e') : e.PinnedKept e' := fun _ _ => h

/-- A value written to a pinned entry waits in its slot (R49). -/
theorem CompEntry.write_pinnedKept (p : Port) (w o : BitVec 32) (e : CompEntry) : e.PinnedKept (e.write p w o) := by
  intro hpinned _
  unfold CompEntry.write
  rw [hpinned]
  exact ⟨rfl, rfl, rfl⟩

theorem CompEntry.pin_sameValue (p : Port) (now : Time) (hold : BitVec 16) (e : CompEntry) :
    e.SameValue (e.pin p now hold) := by
  unfold CompEntry.pin
  split <;> exact ⟨rfl, rfl, rfl⟩

/-! ## The operations that remove pins -/

/-- On no channel does the store gain a pin or apply a value under one. -/
def StoreLoosened (s t : State) : Prop := ∀ c, (s.comp.get c).Loosened (t.comp.get c)

theorem StoreLoosened.of_comp {s t : State} (h : t.comp = s.comp) : StoreLoosened s t := by
  intro c
  rw [h]
  exact .refl _

theorem StoreLoosened.refl (s : State) : StoreLoosened s s := .of_comp rfl

theorem StoreLoosened.trans {s t u : State} (h : StoreLoosened s t) (k : StoreLoosened t u) : StoreLoosened s u :=
  fun c => (h c).trans (k c)

/-- A change that leaves the entries, and what follows it. -/
theorem StoreLoosened.after {s u t : State} (k : StoreLoosened u t) (h : u.comp = s.comp) : StoreLoosened s t :=
  (StoreLoosened.of_comp h).trans k

theorem removePins_loosened (p : Port) {cs : List Chan} (hn : cs.Nodup) (s : State) :
    StoreLoosened s (removePins p cs s) := by
  intro c
  rw [removePins_get p hn]
  split
  · exact CompEntry.release_loosened p _
  · exact .refl _

theorem halt_loosened (cause : HaltCause) (s : State) : StoreLoosened s (halt cause s) := by
  cases h : s.seq.claimant with
  | none =>
    unfold halt
    rw [h]
    exact .refl s
  | some p => exact (removePins_loosened p (by decide) s).trans (.of_comp (halt_comp h))

theorem haltIfScanning_loosened (cause : HaltCause) (s : State) : StoreLoosened s (haltIfScanning cause s) := by
  unfold haltIfScanning
  split
  · exact halt_loosened cause s
  · exact .refl s

theorem resetClaim_loosened (p : Port) (s : State) : StoreLoosened s (resetClaim p s) := by
  unfold resetClaim
  split
  · exact (haltIfScanning_loosened .claimLost s).trans (.of_comp rfl)
  · exact .refl s

theorem departure_loosened (c : Chan) (s : State) : StoreLoosened s (departure c s) := by
  unfold departure sequencerDeparture
  split
  · exact (halt_loosened .fault (cancelArms c (pointsOnChannel c s))).after rfl
  · exact .of_comp rfl

theorem disableChannel_loosened (c : Chan) (s : State) : StoreLoosened s (disableChannel c s) := by
  unfold disableChannel
  dsimp only
  split
  · exact (departure_loosened c ((s.onChan c ChannelUnit.disable).onStill c StillTimer.leave)).after rfl
  · exact .of_comp rfl

theorem evalWindow_loosened (p : Port) (n : Nat) (x : Int) : ∀ s, StoreLoosened s (evalWindow p n x s) := by
  induction n with
  | zero => exact .refl
  | succ n ih =>
    intro s
    unfold evalWindow
    cases s.seq.lines[s.seq.current]? with
    | none => exact .refl s
    | some e =>
      dsimp only
      split
      · have hpass : StoreLoosened s (passEntry p ⟨s.seq.current, e.tag, e.nominal⟩ s) := .of_comp (passEntry_comp ..)
        cases s.seq.nextIndex with
        | none => exact hpass.trans (halt_loosened .ended _)
        | some j => exact hpass.trans ((ih (State.onSeq _ _)).after rfl)
      · split <;> exact .of_comp rfl

theorem sequencerUpdate_loosened (s : State) : StoreLoosened s (sequencerUpdate s) := by
  unfold sequencerUpdate
  split
  · cases s.seq.claimant with
    | none => exact .refl s
    | some p =>
      dsimp only
      cases s.line p with
      | none => exact .refl s
      | some l => exact evalWindow_loosened p _ _ s
  · exact .refl s

theorem updateBlocks_loosened (c : Chan) (s : State) : StoreLoosened s (updateBlocks c s) := by
  have slots : ∀ ks u, StoreLoosened u (evalSlots c ks u) := fun ks u => .of_comp (evalSlots_pointsOnly c ks u).comp
  rcases updateBlocks_chain c s with ⟨ks, ks', n, h, -⟩ | ⟨ks, h⟩ <;> rw [h]
  · exact (((slots ks s).trans (sequencerUpdate_loosened _)).trans (slots ks' _)).trans (.of_comp rfl)
  · exact slots ks s

theorem acquisition_loosened (c : Chan) (f : Sample) (s : State) : StoreLoosened s (acquisition c f s) := by
  unfold acquisition
  split <;> exact .of_comp rfl

theorem goodFrame_loosened (c : Chan) (f : Sample) (s : State) : StoreLoosened s (goodFrame c f s) := by
  have hnote : StoreLoosened s (noteFrame c f s) := .of_comp rfl
  rcases goodFrame_cases c f s with ⟨-, ⟨d, h⟩ | h⟩ | ⟨-, ⟨r, h⟩ | h⟩ | ⟨-, -, h⟩ <;> rw [h]
  · exact (departure_loosened c (lossBefore c d f.handled (noteFrame c f s))).after rfl
  · exact (updateBlocks_loosened c (acceptBefore c f (noteFrame c f s))).after rfl
  · exact .of_comp rfl
  · exact hnote.trans (acquisition_loosened c f _)
  · exact hnote

theorem takeEdge_comp (i : Input) (s : State) : (takeEdge i s).comp = s.comp := by
  unfold takeEdge handEdge
  split
  · split
    · rw [sequencerEdge_comp]; rfl
    · rw [hand_comp]; rfl
  · rfl

/-! ## Every command -/

/-- A write waits under a pin, PIN COMPENSATION and START SCAN only add pins, and every other effect only removes some. -/
theorem Effect.pinnedKept {s t : State} (h : Effect s t) (c : Chan) : (s.comp.get c).PinnedKept (t.comp.get c) := by
  have loose : ∀ {u : State}, StoreLoosened s u → (s.comp.get c).PinnedKept (u.comp.get c) :=
    fun hu => (hu c).pinnedKept
  cases h with
  | write p m w o =>
    rw [writeComp_get p (maskChans_nodup m)]
    split
    · exact CompEntry.write_pinnedKept p w o _
    · exact (CompEntry.SameValue.refl _).pinnedKept
  | pin p m hold =>
    rw [onComps_get (fun _ => CompEntry.pin p s.time hold) _ (maskChans_nodup m)]
    split
    · exact (CompEntry.pin_sameValue p s.time hold _).pinnedKept
    · exact (CompEntry.SameValue.refl _).pinnedKept
  | start p dir first strays w h ht hf hs =>
    refine CompEntry.SameValue.pinnedKept ?_
    show CompEntry.SameValue _ ((placeRunPins p s).comp.get c)
    cases c <;> exact ⟨rfl, rfl, rfl⟩
  | unpin p m => exact loose (removePins_loosened p (timedPins_nodup s p _ (maskChans_nodup m)) s)
  | pinExpired d p h =>
    rw [expirePin_eq]
    exact loose ((removePins_loosened p (List.nodup_singleton d) (post .pinExpired p s)).after rfl)
  | resetPins p => exact loose (removePins_loosened p (timedPins_nodup s p _ (by decide)) s)
  | frame d f => exact loose (goodFrame_loosened d f s)
  | disable d p h => exact loose ((disableChannel_loosened d s).trans (.of_comp rfl))
  | release p h => exact loose ((haltIfScanning_loosened .stopped s).trans (.of_comp rfl))
  | force p h => exact loose ((haltIfScanning_loosened .forced s).trans (.of_comp rfl))
  | stop p h ht => exact loose (halt_loosened .stopped s)
  | resetClaim p => exact loose (resetClaim_loosened p s)
  | edge i => exact loose (.of_comp (takeEdge_comp i s))
  | settled d h => exact loose (.of_comp (settleEntered_armsOnly d _).comp)
  | capture p => exact loose (.of_comp (hand_comp _ s))
  | armFires p m => exact loose (.of_comp (fireArm_comp ..))
  | configure d g ch p h => cases ch <;> exact loose (.of_comp rfl)
  | input i en e h ch p => cases ch <;> exact loose (.of_comp rfl)
  | clearPoints p all ch => cases ch <;> exact loose (.of_comp rfl)
  | _ => exact loose (.of_comp rfl)

/-- Settles O12: a command acts on the entries by one effect, and a reset leaves no pin. -/
theorem aPinnedEntryIsNotApplied : Obligations.APinnedEntryIsNotApplied := by
  intro i s t c h _ hs ht
  obtain ⟨u, hu, hact⟩ := exec_acts i s
  rw [hu] at h
  injection h with h
  subst h
  rcases hact with ⟨L, v, L', heffect, rfl⟩ | rfl
  · obtain ⟨hweight, hoffset, hversion⟩ := heffect.pinnedKept c hs ht
    exact ⟨hweight, hoffset, hversion⟩
  · dsimp only [State.reset] at ht
    rw [PerChan.get_const] at ht
    exact absurd ht (by decide)

end Sys2Proof.Machine
end

section
/-! PROOFS. The requests of the compensation store and the expiry of a pin (3-4 to 3-8): the whole state that each leaves,
and the response it gives. -/

namespace Sys2Proof.Machine

/-! ## Applications as the other blocks learn of them (R45) -/

/-- An application whose entries are given: the notices and the points on L follow from them. -/
theorem announceApplied_entries (cs : List Chan) (entries : PerChan CompEntry) (s : State) :
    announceApplied cs { s with comp := entries } =
      { s with
        comp := entries
        notices := (if cs.isEmpty then s else postAll .compApplied s).notices
        points := if cs.any Chan.feedsLine then (pointsOnApplication { s with comp := entries }).points else s.points } := by
  rw [announceApplied_eq]
  cases cs.isEmpty <;> cases cs.any Chan.feedsLine <;> rfl

/-- The slots that are due after a state's pins have changed, written out in that state. -/
theorem applyDueSlots_eq (cs : List Chan) (s : State) :
    applyDueSlots cs s =
      { s with
        comp := (applyDueSlots cs s).comp
        notices := (if (cs.filter s.slotDue).isEmpty then s else postAll .compApplied s).notices
        points := if (cs.filter s.slotDue).any Chan.feedsLine then
          (pointsOnApplication { s with comp := (applyDueSlots cs s).comp }).points else s.points } := by
  have hcomp : (applyDueSlots cs s).comp =
      ((cs.filter s.slotDue).foldl (fun t c => t.onComp c CompEntry.applySlot) s).comp := announceApplied_comp _ _
  rw [hcomp, ← announceApplied_entries, ← onComps_eq (fun _ => CompEntry.applySlot)]
  rfl

/-- Some channel of a list feeds L, for the list of the channels that a test picks. -/
theorem any_feedsLine {l : List Chan} {a : Chan → Bool} (h : ∀ c, c ∈ l ↔ a c = true) :
    l.any Chan.feedsLine = (a .ch0 || a .ch1) := by
  rw [Bool.eq_iff_iff, List.any_eq_true, Bool.or_eq_true, ← h, ← h]
  constructor
  · rintro ⟨c, hc, hf⟩
    rcases (feedsLine_iff c).1 hf with rfl | rfl
    · exact .inl hc
    · exact .inr hc
  · rintro (hc | hc)
    · exact ⟨_, hc, rfl⟩
    · exact ⟨_, hc, rfl⟩

theorem isEmpty_eq_not_any {l : List Chan} {a : Chan → Bool} (h : ∀ c, c ∈ l ↔ a c = true) :
    l.isEmpty = !Chan.all.any a := by
  rw [Bool.eq_iff_iff, List.isEmpty_iff, Bool.not_eq_true', List.any_eq_false, List.eq_nil_iff_forall_not_mem]
  simp only [h, Chan.mem_all, true_implies]

/-! ## The removal of pins (R57) -/

/-- What the removal of a port's pin leaves of one entry, by whether it empties the pin set and a value waits. -/
theorem CompEntry.release_eq (p : Port) (e : CompEntry) :
    e.release p =
      match Port.all.all (fun q => q == p || e.pins.get q == .none) && e.slot.isSome, e.slot with
      | true, some v =>
        { weight := v.weight, offset := v.offset, version := e.version + 1, pins := e.pins.set p .none, slot := none }
      | _, _ => { e with pins := e.pins.set p .none } := by
  unfold CompEntry.release
  rw [setPin_none_unpinned]
  cases hempty : Port.all.all (fun q => q == p || e.pins.get q == .none) with
  | false => rfl
  | true =>
    cases hslot : e.slot with
    | none => simp [CompEntry.setPin, CompEntry.applySlot, hslot]
    | some v => simp [CompEntry.setPin, CompEntry.applySlot, CompEntry.apply, hslot]

/-- The removal of pins, with the application announced for the channels on which it empties a pin set under a
pending value. -/
theorem removePins_eq (p : Port) {cs : List Chan} (hn : cs.Nodup) (s : State) {applied : Chan → Bool}
    (h : ∀ c, applied c = (decide (c ∈ cs) && Port.all.all (fun q => q == p || (s.comp.get c).pins.get q == .none) &&
      (s.comp.get c).slot.isSome)) :
    removePins p cs s =
      { s with
        comp := (removePins p cs s).comp
        notices := if Chan.all.any applied then (postAll .compApplied s).notices else s.notices
        points := if applied .ch0 || applied .ch1 then
          (pointsOnApplication { s with comp := (removePins p cs s).comp }).points else s.points } := by
  have hdue : ∀ c, c ∈ cs.filter (cs.foldl (fun t c => t.onComp c (CompEntry.setPin p .none)) s).slotDue ↔
      applied c = true := by
    intro c
    rw [List.mem_filter, State.slotDue, onComps_get (fun _ => CompEntry.setPin p .none) cs hn, h]
    by_cases hc : c ∈ cs
    · rw [if_pos hc, setPin_none_unpinned]
      simp only [hc, CompEntry.setPin, decide_true, true_and, Bool.true_and]
    · simp only [hc, false_and, decide_false, Bool.false_and, Bool.false_eq_true]
  unfold removePins
  rw [applyDueSlots_eq, any_feedsLine hdue, isEmpty_eq_not_any hdue, onComps_eq (fun _ => CompEntry.setPin p .none)]
  cases Chan.all.any applied <;> rfl

/-- Settles O27: the slots due are those of the emptied pin sets, and the application is announced for them. -/
theorem anEmptiedPinSetAppliesItsPendingValue : Obligations.AnEmptiedPinSetAppliesItsPendingValue := by
  intro p cs s applied hn happlied
  have hstate := removePins_eq p hn s happlied
  have hget := removePins_get p hn s
  generalize removePins p cs s = t at hstate hget
  have hnotices : t.notices = if Chan.all.any applied then (postAll .compApplied s).notices else s.notices := by
    rw [hstate]
  have hpoints : t.points = if applied .ch0 || applied .ch1 then
      (pointsOnApplication { s with comp := t.comp }).points else s.points := by
    rw [hstate]
  refine ⟨t, rfl, fun c => ?_, hnotices, hpoints, ?_⟩
  · rw [hget]
    dsimp only
    by_cases hc : c ∈ cs
    · rw [if_pos hc, if_pos hc, happlied, decide_eq_true hc, Bool.true_and]
      exact CompEntry.release_eq p _
    · rw [if_neg hc, if_neg hc]
  · rw [hnotices, hpoints]
    exact hstate

/-! ## SET COMPENSATION (R45, R47 to R50) -/

theorem superseded_beq (e : CompEntry) (q : Port) :
    (e.superseded == some q) = (!e.unpinned && e.slot.map PendingComp.writer == some q) := by
  unfold CompEntry.superseded
  cases e.unpinned <;> rfl

theorem supersededAt_eq (s : State) (cs : List Chan) :
    s.supersededAt cs = fun q => cs.any (fun c =>
      !(s.comp.get c).unpinned && (s.comp.get c).slot.map PendingComp.writer == some q) := by
  funext q
  simp only [State.supersededAt, superseded_beq]

/-- A write as a whole: the superseded writers are told before the application is announced. -/
theorem writeComp_eq (p : Port) (cs : List Chan) (w o : BitVec 32) (s : State) :
    writeComp p cs w o s =
      { s with
        comp := (writeComp p cs w o s).comp
        notices := (if cs.any (fun c => (s.comp.get c).unpinned) then
          postAll .compApplied (postWhere .compSuperseded (s.supersededAt cs) s)
          else postWhere .compSuperseded (s.supersededAt cs) s).notices
        points := if cs.any (fun c => (s.comp.get c).unpinned && c.feedsLine) then
          (pointsOnApplication { s with comp := (writeComp p cs w o s).comp }).points else s.points } := by
  have hempty : (cs.filter (fun c => (s.comp.get c).unpinned)).isEmpty = !cs.any (fun c => (s.comp.get c).unpinned) := by
    rw [Bool.eq_iff_iff, List.isEmpty_iff, Bool.not_eq_true', List.any_eq_false, List.filter_eq_nil_iff]
  have hcomp : (writeComp p cs w o s).comp = (cs.foldl (fun t c => t.onComp c (CompEntry.write p w o)) s).comp :=
    announceApplied_comp _ _
  rw [hcomp]
  unfold writeComp
  rw [onComps_eq (fun _ => CompEntry.write p w o)]
  refine (announceApplied_entries _ _ (postWhere .compSuperseded (s.supersededAt cs) s)).trans ?_
  rw [hempty, List.any_filter]
  cases cs.any (fun c => (s.comp.get c).unpinned) <;> rfl

/-- The outcome of one channel, by whether the write waits and whether it replaces a value (R50). -/
theorem outcomeBlock_eq (s t : State) (c : Chan) :
    outcomeBlock s t c =
      u8 c.num ++ u8 (if (s.comp.get c).unpinned then 0 else 1) ++ u16 (t.comp.get c).version.toNat ++
      (match (s.comp.get c).unpinned, (s.comp.get c).slot with
        | false, some v => flag true ++ u8 1 ++ u8 v.writer.num
        | _, _ => flag false ++ u8 0 ++ u8 0) := by
  unfold outcomeBlock CompEntry.superseded
  dsimp only
  rw [List.append_assoc]
  congr 1
  cases (s.comp.get c).unpinned with
  | true => rfl
  | false => cases (s.comp.get c).slot <;> rfl

theorem takeSetCompensation_spelled {m : ChanMask} (hm : m ≠ 0) (p : Port) (w o : BitVec 32) {b : List Byte}
    (hb : b = u8 m.toNat ++ u32 w.toNat ++ u32 o.toNat) (s : State) :
    takeSetCompensation p b s =
      done ((maskChans m).flatMap (outcomeBlock s (writeComp p (maskChans m) w o s)))
        (writeComp p (maskChans m) w o s) := by
  have hw : BitVec.ofNat 32 (numAt b 1 4) = w := by
    rw [hb, u8, u32, u32, List.append_assoc, numAt_past 1 _ _ _ _ (by decide), numAt_here, ofNat_u32]
  have ho : BitVec.ofNat 32 (numAt b 5 4) = o := by
    rw [hb, u8, u32, u32, List.append_assoc, numAt_past 1 _ _ _ _ (by decide), numAt_past 4 _ _ _ _ (by decide),
      numAt_whole, ofNat_u32]
  rw [List.append_assoc] at hb
  rw [takeSetCompensation, withMask_here hm hb (by simp [u32]), hw, ho]

/-- Settles O25: the request is one write, whose entries, notices and points are the statement's. -/
theorem compensationWritesApplyOrWait : Obligations.CompensationWritesApplyOrWait := by
  intro r s m w o hr hp hm
  have htaken := takeSetCompensation_spelled hm r.port w o hp s
  have hstate := writeComp_eq r.port (maskChans m) w o s
  have hget := writeComp_get r.port (maskChans_nodup m) w o s
  generalize writeComp r.port (maskChans m) w o s = t at htaken hstate hget
  have hnotices := congrArg State.notices hstate
  have hpoints := congrArg State.points hstate
  dsimp only at hnotices hpoints
  rw [supersededAt_eq] at hnotices
  refine ⟨t, _, ?_, fun c => ?_, rfl, hnotices, hpoints, ?_⟩
  · refine (exec_answers (k := .setCompensation) (by decide) hr htaken).trans ?_
    congr 3
    exact funext (outcomeBlock_eq s t)
  · rw [hget]
    simp only [mem_maskChans]
    rfl
  · rw [hnotices, hpoints, ← supersededAt_eq]
    exact hstate

/-! ## PIN, UNPIN and the expiry of a pin (R52, R55, R56) -/

theorem pin_eq (p : Port) (now : Time) (hold : BitVec 16) (e : CompEntry) :
    e.pin p now hold = if e.pins.get p ≠ .run then { e with pins := e.pins.set p (.timed now hold) } else e := by
  unfold CompEntry.pin
  cases e.pins.get p <;> rfl

section
variable {m : ChanMask} {hold : BitVec 16} {b : List Byte} (p : Port) (s : State)

theorem hold_spelled (hb : b = u8 m.toNat ++ u16 hold.toNat) : numAt b 1 2 = hold.toNat := by
  rw [hb, u8, u16, numAt_past 1 _ _ _ _ (by decide), numAt_whole, toNat_bytes hold rfl]

theorem takePinCompensation_badValue (hm : m ≠ 0) (hb : b = u8 m.toNat ++ u16 hold.toNat) (h : hold = 0) :
    takePinCompensation p b s = badValue s := by
  subst h
  rw [takePinCompensation, withMask_here hm hb (by simp [u16]), hold_spelled hb]
  rfl

theorem takePinCompensation_accepts (hm : m ≠ 0) (hb : b = u8 m.toNat ++ u16 hold.toNat) (h : hold ≠ 0) :
    takePinCompensation p b s = done ((maskChans m).flatMap (pinOutcome s p))
      ((maskChans m).foldl (fun t c => t.onComp c (CompEntry.pin p s.time hold)) s) := by
  have h0 : hold.toNat ≠ 0 := fun h0 => h (BitVec.eq_of_toNat_eq h0)
  rw [takePinCompensation, withMask_here hm hb (by simp [u16]), hold_spelled hb, if_neg h0, BitVec.ofNat_toNat,
    BitVec.setWidth_eq]

theorem takeUnpinCompensation_spelled (hm : m ≠ 0) (hb : b = u8 m.toNat) :
    takeUnpinCompensation p b s =
      done ((maskChans m).flatMap (unpinOutcome s p)) (removePins p (s.timedPins p (maskChans m)) s) := by
  rw [takeUnpinCompensation, withMask_alone hm hb]

theorem takeReadCompensation_spelled (hm : m ≠ 0) (hb : b = u8 m.toNat) :
    takeReadCompensation p b s = done ((maskChans m).flatMap (compBlock s)) s := by
  rw [takeReadCompensation, withMask_alone hm hb]

end

/-- Settles O26: each request is one taking, and an expiry takes place where `pinDue` says so. -/
theorem pinsAreAddedRenewedRemovedAndExpire : Obligations.PinsAreAddedRenewedRemovedAndExpire := by
  refine ⟨⟨fun r s m hold hr hp hm => ⟨fun h => ?refused, fun h => ?pinned⟩, fun r s m hr hp hm => ?unpinned⟩,
    fun c p s start hold hpin hrun => ?due, fun c p s hwaits => ?notDue⟩
  case refused =>
    exact exec_answers (k := .pinCompensation) (by decide) hr (takePinCompensation_badValue r.port s hm hp h)
  case pinned =>
    refine ⟨_, exec_answers (k := .pinCompensation) (by decide) hr (takePinCompensation_accepts r.port s hm hp h),
      onComps_eq (fun _ => CompEntry.pin r.port s.time hold) _ s, fun c => ?_⟩
    rw [onComps_get (fun _ => CompEntry.pin r.port s.time hold) _ (maskChans_nodup m), pin_eq]
    simp only [mem_maskChans, ite_and]
  case unpinned =>
    exact exec_answers (k := .unpinCompensation) (by decide) hr (takeUnpinCompensation_spelled r.port s hm hp)
  case due =>
    exact congrArg performed (if_pos ((pinDue_iff s c p).2 ⟨start, hold, hpin, hrun⟩))
  case notDue =>
    refine congrArg performed (if_neg fun hdue => ?_)
    obtain ⟨start, hold, hpin, hrun⟩ := (pinDue_iff s c p).1 hdue
    exact Nat.not_lt.2 hrun (hwaits start hold hpin)

/-! ## READ COMPENSATION (R56, R60) -/

theorem pinBytes_eq {field : Pin → List Byte} {now : Time} (hnone : field .none = u8 0 ++ u8 0 ++ u16 0)
    (hrun : field .run = u8 2 ++ u8 0 ++ u16 0)
    (htimed : ∀ start hold, field (.timed start hold) = u8 1 ++ u8 1 ++ u16 (max 1
      ((1000000 * hold.toNat - (now - start).toNat + 999999) / 1000000))) (pin : Pin) :
    pinBytes now pin = field pin := by
  cases pin with
  | none => exact hnone.symm
  | run => exact hrun.symm
  | timed start hold =>
    simp only [pinBytes, Pin.code, optional, holdLeft, elapsed, Config.holdUnit, htimed, Nat.mul_comm,
      List.append_assoc, Nat.reduceSub]

/-- Settles O28: the block is the definition's up to the grouping of its fields. -/
theorem readCompensationReturnsTheEntries : Obligations.ReadCompensationReturnsTheEntries := by
  intro r s m field hr hp hm hnone hrun htimed
  refine (exec_answers (k := .readCompensation) (by decide) hr (takeReadCompensation_spelled r.port s hm hp)).trans ?_
  congr 3
  funext c
  simp only [compBlock, pinBytes_eq hnone hrun htimed, List.append_assoc]
  cases (s.comp.get c).slot <;> rfl

end Sys2Proof.Machine
end

section
/-! PROOFS. Views, compensated values, L and D (3-2, 3-3, 4-3): which of them exist, and what each is. -/

namespace Sys2Proof.Machine

theorem view_eq (s : State) (p : Port) (c : Chan) :
    s.view p c =
      if (s.chans.get c).state = .tracking then
        (match ((s.origins.get p).get c).status with
          | .free => some (s.chans.get c).raw.toInt
          | .bound => some ((s.chans.get c).raw - ((s.origins.get p).get c).count).toInt
          | .stale => none)
      else none := by
  unfold State.view viewOf
  cases (s.chans.get c).state <;> cases ((s.origins.get p).get c).status <;> rfl

theorem sat64_bounds (x : Int) : -(2 ^ 63) ≤ sat64 x ∧ sat64 x ≤ 2 ^ 63 - 1 := by
  unfold sat64
  omega

theorem sat64_of_bounds {x : Int} (h : -(2 ^ 63) ≤ x ∧ x ≤ 2 ^ 63 - 1) : sat64 x = x := by
  unfold sat64
  omega

theorem bothOf_none {x y : Option Int} (h : x = none ∨ y = none) : bothOf x y = none := by
  rcases h with rfl | rfl
  · rfl
  · cases x <;> rfl

section
variable {s : State} {p : Port} {c : Chan}

theorem compValue_some {v : Int} (hv : s.view p c = some v) (hw : (s.comp.get c).weight ≠ 0) :
    s.compValue p c = some (compensate v (s.comp.get c).weight (s.comp.get c).offset) := by
  rw [State.compValue, compOf, if_neg hw, hv, Option.map_some]

theorem compValue_none (h : s.view p c = none ∨ (s.comp.get c).weight = 0) : s.compValue p c = none := by
  rw [State.compValue, compOf]
  split
  · rfl
  · rename_i hw
    rw [h.resolve_right hw, Option.map_none]

/-- A compensated value that exists fits 64 bits (R42). -/
theorem compValue_bounds {a : Int} (h : s.compValue p c = some a) : -(2 ^ 63) ≤ a ∧ a ≤ 2 ^ 63 - 1 := by
  rw [State.compValue, compOf] at h
  split at h
  · cases h
  · obtain ⟨v, -, rfl⟩ := Option.map_eq_some_iff.1 h
    exact sat64_bounds _

end

/-- Settles O24: the mean of two values of 64 bits is one, so that L itself does not saturate. -/
theorem viewsLengthsAndLineAreFormedExactly : Obligations.ViewsLengthsAndLineAreFormedExactly := by
  refine ⟨view_eq, fun s p c v x hv hw hx => ?value, fun s p c => compValue_none, fun s p a b ha hb => ?line,
    fun s p h => ?absent⟩
  case value =>
    obtain ⟨hnear, hhalf⟩ := roundPm_nearest x
    refine ⟨roundPm x, hnear, hhalf, ?_⟩
    rw [compValue_some hv hw, hx]
    rfl
  case line =>
    have hmean : lineOf a b = (a + b) / 2 := by
      have ha64 := compValue_bounds ha
      have hb64 := compValue_bounds hb
      exact sat64_of_bounds (by omega)
    refine ⟨(a + b) / 2, ?_, by omega, by omega, ?_⟩
    · rw [State.line, ha, hb, bothOf, Option.map_some, hmean]
    · rw [State.yaw, ha, hb]
      rfl
  case absent =>
    rw [State.line, State.yaw, bothOf_none h]
    exact ⟨rfl, rfl⟩

end Sys2Proof.Machine
end

section
/-! PROOFS. Noninterference between the ports (4-1): what a request leaves of every other port's context, first for its
taking, then for the whole exchange at its port. -/

namespace Sys2Proof.Machine

/-! ## The payload of DISABLE CHANNEL -/

theorem chan_num_ofNum {n : Nat} {c : Chan} (h : Chan.ofNum n = some c) : c.num = n := by
  obtain ⟨hn, hc⟩ := List.getElem?_eq_some_iff.1 h
  have hn6 : n < 6 := hn
  interval_cases n <;> subst hc <;> rfl

/-- A payload of one byte that names a channel is that channel's number. -/
theorem payload_of_chanAt {b : List Byte} {c : Chan} (hb : b.length = 1) (h : chanAt b 0 = some c) : b = u8 c.num := by
  obtain ⟨x, rfl⟩ := List.length_eq_one_iff.1 hb
  rw [chan_num_ofNum h, numAt_byte]
  simp [u8, leBytes]

/-- A DISABLE CHANNEL changes nothing (its payload does not fit or its channel is DISABLED), or disables the one channel
its payload names and announces it. -/
theorem takeDisableChannel_cases {p : Port} {b : List Byte} {s t : State} {reply : Reply}
    (h : takeDisableChannel p b s = .answered reply t) :
    t = s ∨ ∃ c, b = u8 c.num ∧ t = announceChange true p (disableChannel c s) := by
  unfold takeDisableChannel withChannel at h
  split at h
  case isFalse => cases h; exact .inl rfl
  case isTrue hlen =>
    split at h
    case h_2 => cases h; exact .inl rfl
    case h_1 c hc =>
      dsimp only at h
      split at h
      · cases h; exact .inl rfl
      · cases h; exact .inr ⟨c, payload_of_chanAt hlen hc, rfl⟩

/-! ## What a request leaves of another port -/

/-- The arm of port q stands under a request of another port, or a DISABLE CHANNEL of a TRACKING channel that it names
has cancelled it (R95). -/
def ArmStandsOrCancelled (k : RequestKind) (b : List Byte) (q : Port) (s t : State) : Prop :=
  t.arms.get q = s.arms.get q ∨
    ∃ (c : Chan) (m : ChanMask), k = .disableChannel ∧ b = u8 c.num ∧ (s.chans.get c).state = .tracking ∧
      s.arms.get q = some m ∧ maskHas m c = true ∧ t.arms.get q = none ∧
      (t.notices.get q).has .settleCancelled = true

/-- Everything a request of kind k and payload b leaves of port q, its client port included. -/
structure LeavesPort (k : RequestKind) (b : List Byte) (q : Port) (s t : State) : Prop extends SparesBut q s t where
  arm : ArmStandsOrCancelled k b q s t
  link : t.links.get q = s.links.get q

section
variable {k : RequestKind} {b : List Byte} {p q : Port} {s t : State}

theorem Spares.leavesPort (h : Spares q s t) (hl : t.links.get q = s.links.get q) : LeavesPort k b q s t :=
  ⟨h.toSparesBut, .inl h.arms, hl⟩

theorem LeavesPort.refl (k : RequestKind) (b : List Byte) (q : Port) (s : State) : LeavesPort k b q s s :=
  (Spares.refl q s).leavesPort rfl

theorem onLink_ringsHold {f : Link → Link} (h : RingsHold s) : RingsHold (s.onLink p f) := h

/-- A change of another client port before the request. -/
theorem LeavesPort.of_onLink {f : Link → Link} (hq : q ≠ p) (h : LeavesPort k b q (s.onLink p f) t) :
    LeavesPort k b q s t :=
  ⟨⟨h.origins, h.baselines, h.subs, h.rings, h.latches, h.gains⟩, h.arm,
    h.link.trans (s.links.get_modify_ne f hq)⟩

/-- A change of another client port after the request. -/
theorem LeavesPort.onLink (f : Link → Link) (hq : q ≠ p) (h : LeavesPort k b q s t) :
    LeavesPort k b q s (t.onLink p f) :=
  ⟨⟨h.origins, h.baselines, h.subs, h.rings, h.latches, h.gains⟩, h.arm,
    (t.links.get_modify_ne f hq).trans h.link⟩

/-! ## Takings -/

/-- A taking that answers leaves the client ports; its response joins its port's list after it (R181). -/
theorem takeKind_links {reply : Reply} (h : takeKind k p b s = .answered reply t) : t.links = s.links := by
  by_cases hk : k = .portReset
  · subst hk
    simp only [takeKind, takePortReset] at h
    split at h <;> cases h
    rfl
  · exact (taking_keeps_links (takeKind_ignoresBoundary k hk) h).1

theorem answered_leavesPort {reply : Reply} (hq : q ≠ p) (h : takeKind k p b s = .answered reply t) :
    LeavesPort k b q s t := by
  have hlink : t.links.get q = s.links.get q := by rw [takeKind_links h]
  by_cases hk : k = .disableChannel
  · subst hk
    rcases takeDisableChannel_cases h with rfl | ⟨c, hb, ht⟩
    · exact .refl _ _ _ _
    · obtain ⟨hspares, harm⟩ := disable_spares c p q s t ht
      refine ⟨hspares, harm.imp_right ?_, hlink⟩
      rintro ⟨m, htracking, hm⟩
      exact ⟨c, m, rfl, hb, htracking, hm⟩
  · exact (takeKind_spares hq hk h).leavesPort hlink

/-- Step 1 of a PORT RESET, its port then RESETTING. -/
theorem firstResetStep_leavesPort (hq : q ≠ p) (hr : RingsHold s) (g : ResetProgress) :
    LeavesPort k b q s (setProgress p g (resetCaptures p s)) :=
  .onLink _ hq ((resetCaptures_spares hq hr).leavesPort rfl)

theorem finishTaken_leavesPort (hq : q ≠ p) (hr : RingsHold s) (tag : Byte) :
    LeavesPort k b q s (finishTaken p tag (takeKind k p b s)) := by
  cases h : takeKind k p b s with
  | answered reply t => exact (answered_leavesPort hq h).onLink _ hq
  | goesOn t =>
    rw [takeKind_goesOn h]
    exact firstResetStep_leavesPort hq hr _

/-! ## The exchange -/

theorem requestStep_leavesPort {r : Req} (hq : q ≠ r.port) (hr : RingsHold s) :
    LeavesPort k r.payload q s (requestStep k.code (takeKind k) r s) := by
  have same := LeavesPort.refl k r.payload q s
  unfold requestStep
  dsimp only
  split
  case h_1 =>
    split
    · exact finishTaken_leavesPort hq hr r.tag
    · exact same
  case h_2 =>
    split
    case isFalse => exact same
    case isTrue =>
      split
      case h_1 => exact same.onLink _ hq
      case h_2 =>
        split
        · exact .of_onLink (p := r.port) hq (finishTaken_leavesPort hq (onLink_ringsHold hr) r.tag)
        · exact same.onLink _ hq
      case h_3 => exact same.onLink _ hq

end

/-- Settles O13: whatever its stage, a request leaves the other ports what its taking leaves them. -/
theorem aRequestLeavesTheOtherPortsContexts : Obligations.ARequestLeavesTheOtherPortsContexts := by
  intro k r s t q hr hexec hq
  rw [exec_command, Host.Outcome.next.injEq] at hexec
  subst hexec
  have h := requestStep_leavesPort (k := k) hq hr
  obtain ⟨henable, hpending⟩ := h.gains
  exact ⟨h.origins, h.baselines, h.subs, h.rings, h.latches, h.link, henable, hpending, h.arm⟩

end Sys2Proof.Machine
end

section
/-! PROOFS. The requests of a port context (4-4 to 4-6): SET and CLEAR ORIGIN, READ POSITION, READ COUNTERS. -/

namespace Sys2Proof.Machine

/-! ## Values that a SET ORIGIN gives the view (R69) -/

section
variable {m : ChanMask} {mode : Byte} {field : BitVec 64} {b : List Byte}

theorem mode_spelled (hb : b = u8 m.toNat ++ [mode] ++ u64 field.toNat) : numAt b 1 1 = mode.toNat := by
  rw [hb, u8, List.append_assoc, numAt_past 1 _ _ _ _ (by decide)]
  exact numAt_byte mode _

theorem field_spelled (hb : b = u8 m.toNat ++ [mode] ++ u64 field.toNat) : intAt b 2 8 = field.toInt :=
  intAt_field 0 b field (by rw [hb]; rfl)

theorem originValue_badMode (hb : b = u8 m.toNat ++ [mode] ++ u64 field.toNat) (h : 2 ≤ mode.toNat) :
    originValue b = none := by
  unfold originValue
  rw [mode_spelled hb]
  split
  · omega
  · omega
  · rfl

/-- HERE gives 0 and VALUE the field, where that is a 48-bit count. -/
theorem originValue_spelled {value : Int} (hb : b = u8 m.toNat ++ [mode] ++ u64 field.toNat)
    (hv : mode = 0 ∧ value = 0 ∨ mode = 1 ∧ value = field.toInt) :
    originValue b = if -(2 ^ 47) ≤ value ∧ value < 2 ^ 47 then some value else none := by
  unfold originValue
  rw [mode_spelled hb]
  rcases hv with ⟨rfl, rfl⟩ | ⟨rfl, rfl⟩
  · rfl
  · simp only [field_spelled hb, Int.le_sub_one_iff]
    rfl

end

/-! ## The origins bound and freed, and their blocks in the responses (R70, R71) -/

theorem bindOrigins_eq (p : Port) (cs : List Chan) (v : Int) (s : State) :
    bindOrigins p cs v s = pointsOnOrigins p cs
      { s with origins := s.origins.set p (cs.foldl (fun os c =>
        os.set c (boundOrigin (s.chans.get c) v)) (s.origins.get p)) } := rfl

theorem freeOrigins_eq (p : Port) (cs : List Chan) (s : State) :
    freeOrigins p cs s = pointsOnOrigins p cs
      { s with origins := s.origins.set p (cs.foldl (fun os c => os.set c Origin.free) (s.origins.get p)) } := rfl

theorem foldl_setOrigin_mask (m : ChanMask) (f : Chan → Origin) (os : PerChan Origin) (c : Chan) :
    ((maskChans m).foldl (fun os c => os.set c (f c)) os).get c = if maskHas m c then f c else os.get c := by
  simp only [foldl_setOrigin _ (maskChans_nodup m), mem_maskChans]

theorem bindOrigins_get {m : ChanMask} {c : Chan} (h : maskHas m c = true) (p : Port) (v : Int) (s : State) :
    ((bindOrigins p (maskChans m) v s).origins.get p).get c = boundOrigin (s.chans.get c) v := by
  have horigins : (bindOrigins p (maskChans m) v s).origins.get p =
      (maskChans m).foldl (fun os c => os.set c (boundOrigin (s.chans.get c) v)) (s.origins.get p) := by
    rw [bindOrigins_eq]
    exact PerPort.get_set_self _ _ _
  rw [horigins, foldl_setOrigin_mask m (fun c => boundOrigin (s.chans.get c) v), if_pos h]

/-- Through its new origin the view reads the value it was bound for. -/
theorem view_boundOrigin {v : Int} (h : -(2 ^ 47) ≤ v ∧ v < 2 ^ 47) (u : ChannelUnit) :
    (u.raw - (boundOrigin u v).count).toInt = v := by
  have hcancel : u.raw - (u.raw - BitVec.ofInt 48 v) = BitVec.ofInt 48 v := sub_sub_cancel _ _
  rw [boundOrigin, hcancel, BitVec.toInt_ofInt]
  exact Int.bmod_eq_of_le (by omega) (by omega)

theorem originBlock_bound {m : ChanMask} {c : Chan} (h : maskHas m c = true) {v : Int}
    (hv : -(2 ^ 47) ≤ v ∧ v < 2 ^ 47) (p : Port) (s : State) :
    originBlock (bindOrigins p (maskChans m) v s) p c =
      u8 c.num ++ i64 ((s.chans.get c).raw - BitVec.ofInt 48 v).toInt ++ u16 (s.chans.get c).epoch.toNat ++
        i64 v := by
  have hview := view_boundOrigin hv (s.chans.get c)
  have hchans : (bindOrigins p (maskChans m) v s).chans = s.chans := rfl
  unfold originBlock
  rw [bindOrigins_get h, hchans]
  dsimp only
  rw [hview]
  rfl

theorem originBlocks_bound (m : ChanMask) {v : Int} (hv : -(2 ^ 47) ≤ v ∧ v < 2 ^ 47) (p : Port) (s : State) :
    (maskChans m).flatMap (originBlock (bindOrigins p (maskChans m) v s) p) =
      (maskChans m).flatMap (fun c =>
        u8 c.num ++ i64 ((s.chans.get c).raw - BitVec.ofInt 48 v).toInt ++ u16 (s.chans.get c).epoch.toNat ++
          i64 v) :=
  List.flatMap_congr fun c hc => originBlock_bound ((mem_maskChans m c).1 hc) hv p s

theorem status_block (o : Origin) :
    u8 o.status.code = match o.status with
      | .free => u8 0
      | .bound => u8 1
      | .stale => u8 2 := by
  cases o.status <;> rfl

/-! ## The takings of SET and CLEAR ORIGIN (R69 to R71) -/

section
variable {m : ChanMask} {b rest : List Byte} {v : Int} {p : Port} {s : State}

theorem takeSetOrigin_badValue (hm : m ≠ 0) (hb : b = u8 m.toNat ++ rest) (hn : rest.length = 9)
    (ho : originValue b = none) : takeSetOrigin p b s = badValue s := by
  rw [takeSetOrigin, withMask_here hm hb (by omega), ho]

theorem takeSetOrigin_scanActive (hm : m ≠ 0) (hb : b = u8 m.toNat ++ rest) (hn : rest.length = 9)
    (ho : originValue b = some v) (hf : s.movesFrame p (maskChans m) = true) :
    takeSetOrigin p b s = refuse .scanActive [] s := by
  rw [takeSetOrigin, withMask_here hm hb (by omega), ho]
  exact if_pos hf

theorem takeSetOrigin_notTracking {c : Chan} (hm : m ≠ 0) (hb : b = u8 m.toNat ++ rest) (hn : rest.length = 9)
    (ho : originValue b = some v) (hf : ¬ s.movesFrame p (maskChans m) = true)
    (hc : s.firstNotTracking (maskChans m) = some c) :
    takeSetOrigin p b s = refuse .notTracking (u8 c.num) s := by
  rw [takeSetOrigin, withMask_here hm hb (by omega), ho]
  dsimp only
  rw [if_neg hf, hc]

theorem takeSetOrigin_accepts (hm : m ≠ 0) (hb : b = u8 m.toNat ++ rest) (hn : rest.length = 9)
    (ho : originValue b = some v) (hf : ¬ s.movesFrame p (maskChans m) = true)
    (hc : s.firstNotTracking (maskChans m) = none) :
    takeSetOrigin p b s = done ((maskChans m).flatMap (originBlock (bindOrigins p (maskChans m) v s) p))
      (bindOrigins p (maskChans m) v s) := by
  rw [takeSetOrigin, withMask_here hm hb (by omega), ho]
  dsimp only
  rw [if_neg hf, hc]

theorem takeClearOrigin_scanActive (hm : m ≠ 0) (hb : b = u8 m.toNat) (hf : s.movesFrame p (maskChans m) = true) :
    takeClearOrigin p b s = refuse .scanActive [] s := by
  rw [takeClearOrigin, withMask_alone hm hb]
  exact if_pos hf

theorem takeClearOrigin_accepts (hm : m ≠ 0) (hb : b = u8 m.toNat) (hf : ¬ s.movesFrame p (maskChans m) = true) :
    takeClearOrigin p b s = done ((maskChans m).flatMap (fun c => u8 ((s.origins.get p).get c).status.code))
      (freeOrigins p (maskChans m) s) := by
  rw [takeClearOrigin, withMask_alone hm hb]
  exact if_neg hf

end

/-- Settles O29: each clause is a taking of its request, taken at once. -/
theorem originsAreSetAndCleared : Obligations.OriginsAreSetAndCleared := by
  refine ⟨⟨fun r s m mode field hr hp hm hmode => ?badMode, fun r s m mode field value hr hp hm hv => ?set⟩,
    fun r s m hr hp hm => ?clear⟩
  case badMode =>
    have ho := originValue_badMode hp hmode
    rw [List.append_assoc] at hp
    exact exec_answers (k := .setOrigin) (by decide) hr (takeSetOrigin_badValue hm hp rfl ho)
  case set =>
    have ho := originValue_spelled hp hv
    rw [List.append_assoc] at hp
    refine ⟨fun hrange => ?_, fun hrange => ?_⟩
    · rw [if_pos hrange] at ho
      rw [← movesFrame_iff]
      refine ⟨fun hf => ?_, fun hf => ⟨fun c hc hst hlow => ?_, fun hall => ?_⟩⟩
      · exact exec_answers (k := .setOrigin) (by decide) hr (takeSetOrigin_scanActive hm hp rfl ho hf)
      · exact exec_answers (k := .setOrigin) (by decide) hr
          (takeSetOrigin_notTracking hm hp rfl ho hf (firstNotTracking_some s m c hc hst hlow))
      · refine ⟨_, ?_, foldl_setOrigin_mask m (fun c => boundOrigin (s.chans.get c) value) _⟩
        have htaken := takeSetOrigin_accepts hm hp rfl ho hf (firstNotTracking_none s m hall)
        rw [originBlocks_bound m hrange] at htaken
        exact exec_answers (k := .setOrigin) (by decide) hr htaken
    · rw [if_neg hrange] at ho
      exact exec_answers (k := .setOrigin) (by decide) hr (takeSetOrigin_badValue hm hp rfl ho)
  case clear =>
    rw [← movesFrame_iff]
    refine ⟨fun hf => ?_, fun hf => ⟨_, ?_, foldl_setOrigin_mask m (fun _ => Origin.free) _⟩⟩
    · exact exec_answers (k := .clearOrigin) (by decide) hr (takeClearOrigin_scanActive hm hp hf)
    · have htaken := takeClearOrigin_accepts hm hp hf
      simp only [status_block] at htaken
      exact exec_answers (k := .clearOrigin) (by decide) hr htaken

/-! ## READ POSITION (R73) -/

/-- A conditional field of 64 bits, by what it is where the value is absent and where it is present. -/
theorem optional_eq {pm : Option Int → List Byte} (hnone : pm none = u8 0 ++ u64 0)
    (hsome : ∀ v, pm (some v) = u8 1 ++ i64 v) (v : Option Int) : optional 8 i64 v = pm v := by
  cases v with
  | none => exact hnone.symm
  | some v => exact (hsome v).symm

/-- Status, count and epoch of an origin: a FREE one has neither count nor epoch (R73). -/
theorem origin_fields (o : Origin) :
    u8 o.status.code ++ (optional 8 i64 (if o.status != .free then some o.count.toInt else none) ++
      optional 2 u16 (if o.status != .free then some o.epoch.toNat else none)) =
      match o.status with
      | .free => u8 0 ++ (u8 0 ++ u64 0) ++ (u8 0 ++ u16 0)
      | .bound => u8 1 ++ (u8 1 ++ i64 o.count.toInt) ++ (u8 1 ++ u16 o.epoch.toNat)
      | .stale => u8 2 ++ (u8 1 ++ i64 o.count.toInt) ++ (u8 1 ++ u16 o.epoch.toNat) := by
  cases o.status <;> rfl

theorem age_field (s : State) (u : ChannelUnit) :
    optional 2 u16 (if u.state = .tracking then some (ageAt s.time u.lastTime) else none) =
      if u.state = .tracking then u8 1 ++ u16 (min 65535 (s.time - u.lastTime).toNat) else u8 0 ++ u16 0 := by
  split <;> rfl

/-- The block of a channel, its conditional fields each by its two forms. -/
theorem positionBlock_eq {pm : Option Int → List Byte} (hopt : ∀ v, optional 8 i64 v = pm v) (s : State) (p : Port)
    (c : Chan) :
    positionBlock s p c =
      u8 c.num ++ u8 (s.chans.get c).state.code ++ u16 (s.chans.get c).epoch.toNat ++
      (match ((s.origins.get p).get c).status with
        | .free => u8 0 ++ (u8 0 ++ u64 0) ++ (u8 0 ++ u16 0)
        | .bound => u8 1 ++ (u8 1 ++ i64 ((s.origins.get p).get c).count.toInt) ++
            (u8 1 ++ u16 ((s.origins.get p).get c).epoch.toNat)
        | .stale => u8 2 ++ (u8 1 ++ i64 ((s.origins.get p).get c).count.toInt) ++
            (u8 1 ++ u16 ((s.origins.get p).get c).epoch.toNat)) ++
      pm (s.view p c) ++
      (if (s.chans.get c).state = .tracking then u8 1 ++ u16 (min 65535 (s.time - (s.chans.get c).lastTime).toNat)
        else u8 0 ++ u16 0) ++
      pm (s.compValue p c) ++ u16 (s.comp.get c).version.toNat := by
  rw [← hopt, ← hopt, ← age_field, ← origin_fields]
  simp only [positionBlock, List.append_assoc]

theorem takeReadPosition_spelled {m : ChanMask} (hm : m ≠ 0) {b : List Byte} (hb : b = u8 m.toNat) (p : Port)
    (s : State) :
    takeReadPosition p b s = done (u64 s.time.toNat ++ (maskChans m).flatMap (positionBlock s p) ++
      optional 8 i64 (s.line p) ++ optional 8 i64 (s.yaw p)) s := by
  rw [takeReadPosition, withMask_alone hm hb]

/-- Settles O30: the block is the definition's up to the grouping of its fields. -/
theorem readPositionReturnsThePortsView : Obligations.ReadPositionReturnsThePortsView := by
  intro r s m pm hr hp hm hnone hsome
  have hopt := optional_eq hnone hsome
  have htaken := takeReadPosition_spelled hm hp r.port s
  rw [hopt, hopt] at htaken
  refine (exec_answers (k := .readPosition) (by decide) hr htaken).trans ?_
  congr 6
  exact funext (positionBlock_eq hopt s r.port)

/-! ## READ COUNTERS (R74, R75) -/

theorem takeReadCounters_group {b : List Byte} {n : Nat} {g : Group} (hb : b = u8 n) (hn : n < 256)
    (hg : Group.ofNum n = some g) (p : Port) (s : State) :
    takeReadCounters p b s = done ((s.deltas p g).flatMap (fun d => u32 d.toNat) ++ u64 s.time.toNat)
      { s with baselines := s.baselines.modify p (fun b => b.moveGroup s.totals g) } := by
  have hnum : numAt b 0 1 = n := by
    rw [hb, u8, numAt_whole, Nat.mod_eq_of_lt (by omega)]
  rw [takeReadCounters, if_pos (by rw [hb]; rfl), hnum, hg]

theorem group_ofNum_chan (c : Chan) : Group.ofNum c.num = some (.chan c) := by cases c <;> rfl

theorem group_ofNum_none {n : Nat} (h : 9 ≤ n) : Group.ofNum n = none := by
  have hc : Chan.ofNum n = none := List.getElem?_eq_none (show 6 ≤ n by omega)
  unfold Group.ofNum
  split
  · omega
  · omega
  · omega
  · rw [hc, Option.map_none]

theorem takeReadCounters_badValue {n : Byte} (h : 9 ≤ n.toNat) (p : Port) (s : State) :
    takeReadCounters p [n] s = badValue s := by
  rw [takeReadCounters, if_pos List.length_singleton, numAt_byte, group_ofNum_none h]

/-- A group's READ COUNTERS, its deltas as the statement's function gives them. -/
theorem exec_readCounters_group {deltas : List Total → List Total → List Byte} {r : Req} {s : State} {n : Nat}
    {g : Group} (hr : Ready r s)
    (hd : ∀ ts bs, deltas ts bs =
      (List.zipWith (fun t b => t - b) ts bs).flatMap (fun d => u32 d.toNat) ++ u64 s.time.toNat)
    (hp : r.payload = u8 n) (hn : n < 256) (hg : Group.ofNum n = some g) :
    exec (.readCounters r) s = .next (replied r .done
      (deltas (s.totals.group g) ((s.baselines.get r.port).group g))
      { s with baselines := s.baselines.modify r.port (fun b => b.moveGroup s.totals g) }) := by
  rw [hd]
  exact exec_answers (k := .readCounters) (by decide) hr (takeReadCounters_group hp hn hg r.port s)

/-- Settles O31: the nine groups have their numbers, and no number above 8 names one. -/
theorem readCountersReturnsAndMovesTheGroup : Obligations.ReadCountersReturnsAndMovesTheGroup := by
  intro r s deltas hr hd
  refine ⟨fun c hp => ?chan, fun hp => ?inputs, fun hp => ?capture, fun hp => ?sequencer, fun n hn hp => ?above⟩
  case chan =>
    have hlt := chanNum_lt c
    exact exec_readCounters_group hr hd hp (by omega) (group_ofNum_chan c)
  case inputs => exact exec_readCounters_group (g := .inputs) hr hd hp (by decide) rfl
  case capture => exact exec_readCounters_group (g := .capture) hr hd hp (by decide) rfl
  case sequencer => exact exec_readCounters_group (g := .sequencer) hr hd hp (by decide) rfl
  case above =>
    have htaken := takeReadCounters_badValue hn r.port s
    rw [← hp] at htaken
    exact exec_answers (k := .readCounters) (by decide) hr htaken

end Sys2Proof.Machine
end

section
/-! PROOFS. Triggers and the inputs that make them (5-1 to 5-3, 5-7): what becomes of a trigger, which edges are
accepted, when a hold-off and a SYNC pulse end, and CONFIGURE INPUT. -/

namespace Sys2Proof.Machine

/-! ## What becomes of a trigger (R84 to R89) -/

theorem routeEmpty_iff (route : Port → Bool) : routeEmpty (PerPort.ofFn route) = true ↔ ∀ p, route p = false := by
  simp only [routeEmpty, PerPort.ofFn, Bool.not_eq_true', Bool.or_eq_false_iff]
  constructor
  · rintro ⟨⟨h0, h1⟩, h2⟩ p
    cases p <;> assumption
  · exact fun h => ⟨⟨h .p0, h .p1⟩, h .p2⟩

section
variable {src : Source} {s : State}

theorem hand_discarded (h : ∀ p, routed s src p = false) :
    hand src s = s.onCaptureTotals (fun t => { t with discarded := t.discarded + 1 }) := by
  have ho : outcomeOf src s = .discarded := if_pos ((routeEmpty_iff _).2 h)
  rw [hand, ho]

theorem not_routeEmpty (h : ∃ p, routed s src p = true) : ¬ routeEmpty (routing s src) = true := by
  obtain ⟨p, hp⟩ := h
  intro hempty
  exact absurd ((routeEmpty_iff _).1 hempty p) (by simp [hp])

theorem hand_admitted (h : ∃ p, routed s src p = true) (hroom : s.queue.length < 4) :
    hand src s = admitTrigger src (routing s src) s := by
  have ho : outcomeOf src s = .admitted s.nextNumber := (if_neg (not_routeEmpty h)).trans (if_pos hroom)
  rw [hand, ho]

theorem hand_lost (h : ∃ p, routed s src p = true) (hfull : 4 ≤ s.queue.length) :
    hand src s = loseTrigger src (routing s src) s := by
  have ho : outcomeOf src s = .overrun := (if_neg (not_routeEmpty h)).trans (if_neg (Nat.not_lt.2 hfull))
  rw [hand, ho]

end

/-- Settles O32: the routing set is `routed`, and each outcome has its own equation. -/
theorem triggersAreDiscardedAdmittedOrLost : Obligations.TriggersAreDiscardedAdmittedOrLost := by
  intro src s route hroute
  have hrouted : route = routed s src := by
    funext p
    rw [hroute]
    simp only [routed, beq_eq_decide]
    cases src <;> rfl
  subst hrouted
  refine ⟨hand_discarded, fun hset hroom => ?admitted, fun hset hfull => ⟨_, rfl, ?lost⟩⟩
  case admitted =>
    rw [hand_admitted hset hroom]
    cases src <;> rfl
  case lost =>
    rw [hand_lost hset hfull]
    have hget : (routing s src).get = routed s src := funext (PerPort.get_ofFn _)
    rw [loseTrigger, hget]
    cases src <;> rfl

/-! ## Edges (R79, R80, R82) -/

theorem sees_iff (t : TrigInput) (e : Edge) :
    t.sees e = true ↔ t.enabled = true ∧ t.edge = e ∧ t.edgeSeen = false := by
  simp only [TrigInput.sees, Bool.and_eq_true, beq_iff_eq, Bool.not_eq_true', and_assoc]

section
variable {i : Input} {e : Edge} {s : State}

theorem exec_edge_seen (h : (s.inputs.get i).sees e = true) : exec (.edge i e) s = .next (takeEdge i s) :=
  congrArg performed (if_pos h)

theorem exec_edge_unseen (h : ¬ (s.inputs.get i).sees e = true) : exec (.edge i e) s = .next s :=
  congrArg performed (if_neg h)

theorem takeEdge_heldOff (h : (s.inputs.get i).holdOffUntil ≠ none) :
    takeEdge i s = (s.onInput i (fun t => { t with edgeSeen := true })).onInputTotals i
      (fun n => { n with heldOff := n.heldOff + 1 }) := by
  obtain ⟨u, hu⟩ := Option.ne_none_iff_exists'.1 h
  rw [takeEdge, hu]

theorem takeEdge_accepted (h : (s.inputs.get i).holdOffUntil = none) :
    takeEdge i s = handEdge i ((s.onInput i (TrigInput.acceptEdge s.time)).onInputTotals i
      (fun n => { n with accepted := n.accepted + 1 })) := by
  rw [takeEdge, h]

end

/-- Settles O33: a transition that the input sees is held off or handed on, any other has no effect. -/
theorem edgesAreAcceptedHeldOffOrUnseen : Obligations.EdgesAreAcceptedHeldOffOrUnseen := by
  rintro i e s t rfl
  refine ⟨fun hunseen => exec_edge_unseen fun hsees => ?unseen, fun hen hedge hfirst => ?seen⟩
  case unseen =>
    obtain ⟨hen, hedge, hfirst⟩ := (sees_iff _ _).1 hsees
    simp [hen, hedge, hfirst] at hunseen
  case seen =>
    rw [exec_edge_seen ((sees_iff _ _).2 ⟨hen, hedge, hfirst⟩)]
    refine ⟨fun hheld => by rw [takeEdge_heldOff hheld], fun hready => ⟨_, rfl, ?_⟩⟩
    rw [takeEdge_accepted hready]
    exact ⟨fun hscan => congrArg _ (if_pos hscan), fun hother => congrArg _ (if_neg hother)⟩

/-! ## Expiries (R80, R97) -/

theorem holdOffDue_iff (now : Time) (t : TrigInput) :
    t.holdOffDue now = true ↔ ∃ u, t.holdOffUntil = some u ∧ (now - u).toNat < 2 ^ 47 := by
  unfold TrigInput.holdOffDue
  cases t.holdOffUntil with
  | none => simp
  | some u =>
    simp only [Option.some.injEq, exists_eq_left', decide_eq_true_eq]
    rfl

theorem syncDue_iff (s : State) : s.syncDue = true ↔ ∃ t, s.sync = some t ∧ 100 ≤ (s.time - t).toNat := by
  unfold State.syncDue
  cases s.sync with
  | none => simp
  | some t =>
    simp only [Option.some.injEq, exists_eq_left', decide_eq_true_eq]
    rfl

/-! ## CONFIGURE INPUT (R81) -/

theorem inputOfNum_none {n : Nat} (h : 3 ≤ n) : Input.ofNum n = none := List.getElem?_eq_none h

theorem edgeOf_none {n : Nat} (h : 2 ≤ n) : edgeOf n = none := by
  obtain ⟨k, rfl⟩ := Nat.exists_eq_add_of_le' h
  rfl

theorem inputByte_num (i : Input) (rest : List Byte) : Input.ofNum (numAt (u8 i.num ++ rest) 0 1) = some i := by
  rw [u8, numAt_here]
  cases i <;> rfl

theorem edgeByte_code (e : Edge) (rest : List Byte) : edgeOf (numAt (u8 (edgeCode e) ++ rest) 0 1) = some e := by
  rw [u8, numAt_here]
  cases e <;> rfl

/-- The present fields are those of the request exactly where the input is not changed. -/
theorem not_changed_iff (t : TrigInput) (en : Bool) (e : Edge) (h : BitVec 16) :
    t.changed en e h = false ↔ t.enabled = en ∧ t.edge = e ∧ t.holdOff = h := by
  simp only [TrigInput.changed, Bool.or_eq_false_iff, bne_eq_false_iff_eq, and_assoc]

theorem announceChange_input (t : TrigInput) (en : Bool) (e : Edge) (h : BitVec 16) (p : Port) (s : State) :
    announceChange (t.changed en e h) p s =
      if t.enabled = en ∧ t.edge = e ∧ t.holdOff = h then s else tellOthers p s := by
  rw [if_congr (not_changed_iff t en e h).symm rfl rfl]
  cases t.changed en e h <;> rfl

theorem takeConfigureInput_spelled {b : List Byte} {i : Input} {en : Byte} {e : Edge} {h : BitVec 16}
    (hb : b = u8 i.num ++ [en] ++ u8 (edgeCode e) ++ u16 h.toNat) (p : Port) (s : State) :
    takeConfigureInput p b s = done []
      (announceChange ((s.inputs.get i).changed (en.getLsbD 0) e h) p
        (s.onInput i (TrigInput.configure (en.getLsbD 0) e h))) := by
  have hinput : Input.ofNum (numAt b 0 1) = some i := by
    rw [hb, List.append_assoc, List.append_assoc]
    exact inputByte_num i _
  have hedge : edgeOf (numAt b 2 1) = some e := by
    rw [hb]
    exact edgeByte_code e _
  have hflag : flagAt b 1 = en.getLsbD 0 := by
    rw [← byte_parity en, ← numAt_byte en (u8 (edgeCode e) ++ u16 h.toNat), hb]
    rfl
  have hholdOff : BitVec.ofNat 16 (numAt b 3 2) = h := by
    have hnum : numAt b 3 2 = numAt (u16 h.toNat) 0 2 := by
      rw [hb]
      rfl
    rw [hnum, u16, numAt_whole, toNat_bytes h rfl, BitVec.ofNat_toNat, BitVec.setWidth_eq]
  rw [takeConfigureInput, if_pos (by rw [hb]; rfl), hinput, hedge]
  dsimp only
  rw [hflag, hholdOff]

theorem takeConfigureInput_badValue {n en e h0 h1 : Byte} (h : 3 ≤ n.toNat ∨ 2 ≤ e.toNat) (p : Port) (s : State) :
    takeConfigureInput p [n, en, e, h0, h1] s = badValue s := by
  have hn : numAt [n, en, e, h0, h1] 0 1 = n.toNat := numAt_byte n _
  have he : numAt [n, en, e, h0, h1] 2 1 = e.toNat := numAt_byte e _
  rw [takeConfigureInput, if_pos (show [n, en, e, h0, h1].length = 5 from rfl), hn, he]
  rcases h with h | h
  · rw [inputOfNum_none h]
  · rw [edgeOf_none h]
    cases Input.ofNum n.toNat <;> rfl

/-- Settles O34: the two expiries by when they are due, and CONFIGURE INPUT by its taking. -/
theorem inputsAndSyncExpireAndInputsAreConfigured : Obligations.InputsAndSyncExpireAndInputsAreConfigured := by
  refine ⟨⟨fun i s u hu hrun => ?due, fun i s hwaits => ?notDue, fun r s i en e h hr hp => ?configure,
    fun r s n en e h0 h1 hr hp hbad => ?refused⟩, fun s t ht hrun => ?syncDue, fun s hwaits => ?syncNotDue⟩
  case due =>
    exact congrArg performed (if_pos ((holdOffDue_iff _ _).2 ⟨u, hu, hrun⟩))
  case notDue =>
    refine congrArg performed (if_neg fun hdue => ?_)
    obtain ⟨u, hu, hrun⟩ := (holdOffDue_iff _ _).1 hdue
    exact Nat.not_lt.2 (hwaits u hu) hrun
  case configure =>
    refine ⟨_, rfl, ?_⟩
    have htaken := takeConfigureInput_spelled hp r.port s
    rw [announceChange_input] at htaken
    exact exec_answers (k := .configureInput) (by decide) hr htaken
  case refused =>
    have htaken := takeConfigureInput_badValue (en := en) (h0 := h0) (h1 := h1) hbad r.port s
    rw [← hp] at htaken
    exact exec_answers (k := .configureInput) (by decide) hr htaken
  case syncDue =>
    exact congrArg performed (if_pos ((syncDue_iff s).2 ⟨t, ht, hrun⟩))
  case syncNotDue =>
    refine congrArg performed (if_neg fun hdue => ?_)
    obtain ⟨t, ht, hrun⟩ := (syncDue_iff s).1 hdue
    exact Nat.not_lt.2 hrun (hwaits t ht)

end Sys2Proof.Machine
end

section
/-! PROOFS. CAPTURE NOW, ARM SETTLE and CANCEL SETTLE (5-5, 5-6): the taking of each, and what its response reports. -/

namespace Sys2Proof.Machine

/-! ## Conditional fields of the responses (R93, R94) -/

/-- The fields by which a response reports a capture outcome: its code, the presence byte of a capture number, and the
number. -/
structure ReportedAs (o : CaptureOutcome) (code : Nat) (present number : List Byte) : Prop where
  code : o.code = code
  number : optional 4 u32 o.number = present ++ number

theorem discarded_reported : ReportedAs .discarded 1 (u8 0) (u32 0) := ⟨rfl, rfl⟩

theorem admitted_reported (n : BitVec 32) : ReportedAs (.admitted n) 0 (u8 1) (u32 n.toNat) := ⟨rfl, rfl⟩

theorem overrun_reported : ReportedAs .overrun 2 (u8 0) (u32 0) := ⟨rfl, rfl⟩

/-- An arm in a response: whether there is one, and its mask. -/
theorem arm_fields (old : Option ChanMask) :
    flag old.isSome ++ optional 1 (fun m : ChanMask => u8 m.toNat) old =
      (match old with
        | none => u8 0 ++ u8 0 ++ u8 0
        | some o => u8 1 ++ u8 1 ++ u8 o.toNat) := by
  cases old <;> rfl

/-- The ARM SETTLE response of an arm that waits. -/
theorem armBytes_armed (old : Option ChanMask) :
    armBytes none old =
      u8 0 ++ (flag old.isSome ++ optional 1 (fun m : ChanMask => u8 m.toNat) old) ++ u8 0 ++ u8 0 ++ u8 0 ++
        u32 0 := by
  simp only [armBytes, List.append_assoc]
  rfl

/-- The ARM SETTLE response of an arm that has fired. -/
theorem armBytes_fired {o : CaptureOutcome} {code : Nat} {present number : List Byte}
    (ho : ReportedAs o code present number) (old : Option ChanMask) :
    armBytes (some o) old =
      u8 1 ++ (flag old.isSome ++ optional 1 (fun m : ChanMask => u8 m.toNat) old) ++ u8 1 ++ u8 code ++ present ++
        number := by
  simp only [armBytes, List.append_assoc, ← ho.number, ← ho.code]
  rfl

/-! ## Triggers that route to one port alone (R84) -/

section
variable {src : Source} {q : Port} {s : State}

theorem outcomeOf_own_discarded (h : ∀ p, routed s src p = ((s.rings.get p).state == .active && (q == p)))
    (hring : (s.rings.get q).state ≠ .active) : outcomeOf src s = .discarded := by
  rw [outcomeOf_own h, if_pos hring]

theorem outcomeOf_own_admitted (h : ∀ p, routed s src p = ((s.rings.get p).state == .active && (q == p)))
    (hring : (s.rings.get q).state = .active) (hroom : s.queue.length < 4) :
    outcomeOf src s = .admitted s.nextNumber := by
  rw [outcomeOf_own h, if_neg (not_not_intro hring), if_pos hroom]

theorem outcomeOf_own_overrun (h : ∀ p, routed s src p = ((s.rings.get p).state == .active && (q == p)))
    (hring : (s.rings.get q).state = .active) (hfull : 4 ≤ s.queue.length) : outcomeOf src s = .overrun := by
  rw [outcomeOf_own h, if_neg (not_not_intro hring), if_neg (Nat.not_lt.2 hfull)]

end

/-! ## The takings -/

/-- What becomes of a trigger does not depend on the waiting arms. -/
theorem hand_withArms (src : Source) (s : State) (a : PerPort (Option ChanMask)) :
    hand src { s with arms := a } = { hand src s with arms := a } := by
  have ho : outcomeOf src { s with arms := a } = outcomeOf src s := rfl
  rw [hand, hand, ho]
  cases outcomeOf src s with
  | overrun => cases src <;> rfl
  | _ => rfl

/-- An arm that fires in the taking that sets it: its trigger, the notice, and no arm left. -/
theorem fireArm_new (p : Port) (m : ChanMask) (s : State) :
    fireArm p m { s with arms := s.arms.set p (some m) } =
      { post .settleFired p (hand (.settle p m) s) with arms := s.arms.set p none } := by
  rw [fireArm, hand_withArms, PerPort.set_set]
  rfl

section
variable {m : ChanMask} {b : List Byte} {o : CaptureOutcome} {p : Port} {s : State}

theorem takeCaptureNow_reports {code : Nat} {present number : List Byte} (hb : b = [])
    (ho : outcomeOf (.request p) s = o) (hf : ReportedAs o code present number) :
    takeCaptureNow p b s = done (u8 code ++ present ++ number) (hand (.request p) s) := by
  rw [takeCaptureNow, if_pos (by rw [hb]; rfl), ho, hf.code, hf.number, List.append_assoc]

theorem takeArmSettle_notTracking {c : Chan} (hm : m ≠ 0) (hb : b = u8 m.toNat)
    (hc : s.firstNotTracking (maskChans m) = some c) :
    takeArmSettle p b s = refuse .notTracking (u8 c.num) s := by
  rw [takeArmSettle, withMask_alone hm hb, hc]

theorem takeArmSettle_armed (hm : m ≠ 0) (hb : b = u8 m.toNat) (hc : s.firstNotTracking (maskChans m) = none)
    (hall : ¬ s.allSettled m = true) :
    takeArmSettle p b s = done (armBytes none (s.arms.get p)) { s with arms := s.arms.set p (some m) } := by
  rw [takeArmSettle, withMask_alone hm hb, hc]
  exact if_neg hall

theorem takeArmSettle_fired {t : State} (hm : m ≠ 0) (hb : b = u8 m.toNat)
    (hc : s.firstNotTracking (maskChans m) = none) (hall : s.allSettled m = true)
    (ho : outcomeOf (.settle p m) s = o) (ht : t = fireArm p m { s with arms := s.arms.set p (some m) }) :
    takeArmSettle p b s = done (armBytes (some o) (s.arms.get p)) t := by
  rw [takeArmSettle, withMask_alone hm hb, hc, ht, ← ho]
  exact if_pos hall

theorem takeCancelSettle_spelled (hb : b = []) :
    takeCancelSettle p b s = done (flag (s.arms.get p).isSome ++
      optional 1 (fun m : ChanMask => u8 m.toNat) (s.arms.get p)) { s with arms := s.arms.set p none } := by
  rw [takeCancelSettle, if_pos (by rw [hb]; rfl)]

end

/-- Settles O35: each clause is a taking of its request, its trigger routed to the port itself. -/
theorem captureNowAndSettleArmsReportTheirOutcome : Obligations.CaptureNowAndSettleArmsReportTheirOutcome := by
  refine ⟨fun r s hr hp => ?captureNow, fun r s m old hr hp hm hold => ⟨fun c hc hst hlow => ?notTracking,
    fun htracking => ⟨fun hmoving => ?armed, fun hsettled => ?fired⟩⟩, fun r s hr hp => ?cancelled⟩
  case captureNow =>
    have hreports {o : CaptureOutcome} {code : Nat} {present number : List Byte}
        (ho : outcomeOf (.request r.port) s = o) (hf : ReportedAs o code present number) :=
      exec_answers (k := .captureNow) (by decide) hr (takeCaptureNow_reports hp ho hf)
    have hown : ∀ p, routed s (.request r.port) p = ((s.rings.get p).state == .active && (r.port == p)) :=
      fun _ => rfl
    exact ⟨fun hring => hreports (outcomeOf_own_discarded hown hring) discarded_reported,
      fun hring hroom => hreports (outcomeOf_own_admitted hown hring hroom) (admitted_reported _),
      fun hring hfull => hreports (outcomeOf_own_overrun hown hring hfull) overrun_reported⟩
  case notTracking =>
    exact exec_answers (k := .armSettle) (by decide) hr
      (takeArmSettle_notTracking hm hp (firstNotTracking_some s m c hc hst hlow))
  case armed =>
    have hall : ¬ s.allSettled m = true := by
      obtain ⟨c, hc, hst⟩ := hmoving
      exact fun hall => hst ((allSettled_iff s m).1 hall c hc)
    have htaken := takeArmSettle_armed (p := r.port) hm hp (firstNotTracking_none s m htracking) hall
    rw [armBytes_armed, (arm_fields _).trans hold.symm] at htaken
    exact exec_answers (k := .armSettle) (by decide) hr htaken
  case fired =>
    obtain ⟨t, ht⟩ : ∃ t, t = fireArm r.port m { s with arms := s.arms.set r.port (some m) } := ⟨_, rfl⟩
    have hreports {o : CaptureOutcome} {code : Nat} {present number : List Byte}
        (ho : outcomeOf (.settle r.port m) s = o) (hf : ReportedAs o code present number) :
        exec (.armSettle r) s = .next (replied r .done (u8 1 ++ old ++ u8 1 ++ u8 code ++ present ++ number) t) := by
      have htaken := takeArmSettle_fired hm hp (firstNotTracking_none s m htracking)
        ((allSettled_iff s m).2 hsettled) ho ht
      rw [armBytes_fired hf, (arm_fields _).trans hold.symm] at htaken
      exact exec_answers (k := .armSettle) (by decide) hr htaken
    have hown : ∀ p, routed s (.settle r.port m) p = ((s.rings.get p).state == .active && (r.port == p)) :=
      fun _ => rfl
    exact ⟨t, ht.trans (fireArm_new r.port m s),
      fun hring => hreports (outcomeOf_own_discarded hown hring) discarded_reported,
      fun hring hroom => hreports (outcomeOf_own_admitted hown hring hroom) (admitted_reported _),
      fun hring hfull => hreports (outcomeOf_own_overrun hown hring hfull) overrun_reported⟩
  case cancelled =>
    have htaken := takeCancelSettle_spelled (p := r.port) (s := s) hp
    rw [arm_fields] at htaken
    exact exec_answers (k := .cancelSettle) (by decide) hr htaken

end Sys2Proof.Machine
end

section
/-! PROOFS. The end of a completion (5-4, 6-3), and the records it delivers (6-7, 11-5). -/

namespace Sys2Proof.Machine

/-! ## Delivery (R90 to R92, R106, R107, R111) -/

theorem routedEntries_eq_zero_iff (s : State) (p : Port) :
    s.routedEntries p = 0 ↔ ∀ q ∈ s.queue, q.route.get p = false := by
  simp only [State.routedEntries, List.length_eq_zero_iff, List.filter_eq_nil_iff, Bool.not_eq_true]

theorem reaches_eq (x : Ring) :
    x.reaches = decide (x.records.length < 64 ∧ x.records.length + 1 = x.threshold) := by
  rw [Bool.decide_and, ← beq_eq_decide (x.records.length + 1)]
  rfl

/-- The ring of one port after a completion has ended: its delivery, then the report to a DRAINING ring. -/
theorem endCompletion_ring (e : QueueEntry) (rest : List QueueEntry) (s : State) (p : Port) {d : Ring}
    (hd : d = if e.route.get p then (s.rings.get p).deliver (buildRecord e p) else s.rings.get p) :
    (endCompletion e rest s).rings.get p =
      if d.state = .draining ∧ ∀ q ∈ rest, q.route.get p = false then { d with state := .stopped } else d := by
  have hring : (deliver e s).rings.get p = d := (PerPort.get_ofFn _ p).trans hd.symm
  subst hring
  refine (PerPort.get_ofFn _ p).trans (if_congr (and_congr_right fun _ => ?_) rfl rfl)
  exact routedEntries_eq_zero_iff _ p

/-- The end of a completion outside the rings: the queue, the engine, the notices and the total. -/
theorem endCompletion_eq (e : QueueEntry) (rest : List QueueEntry) (s : State) :
    endCompletion e rest s = State.onCaptureTotals
      { s with
        queue := rest
        engine := if rest = [] then .idle else .completing s.time
        rings := (endCompletion e rest s).rings
        notices := (postWhere .ringOverflow (fun p => e.route.get p && decide (64 ≤ (s.rings.get p).records.length))
          (postWhere .ringData (fun p => e.route.get p && decide ((s.rings.get p).records.length < 64 ∧
            (s.rings.get p).records.length + 1 = (s.rings.get p).threshold)) s)).notices }
      (fun t => { t with completed := t.completed + 1 }) := by
  simp only [← reaches_eq]
  cases rest <;> rfl

theorem exec_completionEnd {s : State} {since : Time} {e : QueueEntry} {rest : List QueueEntry}
    (he : s.engine = .completing since) (hq : s.queue = e :: rest) :
    exec .completionEnd s = .next (endCompletion e rest s) := by
  simp only [exec, execCompletionEnd, he, hq, performed]

theorem exec_completionEnd_idle {s : State} (he : s.engine = .idle) : exec .completionEnd s = .next s := by
  simp only [exec, execCompletionEnd, he, performed]

/-- Settles O36: a completion's end outside the rings, and each ring. -/
theorem aCompletionDeliversTheOldestEntry : Obligations.ACompletionDeliversTheOldestEntry := by
  refine ⟨fun s since e rest he hq => ⟨(endCompletion e rest s).rings, ?_, ?_⟩, fun s => exec_completionEnd_idle⟩
  · rw [exec_completionEnd he hq]
    exact congrArg _ (endCompletion_eq e rest s)
  · rintro p x d rfl hd
    exact endCompletion_ring e rest s p hd

/-! ## Building a record (R91, R119 to R122) -/

theorem bothOf_map {α : Type} (f : Int × Int → α) (a b : Option Int) :
    (bothOf a b).map f = (match a, b with
      | some a, some b => some (f (a, b))
      | _, _ => none) := by
  cases a <;> cases b <;> rfl

theorem lineThrough_map (n : Snapshot) (o0 o1 : Origin) (f : Int → Int) :
    (n.lineThrough o0 o1).map f = (match n.chans.ch0.compValue o0, n.chans.ch1.compValue o1 with
      | some a, some b => some (f (lineOf a b))
      | _, _ => none) := by
  rw [Snapshot.lineThrough, Option.map_map, bothOf_map]
  rfl

/-- Only a LINE trigger has a deviation. -/
theorem deviationOf_eq (src : Source) (n : Snapshot) :
    deviationOf src n = (match src, n.frame with
      | .sequence _ _ (.line entry _), some f =>
        (match n.chans.ch0.compValue f.1, n.chans.ch1.compValue f.2 with
          | some a, some b => some (lineOf a b - entry.nominal.toInt)
          | _, _ => none)
      | _, _ => none) := by
  cases src with
  | sequence frame named fields =>
    cases fields with
    | line entry ordinal =>
      cases hframe : n.frame with
      | none => simp only [deviationOf, hframe]
      | some f => simp only [deviationOf, hframe, lineThrough_map]
    | _ => rfl
  | _ => rfl

/-- A record with the origins of its port written into it. -/
theorem buildRecord_eq {e : QueueEntry} {p : Port} {os : PerChan Origin} (h : e.snap.origins.get p = some os) :
    buildRecord e p =
      { number := e.number, source := e.source, time := e.snap.time
        chans := PerChan.ofFn (fun c => buildChan (e.snap.chans.get c) (os.get c))
        lineYaw := (bothOf (e.snap.chans.ch0.compValue os.ch0) (e.snap.chans.ch1.compValue os.ch1)).map
          (fun v => (lineOf v.1 v.2, yawOf v.1 v.2))
        deviation := deviationOf e.source e.snap } := by
  simp only [buildRecord, h, Option.getD_some]

/-! ## The length of a record (R119, R192) -/

/-- What a source adds to a record beyond the values of the channels: no more than six words. -/
theorem sourceWords_length (src : Source) (n : Snapshot) :
    (src.entry.toList.flatMap EntryRef.words).length + (src.ordinal.toList.map word).length +
      ((deviationOf src n).toList.flatMap twoWords).length + src.haltWords.length ≤ 6 := by
  have hdeviation : ((deviationOf src n).toList.flatMap twoWords).length ≤ 2 := by
    cases deviationOf src n with
    | none => exact Nat.zero_le 2
    | some v => exact Nat.le_refl 2
  have hentry (x : Option EntryRef) : (x.toList.flatMap EntryRef.words).length ≤ 3 := by
    cases x with
    | none => exact Nat.zero_le 3
    | some x => exact Nat.le_refl 3
  cases src with
  | sequence frame named fields =>
    cases fields with
    | line entry ordinal => exact Nat.add_le_add_left hdeviation 4
    | halt cause entry found missed stray lost => exact Nat.add_le_add_right (hentry entry) 3
    | _ => exact Nat.le_add_right 3 3
  | _ => exact Nat.zero_le 6

theorem values_length (f : RecordChan → Option Int) (r : Record) :
    ((r.blocks.filterMap f).flatMap twoWords).length ≤ 12 := by
  have hblocks : (r.blocks.filterMap f).length ≤ 6 := List.length_filterMap_le f r.blocks
  rw [flatMap_twoWords_length]
  omega

theorem optionalWords_length (e : QueueEntry) (p : Port) : (buildRecord e p).optionalWords.length ≤ 34 := by
  have hviews := values_length RecordChan.view (buildRecord e p)
  have hcomps := values_length RecordChan.comp (buildRecord e p)
  have hline : ((buildRecord e p).lineYaw.toList.flatMap (fun v => twoWords v.1 ++ twoWords v.2)).length ≤ 4 := by
    cases (buildRecord e p).lineYaw with
    | none => exact Nat.zero_le 4
    | some v => exact Nat.le_refl 4
  have hsource := sourceWords_length e.source e.snap
  have hfields : (buildRecord e p).source = e.source ∧ (buildRecord e p).deviation = deviationOf e.source e.snap :=
    ⟨rfl, rfl⟩
  simp only [Record.optionalWords, List.length_append, hfields.1, hfields.2]
  omega

theorem buildRecord_length (e : QueueEntry) (p : Port) :
    17 ≤ (buildRecord e p).words.length ∧ (buildRecord e p).words.length ≤ 51 := by
  have h := optionalWords_length e p
  rw [Record.words_length]
  omega

/-- The header, the channels' words and the optional part, the length in word 1 being that of the whole (R192). -/
theorem Record.words_parts (r : Record) :
    r.words =
      [word r.number.toNat, word (r.words.length + 256 * r.source.kindCode + 4096 * r.source.code +
        65536 * r.source.detail), word r.mask, word r.time.toNat, word (r.time.toNat / 2 ^ 32)] ++
      r.blocks.flatMap RecordChan.words ++ r.optionalWords := by
  rw [Record.words_length]
  rfl

/-- The low byte of a word is the number below 256 in it. -/
theorem word_lowByte {k n : Nat} (h : k < 256) : ((word (k + 256 * n)).extractLsb' 0 8).toNat = k := by
  simp only [word, BitVec.extractLsb'_toNat, BitVec.toNat_ofNat, Nat.shiftRight_zero]
  omega

theorem buildRecord_lowByte (e : QueueEntry) (p : Port) :
    ∃ w, (buildRecord e p).words[1]? = some w ∧ (w.extractLsb' 0 8).toNat = (buildRecord e p).words.length := by
  have h := (buildRecord_length e p).2
  generalize buildRecord e p = r at h
  refine ⟨_, congrArg (·[1]?) r.words_parts, ?_⟩
  have hlow : r.words.length + 256 * r.source.kindCode + 4096 * r.source.code + 65536 * r.source.detail =
      r.words.length + 256 * (r.source.kindCode + 16 * r.source.code + 256 * r.source.detail) := by omega
  rw [hlow]
  exact word_lowByte (by omega)

/-! ## The fields of word 1 and of the presence mask (R189, R192) -/

theorem source_codes (src : Source) :
    (src.code, src.detail) = (match src with
      | .input .det => (0, 0)
      | .input .aux0 => (1, 1)
      | .input .aux1 => (2, 2)
      | .compare slot owner shared => (3, slot.val + 32 * owner.num + if shared then 128 else 0)
      | .request q => (4, q.num)
      | .settle q m => (5, q.num + 256 * m.toNat)
      | .sequence frame _ _ => (6, frame.num)) := by
  cases src with
  | input i => cases i <;> rfl
  | compare slot owner shared => cases shared <;> rfl
  | _ => rfl

theorem source_fields (src : Source) :
    (src.kindCode, src.entry, src.ordinal, src.haltWords) = (match src with
      | .sequence _ _ (.line x n) => (1, some x, some n, [])
      | .sequence _ _ (.missed x) => (2, some x, none, [])
      | .sequence _ _ (.stray x) => (3, some x, none, [])
      | .sequence _ _ (.halt cause x found missed stray lost) => (4, x, none,
          [word (match cause with
            | .none => 0 | .ended => 1 | .stopped => 2 | .fault => 3 | .forced => 4 | .claimLost => 5),
           word (found + 2 ^ 16 * missed), word (stray + 2 ^ 16 * lost)])
      | _ => (0, none, none, [])) := by
  cases src with
  | sequence frame named fields => cases fields <;> rfl
  | _ => rfl

/-- The presence mask as a word: a bit for each channel's age, view and compensated value, then the record's five. -/
theorem mask_bits (r : Record) :
    (∀ c : Chan, (word r.mask).getLsbD c.num = (r.chans.get c).age.isSome ∧
      (word r.mask).getLsbD (6 + c.num) = (r.chans.get c).view.isSome ∧
      (word r.mask).getLsbD (12 + c.num) = (r.chans.get c).comp.isSome) ∧
    (word r.mask).getLsbD 18 = r.lineYaw.isSome ∧ (word r.mask).getLsbD 19 = r.source.entry.isSome ∧
    (word r.mask).getLsbD 20 = r.source.ordinal.isSome ∧ (word r.mask).getLsbD 21 = r.deviation.isSome ∧
    (word r.mask).getLsbD 22 = decide (r.source.haltWords ≠ []) ∧
    ∀ n, 23 ≤ n → (word r.mask).getLsbD n = false := by
  refine ⟨fun c => ?channel, r.mask_bit 18 (by decide), r.mask_bit 19 (by decide), r.mask_bit 20 (by decide),
    r.mask_bit 21 (by decide), (r.mask_bit 22 (by decide)).trans ?halt, fun n hn => ?above⟩
  case channel =>
    have hc := chanNum_lt c
    rw [r.mask_bit _ (by omega), r.mask_bit _ (by omega), r.mask_bit _ (by omega)]
    cases c <;> exact ⟨rfl, rfl, rfl⟩
  case halt =>
    show (!r.source.haltWords.isEmpty) = _
    cases r.source.haltWords <;> rfl
  case above =>
    rcases Nat.lt_or_ge n 32 with h | h
    · rw [r.mask_bit n h]
      exact List.getD_eq_default _ _ hn
    · exact BitVec.getLsbD_of_ge _ _ h

/-! ## The words and the bytes (R192) -/

theorem lineYaw_words (x : Option (Int × Int)) :
    x.toList.flatMap (fun v => twoWords v.1 ++ twoWords v.2) =
      (match x with
        | some (l, d) => twoWords l ++ twoWords d
        | none => []) := by
  cases x <;> rfl

theorem entry_words (x : Option EntryRef) :
    x.toList.flatMap EntryRef.words =
      (match x with
        | some x => word (x.index + 2 ^ 16 * x.tag.toNat) :: twoWords x.nominal.toInt
        | none => []) := by
  cases x <;> rfl

theorem ordinal_words (x : Option Nat) :
    x.toList.map word =
      (match x with
        | some n => [word n]
        | none => []) := by
  cases x <;> rfl

theorem deviation_words (x : Option Int) :
    x.toList.flatMap twoWords =
      (match x with
        | some d => twoWords d
        | none => []) := by
  cases x <;> rfl

/-- The pair of words of one channel. -/
theorem chan_words (b : RecordChan) :
    b.words =
      [word (b.epoch.toNat +
          2 ^ 16 * (match b.state with | .disabled => 0 | .acquiring => 1 | .tracking => 2 | .lost => 3) +
          2 ^ 18 * (match b.status with | .free => 0 | .bound => 1 | .stale => 2)),
       word (b.version.toNat + 2 ^ 16 * b.age.getD 0)] := by
  rw [RecordChan.words]
  cases b.state <;> cases b.status <;> rfl

theorem word_toNat (x : BitVec 32) : word x.toNat = x := by
  rw [word, BitVec.ofNat_toNat, BitVec.setWidth_eq]

/-- The words of a record, its optional fields each by whether it is present. -/
theorem Record.words_eq (r : Record) :
    r.words =
      [r.number, word (r.words.length + 2 ^ 8 * r.source.kindCode + 2 ^ 12 * r.source.code + 2 ^ 16 * r.source.detail),
        word r.mask, word r.time.toNat, word (r.time.toNat / 2 ^ 32)] ++
      r.blocks.flatMap (fun b =>
        [word (b.epoch.toNat +
            2 ^ 16 * (match b.state with | .disabled => 0 | .acquiring => 1 | .tracking => 2 | .lost => 3) +
            2 ^ 18 * (match b.status with | .free => 0 | .bound => 1 | .stale => 2)),
         word (b.version.toNat + 2 ^ 16 * b.age.getD 0)]) ++
      (r.blocks.filterMap RecordChan.view).flatMap twoWords ++ (r.blocks.filterMap RecordChan.comp).flatMap twoWords ++
      (match r.lineYaw with
        | some (l, d) => twoWords l ++ twoWords d
        | none => []) ++
      (match r.source.entry with
        | some x => word (x.index + 2 ^ 16 * x.tag.toNat) :: twoWords x.nominal.toInt
        | none => []) ++
      (match r.source.ordinal with
        | some n => [word n]
        | none => []) ++
      (match r.deviation with
        | some d => twoWords d
        | none => []) ++
      r.source.haltWords := by
  refine r.words_parts.trans ?_
  simp only [← lineYaw_words, ← entry_words, ← ordinal_words, ← deviation_words, ← chan_words]
  simp only [Record.optionalWords, word_toNat, List.append_assoc, Nat.reducePow]

theorem Record.bytes_eq (r : Record) :
    r.bytes = r.words.flatMap (fun x =>
      [x.extractLsb' 0 8, x.extractLsb' 8 8, x.extractLsb' 16 8, x.extractLsb' 24 8]) := by
  simp only [Record.bytes, leBytes_word]

/-- Settles O37: the record as it is built, its length, and its words by the fields of its source. -/
theorem recordsAreBuiltFromTheSnapshot : Obligations.RecordsAreBuiltFromTheSnapshot := by
  refine ⟨fun e p os hos => ?built, fun e p => ?length, ?words⟩
  case built =>
    rw [buildRecord_eq hos]
    refine ⟨_, PerChan.get_ofFn _, rfl, rfl, rfl, rfl, ?_, deviationOf_eq e.source e.snap⟩
    exact bothOf_map _ _ _
  case length =>
    obtain ⟨hlow, hhigh⟩ := buildRecord_length e p
    exact ⟨hlow, hhigh, buildRecord_lowByte e p⟩
  case words =>
    rintro e p r blocks w two kind source detail entry ordinal haltBlock hr rfl hw htwo hcodes hfields
    obtain rfl : w = word := funext hw
    obtain rfl : two = twoWords := funext fun x => (htwo x).trans (twoWords_eq x).symm
    have hsrc : e.source = r.source := by
      rw [hr]
      rfl
    rw [hsrc] at hcodes hfields
    replace hcodes := hcodes.trans (source_codes r.source).symm
    replace hfields := hfields.trans (source_fields r.source).symm
    simp only [Prod.mk.injEq] at hcodes hfields
    obtain ⟨rfl, rfl⟩ := hcodes
    obtain ⟨rfl, rfl, rfl, rfl⟩ := hfields
    obtain ⟨hchans, hline, hentry, hordinal, hdeviation, hhalt, habove⟩ := mask_bits r
    exact ⟨word r.mask, hchans, hline, hentry, hordinal, hdeviation, hhalt, habove, r.words_eq, r.bytes_eq⟩

end Sys2Proof.Machine
end

section
/-! PROOFS. The part while no command waits: which events are due, and in what order (log entry 1). -/

namespace Sys2Proof.Machine

/-! ## One idle step -/

theorem step_idle {s : State} (h : s.pending = []) : step s = .next (idleStep s) := by
  rw [step, h]

theorem idleStep_due {s : State} {e : Instr} {es : List Instr} (h : dueEvents s = e :: es) :
    idleStep s = { s with pending := e :: es } := by
  rw [idleStep, h]

theorem idleStep_tick {s : State} (h : dueEvents s = []) : idleStep s = tick s := by
  rw [idleStep, h]

/-! ## When each event is due -/

theorem stillDue_eq (t : StillTimer) (now : Time) :
    t.due now = (match t.state, t.timer with
      | .moving, some n => decide (1000 * n.toNat ≤ (now - t.loadTime).toNat)
      | _, _ => false) := by
  unfold StillTimer.due elapsed Config.settleUnit
  cases t.state with
  | moving =>
    cases t.timer with
    | none => rfl
    | some n => simp only [BEq.rfl, Bool.true_and, Nat.mul_comm]
  | _ => rfl

theorem pinDue_eq (s : State) (c : Chan) (p : Port) :
    s.pinDue c p = (match (s.comp.get c).pins.get p with
      | .timed start hold => decide (1000000 * hold.toNat ≤ (s.time - start).toNat)
      | _ => false) := by
  unfold State.pinDue elapsed Config.holdUnit
  cases (s.comp.get c).pins.get p with
  | timed start hold => simp only [Nat.mul_comm]
  | _ => rfl

theorem syncEvent_eq (s : State) :
    (if s.syncDue then [Instr.syncPulseEnd] else []) = (match s.sync with
      | some u => if 100 ≤ (s.time - u).toNat then [.syncPulseEnd] else []
      | none => []) := by
  unfold State.syncDue
  cases s.sync with
  | none => rfl
  | some u => exact if_congr decide_eq_true_iff rfl rfl

theorem completionEvent_eq (s : State) :
    (if s.completionDue then [Instr.completionEnd] else []) = (match s.engine with
      | .completing since => if 200 ≤ (s.time - since).toNat then [.completionEnd] else []
      | .idle => []) := by
  unfold State.completionDue
  cases s.engine with
  | idle => rfl
  | completing since => exact if_congr decide_eq_true_iff rfl rfl

theorem startUpDue_iff (s : State) :
    s.startUpDue = true ↔ ((s.links.get .p0).state = .starting ∨ (s.links.get .p1).state = .starting ∨
      (s.links.get .p2).state = .starting) ∧ 10000 ≤ s.time.toNat := by
  simp only [State.startUpDue, Port.all, List.any_cons, List.any_nil, Bool.or_false, Bool.and_eq_true,
    Bool.or_eq_true, beq_iff_eq, decide_eq_true_eq]
  rfl

/-- Settles O2: one idle step, and the due events kind by kind. -/
theorem anIdlePartServesDueEventsOrCountsOnePeriod : Obligations.AnIdlePartServesDueEventsOrCountsOnePeriod := by
  refine fun s hidle => ⟨fun e es hdue => ?served, fun hnone => ⟨_, ?passes, PerInput.get_ofFn _⟩, ?due⟩
  case served => rw [step_idle hidle, idleStep_due hdue]
  case passes =>
    rw [step_idle hidle, idleStep_tick hnone]
    rfl
  case due =>
    rw [dueEvents, dueStillness, duePins, syncEvent_eq, completionEvent_eq, if_congr (startUpDue_iff s) rfl rfl]
    simp only [stillDue_eq, funext (pinDue_eq s _)]
    rfl

end Sys2Proof.Machine
end

section
/-! PROOFS. The requests of a capture ring (6-4 to 6-6): the taking of each, case by case, and the statement about the
six that change the ring. -/

namespace Sys2Proof.Machine

/-! ## The ring of one port -/

theorem onRing_fixed {s : State} {p : Port} {f : Ring → Ring} (h : f (s.rings.get p) = s.rings.get p) :
    s.onRing p f = s := by
  simp only [State.onRing, PerPort.modify, h, PerPort.set_get]

/-! ## The state after STOP RING (R110) -/

theorem stoppedState_unrouted : stoppedState 0 .active = .stopped := rfl

theorem stoppedState_routed {n : Nat} (h : n ≠ 0) : stoppedState n .active = .draining := if_neg h

/-- A ring that is not ACTIVE keeps its state. -/
theorem stoppedState_inactive {st : RingState} (h : st ≠ .active) (n : Nat) : stoppedState n st = st := by
  cases st with
  | active => exact absurd rfl h
  | stopped | draining => rfl

/-! ## The policy byte of SET RING POLICY (R114) -/

theorem policyByte_code (pol : RingPolicy) (rest : List Byte) :
    ringPolicyOf (numAt (u8 pol.code ++ rest) 0 1) = some pol := by
  rw [u8, numAt_here]
  cases pol <;> rfl

theorem ringPolicyOf_none {n : Nat} (h : 2 ≤ n) : ringPolicyOf n = none := by
  obtain ⟨k, rfl⟩ := Nat.exists_eq_add_of_le' h
  rfl

/-! ## The takings -/

section
variable {p : Port} {b : List Byte} {s : State}

theorem takeStartRing_spelled (hb : b = []) :
    takeStartRing p b s =
      done (u8 (s.rings.get p).state.code) (s.onRing p (fun x => { x with state := .active })) := by
  rw [takeStartRing, if_pos (by rw [hb]; rfl)]

theorem takeStopRing_spelled {st : RingState} (hb : b = [])
    (hst : stoppedState (s.routedEntries p) (s.rings.get p).state = st) :
    takeStopRing p b s =
      done (u8 st.code ++ u8 (s.routedEntries p)) (s.onRing p (fun x => { x with state := st })) := by
  rw [takeStopRing, if_pos (by rw [hb]; rfl), hst]

/-- STOP RING of a ring that is not ACTIVE changes nothing. -/
theorem takeStopRing_inactive (hb : b = []) (hst : (s.rings.get p).state ≠ .active) :
    takeStopRing p b s = done (u8 (s.rings.get p).state.code ++ u8 (s.routedEntries p)) s := by
  rw [takeStopRing_spelled hb (stoppedState_inactive hst _), onRing_fixed rfl]

theorem takeClearRing_spelled (hb : b = []) :
    takeClearRing p b s = done (u8 (s.rings.get p).records.length)
      (s.onRing p (fun x => { x with records := [], drops := 0, overwrites := 0 })) := by
  rw [takeClearRing, if_pos (by rw [hb]; rfl)]

theorem takeSetRingPolicy_policy {pol : RingPolicy} {n : Byte} (hb : b = u8 pol.code ++ [n]) :
    takeSetRingPolicy p b s =
      if 1 ≤ n.toNat ∧ n.toNat ≤ 64 then
        done (u8 (s.rings.get p).policy.code ++ u8 (s.rings.get p).threshold)
          (s.onRing p (fun x => { x with policy := pol, threshold := n.toNat }))
      else badValue s := by
  have hpol : ringPolicyOf (numAt b 0 1) = some pol := by
    rw [hb]
    exact policyByte_code pol _
  have hn : numAt b 1 1 = n.toNat := by
    rw [hb]
    exact numAt_byte n []
  rw [takeSetRingPolicy, if_pos (by rw [hb]; rfl), hpol]
  dsimp only
  rw [hn]

theorem takeSetRingPolicy_noPolicy {pol n : Byte} (hb : b = [pol, n]) (hpol : 2 ≤ pol.toNat) :
    takeSetRingPolicy p b s = badValue s := by
  have hbyte : numAt b 0 1 = pol.toNat := by rw [hb, numAt_byte]
  rw [takeSetRingPolicy, if_pos (by rw [hb]; rfl), hbyte, ringPolicyOf_none hpol]

theorem takeSetSubscription_spelled {m : Byte} (hb : b = [m]) :
    takeSetSubscription p b s =
      if m.toNat < 32 then
        done (u8 (s.subs.get p).toNat) { s with subs := s.subs.set p (m.setWidth 5) }
      else badValue s := by
  have hm : numAt b 0 1 = m.toNat := by rw [hb, numAt_byte]
  rw [takeSetSubscription, if_pos (by rw [hb]; rfl), hm]
  dsimp only
  rw [BitVec.ofNat_toNat]

theorem takeTakeRecords_spelled {n : Byte} (hb : b = [n]) :
    takeTakeRecords p b s =
      if 1 ≤ n.toNat ∧ n.toNat ≤ 8 then
        done (u8 ((s.rings.get p).records.length - n.toNat) ++ u8 (min n.toNat (s.rings.get p).records.length) ++
            [0, 0] ++ ((s.rings.get p).records.take n.toNat).flatMap Record.bytes)
          (s.onRing p (fun x => { x with records := x.records.drop n.toNat }))
      else badValue s := by
  have hn : numAt b 0 1 = n.toNat := by rw [hb, numAt_byte]
  rw [takeTakeRecords, if_pos (by rw [hb]; rfl), hn]
  dsimp only
  rw [recordsBytes, List.length_drop, List.length_take]

end

/-- Settles O38: each request by its taking, a refusal where a field leaves its range. -/
theorem ringRequestsChangeTheirOwnRing : Obligations.RingRequestsChangeTheirOwnRing := by
  rintro r s x routedNow hr rfl hrouted
  have hcount : s.routedEntries r.port = routedNow := hrouted.symm
  refine ⟨fun hp => ⟨?start, fun hst hzero => ?stopped, fun hst hsome => ?draining, fun hst => ?inactive, ?clear⟩,
    fun pol n hp => ⟨fun hn => ?policy, fun hn => ?threshold⟩, fun pol n hp hpol => ?noPolicy,
    fun m hp => ⟨fun hm => ?subscription, fun hm => ?noSource⟩, fun n hp => ⟨fun hn => ?taken, fun hn => ?count⟩⟩
  case start =>
    exact exec_answers (k := .startRing) (by decide) hr (takeStartRing_spelled hp)
  case stopped =>
    have hstate : stoppedState (s.routedEntries r.port) (s.rings.get r.port).state = .stopped := by
      rw [hst, hcount, hzero, stoppedState_unrouted]
    have htaken := takeStopRing_spelled hp hstate
    rw [hcount, hzero] at htaken
    exact exec_answers (k := .stopRing) (by decide) hr htaken
  case draining =>
    have hstate : stoppedState (s.routedEntries r.port) (s.rings.get r.port).state = .draining := by
      rw [hst, hcount, stoppedState_routed hsome]
    have htaken := takeStopRing_spelled hp hstate
    rw [hcount] at htaken
    exact exec_answers (k := .stopRing) (by decide) hr htaken
  case inactive =>
    have htaken := takeStopRing_inactive hp hst
    rw [hcount] at htaken
    exact exec_answers (k := .stopRing) (by decide) hr htaken
  case clear =>
    exact exec_answers (k := .clearRing) (by decide) hr (takeClearRing_spelled hp)
  case policy =>
    exact exec_answers (k := .setRingPolicy) (by decide) hr ((takeSetRingPolicy_policy hp).trans (if_pos hn))
  case threshold =>
    exact exec_answers (k := .setRingPolicy) (by decide) hr ((takeSetRingPolicy_policy hp).trans (if_neg hn))
  case noPolicy =>
    exact exec_answers (k := .setRingPolicy) (by decide) hr (takeSetRingPolicy_noPolicy hp hpol)
  case subscription =>
    exact exec_answers (k := .setSubscription) (by decide) hr ((takeSetSubscription_spelled hp).trans (if_pos hm))
  case noSource =>
    exact exec_answers (k := .setSubscription) (by decide) hr
      ((takeSetSubscription_spelled hp).trans (if_neg (Nat.not_lt.2 hm)))
  case taken =>
    exact exec_answers (k := .takeRecords) (by decide) hr ((takeTakeRecords_spelled hp).trans (if_pos hn))
  case count =>
    exact exec_answers (k := .takeRecords) (by decide) hr ((takeTakeRecords_spelled hp).trans (if_neg hn))

end Sys2Proof.Machine
end

section
/-! PROOFS. PEEK RECORDS, READ RING STATUS and READ CAPTURE STATUS (5-9, 6-6): the taking of each, and the fields of the
two status blocks. -/

namespace Sys2Proof.Machine

/-! ## Conditional fields and codes of the status blocks (R99, R118) -/

/-- The oldest and the newest capture number of a ring: both stand there or neither does. -/
theorem endNumbers_fields (rs : List Record) :
    optional 4 u32 (rs.head?.map (fun x => x.number.toNat)) ++
        optional 4 u32 (rs.getLast?.map (fun x => x.number.toNat)) =
      match rs.head?, rs.getLast? with
      | some a, some b => u8 1 ++ u32 a.number.toNat ++ u8 1 ++ u32 b.number.toNat
      | _, _ => u8 0 ++ u32 0 ++ u8 0 ++ u32 0 := by
  cases rs with
  | nil => rfl
  | cons a rest =>
    rw [List.getLast?_cons]
    rfl

theorem oldestNumber_field (queue : List QueueEntry) :
    optional 4 u32 (queue.head?.map (fun e => e.number.toNat)) =
      match queue with
      | [] => u8 0 ++ u32 0
      | e :: _ => u8 1 ++ u32 e.number.toNat := by
  cases queue <;> rfl

theorem armMask_field (arm : Option ChanMask) :
    optional 1 (fun m : ChanMask => u8 m.toNat) arm =
      match arm with
      | none => u8 0 ++ u8 0
      | some m => u8 1 ++ u8 m.toNat := by
  cases arm <;> rfl

theorem engineCode_eq (e : EngineState) : e.code = if e = .idle then 0 else 1 := by
  cases e with
  | idle => rfl
  | completing since => exact (if_neg nofun).symm

theorem isSome_toNat {α : Type} [DecidableEq α] (o : Option α) : o.isSome.toNat = if o = none then 0 else 1 := by
  cases o with
  | none => rfl
  | some a => exact (if_neg nofun).symm

theorem inputBytes_eq (t : TrigInput) :
    inputBytes t = flag t.enabled ++ u8 (edgeCode t.edge) ++ u16 t.holdOff.toNat ++
      u8 (if t.holdOffUntil = none then 0 else 1) := by
  rw [inputBytes, isSome_toNat]

theorem syncFlag_eq (sync : Option Time) : flag sync.isSome = flag (decide (sync ≠ none)) := by
  cases sync <;> rfl

/-! ## The takings -/

section
variable {p : Port} {b : List Byte} {s : State}

theorem takePeekRecords_spelled {start n : Byte} (hb : b = [start, n]) :
    takePeekRecords p b s =
      if start.toNat ≤ 63 ∧ 1 ≤ n.toNat ∧ n.toNat ≤ 8 then
        done (u8 (s.rings.get p).records.length ++
          u8 (min n.toNat ((s.rings.get p).records.length - start.toNat)) ++ [0, 0] ++
          (((s.rings.get p).records.drop start.toNat).take n.toNat).flatMap Record.bytes) s
      else badValue s := by
  have hstart : numAt b 0 1 = start.toNat := by rw [hb, numAt_byte]
  have hn : numAt b 1 1 = n.toNat := by rw [hb, numAt_pastByte, numAt_byte]
  rw [takePeekRecords, if_pos (by rw [hb]; rfl), hstart, hn]
  dsimp only
  rw [recordsBytes, List.length_take, List.length_drop]

theorem takeReadRingStatus_spelled {x : Ring} (hb : b = []) (hx : x = s.rings.get p) :
    takeReadRingStatus p b s =
      done (u8 x.state.code ++ u8 x.records.length ++ u8 x.policy.code ++ u8 x.threshold ++ u16 x.drops ++
        u16 x.overwrites ++ u8 (s.subs.get p).toNat ++ u8 (s.routedEntries p) ++
        (optional 4 u32 (x.records.head?.map (fun y => y.number.toNat)) ++
          optional 4 u32 (x.records.getLast?.map (fun y => y.number.toNat)))) s := by
  rw [takeReadRingStatus, if_pos (by rw [hb]; rfl), hx, ← List.append_assoc]

theorem takeReadCaptureStatus_spelled (hb : b = []) :
    takeReadCaptureStatus p b s =
      done (u64 s.time.toNat ++ inputBytes s.inputs.det ++ inputBytes s.inputs.aux0 ++ inputBytes s.inputs.aux1 ++
        u8 s.queue.length ++ u8 s.engine.code ++ optional 4 u32 (s.queue.head?.map (fun e => e.number.toNat)) ++
        u32 s.nextNumber.toNat ++ optional 1 (fun m : ChanMask => u8 m.toNat) (s.arms.get p) ++
        flag s.sync.isSome) s := by
  rw [takeReadCaptureStatus, if_pos (by rw [hb]; rfl)]

end

/-- Settles O39: each read by its taking, its block field by field. -/
theorem captureAndRingReadsReturnTheirFields : Obligations.CaptureAndRingReadsReturnTheirFields := by
  refine ⟨fun r s start n x hr hp hx => ⟨fun hn => ?peeked, fun hn => ?refused⟩, fun r s x hr hp hx => ?ringStatus,
    fun r s inp hr hp hinp => ?captureStatus⟩
  case peeked =>
    subst hx
    exact exec_answers (k := .peekRecords) (by decide) hr ((takePeekRecords_spelled hp).trans (if_pos hn))
  case refused =>
    exact exec_answers (k := .peekRecords) (by decide) hr ((takePeekRecords_spelled hp).trans (if_neg hn))
  case ringStatus =>
    have htaken := takeReadRingStatus_spelled hp hx
    rw [endNumbers_fields] at htaken
    exact exec_answers (k := .readRingStatus) (by decide) hr htaken
  case captureStatus =>
    have hinput (t : TrigInput) : inputBytes t = inp t := (inputBytes_eq t).trans (hinp t).symm
    have htaken := takeReadCaptureStatus_spelled (p := r.port) (s := s) hp
    rw [hinput, hinput, hinput, engineCode_eq, oldestNumber_field, armMask_field, syncFlag_eq] at htaken
    exact exec_answers (k := .readCaptureStatus) (by decide) hr htaken

end Sys2Proof.Machine
end

section
/-! PROOFS. The scan of the line sequencer (7-5 to 7-8): what every step keeps of it, the DET pulses, the evaluation of
the windows, and the halt. -/

namespace Sys2Proof.Machine

/-! ## Invariants (R125, R133, R134, R137) -/

theorem scanHolds_reset : ScanHolds State.reset := by
  refine ⟨by decide, by decide, fun c p => ?_, nofun, nofun, by decide⟩
  dsimp only [State.reset]
  rw [PerChan.get_const]
  dsimp only [CompEntry.reset]
  rw [PerPort.get_const]
  exact ⟨nofun, fun h => absurd h.1 (by decide)⟩

theorem decisionsHold_reset : DecisionsHold State.reset := nofun

theorem step_keeps_scan {s t : State} (hs : ScanHolds s) (h : step s = .next t) : ScanHolds t :=
  step_keeps (I := ScanHolds) (fun _ _ _ k => k) effect_keeps_scan (fun _ k => k) scanHolds_reset (fun _ _ k => k) hs h

theorem step_keeps_decisions {s t : State} (hs : DecisionsHold s) (h : step s = .next t) : DecisionsHold t :=
  step_keeps (I := DecisionsHold) (fun _ _ _ k => k) effect_keeps_decisions (fun _ k => k) decisionsHold_reset
    (fun _ _ k => k) hs h

/-- The sequencer stands later in the scan that it was in: nothing a scan is started with has changed, and the current
index has moved in the scan direction alone. -/
def Sequencer.SameScan (q r : Sequencer) : Prop :=
  r.claimant = q.claimant ∧ r.dir = q.dir ∧ r.first = q.first ∧ r.lines = q.lines ∧
  (q.dir = .forward → q.current ≤ r.current) ∧ (q.dir = .reverse → r.current ≤ q.current)

/-- An effect that finds a scan TRACKING and leaves one TRACKING stays in it: a scan starts only outside TRACKING, and
every other act on the claim or the list ends outside TRACKING. -/
theorem SeqAct.sameScan {s t : State} (h : SeqAct s t) (hs : s.seq.state = .tracking) (ht : t.seq.state = .tracking) :
    s.seq.SameScan t.seq := by
  have off {q : Sequencer} (e : t.seq = q) (hq : q.state ≠ .tracking) : s.seq.SameScan t.seq :=
    absurd (e ▸ ht) hq
  cases h with
  | moves hm => exact hm.sameScan
  | claim p _ e => exact off e nofun
  | ended q _ e => exact off e nofun
  | load p es _ _ _ e => exact off e nofun
  | clear p _ _ e => exact off e nofun
  | start p dir first strays w _ hnot _ _ => exact absurd hs hnot

/-- What one step can do at the sequencer: an effect's act, or a device reset. -/
theorem step_seqAct {s t : State} (h : step s = .next t) : SeqAct s t ∨ t.seq = Sequencer.reset := by
  have kept {u : State} (hu : u.seq = s.seq) : SeqAct s u := .moves (hu ▸ .refl _)
  unfold step at h
  split at h
  next c rest _ =>
    obtain ⟨u, hu, hk⟩ := exec_acts c { s with pending := rest }
    rw [hu] at h
    cases h
    rcases hk with ⟨L, v, L', hv, rfl⟩ | rfl
    · cases hv.seqAct with
      | moves hm => exact .inl (.moves hm)
      | claim p hc e => exact .inl (.claim p hc e)
      | ended q hm e => exact .inl (.ended q hm e)
      | load p es hc hn hl e => exact .inl (.load p es hc hn hl e)
      | clear p hc hn e => exact .inl (.clear p hc hn e)
      | start p dir first strays w hc hn hf e => exact .inl (.start p dir first strays w hc hn hf e)
    · exact .inr rfl
  next =>
    cases h
    unfold idleStep
    split
    · exact .inl (kept rfl)
    · exact .inl (kept rfl)

/-- Settles O7: every effect keeps the two invariants and stays in the scan it finds, and so do the tick and a device
reset. -/
theorem everyStepKeepsTheScanBackedAndItsDecisionsCounted :
    Obligations.EveryStepKeepsTheScanBackedAndItsDecisionsCounted := by
  refine ⟨fun _ _ => step_keeps_scan, fun _ _ => step_keeps_decisions, fun s t h hs ht => ?_⟩
  rcases step_seqAct h with hact | hreset
  · exact hact.sameScan hs ht
  · rw [hreset] at ht
    exact absurd ht (by decide)

/-! ## DET pulses (R139, R140) -/

theorem currentRef_of_line {q : Sequencer} {e : LineEntry} (h : q.lines[q.current]? = some e) :
    q.currentRef = some ⟨q.current, e.tag, e.nominal⟩ := by
  rw [Sequencer.currentRef, h]
  rfl

section
variable {s : State} {p : Port} {entry : EntryRef}

theorem sequencerEdge_opened (hp : s.seq.claimant = some p) (he : s.seq.currentRef = some entry)
    (hw : s.seq.window = .opened) : sequencerEdge s = linePulse p entry s := by
  simp only [sequencerEdge, hp, he, hw]

theorem sequencerEdge_before (hp : s.seq.claimant = some p) (he : s.seq.currentRef = some entry)
    (hw : s.seq.window = .before) : sequencerEdge s = strayPulse p entry s := by
  simp only [sequencerEdge, hp, he, hw]

end

/-- Settles O40: the window decides between a LINE decision and a stray. -/
theorem detPulsesAreLinesOrStrays : Obligations.DetPulsesAreLinesOrStrays := by
  intro s p e entry hp hline hentry
  have href : s.seq.currentRef = some entry := (currentRef_of_line hline).trans (congrArg some hentry.symm)
  refine ⟨fun hw => ⟨_, rfl, ?_⟩, fun hw => ⟨_, rfl, ?_⟩⟩
  · exact sequencerEdge_opened hp href hw
  · exact sequencerEdge_before hp href hw

/-! ## Windows (R135 to R138) -/

theorem nextIndex_forward_some {q : Sequencer} (hd : q.dir = .forward) (h : q.current + 1 < q.lines.length) :
    q.nextIndex = some (q.current + 1) := by
  simp only [Sequencer.nextIndex, hd, if_pos h]

theorem nextIndex_forward_none {q : Sequencer} (hd : q.dir = .forward) (h : q.lines.length ≤ q.current + 1) :
    q.nextIndex = none := by
  simp only [Sequencer.nextIndex, hd, if_neg (Nat.not_lt.2 h)]

theorem nextIndex_reverse_some {q : Sequencer} (hd : q.dir = .reverse) (h : q.current ≠ 0) :
    q.nextIndex = some (q.current - 1) := by
  simp only [Sequencer.nextIndex, hd, if_neg h]

theorem nextIndex_reverse_none {q : Sequencer} (hd : q.dir = .reverse) (h : q.current = 0) : q.nextIndex = none := by
  simp only [Sequencer.nextIndex, hd, if_pos h]

/-- The next entry is in the list, and the scan has fewer entries before it than the list holds. -/
theorem nextIndex_bounds {q : Sequencer} {j : Nat} (h : q.nextIndex = some j) (hc : q.current < q.lines.length) :
    j < q.lines.length ∧ Sequencer.left { q with current := j, pulses := 0 } ≤ q.lines.length := by
  unfold Sequencer.left
  unfold Sequencer.nextIndex at h
  cases hd : q.dir with
  | forward =>
    rw [hd] at h
    dsimp only at h ⊢
    split at h <;> cases h
    omega
  | reverse =>
    rw [hd] at h
    dsimp only at h ⊢
    split at h <;> cases h
    omega

section
variable {e : LineEntry} {n : Nat} {p : Port} {s u : State} {x near far : Int}

/-- One evaluation before the window. -/
theorem evalWindow_before (he : u.seq.lines[u.seq.current]? = some e) (hw : WindowEdges u.seq.dir e near far)
    (h : x < near) : evalWindow p (n + 1) x u = u.onSeq (fun q => { q with window := .before }) := by
  obtain ⟨hnear, hfar⟩ := windowEdges_eq hw
  have hle : near ≤ far := by
    rw [← hnear, ← hfar]
    cases u.seq.dir <;> simp only [LineEntry.near, LineEntry.far, LineEntry.low, LineEntry.high] <;> omega
  simp only [evalWindow, he, hnear, hfar]
  rw [if_neg (by omega), if_neg (by omega)]

/-- One evaluation within the window. -/
theorem evalWindow_within (he : u.seq.lines[u.seq.current]? = some e) (hw : WindowEdges u.seq.dir e near far)
    (h : near ≤ x ∧ x ≤ far) : evalWindow p (n + 1) x u = u.onSeq (fun q => { q with window := .opened }) := by
  obtain ⟨hnear, hfar⟩ := windowEdges_eq hw
  simp only [evalWindow, he, hnear, hfar]
  rw [if_neg (by omega), if_pos h.1]

/-- One evaluation beyond the last window. -/
theorem evalWindow_exhausted (he : u.seq.lines[u.seq.current]? = some e) (hw : WindowEdges u.seq.dir e near far)
    (h : far < x) (hnext : u.seq.nextIndex = none) :
    evalWindow p (n + 1) x u = halt .ended (passEntry p ⟨u.seq.current, e.tag, e.nominal⟩ u) := by
  simp only [evalWindow, he, (windowEdges_eq hw).2, if_pos h, hnext]

/-- One evaluation beyond a window that is not the last: the next entry is evaluated with the repetitions that are left,
which are as good as one for every entry. -/
theorem evalWindow_advance {j : Nat} (he : u.seq.lines[u.seq.current]? = some e)
    (hw : WindowEdges u.seq.dir e near far) (h : far < x) (hn : n = u.seq.lines.length)
    (hnext : u.seq.nextIndex = some j) :
    evalWindow p (n + 1) x u = evalWindow p (n + 1) x ((passEntry p ⟨u.seq.current, e.tag, e.nominal⟩ u).onSeq
      (fun q => { q with current := j, pulses := 0 })) := by
  have hcurrent : u.seq.current < u.seq.lines.length := (List.getElem?_eq_some_iff.1 he).1
  obtain ⟨hj, hleft⟩ := nextIndex_bounds hnext hcurrent
  obtain ⟨k, hk⟩ := passEntry_seq p ⟨u.seq.current, e.tag, e.nominal⟩ u
  have hstep : evalWindow p (n + 1) x u = evalWindow p n x
      ((passEntry p ⟨u.seq.current, e.tag, e.nominal⟩ u).onSeq (fun q => { q with current := j, pulses := 0 })) := by
    simp only [evalWindow, he, (windowEdges_eq hw).2, if_pos h, hnext]
  rw [hstep]
  generalize passEntry p ⟨u.seq.current, e.tag, e.nominal⟩ u = v at hk
  have hbound : (v.onSeq (fun q => { q with current := j, pulses := 0 })).seq.left ≤ n := by
    rw [hn, onSeq_seq, hk]
    exact hleft
  refine evalWindow_fuel p x n (n + 1) _ hbound (Nat.le_succ_of_le hbound) ?_
  rw [onSeq_seq, hk]
  exact hj

theorem sequencerUpdate_idle (h : s.seq.state ≠ .tracking) : sequencerUpdate s = s := if_neg h

theorem sequencerUpdate_noLine (ht : s.seq.state = .tracking) (hp : s.seq.claimant = some p) (hl : s.line p = none) :
    sequencerUpdate s = s := by
  simp only [sequencerUpdate, if_pos ht, hp, hl]

theorem sequencerUpdate_line {l : Int} (ht : s.seq.state = .tracking) (hp : s.seq.claimant = some p)
    (hl : s.line p = some l) :
    sequencerUpdate s = evalWindow p (s.seq.lines.length + 1) (scanCoord s.seq.dir l) s := by
  simp only [sequencerUpdate, if_pos ht, hp, hl]

end

/-- Settles O41: one evaluation for each place of the scan coordinate, and beyond a window one for each end of the
list. -/
theorem windowsAreEvaluatedUntilStable : Obligations.WindowsAreEvaluatedUntilStable := by
  intro s p ev hev
  refine ⟨sequencerUpdate_idle, sequencerUpdate_noLine, fun l ht hp hl => ⟨fun hd => ?forward, fun hd => ?reverse⟩,
    fun u e x near far hlines he hw => ?window⟩
  case forward | reverse =>
    rw [sequencerUpdate_line ht hp hl, hd, hev]
    rfl
  case window =>
    have hn : s.seq.lines.length = u.seq.lines.length := by rw [hlines]
    simp only [hev]
    refine ⟨evalWindow_before he hw, evalWindow_within he hw,
      fun hx => ⟨_, rfl, fun hd hnext => ?_, fun hd hend => ?_, fun hd hnext => ?_, fun hd hend => ?_⟩⟩
    · exact evalWindow_advance he hw hx hn (nextIndex_forward_some hd hnext)
    · exact evalWindow_exhausted he hw hx (nextIndex_forward_none hd hend)
    · exact evalWindow_advance he hw hx hn (nextIndex_reverse_some hd hnext)
    · exact evalWindow_exhausted he hw hx (nextIndex_reverse_none hd hend)

/-! ## The halt (R142, R144) -/

theorem haltNamed_eq (cause : HaltCause) (p : Port) :
    haltNamed cause p = if cause = .forced ∨ cause = .claimLost then none else some p := by
  cases cause <;> rfl

theorem haltEntry_eq (cause : HaltCause) (q : Sequencer) :
    haltEntry cause q = if cause = .ended then none
      else (q.lines[q.current]?).map (fun e => ⟨q.current, e.tag, e.nominal⟩) := by
  cases cause <;> rfl

theorem halt_of_claimant {cause : HaltCause} {s u : State} {p : Port} (hp : s.seq.claimant = some p)
    (hu : u = hand (haltSource cause p (removePins p [.ch0, .ch1] s).seq) (removePins p [.ch0, .ch1] s)) :
    halt cause s =
      { u with
        seq := { u.seq with state := .halted, cause := cause }
        notices := (postWhere .scanHalted
          (fun q => haltNamed cause p == some q || u.subscribes q subSequence) u).notices
        totals := if cause = .fault
          then { u.totals with seq := { u.totals.seq with fault := u.totals.seq.fault + 1 } } else u.totals } := by
  simp only [halt, hp, ← hu]
  split <;> rfl

/-- Settles O42: the halt as it stands, with the sequencer and the subscriptions as they were before the pins went. -/
theorem aHaltUnpinsReportsAndStoresItsCause : Obligations.AHaltUnpinsReportsAndStoresItsCause := by
  intro cause s p named entry _ hp hnamed hentry
  obtain ⟨u, hu⟩ : ∃ u, u = hand (.sequence p named (.halt cause entry s.seq.found s.seq.missed s.seq.stray s.seq.lost))
    (removePins p [.ch0, .ch1] s) := ⟨_, rfl⟩
  have hpins := removePins_storeOnly p [.ch0, .ch1] s
  have hsource : .sequence p named (.halt cause entry s.seq.found s.seq.missed s.seq.stray s.seq.lost) =
      haltSource cause p (removePins p [.ch0, .ch1] s).seq := by
    rw [hpins.seq, haltSource, haltNamed_eq, haltEntry_eq, hnamed, hentry]
  have hsubs : u.subs = s.subs := by
    rw [hu, (hand_scene _ _).subs, hpins.scene.subs]
  have hposted : (fun q => haltNamed cause p == some q || u.subscribes q subSequence) =
      fun q => decide (named = some q) || (s.subs.get q).getLsbD 4 := by
    funext q
    rw [State.subscribes, hsubs, haltNamed_eq, ← hnamed, beq_eq_decide]
    rfl
  refine ⟨u, hu, ?_⟩
  rw [halt_of_claimant hp (hsource ▸ hu), hposted]

end Sys2Proof.Machine
end

section
/-! PROOFS. The claim and the line list (7-2, 7-3): the taking of CLAIM, RELEASE and FORCE RELEASE and of LOAD and CLEAR
LINES, case by case. -/

namespace Sys2Proof.Machine

/-! ## The claim (R125 to R127) -/

theorem haltIfScanning_tracking {s : State} (cause : HaltCause) (h : s.seq.state = .tracking) :
    haltIfScanning cause s = halt cause s := if_pos (beq_iff_eq.2 h)

theorem haltIfScanning_idle {s : State} (cause : HaltCause) (h : s.seq.state ≠ .tracking) :
    haltIfScanning cause s = s := if_neg (fun hb => h (beq_iff_eq.1 hb))

theorem scanning_true {s : State} (h : s.seq.state = .tracking) : s.scanning = true := beq_iff_eq.2 h

theorem scanning_false {s : State} (h : s.seq.state ≠ .tracking) : s.scanning = false := beq_eq_false_iff_ne.2 h

section
variable {b : List Byte} {p q : Port} {s : State}

theorem takeClaimSequencer_free (hb : b = []) (h : s.seq.claimant = none) :
    takeClaimSequencer p b s =
      done (u8 0) (tellOthers p (s.onSeq (fun x => { x with state := .loading, claimant := some p }))) := by
  rw [takeClaimSequencer, if_pos (by rw [hb]; rfl), h]
  rfl

theorem takeClaimSequencer_own (hb : b = []) (h : s.seq.claimant = some p) :
    takeClaimSequencer p b s = done (u8 1) s := by
  rw [takeClaimSequencer, if_pos (by rw [hb]; rfl), h]
  exact if_pos rfl

theorem takeClaimSequencer_other (hb : b = []) (h : s.seq.claimant = some q) (hq : q ≠ p) :
    takeClaimSequencer p b s = refuse .claimed (u8 q.num) s := by
  rw [takeClaimSequencer, if_pos (by rw [hb]; rfl), h]
  exact if_neg hq

theorem takeReleaseSequencer_own (hb : b = []) (h : s.seq.claimant = some p) :
    takeReleaseSequencer p b s =
      done (flag s.scanning) (tellOthers p (endClaim (haltIfScanning .stopped s))) := by
  rw [takeReleaseSequencer, if_pos (by rw [hb]; rfl), if_pos h]
  rfl

theorem takeReleaseSequencer_notOwn (hb : b = []) (h : s.seq.claimant ≠ some p) :
    takeReleaseSequencer p b s = refuse .notClaimant [] s := by
  rw [takeReleaseSequencer, if_pos (by rw [hb]; rfl), if_neg h]

theorem takeForceRelease_free (hb : b = []) (h : s.seq.claimant = none) :
    takeForceRelease p b s = refuse .state [] s := by
  rw [takeForceRelease, if_pos (by rw [hb]; rfl), h]

theorem takeForceRelease_own (hb : b = []) (h : s.seq.claimant = some p) :
    takeForceRelease p b s = refuse .state [] s := by
  rw [takeForceRelease, if_pos (by rw [hb]; rfl), h]
  exact if_pos rfl

theorem takeForceRelease_other (hb : b = []) (h : s.seq.claimant = some q) (hq : q ≠ p) :
    takeForceRelease p b s = done (u8 q.num ++ flag s.scanning)
      (postAll .scanHalted (post .claimLost q (endClaim (haltIfScanning .forced s)))) := by
  rw [takeForceRelease, if_pos (by rw [hb]; rfl), h]
  exact if_neg hq

end

/-- Settles O44: each request by its taking, for no claimant, the requester, and another port. -/
theorem theClaimIsTakenReleasedAndForced : Obligations.TheClaimIsTakenReleasedAndForced := by
  intro r s ended hr hp hended
  obtain rfl : ended = endClaim := funext hended
  have claims {st : Status} {d : List Byte} {t : State}
      (h : takeClaimSequencer r.port r.payload s = .answered ⟨st, d⟩ t) :=
    exec_answers (k := .claimSequencer) (by decide) hr h
  have releases {st : Status} {d : List Byte} {t : State}
      (h : takeReleaseSequencer r.port r.payload s = .answered ⟨st, d⟩ t) :=
    exec_answers (k := .releaseSequencer) (by decide) hr h
  have forces {st : Status} {d : List Byte} {t : State}
      (h : takeForceRelease r.port r.payload s = .answered ⟨st, d⟩ t) :=
    exec_answers (k := .forceRelease) (by decide) hr h
  refine ⟨fun hc => ⟨?_, ?_, ?_⟩, fun hc => ⟨?_, ?_, fun ht => ?_, fun ht => ?_⟩,
    fun q hc hq => ⟨?_, ?_, fun ht => ?_, fun ht => ?_⟩⟩
  · exact claims (takeClaimSequencer_free hp hc)
  · exact releases (takeReleaseSequencer_notOwn hp (by rw [hc]; nofun))
  · exact forces (takeForceRelease_free hp hc)
  · exact claims (takeClaimSequencer_own hp hc)
  · exact forces (takeForceRelease_own hp hc)
  · have htaken := takeReleaseSequencer_own hp hc
    rw [scanning_true ht, haltIfScanning_tracking _ ht] at htaken
    exact releases htaken
  · have htaken := takeReleaseSequencer_own hp hc
    rw [scanning_false ht, haltIfScanning_idle _ ht] at htaken
    exact releases htaken
  · exact claims (takeClaimSequencer_other hp hc hq)
  · exact releases (takeReleaseSequencer_notOwn hp (by rw [hc]; exact fun h => hq (Option.some.inj h)))
  · have htaken := takeForceRelease_other hp hc hq
    rw [scanning_true ht, haltIfScanning_tracking _ ht] at htaken
    exact forces htaken
  · have htaken := takeForceRelease_other hp hc hq
    rw [scanning_false ht, haltIfScanning_idle _ ht] at htaken
    exact forces htaken

/-! ## The line list (R129, R130, R191) -/

section
variable {b : List Byte} {es : List LineEntry} {i : Nat} {p : Port} {s : State}

/-- The entry count of a LOAD LINES payload, and the length that it asks for. -/
theorem loadLines_spelled (hlt : es.length < 256) (hb : b = u8 es.length ++ es.flatMap LineEntry.bytes) :
    numAt b 0 1 = es.length ∧ b.length = 1 + 11 * es.length := by
  subst hb
  refine ⟨?_, ?_⟩
  · rw [u8, numAt_here]
    exact Nat.mod_eq_of_lt hlt
  · rw [List.length_append, lineEntries_length]
    rfl

theorem takeLoadLines_unfit (h : b.length ≠ 1 + 11 * numAt b 0 1) : takeLoadLines p b s = badValue s := if_neg h

theorem takeLoadLines_notClaimant (h : b.length = 1 + 11 * numAt b 0 1) (hc : s.seq.claimant ≠ some p) :
    takeLoadLines p b s = refuse .notClaimant [] s := by
  simp only [takeLoadLines, if_pos h, if_pos hc]

theorem takeLoadLines_tracking (h : b.length = 1 + 11 * numAt b 0 1) (hc : s.seq.claimant = some p)
    (ht : s.seq.state = .tracking) : takeLoadLines p b s = refuse .state [] s := by
  simp only [takeLoadLines, if_pos h, if_neg (not_not_intro hc), if_pos ht]

theorem takeLoadLines_count (h : b.length = 1 + 11 * numAt b 0 1) (hc : s.seq.claimant = some p)
    (ht : s.seq.state ≠ .tracking) (hn : numAt b 0 1 = 0 ∨ 16 < numAt b 0 1) :
    takeLoadLines p b s = badValue s := by
  simp only [takeLoadLines, if_pos h, if_neg (not_not_intro hc), if_neg ht, if_pos hn]

/-- LOAD LINES of 1 to 16 entries, past the checks of the claim and the state: the half-widths, then the room. -/
theorem takeLoadLines_entries (hb : b = u8 es.length ++ es.flatMap LineEntry.bytes)
    (hc : s.seq.claimant = some p) (ht : s.seq.state ≠ .tracking) (h1 : 1 ≤ es.length) (h16 : es.length ≤ 16) :
    (∀ i, firstEmptyWindow es = some i → takeLoadLines p b s = refuse .badValue (u8 i) s) ∧
    (firstEmptyWindow es = none →
      takeLoadLines p b s = if 512 < s.seq.lines.length + es.length then refuse .full [] s
        else done (u16 s.seq.lines.length ++ u16 (s.seq.lines.length + es.length))
          (tellOthers p (s.onSeq (fun q => { q with lines := q.lines ++ es, state := .loading })))) := by
  obtain ⟨hn, hlen⟩ := loadLines_spelled (Nat.lt_of_le_of_lt h16 (by decide)) hb
  have hentries : entriesAt b es.length = es := by rw [hb, entriesAt_spelled]
  have hrange : ¬ (es.length = 0 ∨ 16 < es.length) := by omega
  refine ⟨fun i hfirst => ?_, fun hfirst => ?_⟩
  · simp only [takeLoadLines, hn, if_pos hlen, if_neg (not_not_intro hc), if_neg ht, if_neg hrange, hentries, hfirst]
  · simp only [takeLoadLines, hn, if_pos hlen, if_neg (not_not_intro hc), if_neg ht, if_neg hrange, hentries, hfirst]
    rfl

theorem takeClearLines_notClaimant (hb : b = []) (hc : s.seq.claimant ≠ some p) :
    takeClearLines p b s = refuse .notClaimant [] s := by
  rw [takeClearLines, if_pos (by rw [hb]; rfl), if_pos hc]

theorem takeClearLines_tracking (hb : b = []) (hc : s.seq.claimant = some p) (ht : s.seq.state = .tracking) :
    takeClearLines p b s = refuse .state [] s := by
  rw [takeClearLines, if_pos (by rw [hb]; rfl), if_neg (not_not_intro hc), if_pos ht]

theorem takeClearLines_idle (hb : b = []) (hc : s.seq.claimant = some p) (ht : s.seq.state ≠ .tracking) :
    takeClearLines p b s = done (u16 s.seq.lines.length)
      (tellOthers p (s.onSeq (fun q => { q with lines := [], state := .loading }))) := by
  rw [takeClearLines, if_pos (by rw [hb]; rfl), if_neg (not_not_intro hc), if_neg ht]
  rfl

end

theorem numAt_head (b : List Byte) : numAt b 0 1 = (b.headD 0).toNat := by
  rw [numAt_getD]
  cases b <;> rfl

/-- Settles O45: the checks of LOAD LINES in their order, each the taking where the earlier ones have passed. -/
theorem theLineListIsLoadedAndCleared : Obligations.TheLineListIsLoadedAndCleared := by
  refine ⟨fun r s es hr hlt hp => ?load, fun r s hr hp => ?unfit, fun r s hr hp => ?clear⟩
  case load =>
    obtain ⟨hn, hlen⟩ := loadLines_spelled hlt hp
    rw [← hn] at hlen
    have loads {st : Status} {d : List Byte} {t : State}
        (h : takeLoadLines r.port r.payload s = .answered ⟨st, d⟩ t) :=
      exec_answers (k := .loadLines) (by decide) hr h
    refine ⟨fun hc => ?_, fun hc ht => ?_, fun hc ht => ⟨fun hcount => ?_, fun h1 h16 => ?_⟩⟩
    · exact loads (takeLoadLines_notClaimant hlen hc)
    · exact loads (takeLoadLines_tracking hlen hc ht)
    · exact loads (takeLoadLines_count hlen hc ht (by rwa [hn]))
    · obtain ⟨hempty, hroom⟩ := takeLoadLines_entries hp hc ht h1 h16
      refine ⟨fun i e hi he hfirst => ?_, fun hall => ⟨fun hfull => ?_, fun hfits => ?_⟩⟩
      · exact loads (hempty i (firstEmptyWindow_some es i e hi he hfirst))
      · exact loads ((hroom (firstEmptyWindow_none es hall)).trans (if_pos hfull))
      · exact loads ((hroom (firstEmptyWindow_none es hall)).trans (if_neg (Nat.not_lt.2 hfits)))
  case unfit =>
    rw [← numAt_head] at hp
    exact exec_answers (k := .loadLines) (by decide) hr (takeLoadLines_unfit hp)
  case clear =>
    refine ⟨fun hc => ?_, fun hc ht => ?_, fun hc ht => ?_⟩
    · exact exec_answers (k := .clearLines) (by decide) hr (takeClearLines_notClaimant hp hc)
    · exact exec_answers (k := .clearLines) (by decide) hr (takeClearLines_tracking hp hc ht)
    · exact exec_answers (k := .clearLines) (by decide) hr (takeClearLines_idle hp hc ht)

end Sys2Proof.Machine
end

section
/-! PROOFS. Starting, stopping and reading a scan (7-4, 7-8, 7-9): the checks of START SCAN in their order, the scan that
it starts, STOP SCAN and READ SEQUENCER. -/

namespace Sys2Proof.Machine

/-! ## The fields and checks of START SCAN (R132) -/

/-- The fields of a START SCAN payload. -/
theorem startScan_fields {b : List Byte} {dir strays : Byte} {first : BitVec 16}
    (hb : b = [dir] ++ u16 first.toNat ++ [strays]) :
    b.length = 4 ∧ numAt b 0 1 = dir.toNat ∧ numAt b 1 2 = first.toNat ∧ flagAt b 3 = strays.getLsbD 0 := by
  subst hb
  refine ⟨rfl, numAt_byte dir _, ?_, ?_⟩
  · have hfirst := numAt_here 2 first.toNat [strays]
    rw [toNat_bytes first rfl] at hfirst
    exact hfirst
  · have hstrays : numAt ([dir] ++ u16 first.toNat ++ [strays]) 3 1 = strays.toNat := numAt_byte strays []
    rw [flagAt, hstrays, byte_parity]

theorem scanDirOf_none {n : Nat} (h : 2 ≤ n) : scanDirOf n = none := by
  obtain ⟨k, rfl⟩ := Nat.exists_eq_add_of_le' h
  rfl

theorem scanDirOf_some {n : Nat} (h : n < 2) : ∃ dir, scanDirOf n = some dir :=
  match n, h with
  | 0, _ => ⟨.forward, rfl⟩
  | 1, _ => ⟨.reverse, rfl⟩

/-- The lower of CH0 and CH1 that fails a check, for the check that a test of failures is the opposite of. -/
theorem lowerFailing_of_fails {ok fails : Chan → Bool} {c : Chan} (hf : ∀ d, fails d = !ok d)
    (hlow : c = .ch0 ∨ c = .ch1 ∧ fails .ch0 = false) (hc : fails c = true) : lowerFailing ok = some c := by
  have hok : ok = fun d => !fails d := funext fun d => by rw [hf, Bool.not_not]
  rw [hok]
  exact lowerFailing_some fails c hlow hc

/-- A check that both channels pass. -/
theorem lowerFailing_passed {ok : Chan → Bool} (h0 : ok .ch0 = true) (h1 : ok .ch1 = true) : lowerFailing ok = none := by
  simp only [lowerFailing, List.find?_cons, h0, h1, Bool.not_true, List.find?_nil]

section
variable {b : List Byte} {c : Chan} {d : ScanDir} {dir strays : Byte} {e : LineEntry} {first : BitVec 16} {l : Int}
  {n : Nat} {p : Port} {rep : Bool} {s : State}

theorem takeStartScan_notClaimant (hb : b = [dir] ++ u16 first.toNat ++ [strays]) (hc : s.seq.claimant ≠ some p) :
    takeStartScan p b s = refuse .notClaimant [] s := by
  simp only [takeStartScan, if_pos (startScan_fields hb).1, if_pos hc]

theorem takeStartScan_tracking (hb : b = [dir] ++ u16 first.toNat ++ [strays]) (hc : s.seq.claimant = some p)
    (ht : s.seq.state = .tracking) : takeStartScan p b s = refuse .state [] s := by
  simp only [takeStartScan, if_pos (startScan_fields hb).1, if_neg (not_not_intro hc), if_pos ht]

theorem takeStartScan_badValue (hb : b = [dir] ++ u16 first.toNat ++ [strays]) (hc : s.seq.claimant = some p)
    (ht : s.seq.state ≠ .tracking) (h : 2 ≤ dir.toNat ∨ s.seq.lines.length ≤ first.toNat) :
    takeStartScan p b s = badValue s := by
  obtain ⟨hlen, hdir, hfirst, -⟩ := startScan_fields hb
  simp only [takeStartScan, if_pos hlen, if_neg (not_not_intro hc), if_neg ht, hdir, hfirst]
  rcases h with h | h
  · rw [scanDirOf_none h]
  · rw [List.getElem?_eq_none h]
    cases scanDirOf dir.toNat <;> rfl

/-- The order check of the list: the first pair that is not separated, or the checks of the channels. -/
theorem takeStartScan_fields (hb : b = [dir] ++ u16 first.toNat ++ [strays]) (hc : s.seq.claimant = some p)
    (ht : s.seq.state ≠ .tracking) (hd : scanDirOf dir.toNat = some d) (he : s.seq.lines[first.toNat]? = some e) :
    (∀ k, orderFault s.seq.lines = some k → takeStartScan p b s = refuse .listOrder (u16 k) s) ∧
    (orderFault s.seq.lines = none →
      takeStartScan p b s = checkAndStart p d first.toNat (strays.getLsbD 0) e s) := by
  obtain ⟨hlen, hdir, hfirst, hstrays⟩ := startScan_fields hb
  refine ⟨fun k hk => ?_, fun hk => ?_⟩
  · simp only [takeStartScan, if_pos hlen, if_neg (not_not_intro hc), if_neg ht, hdir, hfirst, hd, he, hk]
  · simp only [takeStartScan, if_pos hlen, if_neg (not_not_intro hc), if_neg ht, hdir, hfirst, hstrays, hd, he, hk]

theorem checkAndStart_notTracking (h : lowerFailing (fun c => (s.chans.get c).state == .tracking) = some c) :
    checkAndStart p d n rep e s = refuse .notTracking (u8 c.num) s := by
  simp only [checkAndStart, h]

theorem checkAndStart_staleOrigin (ht : lowerFailing (fun c => (s.chans.get c).state == .tracking) = none)
    (h : lowerFailing (fun c => ((s.origins.get p).get c).status != .stale) = some c) :
    checkAndStart p d n rep e s = refuse .staleOrigin (u8 c.num) s := by
  simp only [checkAndStart, ht, h]

theorem checkAndStart_uncompensated (ht : lowerFailing (fun c => (s.chans.get c).state == .tracking) = none)
    (ho : lowerFailing (fun c => ((s.origins.get p).get c).status != .stale) = none)
    (h : lowerFailing (fun c => (s.comp.get c).weight != 0) = some c) :
    checkAndStart p d n rep e s = refuse .uncompensated (u8 c.num) s := by
  simp only [checkAndStart, ht, ho, h]

/-- Where L exists, the position is all that is left to check. -/
theorem checkAndStart_line (hl : s.line p = some l) :
    checkAndStart p d n rep e s =
      if e.far d < scanCoord d l then refuse .position (i64 l ++ i64 (e.far d)) s
      else done (u64 s.time.toNat ++ i64 l ++ u8 (firstWindow e d (scanCoord d l)).code)
        (startScan p d n rep (firstWindow e d (scanCoord d l)) s) := by
  obtain ⟨ht, ho, hw⟩ := line_some hl
  simp only [checkAndStart, ht, ho, hw, hl]

end

/-- Settles O46: the checks in their order, each where the earlier ones have passed. -/
theorem startScanChecksInOrder : Obligations.StartScanChecksInOrder := by
  intro r s dir first strays fails hr hp
  have starts {st : Status} {d : List Byte} {t : State}
      (h : takeStartScan r.port r.payload s = .answered ⟨st, d⟩ t) :=
    exec_answers (k := .startScan) (by decide) hr h
  refine ⟨fun hc => ?notClaimant, fun hc ht => ?tracking, fun hc ht => ⟨fun h => ?badValue, fun hdir hfirst => ?checks⟩⟩
  case notClaimant => exact starts (takeStartScan_notClaimant hp hc)
  case tracking => exact starts (takeStartScan_tracking hp hc ht)
  case badValue => exact starts (takeStartScan_badValue hp hc ht h)
  case checks =>
    obtain ⟨d, hd⟩ := scanDirOf_some hdir
    obtain ⟨horder, hchecked⟩ := takeStartScan_fields hp hc ht hd (List.getElem?_eq_getElem hfirst)
    refine ⟨fun k hsep hnot => starts (horder k (orderFault_some _ k hsep hnot)), fun hsep c hlow hfails => ?channels⟩
    have htaken := hchecked (orderFault_none _ hsep)
    refine ⟨fun hf => ?_, fun ht0 ht1 => ?_⟩
    · refine starts (htaken.trans (checkAndStart_notTracking (lowerFailing_of_fails (fun d => ?_) hlow hfails)))
      rw [hf, beq_eq_decide, decide_not]
    · have htracking := lowerFailing_passed (ok := fun c => (s.chans.get c).state == .tracking)
        (beq_iff_eq.2 ht0) (beq_iff_eq.2 ht1)
      refine ⟨fun hf => ?_, fun ho0 ho1 hf => ?_⟩
      · refine starts (htaken.trans
          (checkAndStart_staleOrigin htracking (lowerFailing_of_fails (fun d => ?_) hlow hfails)))
        rw [hf, bne, Bool.not_not, beq_eq_decide]
      · have horigins := lowerFailing_passed (ok := fun c => ((s.origins.get r.port).get c).status != .stale)
          (bne_iff_ne.2 ho0) (bne_iff_ne.2 ho1)
        refine starts (htaken.trans
          (checkAndStart_uncompensated htracking horigins (lowerFailing_of_fails (fun d => ?_) hlow hfails)))
        rw [hf, bne, Bool.not_not, beq_eq_decide]

/-! ## The scan that START SCAN starts (R53, R132, R133) -/

theorem scanCoord_eq {dir : ScanDir} {l x : Int}
    (h : dir = .forward ∧ x = l ∨ dir = .reverse ∧ x = max (-(2 ^ 63)) (min (2 ^ 63 - 1) (-l))) :
    scanCoord dir l = x := by
  rcases h with ⟨rfl, rfl⟩ | ⟨rfl, rfl⟩ <;> rfl

theorem firstWindow_eq {dir : ScanDir} {e : LineEntry} {near far : Int} (h : WindowEdges dir e near far) (x : Int) :
    firstWindow e dir x = if near ≤ x then .opened else .before := by
  rw [firstWindow, (windowEdges_eq h).1]

theorem windowCode_eq {near x : Int} :
    (if near ≤ x then WindowStatus.opened else .before).code = if near ≤ x then 1 else 0 := by
  split <;> rfl

/-- A scan starts with a RUN pin of the claimant on CH0 and CH1, and no other entry changes. -/
theorem placeRunPins_get (p : Port) (s : State) (c : Chan) :
    (placeRunPins p s).comp.get c =
      if c = .ch0 ∨ c = .ch1 then { s.comp.get c with pins := (s.comp.get c).pins.set p .run } else s.comp.get c := by
  cases c <;> rfl

theorem startScan_eq (p : Port) (dir : ScanDir) (first : Nat) (strays : Bool) (w : WindowStatus) (s : State) :
    startScan p dir first strays w s =
      tellOthers p (State.onSeqTotals
        { s with
          seq := { s.seq with
            state := .tracking, dir := dir, first := first, reportStrays := strays, current := first, window := w,
            pulses := 0, found := 0, missed := 0, stray := 0, lost := 0, cause := .none }
          comp := (placeRunPins p s).comp }
        (fun t => { t with started := t.started + 1 })) := rfl

/-- Settles O47: with L existing, the list separated and the first entry in it, the position alone decides. -/
theorem startScanStartsTheScan : Obligations.StartScanStartsTheScan := by
  intro r s dir first strays e l x near far hr hp hc ht he hsep hl hx hw
  have hdir : scanDirOf (BitVec.ofNat 8 dir.code).toNat = some dir := by cases dir <;> rfl
  have htaken := (takeStartScan_fields (dir := BitVec.ofNat 8 dir.code) hp hc ht hdir he).2 (orderFault_none _ hsep)
  rw [checkAndStart_line hl, scanCoord_eq hx, (windowEdges_eq hw).2, firstWindow_eq hw, windowCode_eq, startScan_eq]
    at htaken
  refine ⟨fun hbeyond => ?_, fun hwithin => ⟨(placeRunPins r.port s).comp, ?_, placeRunPins_get r.port s⟩⟩
  · exact exec_answers (k := .startScan) (by decide) hr (htaken.trans (if_pos hbeyond))
  · exact exec_answers (k := .startScan) (by decide) hr (htaken.trans (if_neg (Int.not_lt.2 hwithin)))

/-! ## STOP SCAN and READ SEQUENCER (R145, R148) -/

theorem claimant_field (claimant : Option Port) :
    optional 1 (fun p : Port => u8 p.num) claimant =
      match claimant with
      | none => u8 0 ++ u8 0
      | some p => u8 1 ++ u8 p.num := by
  cases claimant <;> rfl

section
variable {b : List Byte} {n : Byte} {p : Port} {s : State} {start : BitVec 16}

theorem takeStopScan_notClaimant (hb : b = []) (hc : s.seq.claimant ≠ some p) :
    takeStopScan p b s = refuse .notClaimant [] s := by
  rw [takeStopScan, if_pos (by rw [hb]; rfl), if_pos hc]

theorem takeStopScan_idle (hb : b = []) (hc : s.seq.claimant = some p) (ht : s.seq.state ≠ .tracking) :
    takeStopScan p b s = refuse .state [] s := by
  rw [takeStopScan, if_pos (by rw [hb]; rfl), if_neg (not_not_intro hc), scanning_false ht]
  rfl

theorem takeStopScan_tracking (hb : b = []) (hc : s.seq.claimant = some p) (ht : s.seq.state = .tracking) :
    takeStopScan p b s = done (halt .stopped s).seq.countBytes (halt .stopped s) := by
  rw [takeStopScan, if_pos (by rw [hb]; rfl), if_neg (not_not_intro hc), scanning_true ht]
  rfl

theorem takeReadSequencer_spelled (hb : b = u16 start.toNat ++ [n]) :
    takeReadSequencer p b s =
      if start.toNat ≤ 511 ∧ n.toNat ≤ 16 then
        done (u8 s.seq.state.code ++ optional 1 (fun p : Port => u8 p.num) s.seq.claimant ++
          u16 s.seq.lines.length ++ u8 s.seq.dir.code ++ u16 s.seq.first ++ flag s.seq.reportStrays ++
          u16 s.seq.current ++ u8 s.seq.window.code ++ u16 s.seq.pulses ++ s.seq.countBytes ++ u8 s.seq.cause.code ++
          u8 (min n.toNat (s.seq.lines.length - start.toNat)) ++
          ((s.seq.lines.drop start.toNat).take n.toNat).flatMap LineEntry.bytes) s
      else badValue s := by
  have hstart : numAt b 0 2 = start.toNat := by
    rw [hb, u16, numAt_here, toNat_bytes start rfl]
  have hn : numAt b 2 1 = n.toNat := by
    rw [hb]
    exact numAt_byte n []
  rw [takeReadSequencer, if_pos (by rw [hb]; rfl), hstart, hn]
  dsimp only
  rw [List.length_take, List.length_drop]

end

/-- Settles O48: each request by its taking, the sequencer's block field by field. -/
theorem scansAreStoppedAndRead : Obligations.ScansAreStoppedAndRead := by
  refine ⟨fun r s hr hp => ⟨fun hc => ?notClaimant, fun hc ht => ?idle, fun hc ht => ⟨_, rfl, ?stopped⟩⟩,
    fun r s start n q hr hp hq => ⟨fun h => ?read, fun h => ?outside⟩⟩
  case notClaimant =>
    exact exec_answers (k := .stopScan) (by decide) hr (takeStopScan_notClaimant hp hc)
  case idle =>
    exact exec_answers (k := .stopScan) (by decide) hr (takeStopScan_idle hp hc ht)
  case stopped =>
    exact exec_answers (k := .stopScan) (by decide) hr (takeStopScan_tracking hp hc ht)
  case read =>
    subst hq
    have htaken := (takeReadSequencer_spelled (p := r.port) (s := s) hp).trans (if_pos h)
    simp only [claimant_field, Sequencer.countBytes, ← List.append_assoc] at htaken
    refine (exec_answers (k := .readSequencer) (by decide) hr htaken).trans ?_
    rfl
  case outside =>
    exact exec_answers (k := .readSequencer) (by decide) hr
      ((takeReadSequencer_spelled (p := r.port) hp).trans (if_neg h))

end Sys2Proof.Machine
end

section
/-! PROOFS. The compare table (8-1 to 8-4): what every step keeps of it, the availability of a subject and the events
that judge it anew, the evaluation of a point by its state and side, and the update itself. -/

namespace Sys2Proof.Machine

/-! ## The invariant (R152, R154) -/

theorem tableHolds_reset : TableHolds State.reset := by
  refine ⟨by decide, fun p => ?_, by decide, fun pt h => absurd h List.not_mem_nil⟩
  cases p <;> decide

/-- The compare table reads no more of the state than its points and what the subjects' availability is judged by. -/
theorem TableHolds.of_unseen {s t : State} (h : TableHolds s) (hp : t.points = s.points) (hc : t.chans = s.chans)
    (ho : t.origins = s.origins) (he : t.comp = s.comp) : TableHolds t :=
  table_keep h hp (sameView_of (fun _ => by rw [hc]) ho (fun _ _ => by rw [he]))

theorem step_keeps_table {s t : State} (hs : TableHolds s) (h : step s = .next t) : TableHolds t :=
  step_keeps (I := TableHolds) (fun _ _ _ k => k.of_unseen rfl rfl rfl rfl) effect_keeps_table
    (fun _ k => k.of_unseen rfl rfl rfl rfl) tableHolds_reset (fun _ _ k => k.of_unseen rfl rfl rfl rfl) hs h

/-- Settles O8: every effect of a command keeps the table together, and so do the tick and a device reset. -/
theorem everyStepKeepsTheCompareTableInStep : Obligations.EveryStepKeepsTheCompareTableInStep :=
  fun _ _ => step_keeps_table

/-! ## Points judged anew (R154, R155) -/

theorem away_iff (pt : Point) : pt.away = true ↔ pt.state = .inactive ∨ pt.state = .suspended := by
  rw [Point.away, Bool.or_eq_true, beq_iff_eq, beq_iff_eq]

theorem returnState_eq (pt : Point) :
    pt.returnState = if pt.mode = .once ∧ 0 < pt.firings then .fired else .armed := by
  unfold Point.returnState
  cases pt.mode with
  | repeating h => exact (if_neg nofun).symm
  | once =>
    rcases Nat.eq_zero_or_pos pt.firings with h | h
    · simp [h]
    · simp [h, h.ne']

theorem judge_available {s : State} {pt : Point} (h : availability s pt.owner pt.subject = .available) :
    judge s pt =
      if pt.state = .inactive ∨ pt.state = .suspended then
        { pt with state := if pt.mode = .once ∧ 0 < pt.firings then .fired else .armed, lastSide := none }
      else pt := by
  simp only [judge, h, away_iff, returnState_eq]

theorem rejudge_congr {f : Point → Bool} {P : Point → Prop} [DecidablePred P] (h : ∀ pt, f pt = true ↔ P pt)
    (s : State) : rejudge f s = { s with points := s.points.map (fun pt => if P pt then judge s pt else pt) } := by
  simp only [rejudge, h]

theorem breakView_congr {f : Point → Bool} {P : Point → Prop} [DecidablePred P] (h : ∀ pt, f pt = true ↔ P pt)
    (s : State) :
    breakView f s =
      { s with points := s.points.map (fun pt => if P pt then judge s { pt with lastSide := none } else pt) } := by
  simp only [breakView, h]

/-- The points of a port that depend on one of some channels. -/
theorem ownsOn_iff (p : Port) (cs : List Chan) (pt : Point) :
    (pt.owner == p && cs.any pt.subject.uses) = true ↔
      pt.owner = p ∧ ∃ c ∈ cs, pt.subject = .chan c ∨ pt.subject = .line ∧ (c = .ch0 ∨ c = .ch1) := by
  simp only [Bool.and_eq_true, beq_iff_eq, List.any_eq_true, uses_iff]

/-- Settles O49: each event judges the points that its test picks. -/
theorem availabilityIsJudgedAtEachChange : Obligations.AvailabilityIsJudgedAtEachChange := by
  refine ⟨fun _ _ _ => rfl, fun _ _ => rfl, fun s pt => ?judged, fun s c => ?channel, fun s => ?application,
    fun s p cs => ?origins⟩
  case judged =>
    cases h : availability s pt.owner pt.subject with
    | inactive => simp only [judge, h]
    | suspended => simp only [judge, h]
    | available => exact judge_available h
  case channel => exact rejudge_congr (fun pt => uses_iff pt.subject c) s
  case application => exact breakView_congr (fun _ => beq_iff_eq) s
  case origins => exact breakView_congr (ownsOn_iff p cs) s

/-! ## Crossings and rearming (R156, R158) -/

theorem crossing_up_iff (last : Option Side) (v t : Int) :
    crossing last (sideOf v t) = some .up ↔ last = some .below ∧ t ≤ v := by
  rcases lt_trichotomy v t with h | rfl | h
  · rw [sideOf, if_pos h]
    rcases last with _ | _ | _ | _ <;> simp [crossing, h]
  · rw [sideOf, if_neg (lt_irrefl v), if_pos rfl]
    rcases last with _ | _ | _ | _ <;> simp [crossing]
  · rw [sideOf, if_neg h.not_gt, if_neg h.ne']
    rcases last with _ | _ | _ | _ <;> simp [crossing, h.le]

theorem crossing_down_iff (last : Option Side) (v t : Int) :
    crossing last (sideOf v t) = some .down ↔ last = some .above ∧ v ≤ t := by
  rcases lt_trichotomy v t with h | rfl | h
  · rw [sideOf, if_pos h]
    rcases last with _ | _ | _ | _ <;> simp [crossing, h.le]
  · rw [sideOf, if_neg (lt_irrefl v), if_pos rfl]
    rcases last with _ | _ | _ | _ <;> simp [crossing]
  · rw [sideOf, if_neg h.not_gt, if_neg h.ne']
    rcases last with _ | _ | _ | _ <;> simp [crossing, h]

theorem fires_iff (pt : Point) (v : Int) (d : UpDown) :
    pt.fires v = some d ↔ crossing pt.lastSide (sideOf v pt.level) = some d ∧ pt.dir.enables d = true := by
  unfold Point.fires
  cases crossing pt.lastSide (sideOf v pt.level) with
  | none => exact ⟨nofun, nofun⟩
  | some e =>
    dsimp only
    rw [Option.ite_none_right_eq_some, Option.some_inj]
    exact ⟨fun ⟨h, he⟩ => ⟨he, he ▸ h⟩, fun ⟨he, h⟩ => ⟨he ▸ h, he⟩⟩

theorem fires_up_iff (pt : Point) (v : Int) :
    pt.fires v = some .up ↔ pt.lastSide = some .below ∧ pt.level ≤ v ∧ pt.dir ≠ .down := by
  have henables : pt.dir.enables .up = true ↔ pt.dir ≠ .down := by cases pt.dir <;> decide
  rw [fires_iff, crossing_up_iff, henables, and_assoc]

theorem fires_down_iff (pt : Point) (v : Int) :
    pt.fires v = some .down ↔ pt.lastSide = some .above ∧ v ≤ pt.level ∧ pt.dir ≠ .up := by
  have henables : pt.dir.enables .down = true ↔ pt.dir ≠ .up := by cases pt.dir <;> decide
  rw [fires_iff, crossing_down_iff, henables, and_assoc]

theorem rearms_iff {pt : Point} {h : BitVec 16} (hm : pt.mode = .repeating h) (v : Int) :
    pt.rearms v = true ↔
      pt.rearmDir = some .up ∧ v ≤ pt.level - h.toNat ∨ pt.rearmDir = some .down ∧ pt.level + h.toNat ≤ v := by
  unfold Point.rearms
  rw [hm]
  rcases pt.rearmDir with _ | _ | _ <;> simp

/-! ## A point after its evaluation (R156 to R158) -/

section
variable {pt : Point} {v : Int}

theorem evaluated_fires {d : UpDown} (hst : pt.state = .armed) (h : pt.fires v = some d) :
    pt.evaluated v = Point.afterFiring d { pt with lastSide := some (sideOf v pt.level) } := by
  simp only [Point.evaluated, hst, h]

theorem evaluated_uncrossed (hst : pt.state = .armed) (h : pt.fires v = none) :
    pt.evaluated v = { pt with lastSide := some (sideOf v pt.level) } := by
  simp only [Point.evaluated, hst, h]

theorem evaluated_fired (hst : pt.state = .fired) :
    pt.evaluated v = { pt with lastSide := some (sideOf v pt.level) } := by
  simp only [Point.evaluated, hst]

theorem evaluated_rearming (hst : pt.state = .rearming) :
    pt.evaluated v =
      if pt.rearms v = true then
        { pt with lastSide := some (sideOf v pt.level), state := .armed, rearmDir := none }
      else { pt with lastSide := some (sideOf v pt.level) } := by
  simp only [Point.evaluated, hst]

theorem firesAt_iff : pt.firesAt v = true ↔ pt.state = .armed ∧ pt.fires v ≠ none := by
  rw [Point.firesAt, Bool.and_eq_true, beq_iff_eq, Option.isSome_iff_ne_none]

end

/-! ## The evaluation of a slot (R153, R156, R157) -/

theorem putPoint_eq (s : State) (pt : Point) :
    s.putPoint pt = { s with points := s.points.map (fun x => if x.slot = pt.slot then pt else x) } := by
  simp only [State.putPoint, beq_iff_eq]

section
variable {c : Chan} {s : State} {k : Nat} {pt : Point} {v : Int}

/-- The point of a slot has a value to be evaluated with: its subject depends on the channel, and exists in the owner's
view. -/
structure Evaluable (c : Chan) (s : State) (k : Nat) (pt : Point) (v : Int) : Prop where
  inSlot : s.pointAt k = some pt
  uses : pt.subject.uses c = true
  value : s.subjectValue pt = some v

theorem evalSlot_evaluable (h : Evaluable c s k pt v) (ha : ¬ (pt.state = .inactive ∨ pt.state = .suspended)) :
    evalSlot c s k =
      if pt.firesAt v = true then fireActions pt (s.putPoint (pt.evaluated v)) else s.putPoint (pt.evaluated v) := by
  rw [← away_iff, Bool.not_eq_true] at ha
  simp only [evalSlot, h.inSlot, h.uses, ha, h.value, Bool.not_false, Bool.and_self, if_true]

theorem evalSlot_fires {d : UpDown} (h : Evaluable c s k pt v) (hst : pt.state = .armed) (hf : pt.fires v = some d) :
    evalSlot c s k =
      fireActions pt (s.putPoint (Point.afterFiring d { pt with lastSide := some (sideOf v pt.level) })) := by
  have hfires : pt.fires v ≠ none := by simp [hf]
  rw [evalSlot_evaluable h (by simp [hst]), if_pos (firesAt_iff.2 ⟨hst, hfires⟩), evaluated_fires hst hf]

/-- An evaluation that fires nothing leaves the evaluated point in its slot. -/
theorem evalSlot_quiet (h : Evaluable c s k pt v) (ha : ¬ (pt.state = .inactive ∨ pt.state = .suspended))
    (hq : pt.state = .armed → pt.fires v = none) : evalSlot c s k = s.putPoint (pt.evaluated v) := by
  rw [evalSlot_evaluable h ha, if_neg (fun hf => (firesAt_iff.1 hf).2 (hq (firesAt_iff.1 hf).1))]

theorem evalSlot_unevaluated (h : ∀ pt, s.pointAt k = some pt →
    pt.state = .inactive ∨ pt.state = .suspended ∨
      ¬ (pt.subject = .chan c ∨ pt.subject = .line ∧ (c = .ch0 ∨ c = .ch1))) : evalSlot c s k = s := by
  unfold evalSlot
  cases hk : s.pointAt k with
  | none => rfl
  | some pt =>
    have hnot : ¬ (pt.subject.uses c && !pt.away) = true := by
      rw [Bool.and_eq_true, Bool.not_eq_true', ← Bool.not_eq_true, away_iff, uses_iff]
      rintro ⟨huses, hhere⟩
      rcases h pt hk with hi | hs | hu
      · exact hhere (.inl hi)
      · exact hhere (.inr hs)
      · exact hu huses
    exact if_neg hnot

end

/-- The actions of a firing, each on what the one before it leaves (R157). -/
theorem fireActions_eq {pt : Point} {s u v : State}
    (hu : u = if pt.actions.notice then postWhere .pointFired (fun q => pt.shared || decide (q = pt.owner)) s else s)
    (hv : v = if pt.actions.sync then { u with sync := some s.time } else u) :
    fireActions pt s = if pt.actions.capture then hand (.compare pt.slot pt.owner pt.shared) v else v := by
  have htime : u.time = s.time := by
    rw [hu]
    split <;> rfl
  rw [← htime] at hv
  subst hv hu
  rfl

/-- Settles O50: each state by the evaluation of its point, and the actions of a firing one after another. -/
theorem pointsAreEvaluatedByTheirStateAndSide : Obligations.PointsAreEvaluatedByTheirStateAndSide := by
  refine ⟨fun c s k pt v T up down put hk hT hsub hup hdown hput => ?evaluated,
    fun c s k => evalSlot_unevaluated, fun pt s => ⟨_, _, rfl, rfl, fireActions_eq rfl rfl⟩⟩
  subst hT
  have heval : Evaluable c s k pt v := by
    cases h : pt.subject with
    | chan d =>
      rw [h] at hsub
      obtain ⟨rfl, hv⟩ := hsub
      exact ⟨hk, (uses_iff _ _).2 (.inl h), by rw [State.subjectValue, h]; exact hv⟩
    | line =>
      rw [h] at hsub
      exact ⟨hk, (uses_iff _ _).2 (.inr ⟨h, hsub.1⟩), by rw [State.subjectValue, h]; exact hsub.2⟩
  have hplace (x : Point) (hx : x.slot = pt.slot) :
      s.putPoint { x with lastSide := some (sideOf v pt.level) } = put x := by
    rw [hput, putPoint_eq, ← hx]
    rfl
  have hupFires : pt.fires v = some .up ↔ up := (fires_up_iff pt v).trans hup.symm
  have hdownFires : pt.fires v = some .down ↔ down := (fires_down_iff pt v).trans hdown.symm
  refine ⟨fun hst d hd => ?fires, fun hst hnup hndown => ?uncrossed, fun hst => ?fired,
    fun h hst hm => ⟨fun hback => ?rearms, fun hback => ?stays⟩⟩
  case fires =>
    have hf : pt.fires v = some d := by
      rcases hd with ⟨rfl, h⟩ | ⟨rfl, h⟩
      · exact hupFires.2 h
      · exact hdownFires.2 h
    rw [evalSlot_fires heval hst hf, ← hplace]
    · rfl
    · rfl
  case uncrossed =>
    have hf : pt.fires v = none := by
      cases h : pt.fires v with
      | none => rfl
      | some d =>
        cases d with
        | up => exact absurd (hupFires.1 h) hnup
        | down => exact absurd (hdownFires.1 h) hndown
    rw [evalSlot_quiet heval (by simp [hst]) (fun _ => hf), evaluated_uncrossed hst hf, hplace pt rfl]
  case fired =>
    rw [evalSlot_quiet heval (by simp [hst]) (by simp [hst]), evaluated_fired hst, hplace pt rfl]
  case rearms =>
    rw [evalSlot_quiet heval (by simp [hst]) (by simp [hst]), evaluated_rearming hst,
      if_pos ((rearms_iff hm v).2 hback), ← hplace]
    rfl
  case stays =>
    rw [evalSlot_quiet heval (by simp [hst]) (by simp [hst]), evaluated_rearming hst,
      if_neg (fun h => hback ((rearms_iff hm v).1 h)), hplace pt rfl]

/-! ## The update (R83, R156) -/

/-- The updates that a running scan handles too. -/
theorem scanReads_iff (c : Chan) (s : State) :
    (c.feedsLine && s.seq.state == .tracking) = true ↔ (c = .ch0 ∨ c = .ch1) ∧ s.seq.state = .tracking := by
  rw [Bool.and_eq_true, feedsLine_iff, beq_iff_eq]

section
variable {c : Chan} {s : State}

theorem updateBlocks_tableAlone (h : ¬ ((c = .ch0 ∨ c = .ch1) ∧ s.seq.state = .tracking)) :
    updateBlocks c s = evalSlots c allSlots s := by
  rw [updateBlocks, if_neg (fun k => h ((scanReads_iff c s).1 k))]

theorem updateBlocks_scanAlone (hc : c = .ch0 ∨ c = .ch1) (ht : s.seq.state = .tracking) (hp : s.points = []) :
    updateBlocks c s = sequencerUpdate s := by
  rw [updateBlocks, if_pos ((scanReads_iff c s).2 ⟨hc, ht⟩), hp, List.isEmpty_nil, if_pos rfl]

theorem updateBlocks_both (hc : c = .ch0 ∨ c = .ch1) (ht : s.seq.state = .tracking) (hp : s.points ≠ []) :
    updateBlocks c s = meetAtUpdate c s := by
  rw [updateBlocks, if_pos ((scanReads_iff c s).2 ⟨hc, ht⟩), if_neg (by rwa [List.isEmpty_iff])]

end

/-- Settles O51: the table alone, the scan alone, or both at the place that the free value gives. -/
theorem updatesRunTheTableAndTheSequencer : Obligations.UpdatesRunTheTableAndTheSequencer := by
  intro c s eval heval
  obtain rfl : eval = evalSlots c := funext fun ks => funext fun u => heval ks u
  exact ⟨updateBlocks_tableAlone, fun hc ht => ⟨updateBlocks_scanAlone hc ht, fun hp =>
    ⟨Config.sequencerTurn s.turn, updateBlocks_both hc ht hp⟩⟩⟩

end Sys2Proof.Machine
end

section
/-! PROOFS. ADD POINT, REMOVE POINT, CLEAR POINTS and READ POINTS (8-5, 8-6): the point that a payload carries, the room
for it, and the taking of each request. -/

namespace Sys2Proof.Machine

/-! ## The fields of ADD POINT (R159) -/

theorem subjectOf_none {n : Nat} (h : 7 ≤ n) : subjectOf n = none := by
  obtain ⟨k, rfl⟩ := Nat.exists_eq_add_of_le' h
  rfl

theorem subjectOf_chan {n : Nat} (h : n ≤ 5) : ∃ c, subjectOf n = some (.chan c) :=
  match n, h with
  | 0, _ => ⟨.ch0, rfl⟩
  | 1, _ => ⟨.ch1, rfl⟩
  | 2, _ => ⟨.ch2, rfl⟩
  | 3, _ => ⟨.ch3, rfl⟩
  | 4, _ => ⟨.ch4, rfl⟩
  | 5, _ => ⟨.ch5, rfl⟩

theorem subjectOf_code (sub : Subject) : subjectOf sub.code = some sub := by
  cases sub with
  | line => rfl
  | chan c => cases c <;> rfl

theorem pointDirOf_none {n : Nat} (h : 3 ≤ n) : pointDirOf n = none := by
  obtain ⟨k, rfl⟩ := Nat.exists_eq_add_of_le' h
  rfl

theorem pointDirOf_code (d : PointDir) : pointDirOf d.code = some d := by cases d <;> rfl

theorem pointModeOf_none {mode : Byte} {h : BitVec 16} (hm : 2 ≤ mode.toNat ∨ mode = 1 ∧ h = 0) :
    pointModeOf mode.toNat h.toNat = none := by
  rcases hm with hm | ⟨rfl, rfl⟩
  · obtain ⟨k, hk⟩ := Nat.exists_eq_add_of_le' hm
    rw [hk]
    rfl
  · rfl

theorem pointModeOf_some {mode : Byte} {h : BitVec 16} {m : PointMode}
    (hm : mode = 0 ∧ m = .once ∨ mode = 1 ∧ h ≠ 0 ∧ m = .repeating h) :
    pointModeOf mode.toNat h.toNat = some m := by
  rcases hm with ⟨rfl, rfl⟩ | ⟨rfl, hne, rfl⟩
  · rfl
  · have hpos : h.toNat ≠ 0 := fun k => hne (BitVec.eq_of_toNat_eq k)
    refine (if_neg hpos).trans ?_
    rw [BitVec.ofNat_toNat, BitVec.setWidth_eq]

theorem actionsOf_none {acts : Byte} (h : acts = 0 ∨ 8 ≤ acts.toNat) : actionsOf acts.toNat = none := by
  refine if_pos (h.imp_left ?_)
  rintro rfl
  rfl

theorem actionsOf_some {acts : Byte} (h1 : 1 ≤ acts.toNat) (h8 : acts.toNat < 8) :
    actionsOf acts.toNat = some ⟨acts.getLsbD 0, acts.getLsbD 1, acts.getLsbD 2⟩ :=
  if_neg (by omega)

theorem thresholdFits_chan (c : Chan) (t : Int) :
    thresholdFits (.chan c) t = true ↔ -(2 ^ 47) ≤ t ∧ t < 2 ^ 47 := by
  rw [thresholdFits, decide_eq_true_iff, Int.le_sub_one_iff]

theorem thresholdFits_of {sub : Subject} {t : Int} (h : ∀ c, sub = .chan c → -(2 ^ 47) ≤ t ∧ t < 2 ^ 47) :
    thresholdFits sub t = true := by
  cases sub with
  | line => rfl
  | chan c => exact (thresholdFits_chan c t).2 (h c rfl)

/-! ## The point of a payload (R159) -/

section
variable {b : List Byte} {p : Port} {k : Fin 32}

theorem pointAtPayload_badField (h : subjectOf (numAt b 3 1) = none ∨ pointDirOf (numAt b 12 1) = none ∨
    pointModeOf (numAt b 13 1) (numAt b 14 2) = none ∨ actionsOf (numAt b 16 1) = none) :
    pointAtPayload p b k = none := by
  unfold pointAtPayload
  split
  next hsub hdir hmode hacts => simp [hsub, hdir, hmode, hacts] at h
  next => rfl

theorem pointAtPayload_badThreshold {sub : Subject} (hs : subjectOf (numAt b 3 1) = some sub)
    (hf : ¬ thresholdFits sub (intAt b 4 8) = true) : pointAtPayload p b k = none := by
  unfold pointAtPayload
  split
  next hsub _ _ _ =>
    obtain rfl := Option.some_inj.1 (hs.symm.trans hsub)
    exact if_neg hf
  next => rfl

variable {kept shared replace subj dir mode acts : Byte} {T : BitVec 64} {h : BitVec 16}

theorem addPoint_threshold (hT : numAt b 4 8 = T.toNat) :
    intAt b 4 8 = T.toInt ∧ BitVec.ofNat 64 (numAt b 4 8) = T := by
  have hword : BitVec.ofNat 64 (numAt b 4 8) = T := by rw [hT, BitVec.ofNat_toNat, BitVec.setWidth_eq]
  exact ⟨congrArg BitVec.toInt hword, hword⟩

/-- A field outside its range: no point. -/
theorem pointAtPayload_none
    (hb : b = [kept, shared, replace, subj] ++ u64 T.toNat ++ [dir, mode] ++ u16 h.toNat ++ [acts])
    (hbad : 7 ≤ subj.toNat ∨ (subj.toNat ≤ 5 ∧ ¬ (-(2 ^ 47) ≤ T.toInt ∧ T.toInt < 2 ^ 47)) ∨ 3 ≤ dir.toNat ∨
      2 ≤ mode.toNat ∨ (mode = 1 ∧ h = 0) ∨ acts = 0 ∨ 8 ≤ acts.toNat) : pointAtPayload p b k = none := by
  obtain ⟨-, -, -, -, hsubj, hT, hdir, hmode, hh, hacts⟩ := addPoint_fields hb
  rcases hbad with hs | ⟨hs, ht⟩ | hd | hm | hm | ha
  · exact pointAtPayload_badField (.inl (hsubj ▸ subjectOf_none hs))
  · obtain ⟨c, hc⟩ := subjectOf_chan hs
    rw [← hsubj] at hc
    refine pointAtPayload_badThreshold hc fun hfits => ht ?_
    rwa [(addPoint_threshold hT).1, thresholdFits_chan] at hfits
  · exact pointAtPayload_badField (.inr (.inl (hdir ▸ pointDirOf_none hd)))
  · exact pointAtPayload_badField (.inr (.inr (.inl (by rw [hmode, hh, pointModeOf_none (.inl hm)]))))
  · exact pointAtPayload_badField (.inr (.inr (.inl (by rw [hmode, hh, pointModeOf_none (.inr hm)]))))
  · exact pointAtPayload_badField (.inr (.inr (.inr (hacts ▸ actionsOf_none ha))))

/-- Fields in their ranges: the point that they spell, its state not yet judged. -/
theorem pointAtPayload_some {sub : Subject} {d : PointDir} {m : PointMode}
    (hb : b = [kept, shared, replace, subj] ++ u64 T.toNat ++ [dir, mode] ++ u16 h.toNat ++ [acts])
    (hs : subj.toNat = sub.code) (ht : ∀ c, sub = .chan c → -(2 ^ 47) ≤ T.toInt ∧ T.toInt < 2 ^ 47)
    (hd : dir.toNat = d.code) (hm : mode = 0 ∧ m = .once ∨ mode = 1 ∧ h ≠ 0 ∧ m = .repeating h)
    (h1 : 1 ≤ acts.toNat) (h8 : acts.toNat < 8) :
    pointAtPayload p b k = some
      { slot := k, owner := p, kept := kept.getLsbD 0, shared := shared.getLsbD 0, subject := sub, threshold := T
        dir := d, mode := m, actions := ⟨acts.getLsbD 0, acts.getLsbD 1, acts.getLsbD 2⟩, state := .armed
        lastSide := none, rearmDir := none, firings := 0 } := by
  obtain ⟨-, hkept, hshared, -, hsubj, hT, hdir, hmode, hh, hacts⟩ := addPoint_fields hb
  obtain ⟨hint, hword⟩ := addPoint_threshold hT
  simp only [pointAtPayload, hkept, hshared, hsubj, hs, subjectOf_code, hdir, hd, pointDirOf_code, hmode, hh,
    pointModeOf_some hm, hacts, actionsOf_some h1 h8, hint, hword, thresholdFits_of ht, if_true]

end

/-! ## Room (R160) -/

section
variable {s : State} {p : Port} {replace : Bool}

theorem oldestUnkept_eq {i : Nat} {old : Point} (hi : s.points[i]? = some old) (ho : old.owner = p)
    (hk : old.kept = false)
    (hfirst : ∀ (j : Nat) (pt : Point), j < i → s.points[j]? = some pt → pt.owner = p → pt.kept = true) :
    s.oldestUnkept p = some old := by
  obtain ⟨hlt, hget⟩ := List.getElem?_eq_some_iff.1 hi
  refine List.find?_eq_some_iff_getElem.2 ⟨by simp [ho, hk], i, hlt, hget, fun j hj => ?_⟩
  have hkept := hfirst j _ hj (List.getElem?_eq_getElem (hj.trans hlt))
  by_cases howner : s.points[j].owner = p
  · simp [hkept howner]
  · simp [howner]

theorem oldestUnkept_none (h : ∀ pt ∈ s.points, pt.owner = p → pt.kept = true) : s.oldestUnkept p = none := by
  refine List.find?_eq_none.2 fun pt hpt => ?_
  by_cases howner : pt.owner = p
  · simp [h pt hpt howner]
  · simp [howner]

theorem roomFor_free {k : Fin 32} (howned : s.owned p < 16) (hroom : s.points.length < 32)
    (hk : s.freeSlot = some k) : s.roomFor p replace = .free k := by
  rw [State.roomFor, if_pos ⟨howned, hroom⟩, hk]

theorem roomFor_replace {old : Point} (hfull : ¬ (s.owned p < 16 ∧ s.points.length < 32))
    (hold : s.oldestUnkept p = some old) : s.roomFor p true = .replace old := by
  rw [State.roomFor, Config.portPointRoom, Config.pointRoom, if_neg hfull, if_pos rfl, hold]

theorem roomFor_refused (hfull : ¬ (s.owned p < 16 ∧ s.points.length < 32))
    (h : replace = false ∨ s.oldestUnkept p = none) :
    s.roomFor p replace = .refused (if s.owned p < 16 then .full else .portLimit) := by
  have hnone : (if replace then s.oldestUnkept p else none) = none := by
    rcases h with rfl | h
    · rfl
    · rw [h, ite_self]
  rw [State.roomFor, Config.portPointRoom, Config.pointRoom, if_neg hfull, hnone]

end

/-- The creation list closes up where a slot is freed (R161). -/
theorem withoutSlot_eq (k : Fin 32) (pts : List Point) :
    withoutSlot k pts = pts.filter (fun pt => pt.slot ≠ k) := by
  simp only [withoutSlot, bne, beq_eq_decide, ne_eq, decide_not]

/-! ## The taking of ADD POINT (R159, R160) -/

section
variable {b : List Byte} {p : Port} {s : State} {pt : Point}

theorem takeAddPoint_badValue (hlen : b.length = 17) (h : pointAtPayload p b 0 = none) :
    takeAddPoint p b s = badValue s := by
  rw [takeAddPoint, if_pos hlen, h]

theorem takeAddPoint_refused {st : Status} (hlen : b.length = 17) (hpt : pointAtPayload p b 0 = some pt)
    (hroom : s.roomFor p (flagAt b 2) = .refused st) : takeAddPoint p b s = refuse st [] s := by
  simp only [takeAddPoint, if_pos hlen, hpt, hroom]

theorem takeAddPoint_free {k : Fin 32} (hlen : b.length = 17) (hpt : pointAtPayload p b 0 = some pt)
    (hroom : s.roomFor p (flagAt b 2) = .free k) :
    takeAddPoint p b s =
      done (addedBytes s { pt with slot := k } s.points none) (addPointTo { pt with slot := k } s.points s) := by
  simp only [takeAddPoint, if_pos hlen, hpt, hroom]

theorem takeAddPoint_replace {old : Point} (hlen : b.length = 17) (hpt : pointAtPayload p b 0 = some pt)
    (hroom : s.roomFor p (flagAt b 2) = .replace old) :
    takeAddPoint p b s =
      done (addedBytes s { pt with slot := old.slot } (s.points.filter (fun x => x.slot ≠ old.slot)) (some old))
        (addPointTo { pt with slot := old.slot } (s.points.filter (fun x => x.slot ≠ old.slot)) s) := by
  simp only [takeAddPoint, if_pos hlen, hpt, hroom, withoutSlot_eq]

end

/-- Settles O52: the fields by the point they spell, and each room by its taking. -/
theorem addPointJudgesFieldsThenRoom : Obligations.AddPointJudgesFieldsThenRoom := by
  intro r s kept shared replace subj dir mode acts T h hr hp
  obtain ⟨hlen, -, -, hreplace, -⟩ := addPoint_fields hp
  have adds {st : Status} {d : List Byte} {t : State}
      (ht : takeAddPoint r.port r.payload s = .answered ⟨st, d⟩ t) :=
    exec_answers (k := .addPoint) (by decide) hr ht
  refine ⟨fun hbad => adds (takeAddPoint_badValue hlen (pointAtPayload_none hp hbad)),
    fun sub d m st new hs ht hd hm h1 h8 hst hnew => ?_⟩
  have hpt := pointAtPayload_some (p := r.port) (k := 0) hp hs ht hd hm h1 h8
  refine ⟨fun howned hlength k hfree hlow => ?free, fun hfull =>
    ⟨fun i old hflag hi howner hkept hfirst => ?replaced, fun hnone => ?refused⟩⟩
  case free =>
    have hroom := roomFor_free (replace := flagAt r.payload 2) howned hlength (freeSlot_eq s k hfree hlow)
    rw [hnew, hst]
    exact adds (takeAddPoint_free hlen hpt hroom)
  case replaced =>
    have hroom := roomFor_replace hfull (oldestUnkept_eq hi howner hkept hfirst)
    rw [← hflag, ← hreplace] at hroom
    rw [hnew, hst]
    exact adds (takeAddPoint_replace hlen hpt hroom)
  case refused =>
    rw [← hreplace] at hnone
    exact adds (takeAddPoint_refused hlen hpt (roomFor_refused hfull (hnone.imp_right oldestUnkept_none)))

/-! ## REMOVE POINT and CLEAR POINTS (R161, R162) -/

theorem oneByte_fields {b : List Byte} {n : Byte} (hb : b = [n]) : b.length = 1 ∧ numAt b 0 1 = n.toNat := by
  rw [hb]
  exact ⟨rfl, numAt_byte n []⟩

section
variable {b : List Byte} {n : Byte} {p : Port} {s : State} {pt : Point}

theorem takeRemovePoint_badValue (hb : b = [n]) (hn : 32 ≤ n.toNat) : takeRemovePoint p b s = badValue s := by
  obtain ⟨hlen, hbyte⟩ := oneByte_fields hb
  rw [takeRemovePoint, if_pos hlen, hbyte]
  exact if_pos hn

theorem takeRemovePoint_empty (hb : b = [n]) (hn : n.toNat < 32) (hk : s.pointAt n.toNat = none) :
    takeRemovePoint p b s = refuse .state [] s := by
  obtain ⟨hlen, hbyte⟩ := oneByte_fields hb
  rw [takeRemovePoint, if_pos hlen, hbyte]
  simp only [if_neg (show ¬ 31 < n.toNat by omega), hk]

theorem takeRemovePoint_occupied (hb : b = [n]) (hn : n.toNat < 32) (hk : s.pointAt n.toNat = some pt) :
    takeRemovePoint p b s =
      if pt.owner ≠ p then refuse .notOwner (u8 pt.owner.num) s
      else done (u8 pt.state.code ++ u16 pt.firings)
        (tellOthers p { s with points := s.points.filter (fun x => x.slot ≠ pt.slot) }) := by
  obtain ⟨hlen, hbyte⟩ := oneByte_fields hb
  rw [takeRemovePoint, if_pos hlen, hbyte]
  simp only [if_neg (show ¬ 31 < n.toNat by omega), hk, withoutSlot_eq]
  rfl

/-- The scope byte picks the port's unkept points, or all that it owns. -/
theorem clearedBy_scope (p : Port) (n : Byte) (pt : Point) :
    clearedBy p (n.toNat == 1) pt = decide (pt.owner = p ∧ (n = 1 ∨ pt.kept = false)) := by
  have hscope : (n.toNat == 1) = decide (n = 1) := by
    rw [beq_eq_decide, decide_eq_decide]
    exact ⟨fun h => BitVec.eq_of_toNat_eq h, fun h => h ▸ rfl⟩
  rw [clearedBy, hscope, beq_eq_decide, Bool.decide_and, Bool.decide_or]
  cases pt.kept <;> rfl

theorem takeClearPoints_badValue (hb : b = [n]) (hn : 2 ≤ n.toNat) : takeClearPoints p b s = badValue s := by
  obtain ⟨hlen, hbyte⟩ := oneByte_fields hb
  rw [takeClearPoints, if_pos hlen, hbyte]
  exact if_pos hn

/-- CONFIG_CHANGED is told where at least one point goes. -/
theorem takeClearPoints_scope {gone : Point → Bool} (hb : b = [n]) (hn : n.toNat < 2)
    (hgone : clearedBy p (n.toNat == 1) = gone) :
    takeClearPoints p b s =
      done (u8 (s.points.filter gone).length)
        (if s.points.filter gone = [] then removePoints gone s else tellOthers p (removePoints gone s)) := by
  obtain ⟨hlen, hbyte⟩ := oneByte_fields hb
  rw [takeClearPoints, if_pos hlen, hbyte]
  simp only [if_neg (show ¬ 1 < n.toNat by omega), hgone]
  cases s.points.filter gone <;> rfl

end

/-! ## READ POINTS (R163) -/

theorem mode_fields (m : PointMode) :
    u8 m.code ++ optional 2 (fun h : BitVec 16 => u16 h.toNat) (match m with
      | .once => none
      | .repeating h => some h) =
    match m with
      | .once => u8 0 ++ (u8 0 ++ u16 0)
      | .repeating h => u8 1 ++ (u8 1 ++ u16 h.toNat) := by
  cases m <;> rfl

theorem lastSide_field (last : Option Side) :
    optional 1 (fun x : Side => u8 x.code) last =
      match last with
      | none => u8 0 ++ u8 0
      | some x => u8 1 ++ u8 x.code := by
  cases last <;> rfl

theorem rearmDir_field (d : Option UpDown) :
    optional 1 (fun d : UpDown => u8 d.code) d =
      match d with
      | none => u8 0 ++ u8 0
      | some d => u8 1 ++ u8 d.code := by
  cases d <;> rfl

theorem pointBlock_eq (s : State) (pt : Point) :
    pointBlock s pt =
      u8 pt.slot.val ++ u8 pt.owner.num ++ flag pt.kept ++ flag pt.shared ++ u8 pt.subject.code ++
      i64 pt.threshold.toInt ++ u8 pt.dir.code ++
      (match pt.mode with
        | .once => u8 0 ++ (u8 0 ++ u16 0)
        | .repeating h => u8 1 ++ (u8 1 ++ u16 h.toNat)) ++
      u8 (pt.actions.notice.toNat + 2 * pt.actions.capture.toNat + 4 * pt.actions.sync.toNat) ++ u8 pt.state.code ++
      (match pt.lastSide with
        | none => u8 0 ++ u8 0
        | some x => u8 1 ++ u8 x.code) ++
      (match pt.rearmDir with
        | none => u8 0 ++ u8 0
        | some d => u8 1 ++ u8 d.code) ++
      u16 pt.firings ++ u8 (s.points.findIdx (fun x => x.slot.val == pt.slot.val)) := by
  rw [← mode_fields, ← lastSide_field, ← rearmDir_field]
  simp only [pointBlock, List.append_assoc]
  rfl

theorem takeReadPoints_spelled {p : Port} {b : List Byte} {s : State} {block : Point → List Byte} (hb : b = [])
    (hblock : pointBlock s = block) :
    takeReadPoints p b s = done
      (u8 s.points.length ++ u8 (s.owned .p0) ++ u8 (s.owned .p1) ++ u8 (s.owned .p2) ++
        ((List.range 32).filterMap s.pointAt).flatMap block) s := by
  rw [takeReadPoints, if_pos (by rw [hb]; rfl), hblock, allSlots]

/-- Settles O53: each request by its taking, a point's block field by field. -/
theorem pointsAreRemovedClearedAndRead : Obligations.PointsAreRemovedClearedAndRead := by
  refine ⟨fun r s n hr hp => ?removed, fun r s n gone hr hp hgone => ?cleared, fun r s block hr hp hblock => ?read⟩
  case removed =>
    have removes {st : Status} {d : List Byte} {t : State}
        (ht : takeRemovePoint r.port r.payload s = .answered ⟨st, d⟩ t) :=
      exec_answers (k := .removePoint) (by decide) hr ht
    refine ⟨fun hn => removes (takeRemovePoint_badValue hp hn), fun hn hk => removes (takeRemovePoint_empty hp hn hk),
      fun pt hn hk => ⟨fun howner => ?_, fun howner => ?_⟩⟩
    · exact removes ((takeRemovePoint_occupied hp hn hk).trans (if_pos howner))
    · exact removes ((takeRemovePoint_occupied hp hn hk).trans (if_neg (not_not_intro howner)))
  case cleared =>
    have hscope : clearedBy r.port (n.toNat == 1) = gone :=
      funext fun pt => (clearedBy_scope r.port n pt).trans (hgone pt).symm
    refine ⟨fun hn => ?_, fun hn => ⟨removePoints gone s, rfl, ?_⟩⟩
    · exact exec_answers (k := .clearPoints) (by decide) hr (takeClearPoints_badValue hp hn)
    · exact exec_answers (k := .clearPoints) (by decide) hr (takeClearPoints_scope hp hn hscope)
  case read =>
    have hspelled : pointBlock s = block := funext fun pt => (pointBlock_eq s pt).trans (hblock pt).symm
    exact exec_answers (k := .readPoints) (by decide) hr (takeReadPoints_spelled (p := r.port) hp hspelled)

end Sys2Proof.Machine
end

section
/-! PROOFS. Notices and fault detail (Chapter 9): the NOTE line bit by bit, what a posting makes of it, and the four
requests. -/

namespace Sys2Proof.Machine

/-! ## The NOTE line (R168) -/

theorem Notices.note_iff (n : Notices) :
    n.note = true ↔ ∃ j : Nat, n.pending.getLsbD j = true ∧ n.enable.getLsbD j = true := by
  have hzero : n.pending &&& n.enable = 0 ↔ ∀ j, (n.pending &&& n.enable).getLsbD j = false :=
    ⟨fun h j => by rw [h]; exact BitVec.getLsbD_zero,
      fun h => BitVec.eq_of_getLsbD_eq fun j _ => (h j).trans BitVec.getLsbD_zero.symm⟩
  rw [note, bne_iff_ne, ne_eq, hzero, not_forall]
  simp only [BitVec.getLsbD_and, Bool.not_eq_false, Bool.and_eq_true]

theorem Notices.note_empty {n : Notices} (h : n.pending = 0 ∨ n.enable = 0) : n.note = false := by
  rw [Bool.eq_false_iff, ne_eq, note_iff]
  rintro ⟨j, hpending, henable⟩
  rcases h with h | h
  · simp [h] at hpending
  · simp [h] at henable

/-! ## Postings (R167, R168) -/

/-- The pending set after a kind is added, bit by bit. -/
theorem Notices.add_pending (k : Notice) (n : Notices) (j : Nat) :
    (n.add k).pending.getLsbD j = (n.pending.getLsbD j || decide (j = k.num)) := by
  rw [Notices.add, BitVec.getLsbD_or, notice_mask_bit]

@[simp] theorem Notices.add_enable (k : Notice) (n : Notices) : (n.add k).enable = n.enable := rfl

/-- An added kind asserts the line where the mask enables it. -/
theorem Notices.add_note (k : Notice) (n : Notices) : (n.add k).note = (n.note || n.enable.getLsbD k.num) := by
  rw [Bool.eq_iff_iff, Bool.or_eq_true, note_iff, note_iff]
  simp only [add_pending, add_enable, Bool.or_eq_true, decide_eq_true_eq, or_and_right, exists_or, exists_eq_left]

theorem postWhere_note (k : Notice) (which : Port → Bool) (s : State) (p : Port) :
    ((postWhere k which s).notices.get p).note =
      ((s.notices.get p).note || which p && (s.notices.get p).enable.getLsbD k.num) := by
  rw [postWhere_get]
  cases which p with
  | true => exact Notices.add_note k _
  | false => exact (Bool.or_false _).symm

theorem postWhere_enable (k : Notice) (which : Port → Bool) (s : State) (p : Port) :
    ((postWhere k which s).notices.get p).enable = (s.notices.get p).enable := by
  rw [postWhere_get]
  cases which p <;> rfl

theorem postWhere_pendingBit (k : Notice) (which : Port → Bool) (s : State) (p : Port) (j : Nat) :
    ((postWhere k which s).notices.get p).pending.getLsbD j =
      ((s.notices.get p).pending.getLsbD j || which p && decide (j = k.num)) := by
  rw [postWhere_get]
  cases which p with
  | true => exact Notices.add_pending k _ j
  | false => exact (Bool.or_false _).symm

/-- Settles O54: the line by the bits of set and mask, a posting by what it adds. -/
theorem aNoteLineFollowsItsSetAndMask : Obligations.ANoteLineFollowsItsSetAndMask :=
  ⟨Notices.note_iff, postWhere_note, fun _ => Notices.note_empty, fun k which s =>
    ⟨_, rfl, fun p => ⟨postWhere_enable k which s p, postWhere_pendingBit k which s p⟩⟩⟩

/-! ## The takings of the notice requests (R169 to R171) -/

section
variable {p : Port} {b : List Byte} {s : State}

/-- The mask that is the whole payload. -/
theorem noticeMask_spelled {m : BitVec 16} (hb : b = u16 m.toNat) : BitVec.ofNat 16 (numAt b 0 2) = m := by
  rw [hb, u16, numAt_whole, toNat_bytes m rfl, BitVec.ofNat_toNat, BitVec.setWidth_eq]

theorem noteFlag_eq (b : Bool) : flag b = u8 (if b then 1 else 0) := by cases b <;> rfl

theorem takeReadNotices_spelled (hb : b = []) :
    takeReadNotices p b s = done (u16 (s.notices.get p).pending.toNat ++ u16 (s.notices.get p).enable.toNat ++
      u8 (if (s.notices.get p).note then 1 else 0)) s := by
  rw [takeReadNotices, if_pos (by rw [hb]; rfl), ← noteFlag_eq]

theorem takeAckNotices_spelled {m : BitVec 16} (hb : b = u16 m.toNat) :
    takeAckNotices p b s =
      done (u16 ((s.notices.get p).pending &&& m).toNat ++ u16 ((s.notices.get p).pending &&& ~~~m).toNat)
        { s with notices :=
            s.notices.set p { s.notices.get p with pending := (s.notices.get p).pending &&& ~~~m } } := by
  rw [takeAckNotices, if_pos (by rw [hb]; rfl), noticeMask_spelled hb]

theorem takeSetNoticeEnable_spelled {m : BitVec 16} (hb : b = u16 m.toNat) :
    takeSetNoticeEnable p b s = done (u16 (s.notices.get p).enable.toNat)
      { s with notices := s.notices.set p { s.notices.get p with enable := m } } := by
  rw [takeSetNoticeEnable, if_pos (by rw [hb]; rfl), noticeMask_spelled hb]

/-! ## READ FAULT DETAIL (R175) -/

/-- READ FAULT DETAIL at an EMPTY latch: NONE, and the latch stays EMPTY. -/
theorem takeReadFaultDetail_empty (hb : b = []) (hl : s.latches.get p = none) :
    takeReadFaultDetail p b s = done (u8 0 ++ (u8 0 ++ List.replicate 28 0) ++ (u8 0 ++ u8 0)) s := by
  have hkept : s.latches.set p none = s.latches := by rw [← hl, PerPort.set_get]
  rw [takeReadFaultDetail, if_pos (by rw [hb]; rfl), hl, hkept]
  rfl

/-- READ FAULT DETAIL at a HELD latch: the record and the more count, and the latch becomes EMPTY. -/
theorem takeReadFaultDetail_held {h : HeldLoss} (hb : b = []) (hl : s.latches.get p = some h) :
    takeReadFaultDetail p b s = done (u8 1 ++ (u8 1 ++ h.report.bytes) ++ (u8 1 ++ u8 h.more))
      { s with latches := s.latches.set p none } := by
  rw [takeReadFaultDetail, if_pos (by rw [hb]; rfl), hl]
  rfl

end

theorem lossCause_code (d : LossDetail) :
    d.cause.code = match d with | .level => 1 | .skip _ => 2 | .gap _ _ => 3 := by
  cases d <;> rfl

/-- What a report holds by its cause alone (R11). -/
theorem lossDetail_fields (d : LossDetail) :
    optional 2 i16 d.step ++ optional 1 (fun b : Byte => u8 b.toNat) d.received ++
        optional 1 (fun b : Byte => u8 b.toNat) d.awaited =
      match d with
      | .level => (u8 0 ++ u16 0) ++ (u8 0 ++ u8 0) ++ (u8 0 ++ u8 0)
      | .skip x => (u8 1 ++ i16 x) ++ (u8 0 ++ u8 0) ++ (u8 0 ++ u8 0)
      | .gap a b => (u8 0 ++ u16 0) ++ (u8 1 ++ u8 a.toNat) ++ (u8 1 ++ u8 b.toNat) := by
  cases d <;> rfl

theorem lossReport_bytes (r : LossReport) :
    r.bytes =
      u8 r.chan.num ++ u8 (match r.detail with | .level => 1 | .skip _ => 2 | .gap _ _ => 3) ++
      u64 r.time.toNat ++ i64 r.count.toInt ++ u16 r.lastPhase.toNat ++ u8 r.lastLevel.toNat ++
      (match r.detail with
        | .level => (u8 0 ++ u16 0) ++ (u8 0 ++ u8 0) ++ (u8 0 ++ u8 0)
        | .skip x => (u8 1 ++ i16 x) ++ (u8 0 ++ u8 0) ++ (u8 0 ++ u8 0)
        | .gap a b => (u8 0 ++ u16 0) ++ (u8 1 ++ u8 a.toNat) ++ (u8 1 ++ u8 b.toNat)) := by
  rw [← lossCause_code, ← lossDetail_fields]
  simp only [LossReport.bytes, List.append_assoc]

/-- Settles O55: each request by its taking, the loss record field by field. -/
theorem noticesAreReadAcknowledgedAndEnabled : Obligations.NoticesAreReadAcknowledgedAndEnabled := by
  rintro r s n hr rfl
  refine ⟨fun hp => ?read, fun m hp => ⟨?ack, ?enable⟩, fun hp => ⟨fun hl => ?empty, fun h hl => ?held⟩⟩
  case read => exact exec_answers (k := .readNotices) (by decide) hr (takeReadNotices_spelled hp)
  case ack => exact exec_answers (k := .ackNotices) (by decide) hr (takeAckNotices_spelled hp)
  case enable => exact exec_answers (k := .setNoticeEnable) (by decide) hr (takeSetNoticeEnable_spelled hp)
  case empty => exact exec_answers (k := .readFaultDetail) (by decide) hr (takeReadFaultDetail_empty hp hl)
  case held =>
    have htaken := takeReadFaultDetail_held hp hl
    rw [lossReport_bytes] at htaken
    exact exec_answers (k := .readFaultDetail) (by decide) hr htaken

end Sys2Proof.Machine
end

section
/-! PROOFS. The client ports, the trigger queue and the rings (10-1, 5-3, 6-1): what a port's own changes and every
command leave of a port's room and progress, and the state right after device reset. -/

namespace Sys2Proof.Machine

/-! ## The changes of one client port (R178 to R186) -/

namespace Link
variable {l : Link}

/-- The receipt of a next frame leaves a list of fewer than 8 room for that frame's answer and the request in progress;
a list of 8 has room for the request in progress (R178). -/
theorem openReceipt_room (h : l.outgoing.length + l.inProgress.isSome.toNat ≤ 9) :
    l.openReceipt.outgoing.length + l.openReceipt.inProgress.isSome.toNat + l.openReceipt.mayReceive.toNat ≤ 9 := by
  have hprogress := Bool.toNat_le l.inProgress.isSome
  simp only [openReceipt, Config.linkRoom]
  by_cases hfew : l.outgoing.length < 8
  · simp only [hfew, decide_true, Bool.toNat_true]
    omega
  · simp only [hfew, decide_false, Bool.toNat_false]
    omega

theorem immediate_holds (h : l.Holds) (hm : l.mayReceive = true) (tag : Byte) (status : Status) :
    (l.immediate tag status).Holds := by
  obtain ⟨hroom, hprogress, hreset⟩ := h
  refine ⟨openReceipt_room ?_, hprogress, hreset⟩
  rw [hm, Bool.toNat_true] at hroom
  simp only [push, List.length_append, List.length_singleton]
  omega

theorem accept_holds (h : l.Holds) (hm : l.mayReceive = true) (hi : l.state = .idle) (q : Request) :
    (l.accept q).Holds := by
  obtain ⟨hroom, -, hreset⟩ := h
  rw [hm, Bool.toNat_true] at hroom
  have hnone : l.reset.isSome = true ↔ PortState.performing = .resetting := by
    rw [hreset, hi]
    decide
  refine ⟨openReceipt_room ?_, ?_, hnone⟩
  · simp only [Option.isSome_some, Bool.toNat_true]
    omega
  · simp [accept, openReceipt]

theorem finish_holds (h : l.Holds) (hp : l.inProgress.isSome = true) (tag : Byte) (reply : Reply) :
    (l.finish tag reply).Holds := by
  obtain ⟨hroom, -, -⟩ := h
  rw [hp, Bool.toNat_true] at hroom
  refine ⟨?_, by simp [finish], by simp [finish]⟩
  simp only [finish, push, List.length_append, List.length_singleton, Option.isSome_none, Bool.toNat_false]
  omega

theorem resetting_holds (h : l.Holds) (hp : l.inProgress.isSome = true) (g : ResetProgress) :
    { l with state := .resetting, reset := some g }.Holds := by
  obtain ⟨hroom, -, -⟩ := h
  exact ⟨hroom, by simp [hp], by simp⟩

/-- A response read out leaves room for one more answer. -/
theorem readOut_holds (h : l.Holds) :
    { l with outgoing := l.outgoing.tail
             mayReceive := l.mayReceive || decide (l.outgoing.tail.length < Config.linkRoom) }.Holds := by
  obtain ⟨hroom, hprogress, hreset⟩ := h
  refine ⟨?_, hprogress, hreset⟩
  by_cases hfew : l.outgoing.tail.length < Config.linkRoom
  · have hone := Bool.toNat_le l.inProgress.isSome
    simp only [hfew, decide_true, Bool.or_true, Bool.toNat_true]
    simp only [Config.linkRoom] at hfew
    omega
  · have hshorter : l.outgoing.tail.length ≤ l.outgoing.length := (List.tail_sublist _).length_le
    simp only [hfew, decide_false, Bool.or_false]
    omega

theorem endStartUp_holds (h : l.Holds) : l.endStartUp.Holds := by
  unfold endStartUp
  split
  case isTrue hs =>
    obtain ⟨hroom, hprogress, hreset⟩ := h
    rw [hs] at hprogress hreset
    exact ⟨hroom, hprogress.trans (by simp), hreset.trans (by simp)⟩
  case isFalse => exact h

theorem afterReset_holds : Link.afterReset.Holds := ⟨by decide, by decide, by decide⟩

end Link

/-! ## The links under the exchange and under a port reset -/

section
variable {s : State} {p : Port}

theorem onLink_linksHold {f : Link → Link} (hs : LinksHold s) (hf : (f (s.links.get p)).Holds) :
    LinksHold (s.onLink p f) := by
  intro q
  rw [onLink_links, PerPort.get_modify]
  split
  case isTrue hq => exact hq ▸ hf
  case isFalse => exact hs q

theorem LinksHold.of_links {t : State} (hs : LinksHold s) (h : t.links = s.links) : LinksHold t := by
  intro q
  rw [h]
  exact hs q

/-- A port with a request in progress is RESETTING from now on, or at its next step (R185). -/
theorem setProgress_linksHold (hs : LinksHold s) (hp : (s.links.get p).inProgress.isSome = true) (g : ResetProgress) :
    LinksHold (setProgress p g s) :=
  onLink_linksHold hs (Link.resetting_holds (hs p) hp g)

/-- A taking that the port of the request in progress finishes, or that goes on as a port reset. -/
theorem finishTaken_linksHold (hs : LinksHold s) (hp : (s.links.get p).inProgress.isSome = true) (k : RequestKind)
    (tag : Byte) (b : List Byte) : LinksHold (finishTaken p tag (takeKind k p b s)) := by
  cases h : takeKind k p b s with
  | answered reply t =>
    have hlinks := takeKind_links h
    refine onLink_linksHold (hs.of_links hlinks) ?_
    rw [hlinks]
    exact Link.finish_holds (hs p) hp tag reply
  | goesOn t =>
    rw [takeKind_goesOn h]
    exact setProgress_linksHold (s := resetCaptures p s) hs hp _

theorem finishTakenCode_linksHold (hs : LinksHold s) (hp : (s.links.get p).inProgress.isSome = true) (code tag : Byte)
    (b : List Byte) : LinksHold (finishTaken p tag (takeCode code p b s)) := by
  unfold takeCode
  cases RequestKind.ofCode code with
  | some k => exact finishTaken_linksHold hs hp k tag b
  | none => exact onLink_linksHold hs (Link.finish_holds (hs p) hp tag _)

/-- A request at its port, if its taking finds the request in progress there. -/
theorem requestStep_linksHold {take : Port → List Byte → State → Taken} {r : Req} (hs : LinksHold s)
    (htake : ∀ t, LinksHold t → (t.links.get r.port).inProgress.isSome = true →
      LinksHold (finishTaken r.port r.tag (take r.port r.payload t))) (code : Byte) :
    LinksHold (requestStep code take r s) := by
  unfold requestStep
  dsimp only
  split
  case h_1 =>
    split
    case isTrue hq => exact htake s hs (by rw [hq.2]; rfl)
    case isFalse => exact hs
  case h_2 =>
    split
    case isFalse => exact hs
    case isTrue hm =>
      split
      case h_1 => exact onLink_linksHold hs (Link.immediate_holds (hs r.port) hm _ _)
      case h_2 hidle =>
        have harrived := onLink_linksHold hs (Link.accept_holds (hs r.port) hm hidle ⟨r.tag, code, r.payload⟩)
        split
        · refine htake _ harrived ?_
          rw [onLink_links, PerPort.get_modify_self]
          rfl
        · exact harrived
      case h_3 => exact onLink_linksHold hs (Link.immediate_holds (hs r.port) hm _ _)

/-- A step of a port reset, which a RESETTING port alone takes: its request is still in progress. -/
theorem atResetStep_linksHold {step : ResetStep} {f : ResetProgress → State → State} (hs : LinksHold s)
    (hf : ∀ g, (s.links.get p).inProgress.isSome = true → LinksHold (f g s)) : LinksHold (atResetStep p step f s) := by
  unfold atResetStep
  split
  case h_1 g hstate _ =>
    split
    · obtain ⟨-, hprogress, -⟩ := hs p
      exact hf g (hprogress.2 (.inr hstate))
    · exact hs
  case h_2 => exact hs

/-- A step of a port reset whose act on the blocks leaves the links. -/
theorem progressStep_linksHold {step : ResetStep} {g : ResetProgress → State → ResetProgress} {act : State → State}
    (hs : LinksHold s) (hact : (act s).links = s.links) :
    LinksHold (atResetStep p step (fun x t => setProgress p (g x t) (act t)) s) :=
  atResetStep_linksHold hs fun _ hp => setProgress_linksHold (hs.of_links hact) (by rw [hact]; exact hp) _

end

/-! ## Every command -/

/-- An event that leaves the links where it takes place, and changes nothing elsewhere. -/
theorem ite_linksHold {c : Prop} [Decidable c] {s t : State} (hs : LinksHold s) (h : t.links = s.links) :
    LinksHold (if c then t else s) := by
  split
  · exact hs.of_links h
  · exact hs

theorem linksHold_reset : LinksHold State.reset := by
  intro p
  dsimp only [State.reset]
  rw [PerPort.get_const]
  exact Link.afterReset_holds

/-- What every command leaves of the client ports: the blocks' own events leave them as they were, the frames and the
steps of a port reset change one of them, and a device reset sets them all. -/
theorem exec_linksHold {s : State} (hs : LinksHold s) (i : Instr) : ∃ t, exec i s = .next t ∧ LinksHold t := by
  have block {f : State → State} (hb : ∀ L P u, f (u.withBoundary L P) = (f u).withBoundary L P) (u : State) :
      (f u).links = u.links := (boundary_kept hb u).1
  have coded (code : Byte) (r : Req) : LinksHold (requestStep code (takeCode code) r s) :=
    requestStep_linksHold hs (fun _ ht hp => finishTakenCode_linksHold ht hp code r.tag r.payload) code
  have request (k : RequestKind) (r : Req) : ∃ t, exec (k.command r) s = .next t ∧ LinksHold t :=
    ⟨_, exec_command k r s,
      requestStep_linksHold hs (fun _ ht hp => finishTaken_linksHold ht hp k r.tag r.payload) k.code⟩
  cases i with
  | sampleFrame c bytes =>
    cases h : sampleOf bytes with
    | some f => exact ⟨_, exec_goodSample h c s, hs.of_links (block (goodFrame_withBoundary · · c f) s)⟩
    | none => exact ⟨_, exec_badSample h c s, hs⟩
  | edge j e => exact ⟨_, rfl, ite_linksHold hs (block (takeEdge_withBoundary · · j) s)⟩
  | holdOffExpiry j => exact ⟨_, rfl, ite_linksHold hs rfl⟩
  | stillnessExpiry c => exact ⟨_, rfl, ite_linksHold hs (block (settleEntered_withBoundary · · c) _)⟩
  | pinHoldExpiry c p => exact ⟨_, rfl, ite_linksHold hs (block (expirePin_withBoundary · · c p) s)⟩
  | completionEnd =>
    refine ⟨_, rfl, hs.of_links ?_⟩
    split <;> rfl
  | syncPulseEnd => exact ⟨_, rfl, ite_linksHold hs rfl⟩
  | deviceReset => exact ⟨_, rfl, linksHold_reset⟩
  | endOfStartUp =>
    refine ⟨_, rfl, fun p => ?_⟩
    dsimp only
    rw [PerPort.get_ofFn]
    exact Link.endStartUp_holds (hs p)
  | badFrame p bytes =>
    refine ⟨_, rfl, ?_⟩
    cases requestOf bytes with
    | none =>
      unfold badRequestFrame
      dsimp only
      split
      case isTrue hm => exact onLink_linksHold hs (Link.immediate_holds (hs p) hm _ _)
      case isFalse => exact hs
    | some q => exact coded q.code ⟨p, q.tag, q.payload, .whole⟩
  | badRequest code r => exact ⟨_, rfl, coded code r⟩
  | responseReadOut p => exact ⟨_, rfl, onLink_linksHold hs (Link.readOut_holds (hs p))⟩
  | portResetSequencerStep p =>
    exact ⟨_, rfl, progressStep_linksHold hs (block (resetClaim_withBoundary · · p) s)⟩
  | portResetCompensationStep p => exact ⟨_, rfl, progressStep_linksHold hs (removePins_links _ _ s)⟩
  | portResetCompareStep p => exact ⟨_, rfl, progressStep_linksHold (act := resetPoints p) hs rfl⟩
  | portResetContextStep p => exact ⟨_, rfl, progressStep_linksHold (act := resetContext p) hs rfl⟩
  | peerReset p =>
    refine ⟨_, rfl, atResetStep_linksHold hs fun g hp => ?_⟩
    exact onLink_linksHold (s := postOthers .peerReset p s) hs (Link.finish_holds (hs p) hp _ _)
  | busyAnswer p tag code payload => exact ⟨_, rfl, coded code ⟨p, tag, payload, .whole⟩⟩
  | startingAnswer p tag code payload => exact ⟨_, rfl, coded code ⟨p, tag, payload, .whole⟩⟩
  | readChannel r => exact request .readChannel r
  | configureChannel r => exact request .configureChannel r
  | enableChannel r => exact request .enableChannel r
  | disableChannel r => exact request .disableChannel r
  | recoverChannel r => exact request .recoverChannel r
  | readStillness r => exact request .readStillness r
  | setCompensation r => exact request .setCompensation r
  | pinCompensation r => exact request .pinCompensation r
  | unpinCompensation r => exact request .unpinCompensation r
  | readCompensation r => exact request .readCompensation r
  | setOrigin r => exact request .setOrigin r
  | clearOrigin r => exact request .clearOrigin r
  | readPosition r => exact request .readPosition r
  | readCounters r => exact request .readCounters r
  | configureInput r => exact request .configureInput r
  | captureNow r => exact request .captureNow r
  | armSettle r => exact request .armSettle r
  | cancelSettle r => exact request .cancelSettle r
  | readCaptureStatus r => exact request .readCaptureStatus r
  | startRing r => exact request .startRing r
  | stopRing r => exact request .stopRing r
  | clearRing r => exact request .clearRing r
  | setRingPolicy r => exact request .setRingPolicy r
  | setSubscription r => exact request .setSubscription r
  | takeRecords r => exact request .takeRecords r
  | peekRecords r => exact request .peekRecords r
  | readRingStatus r => exact request .readRingStatus r
  | claimSequencer r => exact request .claimSequencer r
  | releaseSequencer r => exact request .releaseSequencer r
  | forceRelease r => exact request .forceRelease r
  | loadLines r => exact request .loadLines r
  | clearLines r => exact request .clearLines r
  | startScan r => exact request .startScan r
  | stopScan r => exact request .stopScan r
  | readSequencer r => exact request .readSequencer r
  | addPoint r => exact request .addPoint r
  | removePoint r => exact request .removePoint r
  | clearPoints r => exact request .clearPoints r
  | readPoints r => exact request .readPoints r
  | readNotices r => exact request .readNotices r
  | ackNotices r => exact request .ackNotices r
  | setNoticeEnable r => exact request .setNoticeEnable r
  | readFaultDetail r => exact request .readFaultDetail r
  | identify r => exact request .identify r
  | portReset r => exact request .portReset r

/-! ## Every step -/

theorem step_keeps_links {s t : State} (hs : LinksHold s) (h : step s = .next t) : LinksHold t := by
  unfold step at h
  split at h
  case h_1 c rest _ =>
    obtain ⟨u, hu, hholds⟩ := exec_linksHold (s := { s with pending := rest }) hs c
    rw [hu] at h
    cases h
    exact hholds
  case h_2 =>
    cases h
    unfold idleStep
    split
    · exact hs
    · exact hs

theorem queueHolds_reset : QueueHolds State.reset := ⟨by decide, by decide, by decide, by decide, by decide⟩

theorem ringsHold_reset : RingsHold State.reset := by
  intro p
  dsimp only [State.reset]
  rw [PerPort.get_const]
  exact ⟨by decide, by decide, by decide, by decide, by decide, fun _ => rfl, nofun⟩

theorem step_keeps_queue {s t : State} (hs : QueueHolds s) (h : step s = .next t) : QueueHolds t :=
  step_keeps (I := QueueHolds) (fun _ _ _ k => k) effect_keeps_queue (fun _ k => k) queueHolds_reset (fun _ _ k => k)
    hs h

theorem step_keeps_rings {s t : State} (hs : RingsHold s) (h : step s = .next t) : RingsHold t :=
  step_keeps (I := RingsHold) (fun _ _ _ k => k) effect_keeps_rings (fun _ k => k) ringsHold_reset (fun _ _ k => k)
    hs h

/-- Settles O5: the ports by what each command leaves of them, the queue and the rings by every effect. -/
theorem everyStepKeepsPortsQueueAndRingsWithinTheirRoom :
    Obligations.EveryStepKeepsPortsQueueAndRingsWithinTheirRoom :=
  ⟨fun _ _ => step_keeps_links, fun _ _ => step_keeps_queue, fun _ _ => step_keeps_rings⟩

/-- Settles O9: the invariants of every chapter at its reset values. -/
theorem resetMeetsEveryInvariant : Obligations.ResetMeetsEveryInvariant :=
  ⟨linksHold_reset, queueHolds_reset, ringsHold_reset, stillHolds_reset, storeHolds_reset, scanHolds_reset,
    decisionsHold_reset, tableHolds_reset⟩

end Sys2Proof.Machine
end

section
/-! PROOFS. Request frames (R179, R190): the bytes that pass the frame check are those that spell a request, and they
decode to its command. -/

namespace Sys2Proof.Machine

/-! ## Byte order (R189) -/

/-- Bytes are those of the number they spell. -/
theorem leBytes_leNat (bs : List Byte) : leBytes bs.length (leNat bs) = bs := by
  induction bs with
  | nil => rfl
  | cons b bs ih =>
    have hb := b.isLt
    have hlow : BitVec.ofNat 8 (b.toNat + 256 * leNat bs) = b := by
      apply BitVec.eq_of_toNat_eq
      rw [BitVec.toNat_ofNat]
      omega
    have hhigh : (b.toNat + 256 * leNat bs) / 256 = leNat bs := by omega
    rw [List.length_cons, leNat, leBytes, hlow, hhigh, ih]

/-! ## The frame check (R179) -/

/-- The check of the bytes after the header: as many as the length says, and then the CRC. -/
theorem requestOf_header {tag code l0 l1 : Byte} {rest : List Byte} {q : Request} :
    requestOf (tag :: code :: l0 :: l1 :: rest) = some q ↔
      (leNat [l0, l1] ≤ 4095 ∧ rest.length = leNat [l0, l1] + 2 ∧
        rest.drop (leNat [l0, l1]) = crc16Bytes (tag :: code :: l0 :: l1 :: rest.take (leNat [l0, l1]))) ∧
      ⟨tag, code, rest.take (leNat [l0, l1])⟩ = q := by
  rw [requestOf, Option.ite_none_right_eq_some, Option.some.injEq]
  rfl

/-- A spelled frame, its header byte by byte. -/
theorem frameBytes_eq (tag code : Byte) (payload : List Byte) :
    frameBytes tag code payload =
      tag :: code :: BitVec.ofNat 8 payload.length :: BitVec.ofNat 8 (payload.length / 256) ::
        (payload ++ crc16Bytes (frameBody tag code payload)) := rfl

/-- The length field spells every payload length that a frame may have. -/
theorem lengthField {n : Nat} (h : n ≤ 4095) : leNat [BitVec.ofNat 8 n, BitVec.ofNat 8 (n / 256)] = n := by
  have hfield := leNat_leBytes 2 n
  rwa [Nat.mod_eq_of_lt (by omega)] at hfield

theorem requestOf_frameBytes {q : Request} (h : q.payload.length ≤ 4095) :
    requestOf (frameBytes q.tag q.code q.payload) = some q := by
  rw [frameBytes_eq, requestOf_header, lengthField h, List.take_left, List.drop_left]
  exact ⟨⟨h, by simp [crc16Bytes], rfl⟩, rfl⟩

/-- Bytes that pass the check are the frame of the request they hold. -/
theorem frameBytes_of_requestOf {bytes : List Byte} {q : Request} (h : requestOf bytes = some q) :
    q.payload.length ≤ 4095 ∧ bytes = frameBytes q.tag q.code q.payload := by
  match bytes, h with
  | tag :: code :: l0 :: l1 :: rest, h =>
    obtain ⟨⟨hroom, hlength, hcrc⟩, rfl⟩ := requestOf_header.1 h
    have hpayload : (rest.take (leNat [l0, l1])).length = leNat [l0, l1] := by
      rw [List.length_take]
      omega
    have hfield : leBytes 2 (leNat [l0, l1]) = [l0, l1] := leBytes_leNat [l0, l1]
    refine ⟨hpayload.trans_le hroom, ?_⟩
    rw [frameBytes, frameBody, hpayload, hfield]
    simp only [List.cons_append, List.nil_append, ← hcrc, List.take_append_drop]

theorem requestOf_iff (bytes : List Byte) (q : Request) :
    requestOf bytes = some q ↔ q.payload.length ≤ 4095 ∧ bytes = frameBytes q.tag q.code q.payload :=
  ⟨frameBytes_of_requestOf, fun ⟨hroom, hbytes⟩ => hbytes ▸ requestOf_frameBytes hroom⟩

/-! ## Decoding (R181, R190) -/

theorem decodeFrame_encodeRequest (k : RequestKind) (r : Req) (h : r.payload.length ≤ 4095) :
    decodeFrame r.port (encodeRequest k r) = k.command { r with stage := .whole } := by
  have hframe : requestOf (encodeRequest k r) = some ⟨r.tag, k.code, r.payload⟩ :=
    requestOf_frameBytes (q := ⟨r.tag, k.code, r.payload⟩) h
  simp only [decodeFrame, hframe, RequestKind.ofCode_code]

/-- Settles O4: the frame check inverts the spelling, and the code names the request. -/
theorem requestFramesDecodeToTheirCommands : Obligations.RequestFramesDecodeToTheirCommands := by
  refine ⟨fun k r hstage hroom => ?_, requestOf_iff⟩
  rw [decodeFrame_encodeRequest k r hroom, ← hstage]

end Sys2Proof.Machine
end

section
/-! PROOFS. The exchange of a request with its port (10-1, 10-2): what a port answers at once, the arrival and the
taking of a request, and IDENTIFY. -/

namespace Sys2Proof.Machine

/-! ## Immediate answers (R179, R180) -/

theorem onLink_immediate (p : Port) (tag : Byte) (status : Status) (s : State) :
    s.onLink p (Link.immediate tag status) = answeredAtOnce p tag status s := by
  unfold answeredAtOnce
  congr 1
  funext l
  simp only [Link.immediate, Link.push, Link.openReceipt, Config.linkRoom, List.length_append, List.length_singleton]

theorem exec_badFrame {p : Port} {bytes : List Byte} {s : State} (hbad : requestOf bytes = none)
    (hm : (s.links.get p).mayReceive = true) :
    exec (.badFrame p bytes) s = .next (answeredAtOnce p (bytes.headD 0) .badFrame s) := by
  simp only [exec, execBadFrame, hbad, badRequestFrame, hm, if_true, onLink_immediate, badFrameTag, performed]

/-! ## Arrival and taking (R180, R181) -/

section
variable {code : Byte} {take : Port → List Byte → State → Taken} {r : Req} {s : State}

/-- The whole frame at an IDLE port: its arrival, and the taking in the state that this leaves. -/
theorem requestStep_whole (hr : Ready r s) :
    requestStep code take r s = finishTaken r.port r.tag (take r.port r.payload
      (s.onLink r.port (Link.accept ⟨r.tag, code, r.payload⟩))) := by
  obtain ⟨hstage, hm, hidle⟩ := hr
  simp only [requestStep, hstage, hm, hidle, if_true]

theorem requestStep_arrival (hr : Ready r s) :
    requestStep code take { r with stage := .arrival } s =
      s.onLink r.port (Link.accept ⟨r.tag, code, r.payload⟩) := by
  obtain ⟨-, hm, hidle⟩ := hr
  simp only [requestStep, hm, hidle, if_true, reduceCtorEq, if_false]

theorem requestStep_taking (hstate : (s.links.get r.port).state = .performing)
    (hq : (s.links.get r.port).inProgress = some ⟨r.tag, code, r.payload⟩) :
    requestStep code take { r with stage := .taking } s = finishTaken r.port r.tag (take r.port r.payload s) := by
  simp only [requestStep, hstate, hq, and_self, if_true]

/-- The taking of the request that has just arrived leaves what the whole request leaves (log entry 4). -/
theorem requestStep_arrivalThenTaking (hr : Ready r s) :
    requestStep code take { r with stage := .taking } (s.onLink r.port (Link.accept ⟨r.tag, code, r.payload⟩)) =
      requestStep code take r s := by
  have hlink : (s.onLink r.port (Link.accept ⟨r.tag, code, r.payload⟩)).links.get r.port =
      (s.links.get r.port).accept ⟨r.tag, code, r.payload⟩ := PerPort.get_modify_self ..
  rw [requestStep_whole hr, requestStep_taking (by rw [hlink]; rfl) (by rw [hlink]; rfl)]

/-- A frame whose receipt the link has not accepted does not arrive (R178; log entry 6). -/
theorem requestStep_notReceived (hstage : r.stage ≠ .taking) (hm : (s.links.get r.port).mayReceive = false) :
    requestStep code take r s = s := by
  unfold requestStep
  cases h : r.stage with
  | taking => exact absurd h hstage
  | whole | arrival => simp only [hm, Bool.false_eq_true, if_false]

/-- A request that is refused whatever the state is answered so, and nothing else has changed. -/
theorem requestStep_refused {status : Status} {detail : List Byte} (hr : Ready r s)
    (h : ∀ u, take r.port r.payload u = refuse status detail u) :
    requestStep code take r s = replied r status detail s := by
  have hsame : requestStep code take r s = requestStep code (fun _ _ => refuse status detail) r s := by
    simp only [requestStep_whole hr, h]
  rw [hsame]
  exact requestStep_ready (take := fun _ _ => refuse status detail) (reply := ⟨status, detail⟩)
    (fun _ _ _ _ _ => rfl) hr rfl

end

theorem exec_refused {k : RequestKind} {r : Req} {s : State} {status : Status} {detail : List Byte} (hr : Ready r s)
    (h : ∀ u, takeKind k r.port r.payload u = refuse status detail u) :
    exec (k.command r) s = .next (replied r status detail s) := by
  rw [exec_command, requestStep_refused hr h]

theorem takeCode_none {code : Byte} (h : ∀ k : RequestKind, k.code ≠ code) (p : Port) (b : List Byte) (s : State) :
    takeCode code p b s = refuse .badRequest [] s := by
  rw [takeCode, ofCode_none h]

/-- Settles O57: each answer by the state of the port that the frame finds. -/
theorem framesAreAnsweredByThePortState : Obligations.FramesAreAnsweredByThePortState := by
  refine ⟨fun p bytes s => exec_badFrame, fun k p tag code payload s st hst hm => ?atOnce, fun k r s hr => ?exchange,
    fun code r s hr hcode => ?badRequest, fun k r s hstage hm => ?notReceived, fun p s => rfl⟩
  case atOnce =>
    have hwhole := requestStep_atOnce code (takeCode code) p tag payload s .whole (by decide) hm
    have hkind := requestStep_atOnce k.code (takeKind k) p tag payload s st hst hm
    rw [exec_command]
    exact ⟨fun h => ⟨congrArg performed (hwhole.1 h), congrArg performed (hkind.1 h)⟩,
      fun h => ⟨congrArg performed (hwhole.2 h), congrArg performed (hkind.2 h)⟩⟩
  case exchange =>
    refine ⟨_, rfl, ?_, ?_⟩
    · rw [exec_command, requestStep_arrival hr]
      rfl
    · rw [exec_command, exec_command, ← requestStep_arrivalThenTaking hr]
      rfl
  case badRequest => exact congrArg performed (requestStep_refused hr (takeCode_none hcode r.port r.payload))
  case notReceived => rw [exec_command, requestStep_notReceived hstage hm]

/-! ## IDENTIFY (R188) -/

theorem port_num_eq (p : Port) : p.num = match p with | .p0 => 0 | .p1 => 1 | .p2 => 2 := by
  cases p <;> rfl

theorem takeIdentify_spelled {p : Port} {b : List Byte} {s : State} (hb : b = []) :
    takeIdentify p b s =
      done (u16 0x0FC6 ++ u8 1 ++ u8 (match p with | .p0 => 0 | .p1 => 1 | .p2 => 2)) s := by
  rw [takeIdentify, if_pos (by rw [hb]; rfl), port_num_eq]
  rfl

/-- Settles O56: IDENTIFY is done at once, with the constants of the silicon. -/
theorem identifyNamesThePartAndThePort : Obligations.IdentifyNamesThePartAndThePort := by
  intro r s hr hp
  exact exec_answers (k := .identify) (by decide) hr (takeIdentify_spelled hp)

end Sys2Proof.Machine
end

section
/-! PROOFS. Refusals (10-2): what the takings refuse before they do anything, and that a refusal leaves the state. -/

namespace Sys2Proof.Machine

/-! ## Payloads that do not fit (R181, R189) -/

/-- The number of payload bytes that a request must have; LOAD LINES takes its own from its entry count (R129). -/
def RequestKind.payloadLength : RequestKind → Option Nat
  | .configureChannel => some 12
  | .setCompensation => some 9
  | .setOrigin => some 10
  | .configureInput => some 5
  | .startScan => some 4
  | .addPoint => some 17
  | .pinCompensation | .readSequencer => some 3
  | .recoverChannel | .setRingPolicy | .peekRecords | .ackNotices | .setNoticeEnable => some 2
  | .readChannel | .enableChannel | .disableChannel | .readStillness | .unpinCompensation | .readCompensation
  | .clearOrigin | .readPosition | .readCounters | .armSettle | .setSubscription | .takeRecords | .removePoint
  | .clearPoints => some 1
  | .captureNow | .cancelSettle | .readCaptureStatus | .startRing | .stopRing | .clearRing | .readRingStatus
  | .claimSequencer | .releaseSequencer | .forceRelease | .clearLines | .stopScan | .readPoints | .readNotices
  | .readFaultDetail | .identify | .portReset => some 0
  | .loadLines => none

/-- A list of the lengths that names some request's. -/
theorem payloadLength_of_mem {lengths : List (RequestKind × Nat)} (h : ∀ x ∈ lengths, x.1.payloadLength = some x.2)
    {k : RequestKind} {n : Nat} (hmem : (k, n) ∈ lengths) : k.payloadLength = some n := h (k, n) hmem

/-- Every taking judges the length of its payload first. -/
theorem takeKind_badLength {k : RequestKind} {n : Nat} {b : List Byte} (hk : k.payloadLength = some n)
    (hb : b.length ≠ n) (p : Port) (s : State) : takeKind k p b s = badValue s := by
  cases k with
  | loadLines => nomatch hk
  | _ =>
    cases hk
    exact if_neg hb

/-! ## Channel numbers and channel masks (R181, R189) -/

theorem chanAt_tooHigh {x : Byte} (rest : List Byte) (hx : 6 ≤ x.toNat) : chanAt (x :: rest) 0 = none := by
  rw [chanAt, numAt_byte, Chan.ofNum, List.getElem?_eq_none_iff]
  exact hx

theorem chanMaskAt_unfit {x : Byte} (rest : List Byte) (hx : x = 0 ∨ 64 ≤ x.toNat) :
    chanMaskAt (x :: rest) 0 = none := by
  have hrange : x.toNat = 0 ∨ 64 ≤ x.toNat := hx.imp_left fun h => by rw [h]; rfl
  simp only [chanMaskAt, numAt_byte, if_pos hrange]

theorem withChannel_none {n : Nat} {b : List Byte} {s : State} (f : Chan → Taken) (h : chanAt b 0 = none) :
    withChannel n b s f = badValue s := by
  rw [withChannel, h, ite_self]

theorem withMask_none {n : Nat} {b : List Byte} {s : State} (f : ChanMask → Taken) (h : chanMaskAt b 0 = none) :
    withMask n b s f = badValue s := by
  rw [withMask, h, ite_self]

theorem takeKind_badChannel {k : RequestKind} {b : List Byte} (h : chanAt b 0 = none) (p : Port) (s : State)
    (hk : k = .readChannel ∨ k = .configureChannel ∨ k = .enableChannel ∨ k = .disableChannel ∨ k = .recoverChannel) :
    takeKind k p b s = badValue s := by
  rcases hk with rfl | rfl | rfl | rfl | rfl <;> exact withChannel_none _ h

theorem takeKind_badMask {k : RequestKind} {b : List Byte} (h : chanMaskAt b 0 = none) (p : Port) (s : State)
    (hk : k = .readStillness ∨ k = .setCompensation ∨ k = .pinCompensation ∨ k = .unpinCompensation ∨
      k = .readCompensation ∨ k = .setOrigin ∨ k = .clearOrigin ∨ k = .readPosition ∨ k = .armSettle) :
    takeKind k p b s = badValue s := by
  rcases hk with rfl | rfl | rfl | rfl | rfl | rfl | rfl | rfl | rfl <;> exact withMask_none _ h

/-- Settles O58: the three checks come before everything else that a taking looks at. -/
theorem payloadsThatDoNotFitAreRefused : Obligations.PayloadsThatDoNotFitAreRefused := by
  intro k r s n hr hmem
  have refused (h : ∀ u, takeKind k r.port r.payload u = badValue u) :
      exec (k.command r) s = .next (replied r .badValue [] s) := exec_refused hr h
  refine ⟨fun hlength => ?length, fun x rest hp _ => ⟨fun hk hx => ?channel, fun hk hx => ?mask⟩⟩
  case length =>
    exact refused (takeKind_badLength (payloadLength_of_mem (by decide) hmem) hlength r.port)
  case channel => exact refused fun u => takeKind_badChannel (hp ▸ chanAt_tooHigh rest hx) r.port u hk
  case mask => exact refused fun u => takeKind_badMask (hp ▸ chanMaskAt_unfit rest hx) r.port u hk

/-! ## A taking that refuses changes nothing (R182) -/

/-- The taking answers, and with another status than DONE it has left the state as it was. -/
def Taken.RefusesOrDone (s : State) : Taken → Prop
  | .answered reply t => reply.status ≠ .done → t = s
  | .goesOn _ => False

section
variable {s : State}

@[simp] theorem done_refusesOrDone (b : List Byte) (t : State) : (done b t).RefusesOrDone s :=
  fun h => absurd rfl h

@[simp] theorem refuse_refusesOrDone (status : Status) (b : List Byte) : (refuse status b s).RefusesOrDone s :=
  fun _ => rfl

@[simp] theorem badValue_refusesOrDone : (badValue s).RefusesOrDone s := refuse_refusesOrDone _ _

theorem ite_refusesOrDone {c : Prop} [Decidable c] {a b : Taken} (ha : a.RefusesOrDone s) (hb : b.RefusesOrDone s) :
    (if c then a else b).RefusesOrDone s := by
  split
  · exact ha
  · exact hb

/-- A payload of the right length is done, another refused. -/
theorem done_or_badValue {c : Prop} [Decidable c] (b : List Byte) (t : State) :
    (if c then done b t else badValue s).RefusesOrDone s :=
  ite_refusesOrDone (done_refusesOrDone b t) badValue_refusesOrDone

theorem withChannel_refusesOrDone {n : Nat} {b : List Byte} {f : Chan → Taken} (h : ∀ c, (f c).RefusesOrDone s) :
    (withChannel n b s f).RefusesOrDone s := by
  unfold withChannel
  cases chanAt b 0 with
  | some c => exact ite_refusesOrDone (h c) badValue_refusesOrDone
  | none => exact ite_refusesOrDone badValue_refusesOrDone badValue_refusesOrDone

theorem withMask_refusesOrDone {n : Nat} {b : List Byte} {f : ChanMask → Taken} (h : ∀ m, (f m).RefusesOrDone s) :
    (withMask n b s f).RefusesOrDone s := by
  unfold withMask
  cases chanMaskAt b 0 with
  | some m => exact ite_refusesOrDone (h m) badValue_refusesOrDone
  | none => exact ite_refusesOrDone badValue_refusesOrDone badValue_refusesOrDone

/-- The checks of START SCAN at CH0, CH1 and the first window (R132). -/
theorem checkAndStart_refusesOrDone (p : Port) (dir : ScanDir) (first : Nat) (strays : Bool) (e : LineEntry) :
    (checkAndStart p dir first strays e s).RefusesOrDone s := by
  unfold checkAndStart
  cases lowerFailing (fun c => (s.chans.get c).state == .tracking) with
  | some c => exact refuse_refusesOrDone _ _
  | none =>
    cases lowerFailing (fun c => ((s.origins.get p).get c).status != .stale) with
    | some c => exact refuse_refusesOrDone _ _
    | none =>
      cases lowerFailing (fun c => (s.comp.get c).weight != 0) with
      | some c => exact refuse_refusesOrDone _ _
      | none =>
        cases s.line p with
        | none => exact refuse_refusesOrDone _ _
        | some l => exact ite_refusesOrDone (refuse_refusesOrDone _ _) (done_refusesOrDone _ _)

/-- Every taking but a PORT RESET that starts ends in an answer: DONE, or a refusal in the state that it found. -/
theorem takeKind_refusesOrDone {k : RequestKind} {b : List Byte} (hk : k = .portReset → b ≠ []) (p : Port)
    (s : State) : (takeKind k p b s).RefusesOrDone s := by
  cases k with
  | portReset =>
    rw [takeKind_badLength (n := 0) rfl fun h => hk rfl (List.length_eq_zero_iff.1 h)]
    exact badValue_refusesOrDone
  | readChannel => exact withChannel_refusesOrDone fun _ => done_refusesOrDone _ _
  | configureChannel | recoverChannel =>
    refine withChannel_refusesOrDone fun c => ite_refusesOrDone ?_ (refuse_refusesOrDone _ _)
    split
    · exact done_refusesOrDone _ _
    · exact badValue_refusesOrDone
  | enableChannel =>
    exact withChannel_refusesOrDone fun c => ite_refusesOrDone (done_refusesOrDone _ _) (refuse_refusesOrDone _ _)
  | disableChannel =>
    exact withChannel_refusesOrDone fun c => ite_refusesOrDone (done_refusesOrDone _ _) (done_refusesOrDone _ _)
  | readStillness | setCompensation | unpinCompensation | readCompensation | readPosition =>
    exact withMask_refusesOrDone fun _ => done_refusesOrDone _ _
  | pinCompensation =>
    exact withMask_refusesOrDone fun m => ite_refusesOrDone badValue_refusesOrDone (done_refusesOrDone _ _)
  | clearOrigin =>
    exact withMask_refusesOrDone fun m => ite_refusesOrDone (refuse_refusesOrDone _ _) (done_refusesOrDone _ _)
  | setOrigin | armSettle =>
    refine withMask_refusesOrDone fun m => ?_
    dsimp only
    repeat' split
    all_goals simp
  | captureNow | cancelSettle | readCaptureStatus | startRing | stopRing | clearRing | readRingStatus | readPoints
  | readNotices | ackNotices | setNoticeEnable | readFaultDetail | identify =>
    exact done_or_badValue _ _
  | _ =>
    simp only [takeKind, takeReadCounters, takeConfigureInput, takeSetRingPolicy, takeSetSubscription,
      takeTakeRecords, takePeekRecords, takeClaimSequencer, takeReleaseSequencer, takeForceRelease, takeLoadLines,
      takeClearLines, takeStartScan, takeStopScan, takeReadSequencer, takeAddPoint, takeRemovePoint, takeClearPoints]
    repeat' split
    all_goals simp [checkAndStart_refusesOrDone]

end

/-- Settles O14: the taking answers, and a refusal has left the state it found. -/
theorem aRefusedRequestChangesNothingElse : Obligations.ARefusedRequestChangesNothingElse := by
  intro k r s hr hk
  by_cases hreset : k = .portReset
  · have hlength : r.payload.length ≠ 0 := fun h => hk hreset (List.length_eq_zero_iff.1 h)
    exact ⟨.badValue, [], s, exec_refused hr fun u => takeKind_badLength (hreset ▸ rfl) hlength r.port u, fun _ => rfl⟩
  · have hends := takeKind_refusesOrDone hk r.port s
    cases htaken : takeKind k r.port r.payload s with
    | answered reply t =>
      rw [htaken] at hends
      exact ⟨reply.status, reply.payload, t, exec_answers hreset hr htaken, hends⟩
    | goesOn t =>
      rw [htaken] at hends
      exact hends.elim

end Sys2Proof.Machine
end

section
/-! PROOFS. PORT RESET (10-5): its taking with step 1, the later steps one by one, and the answer at the last. -/

namespace Sys2Proof.Machine

/-! ## Step 1 (R92, R96, R123, R185) -/

section
variable {p q : Port} {s : State}

theorem unroute_routedEntries (hq : q ≠ p) : (unroute p s).routedEntries q = s.routedEntries q := by
  have hroute (e : QueueEntry) : (e.route.set p false).get q = e.route.get q := e.route.get_set_ne _ hq
  simp only [unroute, State.routedEntries, List.filter_map, List.length_map, Function.comp_def, hroute]

theorem resetCaptures_ownRing : (resetCaptures p s).rings.get p = Ring.reset := by
  simp only [resetCaptures, reportRouting, PerPort.get_ofFn, PerPort.get_set_self]
  exact if_neg fun h => absurd h.1 (by decide)

/-- Another port's ring: DRAINING, it becomes STOPPED where no entry routes to it (R92, R111). -/
theorem resetCaptures_otherRing (hq : q ≠ p) :
    (resetCaptures p s).rings.get q =
      if (s.rings.get q).state = .draining ∧ ∀ e ∈ s.queue, e.route.get q = false
        then { s.rings.get q with state := .stopped } else s.rings.get q := by
  have hring : (s.rings.set p Ring.reset).get q = s.rings.get q := s.rings.get_set_ne _ hq
  have hrouted : (unroute p s).routedEntries q = 0 ↔ ∀ e ∈ s.queue, e.route.get q = false := by
    rw [unroute_routedEntries hq, routedEntries_eq_zero_iff]
  simp only [resetCaptures, reportRouting, PerPort.get_ofFn, hring, ← hrouted]
  rfl

/-! ## The later steps (R151, R61, R166, R78, R173, R177) -/

theorem claimOutcome_eq :
    claimOutcome p s =
      if s.seq.claimant = some p then (if s.seq.state = .tracking then .halted else .released) else .none := by
  simp only [claimOutcome, State.scanning, beq_iff_eq]

theorem resetClaim_other (h : s.seq.claimant ≠ some p) : resetClaim p s = s := if_neg h

theorem resetClaim_own (h : s.seq.claimant = some p) :
    resetClaim p s = (if s.seq.state = .tracking then halt .claimLost s else s).onSeq
      (fun q => { q with state := .unclaimed, claimant := none, lines := [] }) := by
  rw [resetClaim, if_pos h, haltIfScanning]
  simp only [State.scanning, beq_iff_eq]
  rfl

theorem appliedBetween_has (before after : State) (c : Chan) :
    maskHas (appliedBetween before after) c =
      ((before.comp.get c).slot.isSome && (after.comp.get c).slot.isNone) := by
  rw [appliedBetween, maskOf_has, Bool.eq_iff_iff, decide_eq_true_eq, List.mem_filter]
  exact and_iff_right (Chan.mem_all c)

theorem clearedBy_unkept (pt : Point) : clearedBy p false pt = (pt.owner == p && !pt.kept) := rfl

/-- The points that a port still owns after its reset are those that it keeps. -/
theorem resetPoints_owned :
    (resetPoints p s).owned p = (s.points.filter (fun pt => pt.owner == p && pt.kept)).length := by
  simp only [resetPoints, removePoints, State.owned, List.filter_filter, clearedBy_unkept]
  congr 2
  funext pt
  cases pt.owner == p <;> cases pt.kept <;> rfl

end

/-! ## The answer (R186) -/

/-- The answer, its conditional fields by whether there was an arm and a latch, and by what became of the claim. -/
theorem resetProgress_bytes (g : ResetProgress) :
    g.bytes =
      u8 g.routed ++ u8 g.discarded ++
      (match g.arm with
        | none => u8 0 ++ (u8 0 ++ u8 0)
        | some m => u8 1 ++ (u8 1 ++ u8 m.toNat)) ++
      u8 (match g.claim with | .none => 0 | .released => 1 | .halted => 2) ++ u8 g.pins ++ u8 g.applied.toNat ++
      u8 g.unkept ++ u8 g.kept ++
      (match g.latch with
        | none => u8 0 ++ (u8 0 ++ u8 0)
        | some n => u8 1 ++ (u8 1 ++ u8 n)) := by
  simp only [ResetProgress.bytes, List.append_assoc]
  cases g.arm <;> cases g.claim <;> cases g.latch <;> rfl

/-! ## The steps as commands (R185) -/

section
variable {p : Port} {s : State}

/-- The taking of PORT RESET: step 1, and the port RESETTING with what it gave up. -/
theorem exec_portReset {r : Req} (hr : Ready r s) (hp : r.payload = []) :
    exec (.portReset r) s = .next (State.onLink (resetCaptures r.port s) r.port (fun l =>
      { l.accept ⟨r.tag, 0x61, []⟩ with state := .resetting, reset := some (firstProgress s r.port) })) := by
  have htaken (u : State) : takePortReset r.port r.payload u =
      .goesOn (setProgress r.port (firstProgress u r.port) (resetCaptures r.port u)) :=
    if_pos (by rw [hp]; rfl)
  refine congrArg performed ((requestStep_whole hr).trans ?_)
  rw [htaken, finishTaken, hp]
  simp only [setProgress, onLink_eq_withBoundary, resetCaptures_withBoundary, withBoundary_links, modify_modify,
    withBoundary_pending]
  rfl

/-- A later step that is the next one: its act on the blocks, and the progress that it leaves. -/
theorem atResetStep_progress {step : ResetStep} {g : ResetProgress} {act : State → State}
    {f : ResetProgress → State → ResetProgress} {goes : ResetProgress → State → State}
    (hstate : (s.links.get p).state = .resetting) (hg : (s.links.get p).reset = some g)
    (hgoes : ∀ h u, goes h u = u.onLink p (fun l => { l with reset := some h })) (hnext : g.next = step)
    (hlinks : (act s).links = s.links) :
    atResetStep p step (fun x t => setProgress p (f x t) (act t)) s = goes (f g s) (act s) := by
  rw [atResetStep_next p step _ s g hstate hg hnext, hgoes, setProgress_eq]
  rw [hlinks, hstate]

end

/-- Settles O59: each step by its act on the blocks and the progress it leaves, and none out of turn. -/
theorem aPortResetGivesUpItsContextInSteps : Obligations.APortResetGivesUpItsContextInSteps := by
  refine ⟨fun r s p hr hp hport => ?first, fun p s g goes hstate hg hgoes =>
    ⟨fun hnext => ?sequencer, fun hnext cs m hcs hm => ?compensation, fun hnext => ?compare, fun hnext => ?context,
      fun hnext q hq => ?peers⟩,
    fun p s h => congrArg performed (atResetStep_elsewhere p _ _ s h),
    fun p s h => congrArg performed (atResetStep_elsewhere p _ _ s h),
    fun p s h => congrArg performed (atResetStep_elsewhere p _ _ s h),
    fun p s h => congrArg performed (atResetStep_elsewhere p _ _ s h),
    fun p s h => congrArg performed (atResetStep_elsewhere p _ _ s h)⟩
  case first =>
    subst hport
    exact ⟨_, exec_portReset hr hp, resetCaptures_ownRing, fun q hq => resetCaptures_otherRing hq⟩
  case sequencer =>
    have hlinks : (resetClaim p s).links = s.links := (boundary_kept (resetClaim_withBoundary · · p) s).1
    refine ⟨resetClaim p s, ?_, resetClaim_other, resetClaim_own⟩
    rw [← claimOutcome_eq]
    exact congrArg performed (atResetStep_progress hstate hg hgoes hnext hlinks)
  case compensation =>
    obtain rfl : cs = s.timedPins p Chan.all := hcs
    obtain rfl : appliedBetween s (resetPins p s) = m := mask_ext fun c => by
      rw [hm, appliedBetween_has]
      rfl
    exact congrArg performed (atResetStep_progress hstate hg hgoes hnext (removePins_links _ _ s))
  case compare =>
    rw [← resetPoints_owned]
    exact congrArg performed (atResetStep_progress (act := resetPoints p) hstate hg hgoes hnext rfl)
  case context => exact congrArg performed (atResetStep_progress (act := resetContext p) hstate hg hgoes hnext rfl)
  case peers =>
    refine congrArg performed ((atResetStep_next p _ _ s g hstate hg hnext).trans ?_)
    have htag : (s.links.get p).tagInProgress = q.tag := by rw [Link.tagInProgress, hq]; rfl
    rw [htag, resetProgress_bytes]
    rfl

end Sys2Proof.Machine
end

section
/-! PROOFS. The queue of waiting commands: a step takes its front command, and no command touches what waits behind it
(log entries 16 and 25). -/

namespace Sys2Proof.Machine

/-- Settles O1: the step of a queue with a front command is the first branch of its match. -/
theorem aStepPerformsTheFrontCommand : Obligations.AStepPerformsTheFrontCommand := by
  intro c rest s hqueue
  rw [step, hqueue]

/-- What a command does to the blocks and the client ports, it does beside the queue. -/
theorem Acts.pending {s t : State} (h : Acts s t) : t.pending = s.pending := by
  obtain ⟨_, u, L', _, rfl⟩ := h
  exact withBoundary_pending u L' s.pending

/-- Settles O3: by `exec_acts` a command acts beside the queue, or is the device reset, which hands the queue on. -/
theorem everyCommandCompletesAndKeepsTheQueue : Obligations.EveryCommandCompletesAndKeepsTheQueue := by
  intro i s
  obtain ⟨t, hexec, hacts | hreset⟩ := exec_acts i s
  · exact ⟨t, hexec, hacts.pending⟩
  · exact ⟨t, hexec, by rw [hreset]⟩

end Sys2Proof.Machine
end
